-- ==== Sys2Proof/Word.lean ====
section
/-! DEFINITION. The two widths the spec gives names to: the byte of memory (20_memory.md R60) and the 32-bit
register (00_scope.md R7). A byte address is a 32-bit word where it sits in a register and a natural number where
the engine computes with it (00_scope.md R9: pseudocode arithmetic is on mathematical integers). -/
namespace Sys2Proof

/-- One byte of memory (20_memory.md R60). -/
abbrev Byte := BitVec 8

/-- One 32-bit register (10_state.md R20) or byte address (00_scope.md R7, "address width 32 bits"). -/
abbrev Word := BitVec 32

end Sys2Proof
end

