-- ==== Sys2Proof/Syntax.lean ====
section
/-! DEFINITION. The commands of CORE: one constructor per row of spec/opcode_table.json (30_encoding.md R83). A
command carries the fields its OP uses, and nothing else: every other operand comes from a register (R84). FMT and
SWZ are kept as the 4-bit codes of the word, because the codes that name no format or mode are legal fields of a
command that runs and ends with UnsupportedFormat (R81, R82, R85). -/
namespace Sys2Proof

/-- One command of CORE (30_encoding.md R83). `fmt` is FMT (bits 11:8), `swz` is SWZ (bits 15:12), `pad` is PAD
(bit 16) of the command word (R80). -/
inductive Instr where
  /-- NOP, OP 0x00 (60_exceptions.md R340). -/
  | nop
  /-- ETC1.DEC, OP 0x01 (43_etc1.md R245). -/
  | etc1Dec (fmt : BitVec 4)
  /-- ETC1.ENC, OP 0x02 (43_etc1.md R275). -/
  | etc1Enc (fmt : BitVec 4)
  /-- SWZ.ADDR, OP 0x08 (44_swizzle.md R296). -/
  | swzAddr (swz : BitVec 4)
  /-- TEX.DIM, OP 0x09 (44_swizzle.md R297). -/
  | texDim (swz : BitVec 4) (pad : Bool)
  /-- LZ10.DEC, OP 0x10 (40_decompressors.md R117). -/
  | lz10Dec
  /-- LZ11.DEC, OP 0x11 (40_decompressors.md R121). -/
  | lz11Dec
  /-- RLE.DEC, OP 0x12 (40_decompressors.md R124). -/
  | rleDec
  /-- CONT.DEC, OP 0x13 (40_decompressors.md R127). -/
  | contDec
  /-- HUFF4.DEC, OP 0x14 (41_huffman.md R168). -/
  | huff4Dec
  /-- HUFF8.DEC, OP 0x15 (41_huffman.md R169). -/
  | huff8Dec
  /-- PIX.DEC, OP 0x20 (42_pixel_format.md R200). -/
  | pixDec (fmt : BitVec 4)
  /-- PIX.ENC, OP 0x21 (42_pixel_format.md R201). -/
  | pixEnc (fmt : BitVec 4)
  /-- TEX.DEC, OP 0x30 (44_swizzle.md R300). -/
  | texDec (fmt swz : BitVec 4) (pad : Bool)
  /-- TEX.ENC, OP 0x31 (44_swizzle.md R301). -/
  | texEnc (fmt swz : BitVec 4) (pad : Bool)
  deriving DecidableEq, Repr

/-- Does the command have an input and an output buffer? The "input" and "output" columns of 30_encoding.md R83:
NOP, SWZ.ADDR and TEX.DIM have neither, every other command has both. -/
def Instr.usesBuffers : Instr → Bool
  | .nop | .swzAddr _ | .texDim _ _ => false
  | .etc1Dec _ | .etc1Enc _ | .lz10Dec | .lz11Dec | .rleDec | .contDec | .huff4Dec | .huff8Dec => true
  | .pixDec _ | .pixEnc _ | .texDec _ _ _ | .texEnc _ _ _ => true

end Sys2Proof
end

