-- ==== Sys2Proof/Decode.lean ====
section
/-! DEFINITION. The command word (30_encoding.md R80, R83, R85): a decoder that is total on every 32-bit word and
rejects by name, and the encoder. CORE fetches no instructions (20_memory.md R74): the word is the contents of the
CMD register, so no byte order enters. -/
namespace Sys2Proof

/-- Why a command word names no command (check 1 of 30_encoding.md R85). All of these end the command with
IllegalCommand (60_exceptions.md R322). -/
inductive DecodeError where
  /-- CMD[31:17] is not 0. -/
  | reservedBits
  /-- OP is none of the values of R83. -/
  | reservedOp
  /-- FMT is not 0 and the OP does not use it. -/
  | unusedFmt
  /-- SWZ is not 0 and the OP does not use it. -/
  | unusedSwz
  /-- PAD is not 0 and the OP does not use it. -/
  | unusedPad
  deriving DecidableEq, Repr

/-- OP, bits 7:0 (R80). -/
def opField (w : Word) : BitVec 8 := w.extractLsb' 0 8
/-- FMT, bits 11:8 (R80). -/
def fmtField (w : Word) : BitVec 4 := w.extractLsb' 8 4
/-- SWZ, bits 15:12 (R80). -/
def swzField (w : Word) : BitVec 4 := w.extractLsb' 12 4
/-- PAD, bit 16 (R80). -/
def padField (w : Word) : Bool := w.getLsbD 16
/-- The reserved bits 31:17 (R80: "must be 0"). -/
def reservedField (w : Word) : BitVec 15 := w.extractLsb' 17 15

/-- A command whose OP uses no field: FMT, SWZ and PAD must be 0 (R83, R85). -/
def takesNone (w : Word) (i : Instr) : Except DecodeError Instr :=
  if fmtField w ≠ 0 then .error .unusedFmt
  else if swzField w ≠ 0 then .error .unusedSwz
  else if padField w then .error .unusedPad
  else .ok i

/-- A command whose OP uses FMT alone (R83, R85). -/
def takesFmt (w : Word) (i : BitVec 4 → Instr) : Except DecodeError Instr :=
  if swzField w ≠ 0 then .error .unusedSwz
  else if padField w then .error .unusedPad
  else .ok (i (fmtField w))

/-- A command whose OP uses SWZ alone (R83, R85). -/
def takesSwz (w : Word) (i : BitVec 4 → Instr) : Except DecodeError Instr :=
  if fmtField w ≠ 0 then .error .unusedFmt
  else if padField w then .error .unusedPad
  else .ok (i (swzField w))

/-- A command whose OP uses SWZ and PAD (R83, R85). -/
def takesSwzPad (w : Word) (i : BitVec 4 → Bool → Instr) : Except DecodeError Instr :=
  if fmtField w ≠ 0 then .error .unusedFmt
  else .ok (i (swzField w) (padField w))

/-- The command word's meaning (30_encoding.md R83, R85 check 1): the command, or the reason it is illegal. -/
def decode (w : Word) : Except DecodeError Instr :=
  if reservedField w ≠ 0 then .error .reservedBits
  else match (opField w).toNat with
    | 0x00 => takesNone w .nop
    | 0x01 => takesFmt w .etc1Dec
    | 0x02 => takesFmt w .etc1Enc
    | 0x08 => takesSwz w .swzAddr
    | 0x09 => takesSwzPad w .texDim
    | 0x10 => takesNone w .lz10Dec
    | 0x11 => takesNone w .lz11Dec
    | 0x12 => takesNone w .rleDec
    | 0x13 => takesNone w .contDec
    | 0x14 => takesNone w .huff4Dec
    | 0x15 => takesNone w .huff8Dec
    | 0x20 => takesFmt w .pixDec
    | 0x21 => takesFmt w .pixEnc
    | 0x30 => .ok (.texDec (fmtField w) (swzField w) (padField w))
    | 0x31 => .ok (.texEnc (fmtField w) (swzField w) (padField w))
    | _ => .error .reservedOp

/-- A command word from its fields (30_encoding.md R80): reserved bits 0, PAD, SWZ, FMT, OP, from the top. -/
def commandWord (op : BitVec 8) (fmt swz : BitVec 4) (pad : Bool) : Word :=
  0#15 ++ BitVec.ofBool pad ++ swz ++ fmt ++ op

/-- The command word of a command (30_encoding.md R83): the fields its OP does not use are 0. -/
def encode : Instr → Word
  | .nop => commandWord 0x00 0 0 false
  | .etc1Dec fmt => commandWord 0x01 fmt 0 false
  | .etc1Enc fmt => commandWord 0x02 fmt 0 false
  | .swzAddr swz => commandWord 0x08 0 swz false
  | .texDim swz pad => commandWord 0x09 0 swz pad
  | .lz10Dec => commandWord 0x10 0 0 false
  | .lz11Dec => commandWord 0x11 0 0 false
  | .rleDec => commandWord 0x12 0 0 false
  | .contDec => commandWord 0x13 0 0 false
  | .huff4Dec => commandWord 0x14 0 0 false
  | .huff8Dec => commandWord 0x15 0 0 false
  | .pixDec fmt => commandWord 0x20 fmt 0 false
  | .pixEnc fmt => commandWord 0x21 fmt 0 false
  | .texDec fmt swz pad => commandWord 0x30 fmt swz pad
  | .texEnc fmt swz pad => commandWord 0x31 fmt swz pad

/-- The instruction the decoder reads from the `nbits` bits `w`, the bits above `nbits` being 0. A command word is
one 32-bit word (30_encoding.md R80), so nothing longer is a command. -/
def decodeTableWord (nbits w : Nat) : Option Instr :=
  if nbits ≤ 32 then
    match decode (BitVec.ofNat 32 (w % 2 ^ nbits)) with
    | .ok i => some i
    | .error _ => none
  else none

end Sys2Proof
end

