-- ==== Sys2Proof/Config.lean ====
section
/-! DEFINITION. What is fixed for the machine: the constants of the spec that more than one file uses, the OPEN
parameters of 00_scope.md R7 (92_eei_decisions.md P1, P2), and the free values that stand for what the spec leaves
unspecified (93_implementation_defined.md, treatment "any value"). A free value or an OPEN parameter is an opaque
constant: no proof can learn what it is. -/
namespace Sys2Proof.Config

/-- ID, hardwired (10_state.md R21): 0x4345 ("CE") above the revision 0x0007. -/
def idValue : Word := 0x43450007#32

/-- Number of byte addresses (20_memory.md R60). -/
def addressSpace : Nat := 2 ^ 32

/-- Size of the register window in bytes (10_state.md R20). -/
def windowSize : Nat := 256

/-- The largest texture width and height (44_swizzle.md R290). -/
def maxDimension : Nat := 32768

/-- The sub-block error above which the ETC1 search widens (43_etc1.md R268). -/
def widenThreshold : Nat := 9000

/-- REG_BASE / 256, OPEN (92_eei_decisions.md P1): REG_BASE is a multiple of 256 fixed by the platform
(10_state.md R20). State.reset carries this value in State.platform; assumption log entry 2. -/
opaque regPage : BitVec 24

/-- ZERO_ALPHA_RGB, OPEN (92_eei_decisions.md P2). DESIGN CHOICE, log entry 2: R in bits 23:16, G in 15:8, B in 7:0. -/
opaque zeroAlphaRgb : BitVec 24

/-- Free byte for the address `a`, drawn at count `n` (93_implementation_defined.md I4, I7). Log entries 6, 7. -/
opaque freeByte : (n a : Nat) → Byte

/-- Free 32-bit word `k` drawn at count `n` (93_implementation_defined.md I7). Log entries 6, 7. -/
opaque freeWord : (n k : Nat) → Word

/-- Free error code, one of the six of 60_exceptions.md R321, drawn at count `n` (93_implementation_defined.md I4,
I7). Log entries 6, 7. -/
opaque freeCode : (n : Nat) → Fin 6

/-- Free choice for the address `a`, drawn at count `n`: does the byte hold the value the command would have
written (true) or its old value (false)? (93_implementation_defined.md I5, I6). Log entries 8, 9. -/
opaque freeChoice : (n a : Nat) → Bool

end Sys2Proof.Config
end

