-- ==== Sys2Proof/Machine/State.lean ====
section
/-! DEFINITION. Everything the spec gives the machine, as plain data: the register block (10_state.md R20 to R29),
the byte memory (20_memory.md R60), the platform's parameters (00_scope.md R7), and three pieces that are the
model's own: the accesses still to come from the host and the other bus masters, the buffers that the host must not
touch yet (70_reset_and_hazards.md R361), and the count from which free values are drawn. -/
namespace Sys2Proof.Machine

/-- The five errors a command can end with (60_exceptions.md R321). -/
inductive Err where
  /-- Code 1: the stream cannot give its declared length. -/
  | corruptStream
  /-- Code 2: an unrecognised format, mode, tag or method. -/
  | unsupportedFormat
  /-- Code 3: an operand value the command cannot accept. -/
  | invalidParameter
  /-- Code 4: a command word that names no command. -/
  | illegalCommand
  /-- Code 5: the platform rejected a memory access of CORE. -/
  | busFault
  deriving DecidableEq, Repr

/-- CTRL (10_state.md R22). Only IRQ_EN is stored: SOFT_RESET and the reserved bits read 0. -/
structure Ctrl where
  /-- IRQ_EN, bit 0. -/
  irqEn : Bool
  deriving DecidableEq, Repr

/-- STATUS (10_state.md R23). Only its fields are stored: the reserved bits read 0. `errCode` is ERR_CODE; `none` is
code 0, and the codes 6 to 15, which are never produced (93_implementation_defined.md I12), cannot be written down. -/
structure Status where
  /-- BUSY, bit 0: a command is in flight. -/
  busy : Bool
  /-- DONE, bit 1: a command has ended. -/
  done : Bool
  /-- ERROR, bit 2: it ended with an error. -/
  error : Bool
  /-- WBUSY, bit 3: a host write was lost. -/
  wbusy : Bool
  /-- ERR_CODE, bits 11:8. -/
  errCode : Option Err
  deriving DecidableEq, Repr

/-- The thirteen registers of the block (10_state.md R20). -/
inductive Reg where
  | id | ctrl | status | cmd | srcAddr | srcLen | dstAddr | dstLen | param0 | param1 | result0 | result1 | errInfo
  deriving DecidableEq, Repr

/-- Memory as a list of (address, byte), in the canonical form of `Memory.wf`: addresses rising, no byte 0, since an
address that is not listed reads as 0. -/
abbrev Memory := List Host.Cell

/-- A buffer: the bytes at `addr`, …, `addr + len - 1` (10_state.md R25, R26). -/
structure Buffer where
  addr : Nat
  len : Nat
  deriving DecidableEq, Repr

/-- The direction of a memory access of CORE (00_scope.md R7, BUS_FAULT). -/
inductive Direction where
  | read
  | write
  deriving DecidableEq, Repr

/-- The accesses in one direction to the addresses `lo` to `hi` that the platform rejects (20_memory.md R69). -/
structure Rejection where
  lo : Nat
  hi : Nat
  dir : Direction
  deriving DecidableEq, Repr

/-- The platform around CORE, fixed while the machine runs: the OPEN parameters of 00_scope.md R7 and the places
where memory is no plain RAM (20_memory.md R68). No step changes it. -/
structure Platform where
  /-- REG_BASE / 256 (10_state.md R20: REG_BASE is a multiple of 256). -/
  regPage : BitVec 24
  /-- ZERO_ALPHA_RGB (42_pixel_format.md R199). DESIGN CHOICE, log entry 2: R in bits 23:16, G in 15:8, B in 7:0. -/
  zeroAlphaRgb : BitVec 24
  /-- BUS_FAULT, as the accesses it is true of (20_memory.md R69). -/
  busFault : List Rejection
  /-- The devices whose reads have side effects or differ when repeated (20_memory.md R68,
  93_implementation_defined.md I4). -/
  devices : List Buffer
  deriving DecidableEq, Repr

/-- The size of a host access to the register window (10_state.md R20). -/
inductive AccessWidth where
  | byte
  | half
  | word
  deriving DecidableEq, Repr

/-- One move of the interleaving of 10_state.md R40: a host step, an access of another bus master, the platform's
reset input, or the engine's turn. -/
inductive Event where
  /-- A host write to the register window, at a byte offset (10_state.md R20). -/
  | regWrite (offset : BitVec 8) (width : AccessWidth) (value : Word)
  /-- A host read from the register window, at a byte offset (10_state.md R20). -/
  | regRead (offset : BitVec 8) (width : AccessWidth)
  /-- The host or another bus master writes one byte of memory (10_state.md R40; 20_memory.md R68). -/
  | memWrite (addr : Word) (value : Byte)
  /-- The host or another bus master reads one byte of memory. -/
  | memRead (addr : Word)
  /-- The host samples the IRQ output and takes the interrupt if it is asserted (60_exceptions.md R330). -/
  | takeInterrupt
  /-- The platform's reset input (70_reset_and_hazards.md R350). -/
  | resetInput
  /-- The engine takes its step, if a command is in flight. -/
  | engine
  deriving DecidableEq, Repr

/-- The buffers of a started command, which the host must not touch until it has seen DONE
(70_reset_and_hazards.md R361). `disturbed`: it touched them all the same. -/
structure Window where
  input : Buffer
  output : Buffer
  disturbed : Bool
  deriving DecidableEq, Repr

/-- The state of CORE and its memory (10_state.md R42), with the platform's parameters and the model's own fields. -/
structure State where
  /-- CTRL (10_state.md R22). -/
  ctrl : Ctrl
  /-- STATUS (10_state.md R23). -/
  status : Status
  /-- CMD (10_state.md R24). -/
  cmd : Word
  /-- SRC_ADDR (10_state.md R25). -/
  srcAddr : Word
  /-- SRC_LEN (10_state.md R25). -/
  srcLen : Word
  /-- DST_ADDR (10_state.md R26). -/
  dstAddr : Word
  /-- DST_LEN (10_state.md R26). -/
  dstLen : Word
  /-- PARAM0 (10_state.md R27). -/
  param0 : Word
  /-- PARAM1 (10_state.md R27). -/
  param1 : Word
  /-- RESULT0 (10_state.md R28). -/
  result0 : Word
  /-- RESULT1 (10_state.md R28). -/
  result1 : Word
  /-- ERR_INFO (10_state.md R29). -/
  errInfo : Word
  /-- The byte memory (20_memory.md R60). -/
  mem : Memory
  /-- The platform's parameters (00_scope.md R7); no step changes them. -/
  platform : Platform
  /-- The model's own: the moves still to come, the next one first. Empty: the engine moves while BUSY = 1, and
  nothing happens otherwise. Log entry 1. -/
  agenda : List Event
  /-- The model's own: the buffers the host must not touch yet, the latest command's first. Log entry 6. -/
  windows : List Window
  /-- The model's own: what the last host read returned. Log entry 3. -/
  readData : Word
  /-- The model's own: how often free values have been drawn. Log entry 5. -/
  draws : Nat
  deriving DecidableEq, Repr

/-- The reasons the machine stops with a fault: none. Every error of 60_exceptions.md R321 ends a command and leaves
CORE running (R320), so a step never faults. -/
inductive Fault where
  deriving DecidableEq, Repr

/-- The reasons a step has no meaning. -/
inductive Refusal where
  /-- Raised by an arm of `exec` for a command that has no meaning yet; no arm raises it. Safe. -/
  | notModelled (mnemonic : String)
  /-- Raised by a host access to the register window that is not an aligned 32-bit read or write: the spec leaves its
  effect to the platform "and a model refuses such an access" (10_state.md R20; 93_implementation_defined.md I3).
  Safe. -/
  | registerAccessShape
  deriving DecidableEq, Repr

/-- The machine right after reset (70_reset_and_hazards.md R352): every register 0, IRQ off, no command, and memory
with nothing listed. The platform's parameters are the OPEN ones of Config, with BUS_FAULT "never", its default, and
plain RAM everywhere. -/
def State.reset : State where
  ctrl := { irqEn := false }
  status := { busy := false, done := false, error := false, wbusy := false, errCode := none }
  cmd := 0
  srcAddr := 0
  srcLen := 0
  dstAddr := 0
  dstLen := 0
  param0 := 0
  param1 := 0
  result0 := 0
  result1 := 0
  errInfo := 0
  mem := []
  platform :=
    { regPage := Config.regPage, zeroAlphaRgb := Config.zeroAlphaRgb, busFault := [], devices := [] }
  agenda := []
  windows := []
  readData := 0
  draws := 0

end Sys2Proof.Machine
end

