-- ==== Sys2Proof/Machine/Flags.lean ====
section
/-! DEFINITION. The status and control words: their fields' places (10_state.md R22, R23), every rule that sets or
clears a STATUS bit (10_state.md R23, R24, R41; 60_exceptions.md R325; 70_reset_and_hazards.md R360), the error
codes (60_exceptions.md R321) and the interrupt output (60_exceptions.md R330). -/
namespace Sys2Proof.Machine

/-- The error's code (60_exceptions.md R321). -/
def Err.code : Err → BitVec 4
  | .corruptStream => 1
  | .unsupportedFormat => 2
  | .invalidParameter => 3
  | .illegalCommand => 4
  | .busFault => 5

/-- ERR_CODE (10_state.md R23): 0 where there is no error. -/
def errCodeField : Option Err → BitVec 4
  | none => 0
  | some e => e.code

/-- The end status with a given code among 0 to 5 (60_exceptions.md R321). -/
def errOfCode : Fin 6 → Option Err
  | 0 => none
  | 1 => some .corruptStream
  | 2 => some .unsupportedFormat
  | 3 => some .invalidParameter
  | 4 => some .illegalCommand
  | 5 => some .busFault

/-- STATUS as the host reads it (10_state.md R23): ERR_CODE in bits 11:8, WBUSY, ERROR, DONE, BUSY in bits 3 to 0,
every other bit 0. -/
def Status.toWord (st : Status) : Word :=
  0#20 ++ errCodeField st.errCode ++ 0#4 ++ BitVec.ofBool st.wbusy ++ BitVec.ofBool st.error
    ++ BitVec.ofBool st.done ++ BitVec.ofBool st.busy

/-- CTRL as the host reads it (10_state.md R22): IRQ_EN in bit 0, every other bit 0. -/
def Ctrl.toWord (c : Ctrl) : Word := 0#31 ++ BitVec.ofBool c.irqEn

/-- STATUS at a command's start (10_state.md R24): BUSY set; DONE, ERROR and ERR_CODE cleared; WBUSY stays. -/
def Status.start (st : Status) : Status :=
  { st with busy := true, done := false, error := false, errCode := none }

/-- STATUS at a command's end (10_state.md R41): DONE set, BUSY cleared, ERROR and ERR_CODE as the end says; WBUSY
stays. -/
def Status.finish (st : Status) (e : Option Err) : Status :=
  { st with busy := false, done := true, error := e.isSome, errCode := e }

/-- STATUS after a host write of `v` (10_state.md R23): a 1 in bit 1, 2 or 3 clears DONE, ERROR or WBUSY; nothing
else changes, and no bit is set. -/
def Status.acknowledge (st : Status) (v : Word) : Status :=
  { st with
    done := st.done && !v.getLsbD 1
    error := st.error && !v.getLsbD 2
    wbusy := st.wbusy && !v.getLsbD 3 }

/-- STATUS after a lost host write (70_reset_and_hazards.md R360). -/
def Status.lostWrite (st : Status) : Status := { st with wbusy := true }

/-- The interrupt output (60_exceptions.md R330, R331): IRQ = CTRL.IRQ_EN and (STATUS.DONE or STATUS.ERROR). It has no
state of its own. -/
def State.irq (s : State) : Bool := s.ctrl.irqEn && (s.status.done || s.status.error)

end Sys2Proof.Machine
end

