-- ==== Sys2Proof/Machine/Memory.lean ====
section
/-! DEFINITION. The byte memory (20_memory.md R60): reading and writing one byte, the canonical form, and the two
ways in which the bytes of a buffer can be left open (93_implementation_defined.md I4 to I7). -/
namespace Sys2Proof.Machine

/-- The byte at `a`. An address that is not listed reads as 0: the spec leaves memory at power-on to the platform
(70_reset_and_hazards.md R352, 93_implementation_defined.md I19). DESIGN CHOICE, log entry 4. -/
def Memory.read : Memory → Nat → Byte
  | [], _ => 0
  | (b, v) :: m, a => if b = a then v else Memory.read m a

/-- The memory with nothing listed at `a`. -/
def Memory.erase (m : Memory) (a : Nat) : Memory :=
  m.filter fun c => !decide (c.1 = a)

/-- The memory with the cell `(a, v)` listed before the first higher address. -/
def Memory.insert : Memory → Nat → Byte → Memory
  | [], a, v => [(a, v)]
  | c :: m, a, v => if a < c.1 then (a, v) :: c :: m else c :: Memory.insert m a v

/-- The memory with `v` at `a` and every other byte as before (20_memory.md R62). -/
def Memory.write (m : Memory) (a : Nat) (v : Byte) : Memory :=
  if v = 0 then Memory.erase m a else Memory.insert (Memory.erase m a) a v

/-- Every listed address is above `lo`, the addresses rise, no listed byte is 0. -/
def Memory.sortedAbove : Option Nat → Memory → Bool
  | _, [] => true
  | lo, (a, v) :: m => (lo.all fun l => decide (l < a)) && !decide (v = 0) && Memory.sortedAbove (some a) m

/-- The canonical form: addresses strictly rising, and no entry equal to what an unlisted address reads as. -/
def Memory.wf (m : Memory) : Bool := Memory.sortedAbove none m

/-- The memory with `f b` at each address `b` of `a`, …, `a + len - 1`. -/
def Memory.fill (f : Nat → Byte) : (len a : Nat) → Memory → Memory
  | 0, _, m => m
  | len + 1, a, m => Memory.fill f len (a + 1) (Memory.write m a (f a))

/-- The memory with, at each address `b` of `a`, …, `a + len - 1`, the byte of `ideal` where `pick b`, and its own
byte elsewhere. -/
def Memory.mix (pick : Nat → Bool) (ideal : Memory) : (len a : Nat) → Memory → Memory
  | 0, _, m => m
  | len + 1, a, m =>
    Memory.mix pick ideal len (a + 1) (if pick a then Memory.write m a (Memory.read ideal a) else m)

/-- Is the address one of the buffer's bytes? -/
def Buffer.has (b : Buffer) (a : Nat) : Bool := decide (b.addr ≤ a) && decide (a < b.addr + b.len)

/-- Do two buffers share a byte? A buffer of length 0 is empty and meets nothing (20_memory.md R65). -/
def Buffer.meets (b c : Buffer) : Bool :=
  !decide (b.len = 0) && !decide (c.len = 0) && decide (b.addr < c.addr + c.len) && decide (c.addr < b.addr + b.len)

/-- Does the buffer run past the top of the address space (20_memory.md R65)? -/
def Buffer.wraps (b : Buffer) : Bool := decide (Config.addressSpace < b.addr + b.len)

/-- The register window, 256 bytes at REG_BASE (10_state.md R20). -/
def Platform.registerWindow (p : Platform) : Buffer :=
  { addr := Config.windowSize * p.regPage.toNat, len := Config.windowSize }

/-- BUS_FAULT: does the platform reject this access of CORE (20_memory.md R69)? -/
def Platform.rejects (p : Platform) (a : Nat) (d : Direction) : Bool :=
  p.busFault.any fun r => decide (r.dir = d) && decide (r.lo ≤ a) && decide (a ≤ r.hi)

/-- Is the address a byte of memory, that is, in the address space and outside the register window? -/
def Platform.isMemory (p : Platform) (a : Nat) : Bool :=
  decide (a < Config.addressSpace) && !p.registerWindow.has a

end Sys2Proof.Machine
end

