-- ==== Sys2Proof/Machine/Ops.lean ====
section
/-! DEFINITION. The named operations every command is written with: the engine's memory port, its input cursor and
its output count (20_memory.md R61, R62, R66, R67), the end of a command with success or with an error
(10_state.md R41; 60_exceptions.md R325, R326), and the acknowledgement (60_exceptions.md R329).

CORE takes no trap (60_exceptions.md R332): an error ends its command, and `State.endWithError` is that one shared
operation. There is no return instruction (R329): `State.acknowledge` is what stands in its place. -/
namespace Sys2Proof.Machine

/-- What a command reads besides memory: the operand registers, zero-extended (30_encoding.md R84), and the
platform. -/
structure Env where
  src : Nat
  srcLen : Nat
  dst : Nat
  dstLen : Nat
  param0 : Nat
  param1 : Nat
  platform : Platform
  deriving DecidableEq, Repr

/-- The input buffer (10_state.md R25). -/
def Env.input (env : Env) : Buffer := { addr := env.src, len := env.srcLen }

/-- The output buffer (10_state.md R26). -/
def Env.output (env : Env) : Buffer := { addr := env.dst, len := env.dstLen }

/-- The same command on a platform that rejects no access. -/
def Env.withoutBusFaults (env : Env) : Env := { env with platform := { env.platform with busFault := [] } }

/-- The operands of the command that runs in `s`. -/
def State.env (s : State) : Env where
  src := s.srcAddr.toNat
  srcLen := s.srcLen.toNat
  dst := s.dstAddr.toNat
  dstLen := s.dstLen.toNat
  param0 := s.param0.toNat
  param1 := s.param1.toNat
  platform := s.platform

/-- The engine's working state inside one command (10_state.md R33): the memory as it stands, `in.pos`, and the number
of output bytes stored so far, which is `out.len` for the commands that append. -/
structure Work where
  mem : Memory
  inPos : Nat
  stored : Nat
  deriving DecidableEq, Repr

/-- The working state at command start (10_state.md R33: "created empty at command start"). -/
def Work.start (m : Memory) : Work := { mem := m, inPos := 0, stored := 0 }

/-- What `raise E(info)` carries (00_scope.md R10). -/
structure Raise where
  err : Err
  info : Nat
  deriving DecidableEq, Repr

/-- A piece of a command: it changes the working state and either yields a value or ends the command with an error;
what was stored before the error stays (60_exceptions.md R326). -/
abbrev Eng (α : Type) := ExceptT Raise (StateM Work) α

/-- `raise E(info)` (00_scope.md R10; 60_exceptions.md R325). -/
def raise {α : Type} (e : Err) (info : Nat) : Eng α := throw { err := e, info := info }

/-- Read one byte of memory as CORE, which is BusFault where the platform rejects it (20_memory.md R61, R69). -/
def readByte (env : Env) (a : Nat) : Eng Nat := do
  if env.platform.rejects a .read then raise .busFault a
  else
    let w ← get
    return (w.mem.read a).toNat

/-- `MemRead(a, n)`: n bytes, little-endian (20_memory.md R61, R69). DESIGN CHOICE, log entry 16: the byte at the lowest
address is accessed first, which shows only in which of several rejected bytes ERR_INFO names; R61, R68 and R69 give no
order inside a MemRead. -/
def memRead (env : Env) (a : Nat) : Nat → Eng Nat
  | 0 => pure 0
  | n + 1 => do
    let low ← readByte env a
    let high ← memRead env (a + 1) n
    return low + 256 * high

/-- Store one byte of output as CORE, which is BusFault where the platform rejects it (20_memory.md R62, R69). -/
def storeByte (env : Env) (a v : Nat) : Eng Unit := do
  if env.platform.rejects a .write then raise .busFault a
  else modify fun w => { w with mem := w.mem.write a (BitVec.ofNat 8 v), stored := w.stored + 1 }

/-- `MemWrite(a, n, v)`: n bytes, little-endian (20_memory.md R62, R69). DESIGN CHOICE, log entry 16: the byte at the
lowest address is stored first; R62, R68 and R69 give no order inside a MemWrite. The commands write single bytes
only. -/
def memWrite (env : Env) (a : Nat) : (n v : Nat) → Eng Unit
  | 0, _ => pure ()
  | n + 1, v => do
    storeByte env a (v % 256)
    memWrite env (a + 1) n (v / 256)

/-- `in.pos` (20_memory.md R66). -/
def inPos : Eng Nat := do return (← get).inPos

/-- `out.len` (20_memory.md R67). -/
def outLen : Eng Nat := do return (← get).stored

/-- `in.byte()` (20_memory.md R66): CorruptStream at the end of the input. -/
def inByte (env : Env) : Eng Nat := do
  let pos ← inPos
  if env.srcLen ≤ pos then raise .corruptStream pos
  else
    let v ← memRead env (env.src + pos) 1
    modify fun w => { w with inPos := w.inPos + 1 }
    return v

/-- `in.bytes(n)`: n calls of `in.byte()`, little-endian (20_memory.md R66). -/
def inBytes (env : Env) : Nat → Eng Nat
  | 0 => pure 0
  | n + 1 => do
    let low ← inByte env
    let high ← inBytes env n
    return low + 256 * high

/-- `out.append(v)` (20_memory.md R67). -/
def append (env : Env) (v : Nat) : Eng Unit := do
  let len ← outLen
  memWrite env (env.dst + len) 1 v

/-- `out.bytes(v, n)`: n appends, the low byte first (43_etc1.md R250; 42_pixel_format.md R183). -/
def appendBytes (env : Env) (v : Nat) : Nat → Eng Unit
  | 0 => pure ()
  | n + 1 => do
    append env (v % 256)
    appendBytes env (v / 256) n

/-- `out[j]`: read back an output byte (20_memory.md R67, R72). -/
def outByte (env : Env) (j : Nat) : Eng Nat := memRead env (env.dst + j) 1

/-- `repeat n times`. -/
def repeatTimes (body : Eng Unit) : Nat → Eng Unit
  | 0 => pure ()
  | n + 1 => do
    body
    repeatTimes body n

/-- `for j in start .. start + n - 1`. -/
def forFrom (body : Nat → Eng Unit) : (n start : Nat) → Eng Unit
  | 0, _ => pure ()
  | n + 1, j => do
    body j
    forFrom body n (j + 1)

/-- The values of `body j` for j = start, …, start + n - 1, in that order. -/
def collectFrom {α : Type} (body : Nat → Eng α) : (n start : Nat) → Eng (List α)
  | 0, _ => pure []
  | n + 1, j => do
    let x ← body j
    let xs ← collectFrom body n (j + 1)
    return x :: xs

/-- A command's success end (10_state.md R41, R28): its bytes in memory, its results, ERR_INFO 0, DONE. -/
def State.endWithSuccess (s : State) (mem : Memory) (r0 r1 : Nat) : State :=
  { s with
    mem := mem
    status := s.status.finish none
    result0 := BitVec.ofNat 32 r0
    result1 := BitVec.ofNat 32 r1
    errInfo := 0 }

/-- A command's error end (60_exceptions.md R325, R326; 10_state.md R41): the bytes stored so far in memory, RESULT0
their number, RESULT1 0, ERR_INFO the raise's info, DONE, ERROR and ERR_CODE. Nothing else changes. -/
def State.endWithError (s : State) (mem : Memory) (stored : Nat) (r : Raise) : State :=
  { s with
    mem := mem
    status := s.status.finish (some r.err)
    result0 := BitVec.ofNat 32 stored
    result1 := 0
    errInfo := BitVec.ofNat 32 r.info }

/-- The host's acknowledgement (60_exceptions.md R329): a write of `v` to STATUS clears the bits it has 1s for. -/
def State.acknowledge (s : State) (v : Word) : State := { s with status := s.status.acknowledge v }

/-- Free values have been drawn once more. -/
def State.drawn (s : State) : State := { s with draws := s.draws + 1 }

/-- The end of a command whose memory access the platform rejected: an error end, and an implementation that groups its
writes may have stored further bytes of the output buffer, each with the value the command would have written
(60_exceptions.md R326; 93_implementation_defined.md I5). `ideal` is memory as the command would have left it. -/
def State.endWithBusFault (s : State) (w : Work) (r : Raise) (ideal : Memory) : State :=
  (s.endWithError (Memory.mix (Config.freeChoice s.draws) ideal s.dstLen.toNat s.dstAddr.toNat w.mem) w.stored
    r).drawn

/-- The state in which a command's body leaves the machine (10_state.md R41). -/
def State.afterCommand (s : State) (body : Env → Eng (Nat × Nat)) : State :=
  match body s.env (Work.start s.mem) with
  | (.ok (r0, r1), w) => s.endWithSuccess w.mem r0 r1
  | (.error r, w) =>
    match r.err with
    | .busFault => s.endWithBusFault w r (body s.env.withoutBusFaults (Work.start s.mem)).2.mem
    | _ => s.endWithError w.mem w.stored r

/-- The engine step of a command: its whole body, then its end (10_state.md R40, R41). -/
def runCommand (s : State) (body : Env → Eng (Nat × Nat)) : Host.Outcome State Fault Refusal :=
  .next (s.afterCommand body)

end Sys2Proof.Machine
end

