-- ==== Sys2Proof/Machine/Operands.lean ====
section
/-! DEFINITION. The operand forms: bit fields and channel arithmetic (00_scope.md R8, R11, R12), the FMT and SWZ
codes (30_encoding.md R81, R82, R85), the texture dimensions (44_swizzle.md R290), the buffer checks (20_memory.md
R65) and the RGBA pixel record (30_encoding.md R86, R87). -/
namespace Sys2Proof.Machine

/-! ## Bit fields and channels -/

/-- `v[hi:lo]` of a non-negative integer (00_scope.md R8). -/
def bits (v hi lo : Nat) : Nat := (v >>> lo) % 2 ^ (hi + 1 - lo)

/-- `v[i]` as a number (00_scope.md R8). -/
def bitAt (v i : Nat) : Nat := (v >>> i) % 2

/-- `sext3(v)` of a 3-bit v (00_scope.md R8). -/
def sext3 (v : Nat) : Int := if v < 4 then (v : Int) else (v : Int) - 8

/-- `clamp255(v)` (00_scope.md R11). -/
def clamp255 (v : Int) : Int := if v < 0 then 0 else if 255 < v then 255 else v

/-- `x4(v)` of a 4-bit v (00_scope.md R11). -/
def x4 (v : Nat) : Nat := v * 17

/-- `x5(v)` of a 5-bit v (00_scope.md R11). -/
def x5 (v : Nat) : Nat := (v <<< 3) ||| (v >>> 2)

/-- `x6(v)` of a 6-bit v (00_scope.md R11). -/
def x6 (v : Nat) : Nat := (v <<< 2) ||| (v >>> 4)

/-- An RGB colour of integers (00_scope.md R12). -/
structure Rgb where
  r : Int
  g : Int
  b : Int
  deriving DecidableEq, Repr

/-- A function of one channel, channel by channel (00_scope.md R12). -/
def Rgb.map (f : Int → Int) (p : Rgb) : Rgb := { r := f p.r, g := f p.g, b := f p.b }

/-- A function of two channels, channel by channel (00_scope.md R12). -/
def Rgb.zip (f : Int → Int → Int) (p q : Rgb) : Rgb := { r := f p.r q.r, g := f p.g q.g, b := f p.b q.b }

/-- Does every channel satisfy the test? -/
def Rgb.all (f : Int → Bool) (p : Rgb) : Bool := f p.r && f p.g && f p.b

/-- `E(p, q)`, the perceptual error with the weights 2, 4, 3 (00_scope.md R12). -/
def perceptualError (p q : Rgb) : Nat :=
  2 * (p.r - q.r).natAbs ^ 2 + 4 * (p.g - q.g).natAbs ^ 2 + 3 * (p.b - q.b).natAbs ^ 2

/-- The first element of least cost, the element `best` standing before the list (00_scope.md R13: a candidate
replaces the best so far only when its error is strictly less). -/
def firstBest {α : Type} (cost : α → Nat) (best : α) (xs : List α) : α :=
  xs.foldl (fun b x => if cost x < cost b then x else b) best

/-! ## FMT, SWZ and the dimensions -/

/-- The fourteen pixel formats (30_encoding.md R81), in the order of their codes. -/
inductive PixelFormat where
  | rgba8888 | rgb888 | rgba5551 | rgb565 | rgba4444 | la88 | hl88 | l8 | a8 | la44 | l4 | a4 | etc1 | etc1a4
  deriving DecidableEq, Repr

/-- The format a FMT code names; 14 and 15 name none (30_encoding.md R81). -/
def pixelFormatOf (fmt : BitVec 4) : Option PixelFormat :=
  match fmt.toNat with
  | 0 => some .rgba8888
  | 1 => some .rgb888
  | 2 => some .rgba5551
  | 3 => some .rgb565
  | 4 => some .rgba4444
  | 5 => some .la88
  | 6 => some .hl88
  | 7 => some .l8
  | 8 => some .a8
  | 9 => some .la44
  | 10 => some .l4
  | 11 => some .a4
  | 12 => some .etc1
  | 13 => some .etc1a4
  | _ => none

/-- The four swizzle modes (30_encoding.md R82), in the order of their codes. -/
inductive SwizzleMode where
  | default | transposeTile | rotate90 | transpose
  deriving DecidableEq, Repr

/-- The mode a SWZ code names; 4 to 15 name none (30_encoding.md R82). -/
def swizzleModeOf (swz : BitVec 4) : Option SwizzleMode :=
  match swz.toNat with
  | 0 => some .default
  | 1 => some .transposeTile
  | 2 => some .rotate90
  | 3 => some .transpose
  | _ => none

/-- Check 2 of 30_encoding.md R85: UnsupportedFormat(0) where FMT names no format. -/
def takeFormat (fmt : BitVec 4) : Eng PixelFormat :=
  match pixelFormatOf fmt with
  | some f => pure f
  | none => raise .unsupportedFormat 0

/-- Check 3 of 30_encoding.md R85: UnsupportedFormat(0) where SWZ names no mode. -/
def takeMode (swz : BitVec 4) : Eng SwizzleMode :=
  match swizzleModeOf swz with
  | some m => pure m
  | none => raise .unsupportedFormat 0

/-- InvalidParameter(0) where the test fails (60_exceptions.md R321). -/
def require (ok : Bool) : Eng Unit := if ok then pure () else raise .invalidParameter 0

/-- The width in PARAM0[15:0] (30_encoding.md R84). -/
def Env.width (env : Env) : Nat := bits env.param0 15 0

/-- The height in PARAM0[31:16] (30_encoding.md R84). -/
def Env.height (env : Env) : Nat := bits env.param0 31 16

/-- The dimensions are 1 to 32768 each (44_swizzle.md R290). -/
def Env.dimensionsLegal (env : Env) : Bool :=
  !(decide (env.width = 0) || decide (env.height = 0) || decide (Config.maxDimension < env.width)
    || decide (Config.maxDimension < env.height))

/-! ## Buffers -/

/-- None of the three faults of 20_memory.md R65 holds: no buffer wraps, none meets the register window, and the two do
not meet each other. -/
def Env.buffersLegal (env : Env) : Bool :=
  !(env.input.wraps || env.output.wraps || env.input.meets env.platform.registerWindow
    || env.output.meets env.platform.registerWindow || env.input.meets env.output)

/-- `check buffers` (20_memory.md R65): InvalidParameter(0) unless both buffers are legal. -/
def checkBuffers (env : Env) : Eng Unit := require env.buffersLegal

/-! ## Pixel records -/

/-- An RGBA colour of four u8 channels (00_scope.md R12; 30_encoding.md R86). -/
structure Pixel where
  r : Byte
  g : Byte
  b : Byte
  a : Byte
  deriving DecidableEq, Repr

/-- A pixel from channel values below 256. -/
def Pixel.ofNat (r g b a : Nat) : Pixel :=
  { r := BitVec.ofNat 8 r, g := BitVec.ofNat 8 g, b := BitVec.ofNat 8 b, a := BitVec.ofNat 8 a }

/-- The pixel's colour without its alpha. -/
def Pixel.rgb (p : Pixel) : Rgb := { r := p.r.toNat, g := p.g.toNat, b := p.b.toNat }

/-- `ReadPixel(a, n)` (30_encoding.md R86, R87). DEDUCED, log entry 16: the channels are read in the order R86 lists
them. -/
def readPixel (env : Env) (a n : Nat) : Eng Pixel := do
  let r ← memRead env (a + 4 * n) 1
  let g ← memRead env (a + 4 * n + 1) 1
  let b ← memRead env (a + 4 * n + 2) 1
  let alpha ← memRead env (a + 4 * n + 3) 1
  return Pixel.ofNat r g b alpha

/-- `WritePixel(a, n, c)`, in the order R, G, B, A (30_encoding.md R87). -/
def writePixel (env : Env) (a n : Nat) (c : Pixel) : Eng Unit := do
  memWrite env (a + 4 * n) 1 c.r.toNat
  memWrite env (a + 4 * n + 1) 1 c.g.toNat
  memWrite env (a + 4 * n + 2) 1 c.b.toNat
  memWrite env (a + 4 * n + 3) 1 c.a.toNat

/-- Write the pixels as records from `a` on. -/
def writePixels (env : Env) (a : Nat) : (pixels : List Pixel) → (n : Nat) → Eng Unit
  | [], _ => pure ()
  | c :: cs, n => do
    writePixel env a n c
    writePixels env a cs (n + 1)

end Sys2Proof.Machine
end

