-- ==== Sys2Proof/Machine/Huffman.lean ====
section
/-! DEFINITION. The Huffman decoder (41_huffman.md). -/
namespace Sys2Proof.Machine

/-- The decoder's working state (41_huffman.md R164): the current node, the current word, the count of its bits not yet
consumed, the pending nibble, and the number of symbols decoded. -/
structure HuffState where
  node : Nat
  word : Nat
  left : Nat
  pend : Option Nat
  syms : Nat
  deriving DecidableEq, Repr

/-- The working state at the start of a body (41_huffman.md R166): at the root, address 1, with nothing read. -/
def huffStart : HuffState := { node := 1, word := 0, left := 0, pend := none, syms := 0 }

/-- A new 32-bit word is read only when a bit is needed and none is left (41_huffman.md R165). -/
def huffRefill (env : Env) (h : HuffState) : Eng HuffState := do
  if h.left = 0 then
    let word ← inBytes env 4
    return { h with word := word, left := 32 }
  else
    return h

/-- The address of the child that bit `b` selects at the internal node at `a` (41_huffman.md R162): the pair's address
plus b. -/
def huffChild (a node b : Nat) : Nat := (a - a % 2) + 2 * bits node 5 0 + 2 + b

/-- Is the child that bit `b` selects a leaf? node[7] for bit 0, node[6] for bit 1 (41_huffman.md R161). -/
def huffChildIsLeaf (node b : Nat) : Bool := decide ((if b = 0 then bitAt node 7 else bitAt node 6) = 1)

/-- Emit a leaf's symbol (41_huffman.md R163, R166): with 8-bit symbols the whole byte, with 4-bit symbols its low nibble,
two to a byte, the first in the low half. -/
def huffEmit (env : Env) (wide : Bool) (leaf : Nat) (pend : Option Nat) : Eng (Option Nat) := do
  if wide then
    append env leaf
    return none
  else
    match pend with
    | none => return some (bits leaf 3 0)
    | some low =>
      append env (16 * bits leaf 3 0 + low)
      return none

/-- One bit of the walk (41_huffman.md R166, R167): move to the child, which ends a symbol where it is a leaf. -/
def huffStep (env : Env) (wide : Bool) (tree : List Nat) (h : HuffState) : Eng HuffState := do
  let h ← huffRefill env h
  let b := bitAt h.word 31
  let node := tree.getD h.node 0
  let c := huffChild h.node node b
  if tree.length ≤ c then
    raise .corruptStream (← inPos)
  else
    let h := { h with word := (h.word <<< 1) % 2 ^ 32, left := h.left - 1 }
    if huffChildIsLeaf node b then
      let pend ← huffEmit env wide (tree.getD c 0) h.pend
      return { h with node := 1, pend := pend, syms := h.syms + 1 }
    else
      return { h with node := c }

/-- The walk until `nsym` symbols are decoded (41_huffman.md R166). Each round consumes one bit of the input, so the
bound 8 * SRC_LEN + 1 is never reached (41_huffman.md R167: the walk "simply exhausts the input and raises
CorruptStream"). -/
def huffWalk (env : Env) (wide : Bool) (tree : List Nat) (nsym : Nat) : (bound : Nat) → HuffState → Eng Unit
  | 0, h => do
    if h.syms < nsym then raise .corruptStream (← inPos) else pure ()
  | bound + 1, h => do
    if h.syms < nsym then
      let h ← huffStep env wide tree h
      huffWalk env wide tree nsym bound h
    else pure ()

/-- The tree (41_huffman.md R160): the size byte T, then 2T + 1 more bytes. -/
def huffTree (env : Env) : Eng (List Nat) := do
  let size ← inByte env
  let rest ← collectFrom (fun _ => inByte env) (2 * (size + 1) - 1) 1
  return size :: rest

/-- `huff_body(n, w)` (41_huffman.md R166), `wide` for w = 8. -/
def huffBody (env : Env) (n : Nat) (wide : Bool) : Eng Unit := do
  if n = 0 then pure ()
  else
    let tree ← huffTree env
    huffWalk env wide tree (if wide then n else 2 * n) (8 * env.srcLen + 1) huffStart

/-- HUFF4.DEC (41_huffman.md R168). -/
def execHuff4Dec (s : State) : Host.Outcome State Fault Refusal :=
  runCommand s fun env => do
    let n := env.param0
    require (decide (n ≤ env.dstLen))
    checkBuffers env
    huffBody env n false
    return (n, 0)

/-- HUFF8.DEC (41_huffman.md R169). -/
def execHuff8Dec (s : State) : Host.Outcome State Fault Refusal :=
  runCommand s fun env => do
    let n := env.param0
    require (decide (n ≤ env.dstLen))
    checkBuffers env
    huffBody env n true
    return (n, 0)

end Sys2Proof.Machine
end

