-- ==== Sys2Proof/Machine/Decompress.lean ====
section
/-! DEFINITION. The generic decompressors and the container dispatcher (40_decompressors.md). -/
namespace Sys2Proof.Machine

/-- `copyback(disp, len, n)` (40_decompressors.md R112): the displacement check, the overrun check, then the copy, one
byte at a time. -/
def copyback (env : Env) (disp len n : Nat) : Eng Unit := do
  let out ← outLen
  if out < disp then raise .corruptStream (← inPos)
  else if n < out + len then raise .corruptStream (← inPos)
  else
    repeatTimes (do
      let at_ ← outLen
      let v ← outByte env (at_ - disp)
      append env v) len

/-- The two bytes of an LZ10 back-reference, as (displacement, length) (40_decompressors.md R115). -/
def lz10Reference (env : Env) : Eng (Nat × Nat) := do
  let b1 ← inByte env
  let b2 ← inByte env
  return (256 * bits b1 3 0 + b2 + 1, bits b1 7 4 + 3)

/-- The two to four bytes of an LZ11 back-reference, as (displacement, length) (40_decompressors.md R119, R120). -/
def lz11Reference (env : Env) : Eng (Nat × Nat) := do
  let b1 ← inByte env
  match bits b1 7 4 with
  | 0 =>
    let b2 ← inByte env
    let b3 ← inByte env
    return (256 * bits b2 3 0 + b3 + 1, 16 * bits b1 3 0 + bits b2 7 4 + 17)
  | 1 =>
    let b2 ← inByte env
    let b3 ← inByte env
    let b4 ← inByte env
    return (256 * bits b3 3 0 + b4 + 1, 4096 * bits b1 3 0 + 16 * b2 + bits b3 7 4 + 273)
  | ind =>
    let b2 ← inByte env
    return (256 * bits b1 3 0 + b2 + 1, ind + 1)

/-- One token (40_decompressors.md R114): flag bit 0 a literal, 1 a back-reference in the form `reference` reads. -/
def lzToken (env : Env) (reference : Eng (Nat × Nat)) (n flag : Nat) : Eng Unit := do
  if flag = 0 then
    let v ← inByte env
    append env v
  else
    let (disp, len) ← reference
    copyback env disp len n

/-- The tokens of one flag byte, from bit `k - 1` down to bit 0, stopping at the declared length
(40_decompressors.md R111, R114, R116). -/
def lzGroup (env : Env) (reference : Eng (Nat × Nat)) (n flags : Nat) : (k : Nat) → Eng Unit
  | 0 => pure ()
  | k + 1 => do
    let out ← outLen
    if out = n then pure ()
    else
      lzToken env reference n (bitAt flags k)
      lzGroup env reference n flags k

/-- The body of an LZ stream: a flag byte and its tokens while `out.len < n` (40_decompressors.md R116, R120). Each
round appends a byte or raises, so `bound` = n rounds suffice. -/
def lzBody (env : Env) (reference : Eng (Nat × Nat)) (n : Nat) : (bound : Nat) → Eng Unit
  | 0 => pure ()
  | bound + 1 => do
    let out ← outLen
    if out < n then
      let flags ← inByte env
      lzGroup env reference n flags 8
      lzBody env reference n bound
    else pure ()

/-- `lz10_body(n)` (40_decompressors.md R116). -/
def lz10Body (env : Env) (n : Nat) : Eng Unit := lzBody env (lz10Reference env) n n

/-- `lz11_body(n)` (40_decompressors.md R120). -/
def lz11Body (env : Env) (n : Nat) : Eng Unit := lzBody env (lz11Reference env) n n

/-- One flag byte of RLE and what it governs (40_decompressors.md R122, R123). -/
def rleGroup (env : Env) (n : Nat) : Eng Unit := do
  let f ← inByte env
  if bitAt f 7 = 1 then
    let cnt := bits f 6 0 + 3
    let v ← inByte env
    let out ← outLen
    if n < out + cnt then raise .corruptStream (← inPos)
    else repeatTimes (append env v) cnt
  else
    let cnt := bits f 6 0 + 1
    let out ← outLen
    if n < out + cnt then raise .corruptStream (← inPos)
    else
      repeatTimes (do
        let v ← inByte env
        append env v) cnt

/-- Groups while `out.len < n`; each appends a byte or raises, so `bound` = n rounds suffice
(40_decompressors.md R123). -/
def rleLoop (env : Env) (n : Nat) : (bound : Nat) → Eng Unit
  | 0 => pure ()
  | bound + 1 => do
    let out ← outLen
    if out < n then
      rleGroup env n
      rleLoop env n bound
    else pure ()

/-- `rle_body(n)` (40_decompressors.md R123). -/
def rleBody (env : Env) (n : Nat) : Eng Unit := rleLoop env n n

/-- Verbatim copy of n bytes, container method 0 (40_decompressors.md R127). -/
def verbatimBody (env : Env) (n : Nat) : Eng Unit :=
  repeatTimes (do
    let v ← inByte env
    append env v) n

/-- The body of a container method below 5 (40_decompressors.md R126, R127). -/
def containerBody (env : Env) (m n : Nat) : Eng Unit :=
  match m with
  | 0 => verbatimBody env n
  | 1 => lz10Body env n
  | 2 => huffBody env n false
  | 3 => huffBody env n true
  | _ => rleBody env n

/-- InvalidParameter(in.pos) where a header's length exceeds the output buffer (40_decompressors.md R117, R121,
R127). -/
def checkDeclared (env : Env) (n : Nat) : Eng Unit := do
  if env.dstLen < n then raise .invalidParameter (← inPos) else pure ()

/-- LZ10.DEC (40_decompressors.md R117). -/
def execLz10Dec (s : State) : Host.Outcome State Fault Refusal :=
  runCommand s fun env => do
    checkBuffers env
    let tag ← inByte env
    if tag ≠ 0x10 then raise .unsupportedFormat (← inPos)
    else
      let n ← inBytes env 3
      checkDeclared env n
      lz10Body env n
      return (n, 0)

/-- LZ11.DEC (40_decompressors.md R121). -/
def execLz11Dec (s : State) : Host.Outcome State Fault Refusal :=
  runCommand s fun env => do
    checkBuffers env
    let v ← inBytes env 4
    let n := bits v 31 8
    checkDeclared env n
    lz11Body env n
    return (n, 0)

/-- RLE.DEC (40_decompressors.md R124). -/
def execRleDec (s : State) : Host.Outcome State Fault Refusal :=
  runCommand s fun env => do
    let n := env.param0
    require (decide (n ≤ env.dstLen))
    checkBuffers env
    rleBody env n
    return (n, 0)

/-- CONT.DEC (40_decompressors.md R127): the method check comes before the length check. -/
def execContDec (s : State) : Host.Outcome State Fault Refusal :=
  runCommand s fun env => do
    checkBuffers env
    let v ← inBytes env 4
    let m := bits v 2 0
    let n := bits v 31 3
    if 5 ≤ m then raise .unsupportedFormat (← inPos)
    else
      checkDeclared env n
      containerBody env m n
      return (n, m)

end Sys2Proof.Machine
end

