-- ==== Sys2Proof/Machine/Etc1.lean ====
section
/-! DEFINITION. The ETC1 block codec (43_etc1.md): the tables, the decoder, the solid-colour fast path, the bounded
parameter search, and the two block commands. -/
namespace Sys2Proof.Machine

/-! ## Tables -/

/-- The eight modifier tables, one row a table (43_etc1.md R230). -/
def modifierTable : List (List Int) :=
  [ [2, 8, -2, -8],
    [5, 17, -5, -17],
    [9, 29, -9, -29],
    [13, 42, -13, -42],
    [18, 60, -18, -60],
    [24, 80, -24, -80],
    [33, 106, -33, -106],
    [47, 183, -47, -183] ]

/-- `TABLE[t][s]` (43_etc1.md R230, R231). -/
def modifier (t s : Nat) : Int := (modifierTable.getD t []).getD s 0

/-- The pixel permutation order3ds (43_etc1.md R232). -/
def order3dsTable : List Nat := [0, 4, 1, 5, 8, 12, 9, 13, 2, 6, 3, 7, 10, 14, 11, 15]

/-- The block pixel that caller position `k` holds (43_etc1.md R232). -/
def order3ds (k : Nat) : Nat := order3dsTable.getD k 0

/-- The inverse permutation inv3ds (43_etc1.md R232). -/
def inv3dsTable : List Nat := [0, 2, 8, 10, 1, 3, 9, 11, 4, 6, 12, 14, 5, 7, 13, 15]

/-- The caller position of block pixel `i` (43_etc1.md R232). -/
def inv3ds (i : Nat) : Nat := inv3dsTable.getD i 0

/-- The sub-block of block pixel `i`: left or right halves without flip, top or bottom halves with it
(43_etc1.md R233). -/
def subBlock (i : Nat) (flip : Bool) : Nat := if flip then bitAt i 1 else bitAt i 3

/-! ## The block's fields -/

/-- Number of levels of a base colour's channel: the limit L (43_etc1.md R235). -/
def levels (diff : Bool) : Nat := if diff then 32 else 16

/-- `scale_L`: a level as an 8-bit channel (43_etc1.md R235). -/
def scaleLevel (diff : Bool) (q : Nat) : Nat := if diff then x5 q else x4 q

/-- A base colour's levels as an 8-bit colour (43_etc1.md R235). -/
def scaleBase (diff : Bool) (base : Rgb) : Rgb := base.map fun q => scaleLevel diff q.toNat

/-- The base levels of sub-blocks 0 and 1 in one channel byte (43_etc1.md R235). In diff mode a sum outside 0 to 31
wraps modulo 32. -/
def channelBases (diff : Bool) (x : Nat) : Nat × Nat :=
  if diff then (bits x 7 3, (((bits x 7 3 : Int) + sext3 (bits x 2 0)) % 32).toNat)
  else (bits x 7 4, bits x 3 0)

/-- DIFF, W[33] (43_etc1.md R234). -/
def blockDiff (w : Nat) : Bool := decide (bitAt w 33 = 1)

/-- FLIP, W[32] (43_etc1.md R234). -/
def blockFlip (w : Nat) : Bool := decide (bitAt w 32 = 1)

/-- The scaled base colour of sub-block `b` (43_etc1.md R234, R235). -/
def blockColour (w b : Nat) : Rgb :=
  let pick (x : Nat) : Int :=
    let q := channelBases (blockDiff w) x
    scaleLevel (blockDiff w) (if b = 0 then q.1 else q.2)
  { r := pick (bits w 63 56), g := pick (bits w 55 48), b := pick (bits w 47 40) }

/-- The modifier table of sub-block `b`: T0 or T1 (43_etc1.md R234). -/
def blockTable (w b : Nat) : Nat := if b = 0 then bits w 39 37 else bits w 36 34

/-- The selector of block pixel `i`, {MSB[i], LSB[i]} (43_etc1.md R231, R234). -/
def blockSelector (w i : Nat) : Nat := 2 * bitAt w (16 + i) + bitAt w i

/-- A colour plus one offset, clamped channel by channel (00_scope.md R12; 43_etc1.md R237). -/
def shade (c : Rgb) (m : Int) : Rgb := c.map fun v => clamp255 (v + m)

/-- The decoded colour of block pixel `i` (43_etc1.md R237). -/
def blockPixelColour (w i : Nat) : Rgb :=
  let b := subBlock i (blockFlip w)
  shade (blockColour w b) (modifier (blockTable w b) (blockSelector w i))

/-- The decoded alpha of block pixel `i`: nibble i of the alpha plane times 17, or 255 without one
(43_etc1.md R236, R237). -/
def blockPixelAlpha (aw : Option Nat) (i : Nat) : Nat :=
  match aw with
  | none => 255
  | some aw => x4 (bits aw (4 * i + 3) (4 * i))

/-- The pixel at block pixel `i` of the block (43_etc1.md R237). -/
def blockPixel (w : Nat) (aw : Option Nat) (i : Nat) : Pixel :=
  let c := blockPixelColour w i
  Pixel.ofNat c.r.toNat c.g.toNat c.b.toNat (blockPixelAlpha aw i)

/-- The 16 pixels of a block in caller order (43_etc1.md R238). -/
def decodeBlock (w : Nat) (aw : Option Nat) : List Pixel :=
  (List.range 16).map fun k => blockPixel w aw (order3ds k)

/-- `etc1_decode(ca, aa)` (43_etc1.md R238): the colour block is read first, then the alpha plane. -/
def etc1Decode (env : Env) (ca : Nat) (aa : Option Nat) : Eng (List Pixel) := do
  let w ← memRead env ca 8
  match aa with
  | none => return decodeBlock w none
  | some a =>
    let aw ← memRead env a 8
    return decodeBlock w (some aw)

/-! ## Packing -/

/-- One channel byte from the two base levels (43_etc1.md R273). -/
def packChannel (diff : Bool) (b0 b1 : Int) : Nat :=
  if diff then 8 * b0.toNat + ((b1 - b0) % 8).toNat else 16 * b0.toNat + b1.toNat

/-- The plane whose bit `i` is bit `k` of the selector of block pixel `i` (43_etc1.md R273). -/
def packPlane (sel : List Nat) (k : Nat) : Nat :=
  sel.foldr (fun s acc => bitAt s k + 2 * acc) 0

/-- The parameters of one block; `sel` holds the selectors of block pixels 0 to 15. -/
structure BlockParams where
  flip : Bool
  diff : Bool
  base0 : Rgb
  base1 : Rgb
  table0 : Nat
  table1 : Nat
  sel : List Nat
  deriving DecidableEq, Repr

/-- `pack` (43_etc1.md R273, R234): W = {RB, GB, BB, flag byte, MSB, LSB}. -/
def packBlock (p : BlockParams) : Nat :=
  let flag := 32 * p.table0 + 4 * p.table1 + 2 * p.diff.toNat + p.flip.toNat
  packChannel p.diff p.base0.r p.base1.r * 2 ^ 56 + packChannel p.diff p.base0.g p.base1.g * 2 ^ 48
    + packChannel p.diff p.base0.b p.base1.b * 2 ^ 40 + flag * 2 ^ 32 + packPlane p.sel 1 * 2 ^ 16 + packPlane p.sel 0

/-- `alpha_word(P)` (43_etc1.md R251), from the alphas of block pixels 0 to 15: nibble i is P[i].A >> 4. -/
def alphaWord (pixels : List Pixel) : Nat :=
  pixels.foldr (fun p acc => acc * 16 + p.a.toNat >>> 4) 0

/-! ## The solid-colour fast path -/

/-- DIFF of a combination k: k[5] (43_etc1.md R260). -/
def comboDiff (k : Nat) : Bool := decide (bitAt k 5 = 1)

/-- The offset a combination k adds: TABLE[k[4:2]][k[1:0]] (43_etc1.md R260). -/
def comboOffset (k : Nat) : Int := modifier (bits k 4 2) (bits k 1 0)

/-- The channel value that level `q` gives under combination `k` (43_etc1.md R260). -/
def comboValue (k q : Nat) : Int := clamp255 (scaleLevel (comboDiff k) q + comboOffset k)

/-- `q(v, k)` of the solid-colour inverse table: the least level that comes nearest to v (43_etc1.md R260). -/
def solidLevel (v : Int) (k : Nat) : Nat :=
  firstBest (fun q => (comboValue k q - v).natAbs) 0 ((List.range (levels (comboDiff k))).drop 1)

/-- `res(v, k)` of the solid-colour inverse table (43_etc1.md R260). -/
def solidResidue (v : Int) (k : Nat) : Int := comboValue k (solidLevel v k) - v

/-- e1 of combination k: the perceptual error of each pixel (43_etc1.md R261). -/
def solidError (c : Rgb) (k : Nat) : Nat :=
  2 * (solidResidue c.r k).natAbs ^ 2 + 4 * (solidResidue c.g k).natAbs ^ 2 + 3 * (solidResidue c.b k).natAbs ^ 2

/-- `solid_block(rgb)` (43_etc1.md R261): the first combination of least error, and 16 times that error. -/
def solidBlock (c : Rgb) : Nat × Nat :=
  let k := firstBest (solidError c) 0 ((List.range 64).drop 1)
  let q := c.map fun v => solidLevel v k
  ( packBlock
      { flip := false, diff := comboDiff k, base0 := q, base1 := q, table0 := bits k 4 2, table1 := bits k 4 2,
        sel := List.replicate 16 (bits k 1 0) },
    16 * solidError c k )

/-! ## The general path -/

/-- A sub-block's solution: base, table, the selectors of its pixels in order, error (43_etc1.md R266). -/
structure SubSolution where
  base : Rgb
  table : Nat
  sel : List Nat
  err : Nat
  deriving DecidableEq, Repr

/-- The best selector of one pixel, the least s on a tie (43_etc1.md R270). -/
def bestSelector (c : Rgb) (t : Nat) (p : Rgb) : Nat :=
  firstBest (fun s => perceptualError (shade c (modifier t s)) p) 0 [1, 2, 3]

/-- `evaluate(S, cand, L, t)` (43_etc1.md R270). -/
def evaluate (pixels : List Rgb) (cand : Rgb) (diff : Bool) (t : Nat) : SubSolution :=
  let c := scaleBase diff cand
  let sel := pixels.map (bestSelector c t)
  { base := cand
    table := t
    sel := sel
    err := (pixels.map fun p => perceptualError (shade c (modifier t (bestSelector c t p))) p).sum }

/-- A candidate replaces the best so far only when its error is strictly less (00_scope.md R13). -/
def improve (best : Option SubSolution) (new : SubSolution) : Option SubSolution :=
  match best with
  | none => some new
  | some b => if new.err < b.err then some new else some b

/-- The integers -r, …, r, ascending. -/
def around (r : Nat) : List Int := (List.range (2 * r + 1)).map fun (k : Nat) => (k : Int) - (r : Int)

/-- `shell(r)`: the offsets at Chebyshev distance r, in lexicographic order (43_etc1.md R267). -/
def shell (r : Nat) : List Rgb :=
  (around r).flatMap fun dr => (around r).flatMap fun dg => (around r).filterMap fun db =>
    if max dr.natAbs (max dg.natAbs db.natAbs) = r then some { r := dr, g := dg, b := db } else none

/-- A candidate base is a level of every channel and, where sub-block 0's base is given, within -4 to 3 of it
(43_etc1.md R266, R269). -/
def candidateLegal (diff : Bool) (ref : Option Rgb) (cand : Rgb) : Bool :=
  cand.all (fun v => decide (0 ≤ v) && decide (v < levels diff)) &&
    match ref with
    | none => true
    | some b => (cand.zip (· - ·) b).all fun d => decide (-4 ≤ d) && decide (d ≤ 3)

/-- Try one candidate with the eight tables in order (43_etc1.md R266, R271). -/
def tryCandidate (pixels : List Rgb) (diff : Bool) (ref : Option Rgb) (best : Option SubSolution) (cand : Rgb) :
    Option SubSolution :=
  if candidateLegal diff ref cand then
    (List.range 8).foldl (fun best t => improve best (evaluate pixels cand diff t)) best
  else best

/-- Try the candidates of the given shells around `start` (43_etc1.md R266, R267). -/
def tryShells (pixels : List Rgb) (diff : Bool) (ref : Option Rgb) (start : Rgb) (radii : List Nat)
    (best : Option SubSolution) : Option SubSolution :=
  radii.foldl (fun best r => (shell r).foldl (fun best d => tryCandidate pixels diff ref best (start.zip (· + ·) d)) best)
    best

/-- The floor average of one channel over the pixels (43_etc1.md R266, R274). -/
def channelAverage (pixels : List Rgb) (ch : Rgb → Int) : Int := (pixels.map ch).sum / pixels.length

/-- The floor average of the pixels, channel by channel. -/
def averageColour (pixels : List Rgb) : Rgb :=
  { r := channelAverage pixels Rgb.r, g := channelAverage pixels Rgb.g, b := channelAverage pixels Rgb.b }

/-- The start base: the average quantised by (avg * L) >> 8 (43_etc1.md R266). -/
def startBase (pixels : List Rgb) (diff : Bool) : Rgb :=
  (averageColour pixels).map fun avg => avg * levels diff / 256

/-- Does the search widen? Its best error so far exceeds 9000, or there is no candidate yet (43_etc1.md R268). -/
def widens (best : Option SubSolution) : Bool :=
  match best with
  | none => true
  | some b => decide (Config.widenThreshold < b.err)

/-- `search(S, L, ref)` (43_etc1.md R266): radii 0 to 4, then 5 to 8 if it widens. -/
def search (pixels : List Rgb) (diff : Bool) (ref : Option Rgb) : Option SubSolution :=
  let start := startBase pixels diff
  let near := tryShells pixels diff ref start [0, 1, 2, 3, 4] none
  if widens near then tryShells pixels diff ref start [5, 6, 7, 8] near else near

/-- The pixels of sub-block `b`, block pixel index ascending (43_etc1.md R265). -/
def subPixels (pixels : List Rgb) (flip : Bool) (b : Nat) : List Rgb :=
  (List.range 16).filterMap fun i => if subBlock i flip = b then pixels[i]? else none

/-- The selectors of block pixels i, …, 15, from the selectors still to be placed of the two sub-blocks
(43_etc1.md R265: "sel[i] <- sel0 or sel1 entry of block pixel i"). -/
def mergeSelectors (flip : Bool) : (indices sel0 sel1 : List Nat) → List Nat
  | [], _, _ => []
  | i :: is, sel0, sel1 =>
    if subBlock i flip = 0 then sel0.headD 0 :: mergeSelectors flip is sel0.tail sel1
    else sel1.headD 0 :: mergeSelectors flip is sel0 sel1.tail

/-- A whole block's solution with its error. -/
structure BlockSolution where
  params : BlockParams
  err : Nat
  deriving DecidableEq, Repr

/-- One flip and diff combination (43_etc1.md R265, R269): none where a sub-block's search has no candidate. -/
def combination (pixels : List Rgb) (flip diff : Bool) : Option BlockSolution :=
  match search (subPixels pixels flip 0) diff none with
  | none => none
  | some s0 =>
    match search (subPixels pixels flip 1) diff (if diff then some s0.base else none) with
    | none => none
    | some s1 => some
      { params :=
          { flip := flip, diff := diff, base0 := s0.base, base1 := s1.base, table0 := s0.table, table1 := s1.table,
            sel := mergeSelectors flip (List.range 16) s0.sel s1.sel }
        err := s0.err + s1.err }

/-- A combination replaces the best so far only when its error is strictly less (43_etc1.md R265). -/
def improveBlock (best new : Option BlockSolution) : Option BlockSolution :=
  match best, new with
  | best, none => best
  | none, some n => some n
  | some b, some n => if n.err < b.err then some n else some b

/-- The four combinations in their order (43_etc1.md R265): flip outer, diff inner. -/
def bestCombination (pixels : List Rgb) : Option BlockSolution :=
  [(false, false), (false, true), (true, false), (true, true)].foldl
    (fun best fd => improveBlock best (combination pixels fd.1 fd.2)) none

/-- The total error of a block word against the 16 pixels (43_etc1.md R272). -/
def blockError (w : Nat) (pixels : List Rgb) : Nat :=
  ((List.range 16).zip pixels |>.map fun ip => perceptualError (blockPixelColour w ip.1) ip.2).sum

/-- `fallback(P)` (43_etc1.md R274): the solid block of the average. It is never taken. -/
def fallbackBlock (pixels : List Rgb) : Nat × Nat :=
  let w := (solidBlock (averageColour pixels)).1
  (w, blockError w pixels)

/-- `general_block(P)` (43_etc1.md R265). -/
def generalBlock (pixels : List Rgb) : Nat × Nat :=
  match bestCombination pixels with
  | none => fallbackBlock pixels
  | some s => (packBlock s.params, s.err)

/-- The colour block of 16 block pixels, and its error (43_etc1.md R250): the fast path where all colours agree. -/
def encodeColours (pixels : List Rgb) : Nat × Nat :=
  match pixels with
  | [] => generalBlock []
  | c :: cs => if cs.all (fun d => decide (d = c)) then solidBlock c else generalBlock (c :: cs)

/-- The pixels in block pixel order, P[i] = c[inv3ds[i]] (43_etc1.md R250). -/
def blockOrder (pixels : List Pixel) : List Pixel :=
  inv3dsTable.filterMap fun k => pixels[k]?

/-- `etc1_encode(c, F)` (43_etc1.md R250), `alpha` for F = ETC1A4: the alpha plane, then the colour block; it yields the
block's error. -/
def etc1Encode (env : Env) (pixels : List Pixel) (alpha : Bool) : Eng Nat := do
  let block := blockOrder pixels
  if alpha then appendBytes env (alphaWord block) 8 else pure ()
  let (w, e) := encodeColours (block.map Pixel.rgb)
  appendBytes env w 8
  return e

/-! ## Commands -/

/-- The block format FMT names, true for ETC1A4; UnsupportedFormat(0) for every other format (43_etc1.md R245,
R275). -/
def takeBlockFormat (fmt : BitVec 4) : Eng Bool := do
  match ← takeFormat fmt with
  | .etc1 => return false
  | .etc1a4 => return true
  | _ => raise .unsupportedFormat 0

/-- Bytes of one block: 8, or 16 with its alpha plane (43_etc1.md R234, R236). -/
def blockBytes (alpha : Bool) : Nat := if alpha then 16 else 8

/-- The 16 pixels of the block at `a`, with the alpha plane before the colour block for ETC1A4 (42_pixel_format.md
R198; 43_etc1.md R245). -/
def readBlock (env : Env) (a : Nat) (alpha : Bool) : Eng (List Pixel) :=
  if alpha then etc1Decode env (a + 8) (some a) else etc1Decode env a none

/-- ETC1.DEC (43_etc1.md R245). -/
def execEtc1Dec (fmt : BitVec 4) (s : State) : Host.Outcome State Fault Refusal :=
  runCommand s fun env => do
    let alpha ← takeBlockFormat fmt
    require (decide (blockBytes alpha ≤ env.srcLen))
    require (decide (64 ≤ env.dstLen))
    checkBuffers env
    let p ← readBlock env env.src alpha
    writePixels env env.dst p 0
    return (64, 0)

/-- ETC1.ENC (43_etc1.md R275). -/
def execEtc1Enc (fmt : BitVec 4) (s : State) : Host.Outcome State Fault Refusal :=
  runCommand s fun env => do
    let alpha ← takeBlockFormat fmt
    require (decide (64 ≤ env.srcLen))
    require (decide (blockBytes alpha ≤ env.dstLen))
    checkBuffers env
    let c ← collectFrom (readPixel env env.src) 16 0
    let e ← etc1Encode env c alpha
    return (blockBytes alpha, e)

end Sys2Proof.Machine
end

