-- ==== Sys2Proof/Machine/PixelCodec.lean ====
section
/-! DEFINITION. The pixel format codec (42_pixel_format.md): the texel layouts of the fourteen formats, the sizes, the
decode and encode procedures, and PIX.DEC and PIX.ENC. A channel value is a number below 256, a texel the unsigned
number read little-endian (42_pixel_format.md R182). -/
namespace Sys2Proof.Machine

/-! ## Texel layouts -/

/-- RGBA8888 (42_pixel_format.md R186). -/
def decodeRgba8888 (t : Nat) : Pixel := Pixel.ofNat (bits t 31 24) (bits t 23 16) (bits t 15 8) (bits t 7 0)

/-- RGBA8888 (42_pixel_format.md R186). -/
def encodeRgba8888 (c : Pixel) : Nat := c.r.toNat * 2 ^ 24 + c.g.toNat * 2 ^ 16 + c.b.toNat * 2 ^ 8 + c.a.toNat

/-- RGB888 (42_pixel_format.md R187). -/
def decodeRgb888 (t : Nat) : Pixel := Pixel.ofNat (bits t 23 16) (bits t 15 8) (bits t 7 0) 255

/-- RGB888 (42_pixel_format.md R187). -/
def encodeRgb888 (c : Pixel) : Nat := c.r.toNat * 2 ^ 16 + c.g.toNat * 2 ^ 8 + c.b.toNat

/-- RGBA5551 (42_pixel_format.md R188). -/
def decodeRgba5551 (t : Nat) : Pixel :=
  Pixel.ofNat (x5 (bits t 15 11)) (x5 (bits t 10 6)) (x5 (bits t 5 1)) (255 * bitAt t 0)

/-- RGBA5551 (42_pixel_format.md R188). -/
def encodeRgba5551 (c : Pixel) : Nat :=
  (c.r.toNat >>> 3) * 2 ^ 11 + (c.g.toNat >>> 3) * 2 ^ 6 + (c.b.toNat >>> 3) * 2 + c.a.toNat >>> 7

/-- RGB565 (42_pixel_format.md R189). -/
def decodeRgb565 (t : Nat) : Pixel :=
  Pixel.ofNat (x5 (bits t 15 11)) (x6 (bits t 10 5)) (x5 (bits t 4 0)) 255

/-- RGB565 (42_pixel_format.md R189). -/
def encodeRgb565 (c : Pixel) : Nat :=
  (c.r.toNat >>> 3) * 2 ^ 11 + (c.g.toNat >>> 2) * 2 ^ 5 + c.b.toNat >>> 3

/-- RGBA4444 (42_pixel_format.md R190). -/
def decodeRgba4444 (t : Nat) : Pixel :=
  Pixel.ofNat (x4 (bits t 15 12)) (x4 (bits t 11 8)) (x4 (bits t 7 4)) (x4 (bits t 3 0))

/-- RGBA4444 (42_pixel_format.md R190). -/
def encodeRgba4444 (c : Pixel) : Nat :=
  (c.r.toNat >>> 4) * 2 ^ 12 + (c.g.toNat >>> 4) * 2 ^ 8 + (c.b.toNat >>> 4) * 2 ^ 4 + c.a.toNat >>> 4

/-- LA88 (42_pixel_format.md R191). -/
def decodeLa88 (t : Nat) : Pixel := Pixel.ofNat (bits t 15 8) (bits t 15 8) (bits t 15 8) (bits t 7 0)

/-- LA88 (42_pixel_format.md R191): luminance from G. -/
def encodeLa88 (c : Pixel) : Nat := c.g.toNat * 2 ^ 8 + c.a.toNat

/-- HL88 (42_pixel_format.md R192). -/
def decodeHl88 (t : Nat) : Pixel := Pixel.ofNat (bits t 15 8) (bits t 7 0) 255 255

/-- HL88 (42_pixel_format.md R192). -/
def encodeHl88 (c : Pixel) : Nat := c.r.toNat * 2 ^ 8 + c.g.toNat

/-- L8 (42_pixel_format.md R193). -/
def decodeL8 (t : Nat) : Pixel := Pixel.ofNat t t t 255

/-- L8 (42_pixel_format.md R193). -/
def encodeL8 (c : Pixel) : Nat := c.g.toNat

/-- A8 (42_pixel_format.md R194). -/
def decodeA8 (t : Nat) : Pixel := Pixel.ofNat 255 255 255 t

/-- A8 (42_pixel_format.md R194). -/
def encodeA8 (c : Pixel) : Nat := c.a.toNat

/-- LA44 (42_pixel_format.md R195). -/
def decodeLa44 (t : Nat) : Pixel :=
  Pixel.ofNat (x4 (bits t 7 4)) (x4 (bits t 7 4)) (x4 (bits t 7 4)) (x4 (bits t 3 0))

/-- LA44 (42_pixel_format.md R195). -/
def encodeLa44 (c : Pixel) : Nat := (c.g.toNat >>> 4) * 2 ^ 4 + c.a.toNat >>> 4

/-- L4 (42_pixel_format.md R196). -/
def decodeL4 (v : Nat) : Pixel := Pixel.ofNat (x4 v) (x4 v) (x4 v) 255

/-- L4 (42_pixel_format.md R196). -/
def encodeL4 (c : Pixel) : Nat := c.g.toNat >>> 4

/-- A4 (42_pixel_format.md R197). -/
def decodeA4 (v : Nat) : Pixel := Pixel.ofNat 255 255 255 (x4 v)

/-- A4 (42_pixel_format.md R197). -/
def encodeA4 (c : Pixel) : Nat := c.a.toNat >>> 4

/-- How a format's pixels lie in a texel buffer (42_pixel_format.md R181, R182): whole bytes, half bytes, or blocks of
16 pixels. `decode` is D_F and `encode` is E_F of the format's rule. -/
inductive TexelLayout where
  | bytes (size : Nat) (decode : Nat → Pixel) (encode : Pixel → Nat)
  | nibbles (decode : Nat → Pixel) (encode : Pixel → Nat)
  | blocks (alpha : Bool)

/-- The layout of each format (42_pixel_format.md R186 to R198; bits per pixel by 30_encoding.md R81). -/
def texelLayout : PixelFormat → TexelLayout
  | .rgba8888 => .bytes 4 decodeRgba8888 encodeRgba8888
  | .rgb888 => .bytes 3 decodeRgb888 encodeRgb888
  | .rgba5551 => .bytes 2 decodeRgba5551 encodeRgba5551
  | .rgb565 => .bytes 2 decodeRgb565 encodeRgb565
  | .rgba4444 => .bytes 2 decodeRgba4444 encodeRgba4444
  | .la88 => .bytes 2 decodeLa88 encodeLa88
  | .hl88 => .bytes 2 decodeHl88 encodeHl88
  | .l8 => .bytes 1 decodeL8 encodeL8
  | .a8 => .bytes 1 decodeA8 encodeA8
  | .la44 => .bytes 1 decodeLa44 encodeLa44
  | .l4 => .nibbles decodeL4 encodeL4
  | .a4 => .nibbles decodeA4 encodeA4
  | .etc1 => .blocks false
  | .etc1a4 => .blocks true

/-! ## Sizes -/

/-- `pixcount(F, len)` (42_pixel_format.md R181). -/
def pixelCount (f : PixelFormat) (len : Nat) : Nat :=
  match texelLayout f with
  | .bytes size _ _ => len / size
  | .nibbles _ _ => 2 * len
  | .blocks alpha => 16 * (len / blockBytes alpha)

/-- `encsize(F, P)` (42_pixel_format.md R181). -/
def encodedSize (f : PixelFormat) (p : Nat) : Nat :=
  match texelLayout f with
  | .bytes size _ _ => p * size
  | .nibbles _ _ => (p + 1) / 2
  | .blocks alpha => p / 16 * blockBytes alpha

/-- Has the format an encoded size for P pixels? The ETC1 formats have one for multiples of 16 only
(42_pixel_format.md R181, R201). -/
def countLegal (f : PixelFormat) (p : Nat) : Bool :=
  match texelLayout f with
  | .bytes _ _ _ | .nibbles _ _ => true
  | .blocks _ => decide (p % 16 = 0)

/-! ## Decode and encode -/

/-- `pix_decode(F, a, len, j)` (42_pixel_format.md R182). -/
def pixDecode (env : Env) (f : PixelFormat) (a j : Nat) : Eng Pixel :=
  match texelLayout f with
  | .bytes size decode _ => do
    let t ← memRead env (a + j * size) size
    return decode t
  | .nibbles decode _ => do
    let byte ← memRead env (a + j / 2) 1
    return decode (if j % 2 = 0 then bits byte 3 0 else bits byte 7 4)
  | .blocks alpha => do
    let block ← readBlock env (a + blockBytes alpha * (j / 16)) alpha
    return block.getD (j % 16) (Pixel.ofNat 0 0 0 0)

/-- `zero_alpha(c)` (42_pixel_format.md R199): a pixel with A = 0 takes the RGB of ZERO_ALPHA_RGB. DESIGN CHOICE, log
entry 2: the bits that hold its R, G and B. -/
def zeroAlpha (p : Platform) (c : Pixel) : Pixel :=
  if c.a = 0 then
    { r := p.zeroAlphaRgb.extractLsb' 16 8, g := p.zeroAlphaRgb.extractLsb' 8 8,
      b := p.zeroAlphaRgb.extractLsb' 0 8, a := 0 }
  else c

/-- The texels of the byte formats, each little-endian (42_pixel_format.md R183). -/
def encodeByteTexels (env : Env) (size : Nat) (encode : Pixel → Nat) : List Pixel → Eng Unit
  | [] => pure ()
  | c :: cs => do
    appendBytes env (encode c) size
    encodeByteTexels env size encode cs

/-- The texels of L4 and A4 with the nibble cursor `pend` (42_pixel_format.md R183, R184): low nibble first, and a last
byte with its high nibble 0 where a nibble is left. -/
def encodeNibbleTexels (env : Env) (encode : Pixel → Nat) : List Pixel → (pend : Option Nat) → Eng Unit
  | [], none => pure ()
  | [], some low => append env low
  | c :: cs, none => encodeNibbleTexels env encode cs (some (encode c))
  | c :: cs, some low => do
    append env (16 * encode c + low)
    encodeNibbleTexels env encode cs none

/-- The first `count` blocks of 16 pixels (42_pixel_format.md R183, R198). -/
def encodeBlockTexels (env : Env) (alpha : Bool) : (count : Nat) → List Pixel → Eng Unit
  | 0, _ => pure ()
  | count + 1, cs => do
    let _ ← etc1Encode env (cs.take 16) alpha
    encodeBlockTexels env alpha count (cs.drop 16)

/-- `pix_encode(F, c, P)` (42_pixel_format.md R183), the zero-alpha step first. -/
def pixEncode (env : Env) (f : PixelFormat) (pixels : List Pixel) : Eng Unit :=
  let c := pixels.map (zeroAlpha env.platform)
  match texelLayout f with
  | .bytes size _ encode => encodeByteTexels env size encode c
  | .nibbles _ encode => encodeNibbleTexels env encode c none
  | .blocks alpha => encodeBlockTexels env alpha (c.length / 16) c

/-! ## Commands -/

/-- PIX.DEC (42_pixel_format.md R200). -/
def execPixDec (fmt : BitVec 4) (s : State) : Host.Outcome State Fault Refusal :=
  runCommand s fun env => do
    let f ← takeFormat fmt
    let m := pixelCount f env.srcLen
    require (decide (4 * m ≤ env.dstLen))
    checkBuffers env
    forFrom (fun j => do
      let c ← pixDecode env f env.src j
      writePixel env env.dst j c) m 0
    return (4 * m, m)

/-- PIX.ENC (42_pixel_format.md R201). -/
def execPixEnc (fmt : BitVec 4) (s : State) : Host.Outcome State Fault Refusal :=
  runCommand s fun env => do
    let f ← takeFormat fmt
    let p := env.param0
    require (countLegal f p)
    require (decide (4 * p ≤ env.srcLen))
    require (decide (encodedSize f p ≤ env.dstLen))
    checkBuffers env
    let c ← collectFrom (readPixel env env.src) p 0
    pixEncode env f c
    return (encodedSize f p, p)

end Sys2Proof.Machine
end

