-- ==== Sys2Proof/Machine/Swizzle.lean ====
section
/-! DEFINITION. The swizzle addressing engine and the texture commands (44_swizzle.md). -/
namespace Sys2Proof.Machine

/-- The least power of two that is not below p, for p > 0. -/
def powerOfTwoAbove (p : Nat) : Nat := if 2 ^ p.log2 = p then p else 2 ^ (p.log2 + 1)

/-- `pad_dim(d, PAD)` (44_swizzle.md R291). -/
def padDim (d : Nat) (pad : Bool) : Nat :=
  let p := 8 * ((d + 7) / 8)
  if pad then powerOfTwoAbove p else p

/-- `stride(pw, ph, SWZ)` (44_swizzle.md R291). -/
def strideOf (pw ph : Nat) : SwizzleMode → Nat
  | .default | .transposeTile => pw
  | .rotate90 | .transpose => ph

/-- The tile coordinates of linear index n (44_swizzle.md R292). -/
def tileOf (n stride : Nat) : Nat × Nat := ((n >>> 6) % (stride / 8), (n >>> 6) / (stride / 8))

/-- The in-tile coordinates of linear index n: the even bits give x, the odd bits y (44_swizzle.md R293). -/
def inTile (n : Nat) : Nat × Nat :=
  (4 * bitAt n 4 + 2 * bitAt n 2 + bitAt n 0, 4 * bitAt n 5 + 2 * bitAt n 3 + bitAt n 1)

/-- `addressOf(n, S, mode)` (44_swizzle.md R294, R295). -/
def addressOf (n stride : Nat) (mode : SwizzleMode) : Nat × Nat :=
  let (tx, ty) := tileOf n stride
  let (ix, iy) := inTile n
  match mode with
  | .default => (tx * 8 + ix, ty * 8 + iy)
  | .transposeTile => (tx * 8 + iy, ty * 8 + ix)
  | .rotate90 => (ty * 8 + iy, stride - 1 - (tx * 8 + ix))
  | .transpose => (ty * 8 + iy, tx * 8 + ix)

/-- The padded texture a command works on: its size, its padded size, its stride (44_swizzle.md R290, R291). -/
structure Texture where
  w : Nat
  h : Nat
  pw : Nat
  ph : Nat
  stride : Nat
  deriving DecidableEq, Repr

/-- The texture that PARAM0, SWZ and PAD describe; InvalidParameter(0) where a dimension is not 1 to 32768
(44_swizzle.md R290, R291). -/
def takeTexture (env : Env) (mode : SwizzleMode) (pad : Bool) : Eng Texture := do
  require env.dimensionsLegal
  let pw := padDim env.width pad
  let ph := padDim env.height pad
  return { w := env.width, h := env.height, pw := pw, ph := ph, stride := strideOf pw ph mode }

/-- N, the number of texels of the padded texture (44_swizzle.md R300, R301). -/
def Texture.texels (t : Texture) : Nat := t.pw * t.ph

/-- SWZ.ADDR (44_swizzle.md R296). -/
def execSwzAddr (swz : BitVec 4) (s : State) : Host.Outcome State Fault Refusal :=
  runCommand s fun env => do
    let mode ← takeMode swz
    require (!decide (env.param1 = 0) && decide (env.param1 % 8 = 0))
    return addressOf env.param0 env.param1 mode

/-- TEX.DIM (44_swizzle.md R297). -/
def execTexDim (swz : BitVec 4) (pad : Bool) (s : State) : Host.Outcome State Fault Refusal :=
  runCommand s fun env => do
    let mode ← takeMode swz
    let t ← takeTexture env mode pad
    return (t.ph * 2 ^ 16 + t.pw, t.stride)

/-- One texel of TEX.DEC: decode texel n and place it, unless it falls in the padding (44_swizzle.md R300). -/
def placeTexel (env : Env) (f : PixelFormat) (mode : SwizzleMode) (t : Texture) (n : Nat) : Eng Unit := do
  let c ← pixDecode env f env.src n
  let (x, y) := addressOf n t.stride mode
  if x < t.w ∧ y < t.h then writePixel env env.dst (y * t.w + x) c else pure ()

/-- TEX.DEC (44_swizzle.md R300). -/
def execTexDec (fmt swz : BitVec 4) (pad : Bool) (s : State) : Host.Outcome State Fault Refusal :=
  runCommand s fun env => do
    let f ← takeFormat fmt
    let mode ← takeMode swz
    let t ← takeTexture env mode pad
    require (decide (t.texels ≤ pixelCount f env.srcLen))
    require (decide (4 * t.w * t.h ≤ env.dstLen))
    checkBuffers env
    forFrom (placeTexel env f mode t) t.texels 0
    return (4 * t.w * t.h, t.texels)

/-- The pixel that texel n of TEX.ENC takes: the padding repeats the edge (44_swizzle.md R301). -/
def gatherPixel (env : Env) (mode : SwizzleMode) (t : Texture) (n : Nat) : Eng Pixel :=
  let (x, y) := addressOf n t.stride mode
  readPixel env env.src (min y (t.h - 1) * t.w + min x (t.w - 1))

/-- TEX.ENC (44_swizzle.md R301). -/
def execTexEnc (fmt swz : BitVec 4) (pad : Bool) (s : State) : Host.Outcome State Fault Refusal :=
  runCommand s fun env => do
    let f ← takeFormat fmt
    let mode ← takeMode swz
    let t ← takeTexture env mode pad
    require (decide (4 * t.w * t.h ≤ env.srcLen))
    require (decide (encodedSize f t.texels ≤ env.dstLen))
    checkBuffers env
    let c ← collectFrom (gatherPixel env mode t) t.texels 0
    pixEncode env f c
    return (encodedSize f t.texels, t.texels)

end Sys2Proof.Machine
end

