-- ==== Sys2Proof/Machine/System.lean ====
section
/-! DEFINITION. NOP (60_exceptions.md R340). -/
namespace Sys2Proof.Machine

/-- NOP (60_exceptions.md R340): no memory, no buffer check; success with both results 0. -/
def execNop (s : State) : Host.Outcome State Fault Refusal :=
  runCommand s fun _ => pure (0, 0)

end Sys2Proof.Machine
end

