-- ==== Sys2Proof/Machine/Dispatch.lean ====
section
/-! DEFINITION. What each command of CORE does in its engine step: one arm per constructor of Instr. -/
namespace Sys2Proof.Machine

def exec (i : Instr) (s : State) : Host.Outcome State Fault Refusal :=
  match i with
  | .nop => Sys2Proof.Machine.execNop s
  | .etc1Dec fmt => Sys2Proof.Machine.execEtc1Dec fmt s
  | .etc1Enc fmt => Sys2Proof.Machine.execEtc1Enc fmt s
  | .swzAddr swz => Sys2Proof.Machine.execSwzAddr swz s
  | .texDim swz pad => Sys2Proof.Machine.execTexDim swz pad s
  | .lz10Dec => Sys2Proof.Machine.execLz10Dec s
  | .lz11Dec => Sys2Proof.Machine.execLz11Dec s
  | .rleDec => Sys2Proof.Machine.execRleDec s
  | .contDec => Sys2Proof.Machine.execContDec s
  | .huff4Dec => Sys2Proof.Machine.execHuff4Dec s
  | .huff8Dec => Sys2Proof.Machine.execHuff8Dec s
  | .pixDec fmt => Sys2Proof.Machine.execPixDec fmt s
  | .pixEnc fmt => Sys2Proof.Machine.execPixEnc fmt s
  | .texDec fmt swz pad => Sys2Proof.Machine.execTexDec fmt swz pad s
  | .texEnc fmt swz pad => Sys2Proof.Machine.execTexEnc fmt swz pad s

end Sys2Proof.Machine
end

