-- ==== Sys2Proof/Machine/Engine.lean ====
section
/-! DEFINITION. The engine: a command's start (10_state.md R24), its one engine step (10_state.md R40, R41; 30_encoding.md
R85), and what becomes unspecified when its buffers are disturbed, lie on a device, or it is abandoned (20_memory.md
R68; 70_reset_and_hazards.md R351, R361; 93_implementation_defined.md I4, I6, I7). -/
namespace Sys2Proof.Machine

/-! ## Buffers that were disturbed -/

/-- The memory with a free byte at every address of the buffer that is a byte of memory
(93_implementation_defined.md I7: "each output byte is any value"). -/
def State.freeBytes (s : State) (b : Buffer) : Memory :=
  Memory.fill (fun a => if s.platform.isMemory a then Config.freeByte s.draws a else Memory.read s.mem a) b.len b.addr
    s.mem

/-- The bytes of an output buffer are any values (70_reset_and_hazards.md R361; 93_implementation_defined.md I7). -/
def State.spoilBytes (s : State) (b : Buffer) : State := { s with mem := s.freeBytes b, draws := s.draws + 1 }

/-- RESULT0, RESULT1 and ERR_INFO are any words (70_reset_and_hazards.md R361; 93_implementation_defined.md I7). -/
def State.spoilResults (s : State) : State :=
  { s with
    result0 := Config.freeWord s.draws 0
    result1 := Config.freeWord s.draws 1
    errInfo := Config.freeWord s.draws 2
    draws := s.draws + 1 }

/-- A command's end, with success or any error: ERR_CODE is any code and ERROR says whether it is an error
(70_reset_and_hazards.md R361; 93_implementation_defined.md I7). It is part of an end only, since nothing else sets ERROR
(10_state.md R23). -/
def State.spoilCode (s : State) : State :=
  { s with
    status :=
      { s.status with
        errCode := errOfCode (Config.freeCode s.draws)
        error := (errOfCode (Config.freeCode s.draws)).isSome }
    draws := s.draws + 1 }

/-- Everything that is unspecified at the end of a command whose buffers were disturbed while it ran
(70_reset_and_hazards.md R361). -/
def State.spoil (s : State) (b : Buffer) : State := (s.spoilBytes b).spoilResults.spoilCode

/-- Has the running command's window been disturbed (70_reset_and_hazards.md R361)? -/
def State.windowDisturbed (s : State) : Bool :=
  match s.windows with
  | [] => false
  | w :: _ => w.disturbed

/-- Were the buffers of the running command `i` disturbed? Only a command that has buffers has any to disturb
(30_encoding.md R83). -/
def State.disturbed (s : State) (i : Instr) : Bool := i.usesBuffers && s.windowDisturbed

/-! ## Buffers on a device -/

/-- Does one of the buffers lie on a device whose reads have side effects (20_memory.md R68;
93_implementation_defined.md I4)? -/
def State.onDevice (s : State) : Bool :=
  s.platform.devices.any fun d => s.env.input.meets d || s.env.output.meets d

/-- The platform with another BUS_FAULT. -/
def Platform.rejecting (p : Platform) (busFault : List Rejection) : Platform := { p with busFault := busFault }

/-- BUS_FAULT that is true of every access. -/
def everyAccess : List Rejection :=
  [{ lo := 0, hi := Config.addressSpace - 1, dir := .read }, { lo := 0, hi := Config.addressSpace - 1, dir := .write }]

/-- Does the command `i` access no byte at all, as one that fails a check before its first access (30_encoding.md R85;
60_exceptions.md R327)? It is the one that ends without BusFault where every access is rejected. -/
def State.accessless (s : State) (i : Instr) : Bool :=
  match exec i { s with platform := s.platform.rejecting everyAccess } with
  | .next t => !decide (t.status.errCode = some .busFault)
  | .fault _ => true
  | .refused _ => true

/-- Does the running command `i` access memory with a buffer on a device? -/
def State.runsOnDevice (s : State) (i : Instr) : Bool := i.usesBuffers && s.onDevice && !s.accessless i

/-- The state in which the bytes that devices answer with are any values, on a platform that rejects no access. -/
def State.withDeviceInput (s : State) : State :=
  { s with
    mem :=
      Memory.fill
        (fun a => if s.platform.devices.any (Buffer.has · a) then Config.freeByte s.draws a else Memory.read s.mem a)
        s.srcLen.toNat s.srcAddr.toNat s.mem
    platform := s.platform.rejecting [] }

/-- How many bytes the command `i` writes with those inputs: RESULT0, which is their number at every end of a command
that has buffers (10_state.md R28; 60_exceptions.md R325). They are the first bytes of the output buffer. -/
def State.deviceOutput (s : State) (i : Instr) : Nat :=
  match exec i s.withDeviceInput with
  | .next t => t.result0.toNat
  | .fault _ => 0
  | .refused _ => 0

/-- The first `n` bytes of a buffer. -/
def Buffer.first (b : Buffer) (n : Nat) : Buffer := { b with len := min n b.len }

/-- What is unspecified after the command `i`, which ended in `t`, ran on a device: each byte it writes is any value,
its results are any; every other byte is as before (20_memory.md R68; 60_exceptions.md R326;
93_implementation_defined.md I4). DESIGN CHOICE, log entry 7: which bytes it writes. -/
def State.endOnDevice (s : State) (i : Instr) (t : State) : State :=
  ({ t with mem := s.mem } : State).spoil (s.env.output.first (s.deviceOutput i))

/-! ## Start and engine step -/

/-- The buffers that the command word `w` makes the host keep away from (70_reset_and_hazards.md R361): the operand
buffers, for a command that has buffers; empty ones otherwise. -/
def State.windowFor (s : State) (w : Word) : Window :=
  match decode w with
  | .ok i =>
    if i.usesBuffers then { input := s.env.input, output := s.env.output, disturbed := false }
    else { input := ⟨0, 0⟩, output := ⟨0, 0⟩, disturbed := false }
  | .error _ => { input := ⟨0, 0⟩, output := ⟨0, 0⟩, disturbed := false }

/-- A command starts (10_state.md R24): the word is in CMD, the results and the status of the last end are cleared, BUSY
is set. The word is not checked. -/
def State.startCommand (s : State) (w : Word) : State :=
  { s with
    cmd := w
    status := s.status.start
    result0 := 0
    result1 := 0
    errInfo := 0
    windows := s.windowFor w :: s.windows }

/-- A command whose word names no command ends with IllegalCommand(0), with no memory access (30_encoding.md R85;
60_exceptions.md R322). -/
def State.endIllegal (s : State) : State := s.endWithError s.mem 0 { err := .illegalCommand, info := 0 }

/-- Where the command `i`, which `exec` ends in `t`, leaves the machine: unspecified results where its buffers were
disturbed (70_reset_and_hazards.md R361) or lie on a device (20_memory.md R68); the command ends all the same. -/
def State.settled (s : State) (i : Instr) (t : State) : State :=
  if s.disturbed i then t.spoil s.env.output else if s.runsOnDevice i then s.endOnDevice i t else t

/-- The outcome of the command `i` with what is unspecified about it. -/
def settle (s : State) (i : Instr) (o : Host.Outcome State Fault Refusal) : Host.Outcome State Fault Refusal :=
  match o with
  | .next t => .next (s.settled i t)
  | .fault r => .fault r
  | .refused r => .refused r

/-- The engine step (10_state.md R40, R41; 30_encoding.md R85): decode CMD, run the whole command, end it. -/
def engineStep (s : State) : Host.Outcome State Fault Refusal :=
  match decode s.cmd with
  | .error _ => .next s.endIllegal
  | .ok i => settle s i (exec i s)

/-! ## Reset -/

/-- The memory in which a reset leaves the buffers of the command it abandons (70_reset_and_hazards.md R351;
93_implementation_defined.md I6): each byte of the output buffer holds its old value or the value the command wrote. -/
def State.abandonedMemory (s : State) : Memory :=
  match engineStep s with
  | .next t => Memory.mix (Config.freeChoice s.draws) t.mem s.dstLen.toNat s.dstAddr.toNat s.mem
  | .fault _ => s.mem
  | .refused _ => s.mem

/-- A running command is abandoned (70_reset_and_hazards.md R351). -/
def State.abandon (s : State) : State :=
  if s.status.busy then { s with mem := s.abandonedMemory, draws := s.draws + 1 } else s

/-- Every register takes its reset value; memory does not change (70_reset_and_hazards.md R350, R352). No command is
left whose buffers the host must keep away from. -/
def State.resetRegisters (s : State) : State :=
  { s with
    ctrl := State.reset.ctrl
    status := State.reset.status
    cmd := State.reset.cmd
    srcAddr := State.reset.srcAddr
    srcLen := State.reset.srcLen
    dstAddr := State.reset.dstAddr
    dstLen := State.reset.dstLen
    param0 := State.reset.param0
    param1 := State.reset.param1
    result0 := State.reset.result0
    result1 := State.reset.result1
    errInfo := State.reset.errInfo
    windows := [] }

/-- The effect of either reset, the soft reset of CTRL and the platform's reset input (70_reset_and_hazards.md R350,
R351). -/
def State.resetCore (s : State) : State := s.abandon.resetRegisters

end Sys2Proof.Machine
end

