-- ==== Sys2Proof/Machine/HostPort.lean ====
section
/-! DEFINITION. The host steps of 10_state.md R40: register reads and writes (10_state.md R20 to R29), memory accesses of
the host and other bus masters, the interrupt (60_exceptions.md R330) and the reset input; and the command-list
statements of 30_encoding.md R88 and R89 as the moves they stand for. -/
namespace Sys2Proof.Machine

/-! ## Registers -/

/-- The register at a byte offset of the window; the offsets not in the table of 10_state.md R20 are reserved. -/
def regAt (offset : BitVec 8) : Option Reg :=
  match offset.toNat with
  | 0x00 => some .id
  | 0x04 => some .ctrl
  | 0x08 => some .status
  | 0x0C => some .cmd
  | 0x10 => some .srcAddr
  | 0x14 => some .srcLen
  | 0x18 => some .dstAddr
  | 0x1C => some .dstLen
  | 0x20 => some .param0
  | 0x24 => some .param1
  | 0x28 => some .result0
  | 0x2C => some .result1
  | 0x30 => some .errInfo
  | _ => none

/-- The byte offset of a register (10_state.md R20). -/
def regOffset : Reg → BitVec 8
  | .id => 0x00
  | .ctrl => 0x04
  | .status => 0x08
  | .cmd => 0x0C
  | .srcAddr => 0x10
  | .srcLen => 0x14
  | .dstAddr => 0x18
  | .dstLen => 0x1C
  | .param0 => 0x20
  | .param1 => 0x24
  | .result0 => 0x28
  | .result1 => 0x2C
  | .errInfo => 0x30

/-- What a read of the register returns (10_state.md R21 to R29). -/
def State.readReg (s : State) : Reg → Word
  | .id => Config.idValue
  | .ctrl => s.ctrl.toWord
  | .status => s.status.toWord
  | .cmd => s.cmd
  | .srcAddr => s.srcAddr
  | .srcLen => s.srcLen
  | .dstAddr => s.dstAddr
  | .dstLen => s.dstLen
  | .param0 => s.param0
  | .param1 => s.param1
  | .result0 => s.result0
  | .result1 => s.result1
  | .errInfo => s.errInfo

/-- What a read of the register block at an offset returns: a reserved offset reads 0 (10_state.md R20). -/
def State.readOffset (s : State) (offset : BitVec 8) : Word :=
  match regAt offset with
  | some r => s.readReg r
  | none => 0

/-- A write to CTRL (10_state.md R22): a 1 in bit 1 resets CORE whatever bit 0 says (70_reset_and_hazards.md R351);
otherwise bit 0 is IRQ_EN. -/
def State.writeCtrl (s : State) (v : Word) : State :=
  if v.getLsbD 1 then s.resetCore else { s with ctrl := { irqEn := v.getLsbD 0 } }

/-- A write to a register that a running command protects: lost while BUSY = 1, which sets WBUSY
(70_reset_and_hazards.md R360). -/
def State.guarded (s written : State) : State :=
  if s.status.busy then { s with status := s.status.lostWrite } else written

/-- A host write of a register (10_state.md R21 to R29). ID, RESULT0, RESULT1 and ERR_INFO ignore it. -/
def State.writeReg (s : State) (r : Reg) (v : Word) : State :=
  match r with
  | .id => s
  | .ctrl => s.writeCtrl v
  | .status => s.acknowledge v
  | .cmd => s.guarded (s.startCommand v)
  | .srcAddr => s.guarded { s with srcAddr := v }
  | .srcLen => s.guarded { s with srcLen := v }
  | .dstAddr => s.guarded { s with dstAddr := v }
  | .dstLen => s.guarded { s with dstLen := v }
  | .param0 => s.guarded { s with param0 := v }
  | .param1 => s.guarded { s with param1 := v }
  | .result0 => s
  | .result1 => s
  | .errInfo => s

/-- A write at an offset of the block: a reserved offset ignores it (10_state.md R20). -/
def State.writeOffset (s : State) (offset : BitVec 8) (v : Word) : State :=
  match regAt offset with
  | some r => s.writeReg r v
  | none => s

/-- The host has seen a command's end: it may touch the buffers again (70_reset_and_hazards.md R361). -/
def State.closeWindows (s : State) : State := { s with windows := [] }

/-- A read at an offset returns its value to the host; a read of STATUS that shows DONE = 1 is the host seeing the end
(70_reset_and_hazards.md R361). No register read changes a register (10_state.md R20 to R29). -/
def State.hostReadReg (s : State) (offset : BitVec 8) : State :=
  let t := { s with readData := s.readOffset offset }
  if regAt offset = some .status ∧ s.status.done = true then t.closeWindows else t

/-- An access of the register window is legal as an aligned 32-bit access only (10_state.md R20). -/
def registerAccessLegal (offset : BitVec 8) (width : AccessWidth) : Bool :=
  decide (width = .word) && decide (offset.toNat % 4 = 0)

/-! ## Memory accesses of the host and other bus masters -/

/-- Touching byte `a` breaks the rule of 70_reset_and_hazards.md R361 for this window: writing either buffer, or reading
the output buffer. -/
def Window.brokenBy (w : Window) (d : Direction) (a : Nat) : Bool :=
  w.output.has a || (decide (d = .write) && w.input.has a)

/-- The mark that the window was disturbed. -/
def Window.touched (w : Window) (d : Direction) (a : Nat) : Window :=
  { w with disturbed := w.disturbed || w.brokenBy d a }

/-- The consequence of touching byte `a` for the commands that have ended but whose end the host has not seen: their
output bytes are any values (70_reset_and_hazards.md R361). -/
def State.spoilEnded (s : State) (d : Direction) (a : Nat) (ws : List Window) : State :=
  (ws.filter fun w => w.brokenBy d a).foldl (fun t w => t.spoilBytes w.output) s

/-- The consequences of touching byte `a` (70_reset_and_hazards.md R361; 93_implementation_defined.md I7). A running
command is marked, and its end will be unspecified; the latest command, if it has ended, loses its results too. STATUS
stays: only a command's end sets ERROR and ERR_CODE (10_state.md R23). DEDUCED, log entry 6. -/
def State.touch (s : State) (d : Direction) (a : Nat) : State :=
  match s.windows with
  | [] => s
  | w :: ws =>
    if s.status.busy then ({ s with windows := w.touched d a :: ws } : State).spoilEnded d a ws
    else if w.brokenBy d a then (s.spoilEnded d a (w :: ws)).spoilResults
    else s.spoilEnded d a ws

/-- A bus master writes one byte of memory. -/
def State.hostWriteByte (s : State) (a : Nat) (v : Byte) : State :=
  ({ s with mem := s.mem.write a v } : State).touch .write a

/-- Is the byte in an output buffer that the host must not read yet (70_reset_and_hazards.md R361)? -/
def State.outputHidden (s : State) (a : Nat) : Bool := s.windows.any fun w => w.output.has a

/-- A bus master reads one byte of memory; an output byte that it must not read yet reads as any value
(70_reset_and_hazards.md R361; 93_implementation_defined.md I7). -/
def State.hostReadByte (s : State) (a : Nat) : State :=
  if s.outputHidden a then
    ({ s with readData := (Config.freeByte s.draws a).setWidth 32, draws := s.draws + 1 } : State).touch .read a
  else { s with readData := (s.mem.read a).setWidth 32 }

/-- The host samples IRQ; taking the interrupt is seeing the command's end (60_exceptions.md R330;
70_reset_and_hazards.md R361). -/
def State.takeInterrupt (s : State) : State :=
  let t := { s with readData := if s.irq then 1 else 0 }
  if s.irq then t.closeWindows else t

/-! ## The moves -/

/-- One move of the agenda (10_state.md R40). The engine's turn does nothing while no command is in flight. -/
def playEvent (s : State) (e : Event) : Host.Outcome State Fault Refusal :=
  match e with
  | .regWrite offset width v =>
    if registerAccessLegal offset width then .next (s.writeOffset offset v) else .refused .registerAccessShape
  | .regRead offset width =>
    if registerAccessLegal offset width then .next (s.hostReadReg offset) else .refused .registerAccessShape
  | .memWrite a v =>
    if s.platform.registerWindow.has a.toNat then .refused .registerAccessShape else .next (s.hostWriteByte a.toNat v)
  | .memRead a =>
    if s.platform.registerWindow.has a.toNat then .refused .registerAccessShape else .next (s.hostReadByte a.toNat)
  | .takeInterrupt => .next s.takeInterrupt
  | .resetInput => .next s.resetCore
  | .engine => if s.status.busy then engineStep s else .next s

/-- The next move (10_state.md R40): the agenda's first, or, with no move left there, the engine's step while BUSY = 1.
An idle CORE waits (70_reset_and_hazards.md R352). -/
def nextMove (s : State) : Host.Outcome State Fault Refusal :=
  match s.agenda with
  | [] => if s.status.busy then engineStep s else .next s
  | e :: rest => playEvent { s with agenda := rest } e

/-- The agenda in which the engine moves first and every other move stays as it is. -/
def engineFirst (agenda : List Event) : List Event :=
  match agenda with
  | [] => []
  | e :: rest => .engine :: e :: rest

/-! ## Command lists -/

/-- A statement of a host command list (30_encoding.md R88, R89), `run` apart, which is several of them. -/
inductive Statement where
  /-- `wr NAME, value`. -/
  | wr (r : Reg) (v : Word)
  /-- `rd NAME`. -/
  | rd (r : Reg)
  /-- `cmd MNEMONIC fields`. -/
  | cmd (i : Instr)
  /-- `wait`: read STATUS until BUSY = 0. -/
  | wait
  /-- `ack`: write 0x0000000E to STATUS. -/
  | ack
  deriving DecidableEq, Repr

/-- The moves a statement stands for (30_encoding.md R88, R89). `wait` is a loop that ends after the engine step
(70_reset_and_hazards.md R362): its last round, the engine's turn before it. -/
def Statement.events : Statement → List Event
  | .wr r v => [.regWrite (regOffset r) .word v]
  | .rd r => [.regRead (regOffset r) .word]
  | .cmd i => [.regWrite (regOffset .cmd) .word (encode i)]
  | .wait => [.engine, .regRead (regOffset .status) .word]
  | .ack => [.regWrite (regOffset .status) .word 0x0000000E]

/-- `run MNEMONIC fields src=a,b dst=c,d p0=e p1=f` (30_encoding.md R89); an omitted operand is not written. -/
def runStatements (i : Instr) (src dst : Option (Word × Word)) (p0 p1 : Option Word) : List Statement :=
  (src.elim [] fun ab => [.wr .srcAddr ab.1, .wr .srcLen ab.2])
    ++ (dst.elim [] fun cd => [.wr .dstAddr cd.1, .wr .dstLen cd.2])
    ++ (p0.elim [] fun e => [.wr .param0 e]) ++ (p1.elim [] fun f => [.wr .param1 f]) ++ [.cmd i, .wait]

/-- The moves of a command list. -/
def commandList (statements : List Statement) : List Event := statements.flatMap Statement.events

end Sys2Proof.Machine
end

