-- ==== Sys2Proof/Machine/Step.lean ====
section
/-! DEFINITION. One step of the machine (10_state.md R40), and where it finds its next command. -/
namespace Sys2Proof.Machine

/-- One step: one move of the host side or one whole command of the engine (00_scope.md R6; 10_state.md R40). -/
def step (s : State) : Host.Outcome State Fault Refusal := nextMove s

/-- `s` with a command word where the engine fetches it, so that the next step runs it: the state right after a host
write of the word to CMD with no command in flight (10_state.md R24), the engine to move. A command word has 32 bits, so
the bits of `w` from `nbits` on, and from 32 on, are dropped. -/
def State.withFetchWord (s : State) (nbits w : Nat) : State :=
  { s.startCommand (BitVec.ofNat 32 (w % 2 ^ nbits)) with agenda := engineFirst s.agenda }

end Sys2Proof.Machine
end

