-- ==== Sys2Proof/Safety.lean ====
section
/-! DEFINITION. The terms in which claims about CORE are stated: the invariant of the machine, a state in which a command
may run, and what a command's success end and error end leave (10_state.md R41; 60_exceptions.md R325). -/
namespace Sys2Proof.Machine

/-! ## The invariant -/

/-- Every listed byte is a byte of memory: in the address space and outside the register window (20_memory.md R60). -/
def State.memoryPlaced (s : State) : Prop := ∀ c ∈ s.mem, s.platform.isMemory c.1 = true

/-- BUSY = 1 implies DONE = 0, ERROR = 0 and ERR_CODE = 0 (10_state.md R23), and RESULT0, RESULT1 and ERR_INFO read 0
(70_reset_and_hazards.md R360). -/
def State.busyIsClean (s : State) : Prop :=
  s.status.busy = true →
    s.status.done = false ∧ s.status.error = false ∧ s.status.errCode = none ∧ s.result0 = 0 ∧ s.result1 = 0
      ∧ s.errInfo = 0

/-- While a command runs, the first window is that of the command word in CMD, with the operand registers it started with
(10_state.md R40; 70_reset_and_hazards.md R360, R361). -/
def State.busyIsWatched (s : State) : Prop :=
  s.status.busy = true →
    ∃ w ws, s.windows = w :: ws ∧ w.input = (s.windowFor s.cmd).input ∧ w.output = (s.windowFor s.cmd).output

/-- ERROR = 1 goes with a nonzero ERR_CODE (10_state.md R23, R41). -/
def State.errorIsNamed (s : State) : Prop := s.status.error = true → s.status.errCode ≠ none

/-- The invariant of the machine: the memory's canonical form, the places of its bytes, and what STATUS says of the
other registers. -/
structure State.Inv (s : State) : Prop where
  canonical : s.mem.wf = true
  placed : s.memoryPlaced
  clean : s.busyIsClean
  watched : s.busyIsWatched
  named : s.errorIsNamed

/-! ## Bytes in memory -/

/-- The `n` bytes from `a` on as a number, little-endian (20_memory.md R61, R63). -/
def Memory.little (m : Memory) (a : Nat) : Nat → Nat
  | 0 => 0
  | n + 1 => (m.read a).toNat + 256 * Memory.little m (a + 1) n

/-- The low `n` bytes of a number, the least significant first (20_memory.md R62, R63). -/
def littleBytes : (n v : Nat) → List Byte
  | 0, _ => []
  | n + 1, v => BitVec.ofNat 8 v :: littleBytes n (v / 256)

/-- The memory with the bytes at consecutive addresses from `a` on. -/
def Memory.store (m : Memory) (a : Nat) : List Byte → Memory
  | [] => m
  | v :: vs => Memory.store (m.write a v) (a + 1) vs

/-- The memory reads the bytes at consecutive addresses from `a` on. -/
def Memory.Holds (m : Memory) (a : Nat) (bytes : List Byte) : Prop :=
  ∀ j < bytes.length, m.read (a + j) = bytes.getD j 0

/-! ## Where a command may run -/

/-- REG_BASE (10_state.md R20). -/
def State.regBase (s : State) : Nat := 256 * s.platform.regPage.toNat

/-- The buffers pass the three checks of 20_memory.md R65: no wrap, no byte in the register window, no byte in both. -/
structure State.BuffersUsable (s : State) : Prop where
  inputFits : s.srcAddr.toNat + s.srcLen.toNat ≤ 2 ^ 32
  outputFits : s.dstAddr.toNat + s.dstLen.toNat ≤ 2 ^ 32
  inputClear : s.srcLen.toNat = 0 ∨ s.srcAddr.toNat + s.srcLen.toNat ≤ s.regBase ∨ s.regBase + 256 ≤ s.srcAddr.toNat
  outputClear : s.dstLen.toNat = 0 ∨ s.dstAddr.toNat + s.dstLen.toNat ≤ s.regBase ∨ s.regBase + 256 ≤ s.dstAddr.toNat
  disjoint : s.srcLen.toNat = 0 ∨ s.dstLen.toNat = 0 ∨ s.srcAddr.toNat + s.srcLen.toNat ≤ s.dstAddr.toNat
    ∨ s.dstAddr.toNat + s.dstLen.toNat ≤ s.srcAddr.toNat

/-- The platform rejects no access to a byte of the two buffers (20_memory.md R69). -/
structure State.BusAccepts (s : State) : Prop where
  input : ∀ j < s.srcLen.toNat, s.platform.rejects (s.srcAddr.toNat + j) .read = false
  output : ∀ j < s.dstLen.toNat, s.platform.rejects (s.dstAddr.toNat + j) .write = false
  readBack : ∀ j < s.dstLen.toNat, s.platform.rejects (s.dstAddr.toNat + j) .read = false

/-! ## How a command ends -/

/-- No register but STATUS, RESULT0, RESULT1 and ERR_INFO has changed, nor the platform, nor the moves to come
(60_exceptions.md R325: "Nothing else changes"; 10_state.md R30: only host writes change the operand registers). -/
structure State.SameBesidesEnd (s t : State) : Prop where
  ctrl : t.ctrl = s.ctrl
  cmd : t.cmd = s.cmd
  srcAddr : t.srcAddr = s.srcAddr
  srcLen : t.srcLen = s.srcLen
  dstAddr : t.dstAddr = s.dstAddr
  dstLen : t.dstLen = s.dstLen
  param0 : t.param0 = s.param0
  param1 : t.param1 = s.param1
  platform : t.platform = s.platform
  agenda : t.agenda = s.agenda
  windows : t.windows = s.windows
  readData : t.readData = s.readData

/-- `t` is `s` after a command's success end with the two results (10_state.md R41, R28, R29). It says nothing of
memory. -/
structure State.Succeeded (s t : State) (r0 r1 : Nat) : Prop where
  same : s.SameBesidesEnd t
  draws : t.draws = s.draws
  status : t.status = { busy := false, done := true, error := false, wbusy := s.status.wbusy, errCode := none }
  result0 : t.result0 = BitVec.ofNat 32 r0
  result1 : t.result1 = BitVec.ofNat 32 r1
  errInfo : t.errInfo = 0

/-- `t` is `s` after a command's error end (60_exceptions.md R325; 10_state.md R41) with `stored` output bytes written. It
says nothing of memory. -/
structure State.Failed (s t : State) (e : Err) (stored info : Nat) : Prop where
  same : s.SameBesidesEnd t
  status : t.status = { busy := false, done := true, error := true, wbusy := s.status.wbusy, errCode := some e }
  result0 : t.result0 = BitVec.ofNat 32 stored
  result1 : t.result1 = 0
  errInfo : t.errInfo = BitVec.ofNat 32 info

/-- Memory reads `f j` at the address `a + j` for each j below `n`, and as before everywhere else. -/
structure State.Stored (s t : State) (a n : Nat) (f : Nat → Byte) : Prop where
  inside : ∀ j < n, t.mem.read (a + j) = f j
  outside : ∀ b, (b < a ∨ a + n ≤ b) → t.mem.read b = s.mem.read b

end Sys2Proof.Machine
end

