-- ==== Sys2Proof/WellFormed.lean ====
section
/-! DEFINITION. Well-formed commands: those whose FMT code names a format the command takes and whose SWZ code
names a mode, which are checks 2 and 3 of 30_encoding.md R85 and the format test of 43_etc1.md R245 and R275. A
command that is not well formed still decodes and still runs: it ends with UnsupportedFormat (60_exceptions.md
R323). -/
namespace Sys2Proof

/-- FMT names one of the fourteen formats (30_encoding.md R81: 14 and 15 name none). -/
def namesFormat (fmt : BitVec 4) : Bool := decide (fmt.toNat < 14)

/-- FMT names ETC1 or ETC1A4, the two formats of the block codec commands (43_etc1.md R245, R275). -/
def namesBlockFormat (fmt : BitVec 4) : Bool := decide (fmt.toNat = 12 ∨ fmt.toNat = 13)

/-- SWZ names one of the four modes (30_encoding.md R82: 4 to 15 name none). -/
def namesMode (swz : BitVec 4) : Bool := decide (swz.toNat < 4)

/-- The command's fields are codes the command takes (30_encoding.md R85 checks 2 and 3; 43_etc1.md R245, R275). -/
def Instr.wellFormed : Instr → Bool
  | .nop | .lz10Dec | .lz11Dec | .rleDec | .contDec | .huff4Dec | .huff8Dec => true
  | .etc1Dec fmt | .etc1Enc fmt => namesBlockFormat fmt
  | .swzAddr swz | .texDim swz _ => namesMode swz
  | .pixDec fmt | .pixEnc fmt => namesFormat fmt
  | .texDec fmt swz _ | .texEnc fmt swz _ => namesFormat fmt && namesMode swz

end Sys2Proof
end

