-- ==== Sys2Proof/Certificates/Slice0/Reference.lean ====
section
/-! DEFINITION. The data formats in the terms of the spec's tables, as the statements of Obligations.lean use them: what
bytes a sequence of tokens is written as and what bytes it stands for (40_decompressors.md, 41_huffman.md), which pixel a
texel buffer holds at an index and which texel bytes pixels are written as (42_pixel_format.md, 43_etc1.md). None of it
walks an input or keeps a cursor. -/
namespace Sys2Proof.Reference

open Sys2Proof.Machine

/-! ## LZ10 and LZ11 tokens (40_decompressors.md R114, R115, R119) -/

/-- A token of an LZ stream. -/
inductive LzToken where
  /-- One byte, copied. -/
  | literal (v : Byte)
  /-- `len` bytes from `disp` bytes behind the output position. -/
  | back (disp len : Nat)
  deriving DecidableEq, Repr

/-- The flag bit of the token (R114). -/
def LzToken.flag : LzToken → Bool
  | .literal _ => false
  | .back _ _ => true

/-- The ranges of an LZ10 back-reference (R115). -/
def LzToken.legal10 : LzToken → Bool
  | .literal _ => true
  | .back disp len => decide (1 ≤ disp) && decide (disp ≤ 4096) && decide (3 ≤ len) && decide (len ≤ 18)

/-- The ranges of an LZ11 back-reference (R119). -/
def LzToken.legal11 : LzToken → Bool
  | .literal _ => true
  | .back disp len => decide (1 ≤ disp) && decide (disp ≤ 4096) && decide (3 ≤ len) && decide (len ≤ 65808)

/-- The byte with `hi` in bits 7:4 and `lo` in bits 3:0. -/
def nibblePair (hi lo : Nat) : Byte := BitVec.ofNat 4 hi ++ BitVec.ofNat 4 lo

/-- An LZ10 token's bytes (R114, R115). -/
def LzToken.bytes10 : LzToken → List Byte
  | .literal v => [v]
  | .back disp len => [nibblePair (len - 3) ((disp - 1) / 256), BitVec.ofNat 8 (disp - 1)]

/-- An LZ11 token's bytes: the compact, the medium and the long form (R119). -/
def LzToken.bytes11 : LzToken → List Byte
  | .literal v => [v]
  | .back disp len =>
    if len ≤ 16 then [nibblePair (len - 1) ((disp - 1) / 256), BitVec.ofNat 8 (disp - 1)]
    else if len ≤ 272 then
      [nibblePair 0 ((len - 17) / 16), nibblePair (len - 17) ((disp - 1) / 256), BitVec.ofNat 8 (disp - 1)]
    else
      [nibblePair 1 ((len - 273) / 4096), BitVec.ofNat 8 ((len - 273) / 16),
        nibblePair (len - 273) ((disp - 1) / 256), BitVec.ofNat 8 (disp - 1)]

/-- A flag byte and the tokens it governs. -/
structure LzGroup where
  flags : Byte
  tokens : List LzToken
  deriving DecidableEq, Repr

/-- A group has one to eight tokens, in range, and flag bit 7 - i tells token i (R114). -/
def LzGroup.legal (ok : LzToken → Bool) (g : LzGroup) : Bool :=
  decide (1 ≤ g.tokens.length) && decide (g.tokens.length ≤ 8) && g.tokens.all ok
    && (List.range g.tokens.length).all fun i => g.flags.getLsbD (7 - i) == (g.tokens.map LzToken.flag).getD i false

/-- Every group but the last governs eight tokens (R114). -/
def groupsFull : List LzGroup → Bool
  | [] => true
  | [_] => true
  | g :: h :: gs => decide (g.tokens.length = 8) && groupsFull (h :: gs)

/-- A group's bytes: the flag byte, then the tokens in order. -/
def LzGroup.bytes (enc : LzToken → List Byte) (g : LzGroup) : List Byte := g.flags :: g.tokens.flatMap enc

/-- `len` more bytes, each the one `disp` behind the end (R112). -/
def copyBehind (disp : Nat) : (len : Nat) → List Byte → List Byte
  | 0, out => out
  | len + 1, out => copyBehind disp len (out ++ [out.getD (out.length - disp) 0])

/-- The output after one more token; none where it reads before the start of the output (R112). -/
def LzToken.apply (out : List Byte) : LzToken → Option (List Byte)
  | .literal v => some (out ++ [v])
  | .back disp len => if disp ≤ out.length then some (copyBehind disp len out) else none

/-- The output of tokens, after `out`. -/
def expandTokens : List Byte → List LzToken → Option (List Byte)
  | out, [] => some out
  | out, t :: ts => (t.apply out).bind fun out' => expandTokens out' ts

/-- `input` is an LZ body that stands for the bytes `out`, with tokens that are `ok` and written as `enc` says. -/
def LzBody (ok : LzToken → Bool) (enc : LzToken → List Byte) (input out : List Byte) : Prop :=
  ∃ groups : List LzGroup,
    (∀ g ∈ groups, g.legal ok = true) ∧ groupsFull groups = true ∧ input = groups.flatMap (LzGroup.bytes enc)
      ∧ expandTokens [] (groups.flatMap LzGroup.tokens) = some out

/-- An LZ10 body (R116). -/
def Lz10Body (input out : List Byte) : Prop := LzBody LzToken.legal10 LzToken.bytes10 input out

/-- An LZ11 body (R120). -/
def Lz11Body (input out : List Byte) : Prop := LzBody LzToken.legal11 LzToken.bytes11 input out

/-- The LZ body ends CorruptStream for the declared length `n` after the bytes `input`, with the bytes `out` written: its
last token cannot be had. `atEnd`: the input ends inside that token, or before the flag byte it would have begun (R116;
20_memory.md R66). Otherwise the token is whole, and reaches before the output or past the length (R112). -/
def LzStuck (ok : LzToken → Bool) (enc : LzToken → List Byte) (n : Nat) (atEnd : Bool) (input out : List Byte) : Prop :=
  ∃ (groups : List LzGroup) (last : LzGroup) (tokens : List LzToken) (token : LzToken),
    (∀ g ∈ groups ++ [last], g.legal ok = true) ∧ groupsFull (groups ++ [last]) = true
      ∧ (groups ++ [last]).flatMap LzGroup.tokens = tokens ++ [token]
      ∧ expandTokens [] tokens = some out ∧ out.length < n
      ∧ let bytes := (groups ++ [last]).flatMap (LzGroup.bytes enc)
        if atEnd then
          input <+: bytes ∧ input.length < bytes.length
            ∧ bytes.length ≤ input.length + (enc token).length + (if last.tokens.length = 1 then 1 else 0)
        else
          input = bytes ∧ ∃ disp len, token = .back disp len ∧ (out.length < disp ∨ n < out.length + len)

/-! ## RLE groups (40_decompressors.md R122) -/

/-- A flag byte of RLE with what follows it. -/
inductive RleGroup where
  /-- `count` times the byte `v`. -/
  | run (count : Nat) (v : Byte)
  /-- The bytes themselves. -/
  | literals (vs : List Byte)
  deriving DecidableEq, Repr

/-- A run has 3 to 130 copies, a literal group 1 to 128 bytes (R122). -/
def RleGroup.legal : RleGroup → Bool
  | .run count _ => decide (3 ≤ count) && decide (count ≤ 130)
  | .literals vs => decide (1 ≤ vs.length) && decide (vs.length ≤ 128)

/-- The group's bytes (R122). -/
def RleGroup.bytes : RleGroup → List Byte
  | .run count v => [BitVec.ofNat 8 (128 + (count - 3)), v]
  | .literals vs => BitVec.ofNat 8 (vs.length - 1) :: vs

/-- The bytes the group stands for (R122). -/
def RleGroup.expand : RleGroup → List Byte
  | .run count v => List.replicate count v
  | .literals vs => vs

/-- `input` is an RLE body that stands for the bytes `out` (R123). -/
def RleBody (input out : List Byte) : Prop :=
  ∃ groups : List RleGroup,
    (∀ g ∈ groups, g.legal = true) ∧ input = groups.flatMap RleGroup.bytes ∧ out = groups.flatMap RleGroup.expand

/-- The bytes a cut group still gives: the literal bytes that are there, and nothing of a run (R123). -/
def RleGroup.cut (g : RleGroup) (tail : List Byte) : List Byte :=
  match g with
  | .run _ _ => []
  | .literals _ => tail.drop 1

/-- The RLE body ends CorruptStream for the declared length `n` after the bytes `input`, with the bytes `out` written: its
last group cannot be had. `atEnd`: the input ends inside that group or before it, which gives what literals there are
(20_memory.md R66). Otherwise the group runs past the length, which shows once a run's byte, or the flag byte of
literals, is read (R123). -/
def RleStuck (n : Nat) (atEnd : Bool) (input out : List Byte) : Prop :=
  ∃ (groups : List RleGroup) (last : RleGroup) (tail : List Byte),
    (∀ g ∈ groups ++ [last], g.legal = true) ∧ input = groups.flatMap RleGroup.bytes ++ tail
      ∧ let done := groups.flatMap RleGroup.expand
        done.length < n
          ∧ if atEnd then
              tail <+: last.bytes ∧ tail.length < last.bytes.length ∧ out = done ++ last.cut tail
                ∧ (∀ vs, last = .literals vs → done.length + vs.length ≤ n)
            else
              out = done ∧ n < done.length + last.expand.length
                ∧ tail = match last with
                  | .run _ _ => last.bytes
                  | .literals _ => last.bytes.take 1

/-! ## Huffman bodies (41_huffman.md) -/

/-- The address of the child that a bit selects at the internal node at `a` (R162). -/
def childAddress (tree : List Byte) (a : Nat) (b : Bool) : Nat :=
  2 * (a / 2) + 2 * ((tree.getD a 0).extractLsb' 0 6).toNat + 2 + b.toNat

/-- Is that child a leaf (R161)? -/
def childLeaf (tree : List Byte) (a : Nat) (b : Bool) : Bool :=
  if b then (tree.getD a 0).getLsbD 6 else (tree.getD a 0).getLsbD 7

/-- The symbol byte at the end of a path from the internal node at `a`; none where the path leaves the tree, ends on an
internal node, or goes on past a leaf (R161, R162, R163). -/
def leafOf (tree : List Byte) : (a : Nat) → (path : List Bool) → Option Byte
  | _, [] => none
  | a, b :: path =>
    if tree.length ≤ childAddress tree a b then none
    else if childLeaf tree a b then if path.isEmpty then some (tree.getD (childAddress tree a b) 0) else none
    else leafOf tree (childAddress tree a b) path

/-- The address of the internal node at the end of a path from the one at `a`; none where the path leaves the tree or
meets a leaf (R161, R162). -/
def nodeAt (tree : List Byte) : (a : Nat) → (path : List Bool) → Option Nat
  | a, [] => some a
  | a, b :: path =>
    if tree.length ≤ childAddress tree a b || childLeaf tree a b then none
    else nodeAt tree (childAddress tree a b) path

/-- The bits of a word, bit 31 first (R165). -/
def wordBits (w : Word) : List Bool := (List.range 32).map fun i => w.getLsbD (31 - i)

/-- The output bytes of 4-bit symbols, two to a byte, the first in the low half (R163, R166). -/
def packNibbles : List Byte → List Byte
  | lo :: hi :: rest => (hi.extractLsb' 0 4 ++ lo.extractLsb' 0 4) :: packNibbles rest
  | _ => []

/-- `input` is a Huffman body that stands for the bytes `out`: nothing for no bytes, and otherwise a tree and the fewest
words that hold the symbols' paths (R160, R165, R166). -/
def HuffBody (wide : Bool) (input out : List Byte) : Prop :=
  (input = [] ∧ out = []) ∨
  ∃ (tree : List Byte) (words : List Word) (paths : List (List Bool)) (symbols : List Byte),
    tree.length = 2 * ((tree.getD 0 0).toNat + 1)
      ∧ paths.map (leafOf tree 1) = symbols.map some
      ∧ paths.flatten <+: words.flatMap wordBits
      ∧ 32 * words.length < paths.flatten.length + 32
      ∧ input = tree ++ words.flatMap (fun w => littleBytes 4 w.toNat)
      ∧ out ≠ []
      ∧ (if wide then out = symbols else symbols.length = 2 * out.length ∧ out = packNibbles symbols)

/-- The Huffman body ends CorruptStream for the declared length `n` after the bytes `input`, with the bytes `out` written.
`atEnd`: the input ends inside the tree, or inside or before a word of which a bit is needed (R160, R165;
20_memory.md R66). Otherwise the bit after `rest` selects a child outside the tree (R162, R166). -/
def HuffStuck (wide : Bool) (n : Nat) (atEnd : Bool) (input out : List Byte) : Prop :=
  0 < n ∧
    ((atEnd = true ∧ out = [] ∧ (input = [] ∨ input.length < 2 * ((input.getD 0 0).toNat + 1))) ∨
    ∃ (tree : List Byte) (words : List Word) (part : List Byte) (paths : List (List Bool)) (symbols : List Byte)
      (rest : List Bool) (node : Nat),
      tree.length = 2 * ((tree.getD 0 0).toNat + 1)
        ∧ input = tree ++ words.flatMap (fun w => littleBytes 4 w.toNat) ++ part
        ∧ paths.map (leafOf tree 1) = symbols.map some
        ∧ nodeAt tree 1 rest = some node
        ∧ symbols.length < (if wide then n else 2 * n)
        ∧ out = (if wide then symbols else packNibbles symbols)
        ∧ if atEnd then part.length < 4 ∧ words.flatMap wordBits = paths.flatten ++ rest
          else
            part = [] ∧ ∃ b, tree.length ≤ childAddress tree node b
              ∧ paths.flatten ++ rest ++ [b] <+: words.flatMap wordBits
              ∧ 32 * words.length < (paths.flatten ++ rest ++ [b]).length + 32)

/-! ## Container bodies (40_decompressors.md R126) -/

/-- `input` is the body of container method `m` and stands for the bytes `out` (R126, R127). -/
def ContainerBody (m : Nat) (input out : List Byte) : Prop :=
  match m with
  | 0 => input = out
  | 1 => Lz10Body input out
  | 2 => HuffBody false input out
  | 3 => HuffBody true input out
  | 4 => RleBody input out
  | _ => False

/-- The body of container method `m` ends CorruptStream for the declared length `n` after the bytes `input`, with the
bytes `out` written (R127): a verbatim body where its input ends. -/
def ContainerStuck (m n : Nat) (atEnd : Bool) (input out : List Byte) : Prop :=
  match m with
  | 0 => atEnd = true ∧ out = input ∧ input.length < n
  | 1 => LzStuck LzToken.legal10 LzToken.bytes10 n atEnd input out
  | 2 => HuffStuck false n atEnd input out
  | 3 => HuffStuck true n atEnd input out
  | 4 => RleStuck n atEnd input out
  | _ => False

/-! ## The ETC1 block, field by field (43_etc1.md R233 to R237) -/

/-- The base level of a channel for a sub-block, from the channel's byte (R235). -/
def baseLevel (diff : Bool) (x : Byte) (second : Bool) : Nat :=
  if diff then
    let b0 := x.extractLsb' 3 5
    (if second then b0 + (x.extractLsb' 0 3).signExtend 5 else b0).toNat
  else (if second then x.extractLsb' 0 4 else x.extractLsb' 4 4).toNat

/-- The scaled base of a level: bit replication to 8 bits (R235; 00_scope.md R11). -/
def scaledLevel (diff : Bool) (q : Nat) : Nat := if diff then q * 8 + q / 4 else q * 17

/-- The offsets of the modifier tables: the small and the large one (R230). -/
def modifierPair (t : Nat) : Int × Int :=
  [(2, 8), (5, 17), (9, 29), (13, 42), (18, 60), (24, 80), (33, 106), (47, 183)].getD t (0, 0)

/-- The channel value of the pixel in column `x` and row `y` of the block word `w`, the channel given by its byte
(R233, R234, R237). -/
def blockChannel (w : BitVec 64) (channel : Byte) (x y : Nat) : Int :=
  let i := 4 * x + y
  let diff := w.getLsbD 33
  let second := if w.getLsbD 32 then decide (2 ≤ y) else decide (2 ≤ x)
  let table := (if second then w.extractLsb' 34 3 else w.extractLsb' 37 3).toNat
  let large := w.getLsbD i
  let negative := w.getLsbD (16 + i)
  let size := if large then (modifierPair table).2 else (modifierPair table).1
  let v := (scaledLevel diff (baseLevel diff channel second) : Int) + (if negative then -size else size)
  max 0 (min 255 v)

/-- The column and the row of caller position `k` (R233). -/
def callerColumn (k : Nat) : Nat := 2 * (k / 4 % 2) + k % 2
/-- The row of caller position `k` (R233). -/
def callerRow (k : Nat) : Nat := 2 * (k / 8 % 2) + k / 2 % 2

/-- The pixel at caller position `k` of the block word, with the alpha plane if there is one (R236, R237). -/
def callerPixel (w : BitVec 64) (plane : Option (BitVec 64)) (k : Nat) : Pixel :=
  let x := callerColumn k
  let y := callerRow k
  let value (channel : Byte) : Byte := BitVec.ofInt 8 (blockChannel w channel x y)
  { r := value (w.extractLsb' 56 8), g := value (w.extractLsb' 48 8), b := value (w.extractLsb' 40 8)
    a := match plane with
      | none => 255
      | some p => p.extractLsb' (4 * (4 * x + y)) 4 ++ p.extractLsb' (4 * (4 * x + y)) 4 }

/-! ## Texel buffers (42_pixel_format.md R181 to R183, R198; 43_etc1.md R234, R236) -/

/-- The 16 pixels of the ETC1 or ETC1A4 unit at `a` (42_pixel_format.md R182, R198; 43_etc1.md R238). -/
def blockAt (m : Memory) (a : Nat) (alpha : Bool) : List Pixel :=
  (List.range 16).map
    (if alpha then callerPixel (BitVec.ofNat 64 (m.little (a + 8) 8)) (some (BitVec.ofNat 64 (m.little a 8)))
    else callerPixel (BitVec.ofNat 64 (m.little a 8)) none)

/-- Pixel `j` of the texel buffer at `a` (42_pixel_format.md R182). -/
def pixelAt (m : Memory) (f : PixelFormat) (a j : Nat) : Pixel :=
  match texelLayout f with
  | .bytes size decode _ => decode (m.little (a + j * size) size)
  | .nibbles decode _ => decode ((m.read (a + j / 2)).toNat / (if j % 2 = 0 then 1 else 16) % 16)
  | .blocks alpha => (blockAt m (a + blockBytes alpha * (j / 16)) alpha).getD (j % 16) (Pixel.ofNat 0 0 0 0)

/-- The pixel record `n` of the array at `a` (30_encoding.md R86). -/
def recordAt (m : Memory) (a n : Nat) : Pixel :=
  { r := m.read (a + 4 * n), g := m.read (a + 4 * n + 1), b := m.read (a + 4 * n + 2), a := m.read (a + 4 * n + 3) }

/-- Byte `j` of a pixel record: R, G, B, A (30_encoding.md R86). -/
def channelByte (p : Pixel) (j : Nat) : Byte :=
  if j = 0 then p.r else if j = 1 then p.g else if j = 2 then p.b else p.a

/-- The bytes of one encoded block: the alpha plane first (43_etc1.md R250; 42_pixel_format.md R198). -/
def encodedBlock (alpha : Bool) (pixels : List Pixel) : List Byte :=
  (if alpha then littleBytes 8 (alphaWord (blockOrder pixels)) else [])
    ++ littleBytes 8 (encodeColours ((blockOrder pixels).map Pixel.rgb)).1

/-- The bytes of 4-bit values, two to a byte, the first in the low half, a last half byte filled with 0
(42_pixel_format.md R183, R184). -/
def nibbleBytes : List Nat → List Byte
  | lo :: hi :: rest => BitVec.ofNat 8 (16 * hi + lo) :: nibbleBytes rest
  | [lo] => [BitVec.ofNat 8 lo]
  | [] => []

/-- The first `count` blocks of 16 pixels each. -/
def blockChunks : (count : Nat) → List Pixel → List (List Pixel)
  | 0, _ => []
  | count + 1, pixels => pixels.take 16 :: blockChunks count (pixels.drop 16)

/-- The texel bytes of pixels, without the zero-alpha step (42_pixel_format.md R183). -/
def texelBytes (f : PixelFormat) (pixels : List Pixel) : List Byte :=
  match texelLayout f with
  | .bytes size _ encode => pixels.flatMap fun c => littleBytes size (encode c)
  | .nibbles _ encode => nibbleBytes (pixels.map encode)
  | .blocks alpha => (blockChunks (pixels.length / 16) pixels).flatMap (encodedBlock alpha)

/-! ## The ETC1 encoder's search (43_etc1.md R265 to R271) -/

/-- The levels a base may take: below the limit in every channel, and within -4 to 3 of the base it is stored against
(43_etc1.md R235, R266, R269). -/
def LegalBase (diff : Bool) (ref : Option Rgb) (c : Rgb) : Prop :=
  (0 ≤ c.r ∧ c.r < levels diff ∧ 0 ≤ c.g ∧ c.g < levels diff ∧ 0 ≤ c.b ∧ c.b < levels diff)
    ∧ ∀ b, ref = some b →
        -4 ≤ c.r - b.r ∧ c.r - b.r ≤ 3 ∧ -4 ≤ c.g - b.g ∧ c.g - b.g ≤ 3 ∧ -4 ≤ c.b - b.b ∧ c.b - b.b ≤ 3

/-- The Chebyshev distance of two bases (43_etc1.md R267). -/
def baseDistance (c d : Rgb) : Nat := max (c.r - d.r).natAbs (max (c.g - d.g).natAbs (c.b - d.b).natAbs)

/-- The search tries base `c` with table `t` before base `d` with table `u`: the nearer to the start base first, then the
lower R, G and B, then the lower table (43_etc1.md R266, R267, R271). -/
def TriedBefore (start c : Rgb) (t : Nat) (d : Rgb) (u : Nat) : Prop :=
  baseDistance c start < baseDistance d start ∨ baseDistance c start = baseDistance d start ∧
    (c.r < d.r ∨ c.r = d.r ∧ (c.g < d.g ∨ c.g = d.g ∧ (c.b < d.b ∨ c.b = d.b ∧ t < u)))

/-- A legal base within `reach` levels of the start base, with its table. -/
def Candidate (pixels : List Rgb) (diff : Bool) (ref : Option Rgb) (reach : Nat) (c : Rgb) (t : Nat) : Prop :=
  LegalBase diff ref c ∧ t < 8 ∧ baseDistance c (startBase pixels diff) ≤ reach

/-- A candidate within 4 levels has an error of at most 9000, so that the search does not widen (43_etc1.md R268). -/
def NearFits (pixels : List Rgb) (diff : Bool) (ref : Option Rgb) : Prop :=
  ∃ c t, Candidate pixels diff ref 4 c t ∧ (evaluate pixels c diff t).err ≤ 9000

/-- `best` is the first of the candidates of least error in the order they are tried (43_etc1.md R271). -/
def IsFirstLeast (pixels : List Rgb) (diff : Bool) (ref : Option Rgb) (reach : Nat) (best : SubSolution) : Prop :=
  Candidate pixels diff ref reach best.base best.table ∧ best = evaluate pixels best.base diff best.table
    ∧ ∀ c t, Candidate pixels diff ref reach c t →
        best.err < (evaluate pixels c diff t).err
          ∨ best.err = (evaluate pixels c diff t).err
            ∧ ((c = best.base ∧ t = best.table) ∨ TriedBefore (startBase pixels diff) best.base best.table c t)

/-! ## The ETC1 encoder's choice of a block (43_etc1.md R250, R265, R269, R273) -/

/-- Is block pixel `i` in the second sub-block: the right half, or with flip the bottom half (43_etc1.md R233)? -/
def inSecond (flip : Bool) (i : Nat) : Bool := if flip then decide (2 ≤ i % 4) else decide (8 ≤ i)

/-- The colours of a sub-block, block pixel index ascending (43_etc1.md R265). -/
def half (pixels : List Rgb) (flip second : Bool) : List Rgb :=
  ((List.range 16).filter fun i => inSecond flip i == second).filterMap fun i => pixels[i]?

/-- The two searches of one flip and diff combination: the second is held to the first's base in diff mode; none where
either finds nothing (43_etc1.md R265, R269). -/
def bothHalves (pixels : List Rgb) (flip diff : Bool) : Option (SubSolution × SubSolution) :=
  (search (half pixels flip false) diff none).bind fun s0 =>
    (search (half pixels flip true) diff (if diff then some s0.base else none)).map fun s1 => (s0, s1)

/-- The block word holds the two solutions, field by field (43_etc1.md R234, R273). -/
def HoldsSolutions (w : BitVec 64) (flip diff : Bool) (s0 s1 : SubSolution) : Prop :=
  w.getLsbD 32 = flip ∧ w.getLsbD 33 = diff
    ∧ (w.extractLsb' 37 3).toNat = s0.table ∧ (w.extractLsb' 34 3).toNat = s1.table
    ∧ (∀ second : Bool, (if second then s1 else s0).base
        = { r := baseLevel diff (w.extractLsb' 56 8) second, g := baseLevel diff (w.extractLsb' 48 8) second,
            b := baseLevel diff (w.extractLsb' 40 8) second })
    ∧ ∀ i < 16,
        (if inSecond flip i then s1 else s0).sel[((List.range i).filter fun j => inSecond flip j == inSecond flip i).length]?
          = some (2 * (w.getLsbD (16 + i)).toNat + (w.getLsbD i).toNat)

/-- The block word `w` and the error `e` are the first of least error among the four combinations, in the order flip 0
diff 0, flip 0 diff 1, flip 1 diff 0, flip 1 diff 1 (43_etc1.md R265; 00_scope.md R13). -/
def IsGeneralBlock (pixels : List Rgb) (w : BitVec 64) (e : Nat) : Prop :=
  ∃ flip diff s0 s1, bothHalves pixels flip diff = some (s0, s1) ∧ e = s0.err + s1.err
    ∧ HoldsSolutions w flip diff s0 s1
    ∧ ∀ flip' diff' r0 r1, bothHalves pixels flip' diff' = some (r0, r1) →
        e < r0.err + r1.err
          ∨ e = r0.err + r1.err ∧ 2 * flip.toNat + diff.toNat ≤ 2 * flip'.toNat + diff'.toNat

/-! ## The solid block (43_etc1.md R260, R261) -/

/-- A combination of mode, table and selector, with a legal base. -/
structure SolidChoice where
  diff : Bool
  table : Nat
  selector : Nat
  base : Rgb
  deriving DecidableEq, Repr

/-- The table, the selector and every level of the base are in range (43_etc1.md R230, R231, R235). -/
def SolidChoice.legal (x : SolidChoice) : Prop := x.table < 8 ∧ x.selector < 4 ∧ LegalBase x.diff none x.base

/-- The number k of the combination: mode, table, selector, from the high bit on (43_etc1.md R260). -/
def SolidChoice.number (x : SolidChoice) : Nat := 32 * x.diff.toNat + 4 * x.table + x.selector

/-- The error of each pixel of the colour `c` (43_etc1.md R261). -/
def SolidChoice.cost (x : SolidChoice) (c : Rgb) : Nat :=
  perceptualError (shade (scaleBase x.diff x.base) (modifier x.table x.selector)) c

/-- The choice as the solution of either half of the block: the same selector for all eight pixels (43_etc1.md R261). -/
def SolidChoice.half (x : SolidChoice) : SubSolution :=
  { base := x.base, table := x.table, sel := List.replicate 8 x.selector, err := 0 }

/-- `x` is the first of least error for the colour: the lowest combination, and in it the least level of each channel
(43_etc1.md R260, R261; 00_scope.md R13). -/
def SolidChoice.IsFirstLeast (x : SolidChoice) (c : Rgb) : Prop :=
  x.legal ∧ ∀ y : SolidChoice, y.legal →
    x.cost c < y.cost c ∨ x.cost c = y.cost c ∧
      (x.number < y.number
        ∨ x.number = y.number ∧ x.base.r ≤ y.base.r ∧ x.base.g ≤ y.base.g ∧ x.base.b ≤ y.base.b)

/-! ## Swizzled addresses (44_swizzle.md R292 to R294) -/

/-- The (x, y) of linear index `n` under stride `stride` by the table of R294, the mode given by its SWZ code. -/
def swizzled (n stride swz : Nat) : Nat × Nat :=
  let tileX := n / 64 % (stride / 8)
  let tileY := n / 64 / (stride / 8)
  let inX := 4 * (n / 16 % 2) + 2 * (n / 4 % 2) + n % 2
  let inY := 4 * (n / 32 % 2) + 2 * (n / 8 % 2) + n / 2 % 2
  if swz = 0 then (8 * tileX + inX, 8 * tileY + inY)
  else if swz = 1 then (8 * tileX + inY, 8 * tileY + inX)
  else if swz = 2 then (8 * tileY + inY, stride - 1 - (8 * tileX + inX))
  else (8 * tileY + inY, 8 * tileX + inX)

/-- `p` is the padded size of a dimension `d`: the least multiple of 8 that is not below it, a power of two if PAD asks
for one (44_swizzle.md R291). -/
def Padded (d : Nat) (pad : Bool) (p : Nat) : Prop :=
  (d ≤ p ∧ 8 ∣ p ∧ (pad = true → ∃ k, p = 2 ^ k))
    ∧ ∀ q, d ≤ q → 0 < q → 8 ∣ q → (pad = true → ∃ k, q = 2 ^ k) → p ≤ q

/-! ## Which bytes a command reads first and writes -/

/-- How many bytes a decompressor reads first, whatever comes after them: the header, the tag alone where it is wrong,
the tree, or the first flag byte, with the byte of a run (40_decompressors.md R117, R121, R123, R127; 41_huffman.md
R160). The bytes it reads after them are those at which its body is stuck with the input at an end (`FaultOn`). -/
def headLength (i : Instr) (s : State) : Nat :=
  let first := s.mem.read s.srcAddr.toNat
  if i = .lz10Dec then (if first = 0x10 then 4 else 1)
  else if i = .lz11Dec ∨ i = .contDec then 4
  else if s.param0 = 0 then 0
  else if i = .rleDec then (if first.getLsbD 7 then 2 else 1)
  else if i = .huff4Dec ∨ i = .huff8Dec then 2 * (first.toNat + 1)
  else 0

/-- Does a device hold one of the first four input bytes (20_memory.md R68)? -/
def headerOnDevice (s : State) : Bool :=
  s.platform.devices.any fun d => (List.range 4).any fun j => d.has (s.srcAddr.toNat + j)

/-- The most bytes a command may write by its operands, from DST_ADDR on, and for a stream with a header by the length
that the header declares; all of the output buffer where a device answers for that header (40_decompressors.md R117,
R121, R124, R127; 41_huffman.md R168, R169; 42_pixel_format.md R200, R201; 43_etc1.md R245, R275; 44_swizzle.md R300,
R301). -/
def mostStored (i : Instr) (s : State) : Nat :=
  let w := s.param0.toNat % 65536
  let h := s.param0.toNat / 65536
  let sized (fmt : BitVec 4) (size : PixelFormat → Nat) : Nat := ((pixelFormatOf fmt).map size).getD 0
  match i with
  | .nop | .swzAddr _ | .texDim _ _ => 0
  | .etc1Dec _ => 64
  | .etc1Enc fmt => if fmt = 13 then 16 else 8
  | .rleDec | .huff4Dec | .huff8Dec => s.param0.toNat
  | .lz10Dec | .lz11Dec => if headerOnDevice s then s.dstLen.toNat else s.mem.little (s.srcAddr.toNat + 1) 3
  | .contDec => if headerOnDevice s then s.dstLen.toNat else s.mem.little s.srcAddr.toNat 4 / 8
  | .pixDec fmt => sized fmt fun f => 4 * pixelCount f s.srcLen.toNat
  | .pixEnc fmt => sized fmt fun f => encodedSize f s.param0.toNat
  | .texDec _ _ _ => 4 * w * h
  | .texEnc fmt _ pad => sized fmt fun f => encodedSize f (padDim w pad * padDim h pad)

/-- The (x, y) of the texels that TEX.DEC writes, in its order: those in the image, by texel index (44_swizzle.md
R300). -/
def texelOrder (mode : SwizzleMode) (w h pw ph : Nat) : List (Nat × Nat) :=
  ((List.range (pw * ph)).map fun n => addressOf n (strideOf pw ph mode) mode).filter fun p =>
    decide (p.1 < w) && decide (p.2 < h)

/-- The place in the output buffer of the byte that a command writes as number `k`: every command writes in rising order,
but for TEX.DEC, which writes record y * w + x for texel (x, y) (44_swizzle.md R299, R300). -/
def storedPlace (i : Instr) (s : State) (k : Nat) : Nat :=
  match i with
  | .texDec _ swz pad =>
    let w := s.param0.toNat % 65536
    let h := s.param0.toNat / 65536
    let order := fun mode => texelOrder mode w h (padDim w pad) (padDim h pad)
    let p := (((swizzleModeOf swz).map order).getD []).getD (k / 4) (0, 0)
    4 * (p.2 * w + p.1) + k % 4
  | .nop | .etc1Dec _ | .etc1Enc _ | .swzAddr _ | .texDim _ _ | .lz10Dec | .lz11Dec | .rleDec | .contDec | .huff4Dec
  | .huff8Dec | .pixDec _ | .pixEnc _ | .texEnc _ _ _ => k

/-! ## The order of the input reads (20_memory.md R61, R68, R69; 60_exceptions.md R327)

The commands that read no stream: the offsets of the bytes they read. Inside one MemRead the lowest address comes first
(log entry 16). -/

/-- The offsets of the bytes that pixel `j` of a texel buffer is decoded from, in the order they are read: an ETC1A4
block's colour word comes before its alpha plane (42_pixel_format.md R182; 43_etc1.md R238, R245). -/
def texelReads (f : PixelFormat) (j : Nat) : List Nat :=
  match texelLayout f with
  | .bytes size _ _ => List.range' (j * size) size
  | .nibbles _ _ => [j / 2]
  | .blocks false => List.range' (8 * (j / 16)) 8
  | .blocks true => List.range' (16 * (j / 16) + 8) 8 ++ List.range' (16 * (j / 16)) 8

/-- The offsets of the bytes of record `n`: R, G, B, A (30_encoding.md R86, log entry 16). -/
def recordReads (n : Nat) : List Nat := List.range' (4 * n) 4

/-- What a command that reads no stream reads of its input buffer, in order: each byte's offset, and how many output bytes
the command has written by then (42_pixel_format.md R200, R201; 43_etc1.md R245, R275; 44_swizzle.md R300, R301). -/
def inputReads (i : Instr) (s : State) : List (Nat × Nat) :=
  let w := s.param0.toNat % 65536
  let h := s.param0.toNat / 65536
  let before (k : Nat) (offsets : List Nat) : List (Nat × Nat) := offsets.map fun a => (a, k)
  let texel (swz : BitVec 4) (pad : Bool) (n : Nat) : Nat × Nat :=
    ((swizzleModeOf swz).map fun mode =>
      addressOf n (strideOf (padDim w pad) (padDim h pad) mode) mode).getD (0, 0)
  match i with
  | .etc1Dec fmt => before 0 (texelReads (if fmt = 13 then .etc1a4 else .etc1) 0)
  | .etc1Enc _ => before 0 ((List.range 16).flatMap recordReads)
  | .pixDec fmt =>
    ((pixelFormatOf fmt).map fun f =>
      (List.range (pixelCount f s.srcLen.toNat)).flatMap fun j => before (4 * j) (texelReads f j)).getD []
  | .pixEnc _ => before 0 ((List.range s.param0.toNat).flatMap recordReads)
  | .texDec fmt swz pad =>
    let inImage (n : Nat) : Bool := decide ((texel swz pad n).1 < w) && decide ((texel swz pad n).2 < h)
    ((pixelFormatOf fmt).map fun f =>
      (List.range (padDim w pad * padDim h pad)).flatMap fun n =>
        before (4 * (List.range n).countP inImage) (texelReads f n)).getD []
  | .texEnc _ swz pad =>
    before 0 ((List.range (padDim w pad * padDim h pad)).flatMap fun n =>
      recordReads (min (texel swz pad n).2 (h - 1) * w + min (texel swz pad n).1 (w - 1)))
  | .nop | .swzAddr _ | .texDim _ _ | .lz10Dec | .lz11Dec | .rleDec | .contDec | .huff4Dec | .huff8Dec => []

/-! ## Host accesses (10_state.md R20, R40) -/

/-- The host writes the word to the register window at the offset. -/
def hostWrite (s : State) (offset : BitVec 8) (v : Word) : Host.Outcome State Fault Refusal :=
  step { s with agenda := .regWrite offset .word v :: s.agenda }

/-- The host reads the word of the register window at the offset. -/
def hostRead (s : State) (offset : BitVec 8) : Host.Outcome State Fault Refusal :=
  step { s with agenda := .regRead offset .word :: s.agenda }

/-- Two states have the same registers, parameters, memory and draws (the moves to come, the windows and the value of
the last read apart). -/
structure SameRegistersAndMemory (s t : State) : Prop where
  ctrl : t.ctrl = s.ctrl
  status : t.status = s.status
  cmd : t.cmd = s.cmd
  srcAddr : t.srcAddr = s.srcAddr
  srcLen : t.srcLen = s.srcLen
  dstAddr : t.dstAddr = s.dstAddr
  dstLen : t.dstLen = s.dstLen
  param0 : t.param0 = s.param0
  param1 : t.param1 = s.param1
  result0 : t.result0 = s.result0
  result1 : t.result1 = s.result1
  errInfo : t.errInfo = s.errInfo
  mem : t.mem = s.mem
  platform : t.platform = s.platform
  draws : t.draws = s.draws

/-! ## How a command ends -/

/-- The command ends with the error before its first write: no byte of memory changes, RESULT0 is 0 (60_exceptions.md
R325, R326). -/
def EndsBeforeWork (i : Instr) (s : State) (e : Err) (info : Nat) : Prop :=
  ∃ t, exec i s = .next t ∧ s.Failed t e 0 info ∧ t.mem = s.mem ∧ t.draws = s.draws

/-- The command ends with success and the results, `n` bytes `f 0`, …, `f (n - 1)` in memory from DST_ADDR on, and no
other change (10_state.md R41). -/
def EndsWithBytes (i : Instr) (s : State) (r0 r1 n : Nat) (f : Nat → Byte) : Prop :=
  ∃ t, exec i s = .next t ∧ s.Succeeded t r0 r1 ∧ s.Stored t s.dstAddr.toNat n f

/-- The command ends with CorruptStream at `in.pos` = `pos`, the bytes `out` written from DST_ADDR on, RESULT0 their
number, and no other byte changed (60_exceptions.md R321, R325, R326). -/
def EndsCorrupt (i : Instr) (s : State) (pos : Nat) (out : List Byte) : Prop :=
  ∃ t, exec i s = .next t ∧ s.Failed t .corruptStream out.length pos
    ∧ s.Stored t s.dstAddr.toNat out.length (out.getD · 0)

/-- The command ends so on every input of `header` and bytes after which its body is `stuck`: the whole input where
`atEnd`, any input that begins so otherwise. -/
def CorruptOn (i : Instr) (s : State) (header : List Byte) (stuck : Bool → List Byte → List Byte → Prop) : Prop :=
  ∀ (atEnd : Bool) (input out : List Byte), stuck atEnd input out → s.mem.Holds s.srcAddr.toNat (header ++ input) →
    (if atEnd then header.length + input.length = s.srcLen.toNat else header.length + input.length ≤ s.srcLen.toNat) →
    EndsCorrupt i s (header.length + input.length) out

/-- The command ends with BusFault at the address, the bytes `out` written from DST_ADDR on, RESULT0 their number, and no
byte outside the output buffer changed (60_exceptions.md R321, R325, R326). -/
def EndsBusFault (i : Instr) (s : State) (address : Nat) (out : List Byte) : Prop :=
  ∃ t, exec i s = .next t ∧ s.Failed t .busFault out.length address ∧ t.mem.Holds s.dstAddr.toNat out
    ∧ ∀ b, b < s.dstAddr.toNat ∨ s.dstAddr.toNat + s.dstLen.toNat ≤ b → t.mem.read b = s.mem.read b

/-- Where the body is `stuck` for want of the byte after `header` and `input`, and the input has that byte but the
platform rejects it, the first it rejects, the command ends with BusFault there (20_memory.md R66, R69). -/
def FaultOn (i : Instr) (s : State) (header : List Byte) (stuck : Bool → List Byte → List Byte → Prop) : Prop :=
  ∀ input out : List Byte, stuck true input out → s.mem.Holds s.srcAddr.toNat (header ++ input) →
    header.length + input.length < s.srcLen.toNat →
    (∀ j < header.length + input.length, s.platform.rejects (s.srcAddr.toNat + j) .read = false) →
    s.platform.rejects (s.srcAddr.toNat + (header.length + input.length)) .read = true →
    EndsBusFault i s (s.srcAddr.toNat + (header.length + input.length)) out

end Sys2Proof.Reference
end

