-- ==== Sys2Proof/Certificates/Slice0/Obligations.lean ====
section
/-! DEFINITION. The statements about CORE, as propositions to be proved. -/

open Sys2Proof Sys2Proof.Machine Sys2Proof.Reference

/-! ## The command word -/

/-- A word decodes to a command exactly if it is that command's word: no bit is dropped, and no word but the encoded
one is taken for a command (30_encoding.md R80, R83). -/
def Obligations.DecodeEncode : Prop := ∀ (w : Word) (i : Instr), decode w = .ok i ↔ w = encode i

/-- Which words name a command (30_encoding.md R83, R85 check 1): bits 31:17 are 0, OP is one of the fifteen, and each
field the OP does not use is 0. -/
def Obligations.LegalWords : Prop :=
  ∀ w : Word, (∃ i, decode w = .ok i) ↔
    w.extractLsb' 17 15 = 0
      ∧ (w.extractLsb' 0 8).toNat
          ∈ [0x00, 0x01, 0x02, 0x08, 0x09, 0x10, 0x11, 0x12, 0x13, 0x14, 0x15, 0x20, 0x21, 0x30, 0x31]
      ∧ ((w.extractLsb' 0 8).toNat ∈ [0x01, 0x02, 0x20, 0x21, 0x30, 0x31] ∨ w.extractLsb' 8 4 = 0)
      ∧ ((w.extractLsb' 0 8).toNat ∈ [0x08, 0x09, 0x30, 0x31] ∨ w.extractLsb' 12 4 = 0)
      ∧ ((w.extractLsb' 0 8).toNat ∈ [0x09, 0x30, 0x31] ∨ w.getLsbD 16 = false)

/-- Words written out from the layout of 30_encoding.md R80 decode to the commands they stand for (R83); the last two
are reserved. -/
def Obligations.SampleWordsDecode : Prop :=
  decode 0b0000000000000000_0000_0000_00000000#32 = .ok .nop
    ∧ decode 0b0000000000000000_0000_1100_00000001#32 = .ok (.etc1Dec 12)
    ∧ decode 0b0000000000000000_0010_0000_00001000#32 = .ok (.swzAddr 2)
    ∧ decode 0b0000000000000001_0011_0000_00001001#32 = .ok (.texDim 3 true)
    ∧ decode 0b0000000000000000_0000_0000_00010011#32 = .ok .contDec
    ∧ decode 0b0000000000000000_0000_0000_00010101#32 = .ok .huff8Dec
    ∧ decode 0b0000000000000000_0000_0111_00100001#32 = .ok (.pixEnc 7)
    ∧ decode 0b0000000000000001_0001_1010_00110000#32 = .ok (.texDec 10 1 true)
    ∧ decode 0b0000000000000000_0000_0000_00000011#32 = .error .reservedOp
    ∧ decode 0b0000000000000010_0000_0000_00000000#32 = .error .reservedBits

/-! ## The machine: start, engine step, end -/

/-- A host write of a command's word to CMD starts the command, and with no host step between, the next step is that
command's `exec` in the started state, the moves to come and the windows unchanged by it (10_state.md R24, R40). -/
def Obligations.WrittenCommandRuns : Prop :=
  ∀ (s : State) (i : Instr), s.status.busy = false → s.platform.devices = [] →
    hostWrite s 0x0C (encode i) = .next (s.startCommand (encode i))
      ∧ (s.agenda = [] → step (s.startCommand (encode i)) = exec i (s.startCommand (encode i)))
      ∧ step (s.withFetchWord 32 (encode i).toNat) = exec i (s.startCommand (encode i))

/-- While a command whose buffers are undisturbed and on no device is in flight, the engine's step is `exec` of the
command that CMD decodes to: with no moves to come, and at the engine's turn among them, which the step removes
(10_state.md R40). A command that accesses no byte runs so wherever its buffers lie. -/
def Obligations.StepRunsCommand : Prop :=
  ∀ (s : State) (i : Instr), s.status.busy = true → decode s.cmd = .ok i → s.disturbed i = false →
    s.runsOnDevice i = false →
    (s.agenda = [] → step s = exec i s)
      ∧ ∀ rest, s.agenda = .engine :: rest → step s = exec i { s with agenda := rest }

/-- A word that names no command ends with IllegalCommand and touches no memory (60_exceptions.md R322). -/
def Obligations.IllegalWordEnds : Prop :=
  ∀ (s : State) (e : DecodeError), s.status.busy = true → decode s.cmd = .error e → s.agenda = [] →
    ∃ t, step s = .next t ∧ s.Failed t .illegalCommand 0 0 ∧ t.mem = s.mem ∧ t.cmd = s.cmd

/-- Every command ends in one step, with success or with one error, and only STATUS, RESULT0, RESULT1 and ERR_INFO
among the registers change (10_state.md R41; 60_exceptions.md R320, R325; 70_reset_and_hazards.md R362). -/
def Obligations.EveryCommandEnds : Prop :=
  ∀ (i : Instr) (s : State), ∃ t, exec i s = .next t ∧ s.SameBesidesEnd t
    ∧ t.status.busy = false ∧ t.status.done = true ∧ t.status.wbusy = s.status.wbusy
    ∧ t.status.error = t.status.errCode.isSome
    ∧ (t.status.errCode = none → t.errInfo = 0) ∧ (t.status.errCode ≠ none → t.result1 = 0)

/-- What disturbs a command, and how it ends (10_state.md R40; 70_reset_and_hazards.md R361). A bus master's write to
a byte of no buffer that the host must keep away from writes that byte and changes nothing else; a write stores its
byte and a read returns the byte, outside the output buffers among them; neither ever changes STATUS. A write to
either buffer of the running command, or a read of its output buffer, disturbs it; a read of its input buffer does
not. A disturbed command, and one that runs on a device (20_memory.md R68), ends in one step, and no register but
those of the end and no byte outside its output buffer changes. The windows, and what is free, are the model's form of
these rules (log entries 3, 6, 7). -/
def Obligations.DisturbedCommandEnds : Prop :=
  (∀ (s : State) (a : Word), a.toNat < s.regBase ∨ s.regBase + 256 ≤ a.toNat →
    (∀ v : Byte, (∀ w ∈ s.windows, w.input.has a.toNat = false ∧ w.output.has a.toNat = false) →
      step { s with agenda := .memWrite a v :: s.agenda } = .next { s with mem := s.mem.write a.toNat v })
    ∧ (∀ v : Byte, ∃ t, step { s with agenda := .memWrite a v :: s.agenda } = .next t ∧ t.status = s.status
      ∧ ∀ b, (∀ w ∈ s.windows, w.output.has b = false) →
          t.mem.read b = if b = a.toNat then v else s.mem.read b)
    ∧ ((∀ w ∈ s.windows, w.output.has a.toNat = false) →
        step { s with agenda := .memRead a :: s.agenda }
          = .next { s with readData := (s.mem.read a.toNat).setWidth 32 })
    ∧ ∃ t, step { s with agenda := .memRead a :: s.agenda } = .next t ∧ t.status = s.status ∧ t.readData.toNat < 256)
  ∧ (∀ (s : State) (i : Instr) (a : Word), s.Inv → s.status.busy = true → decode s.cmd = .ok i →
      i.usesBuffers = true →
      let inside (start len : Word) : Prop := start.toNat ≤ a.toNat ∧ a.toNat < start.toNat + len.toNat
      (∀ (v : Byte) (t : State), step { s with agenda := .memWrite a v :: s.agenda } = .next t →
        (t.disturbed i = true ↔
          s.disturbed i = true ∨ inside s.srcAddr s.srcLen ∨ inside s.dstAddr s.dstLen))
      ∧ ∀ t, step { s with agenda := .memRead a :: s.agenda } = .next t →
          (t.disturbed i = true ↔ s.disturbed i = true ∨ inside s.dstAddr s.dstLen))
  ∧ ∀ (s : State) (i : Instr), s.status.busy = true → decode s.cmd = .ok i → s.agenda = [] →
      s.disturbed i = true ∨ s.runsOnDevice i = true →
      ∃ t, step s = .next t ∧ s.SameBesidesEnd t
        ∧ t.status.busy = false ∧ t.status.done = true ∧ t.status.wbusy = s.status.wbusy
        ∧ t.status.error = t.status.errCode.isSome
        ∧ ∀ b, b < s.dstAddr.toNat ∨ s.dstAddr.toNat + s.dstLen.toNat ≤ b → t.mem.read b = s.mem.read b

/-- No command writes a byte outside its output buffer, a command without buffers writes none, and so does a command
whose buffers fail the checks of 20_memory.md R65 (20_memory.md R60; 10_state.md R26). On a device (20_memory.md R68;
60_exceptions.md R326; log entry 7) a command that fails a check before its first access ends as on plain memory, and
a command that runs leaves every byte past the most bytes that its operands, or a header on no device, let it write.
-/
def Obligations.OutputConfinement : Prop :=
  (∀ (i : Instr) (s t : State), exec i s = .next t →
    (∀ b, b < s.dstAddr.toNat ∨ s.dstAddr.toNat + s.dstLen.toNat ≤ b → t.mem.read b = s.mem.read b)
      ∧ (i.usesBuffers = false → t.mem = s.mem) ∧ (¬ s.BuffersUsable → t.mem = s.mem))
  ∧ ∀ (s t : State) (i : Instr), s.status.busy = true → decode s.cmd = .ok i → s.agenda = [] →
      s.disturbed i = false → step s = .next t →
      (∀ u, exec i s = .next u → u.status.errCode = some .unsupportedFormat ∨ u.status.errCode = some .invalidParameter →
        u.errInfo = 0 → t = u)
      ∧ (s.runsOnDevice i = true →
          ∀ b, s.dstAddr.toNat + mostStored i s ≤ b → t.mem.read b = s.mem.read b)

/-- A command's outcome depends on nothing but its operands, the platform and the bytes of its input buffer: two
states that agree on those end alike, and each output byte is the same in both or kept its old value in both
(40_decompressors.md R110; 20_memory.md R60). -/
def Obligations.InputDeterminesOutcome : Prop :=
  ∀ (i : Instr) (s u t v : State),
    u.srcAddr = s.srcAddr → u.srcLen = s.srcLen → u.dstAddr = s.dstAddr → u.dstLen = s.dstLen →
    u.param0 = s.param0 → u.param1 = s.param1 → u.platform = s.platform → s.BusAccepts →
    (∀ j < s.srcLen.toNat, u.mem.read (s.srcAddr.toNat + j) = s.mem.read (s.srcAddr.toNat + j)) →
    exec i s = .next t → exec i u = .next v →
      v.status.errCode = t.status.errCode ∧ v.result0 = t.result0 ∧ v.result1 = t.result1 ∧ v.errInfo = t.errInfo
        ∧ ∀ b, v.mem.read b = t.mem.read b ∨ (t.mem.read b = s.mem.read b ∧ v.mem.read b = u.mem.read b)

/-! ## Invariants and whole-machine rules -/

/-- Every step keeps the invariant: the memory's canonical form, its bytes outside the register window, a clean STATUS
while BUSY, the running command's window, and a nonzero ERR_CODE beside ERROR (10_state.md R23). -/
def Obligations.StepKeepsInvariant : Prop := ∀ s t : State, s.Inv → step s = .next t → t.Inv

/-- The state after reset has the invariant. -/
def Obligations.ResetHasInvariant : Prop := State.reset.Inv

/-- Only a host write to the register window or the reset input changes CTRL, CMD or an operand register, and no step
changes the platform's parameters (10_state.md R30). -/
def Obligations.OnlyHostWritesChangeOperands : Prop :=
  ∀ s t : State, step s = .next t →
    t.platform = s.platform
      ∧ ((∀ o w v, s.agenda.head? ≠ some (.regWrite o w v)) → s.agenda.head? ≠ some .resetInput →
          t.ctrl = s.ctrl ∧ t.cmd = s.cmd ∧ t.srcAddr = s.srcAddr ∧ t.srcLen = s.srcLen ∧ t.dstAddr = s.dstAddr
            ∧ t.dstLen = s.dstLen ∧ t.param0 = s.param0 ∧ t.param1 = s.param1)

/-- Only an access of the register window that is no aligned 32-bit access is refused; every other step answers a next
state (10_state.md R20; 93_implementation_defined.md I3). -/
def Obligations.StepRefusesOnlyMisshapenAccess : Prop :=
  ∀ s : State, (∃ t, step s = .next t) ∨
    (step s = .refused .registerAccessShape ∧ ∃ e rest, s.agenda = e :: rest ∧
      match e with
      | .regWrite o w _ => ¬ (w = .word ∧ o.toNat % 4 = 0)
      | .regRead o w => ¬ (w = .word ∧ o.toNat % 4 = 0)
      | .memWrite a _ => s.regBase ≤ a.toNat ∧ a.toNat < s.regBase + 256
      | .memRead a => s.regBase ≤ a.toNat ∧ a.toNat < s.regBase + 256
      | .takeInterrupt => False
      | .resetInput => False
      | .engine => False)

/-- The interrupt output is a level (60_exceptions.md R330): IRQ_EN and (DONE or ERROR). It is IRQ_EN at the end of
every command, of an illegal word, a disturbed command and one on a device as of any other; a command's start, an
acknowledgement of both DONE and ERROR, and a reset take it away; a masked end raises it when IRQ_EN is set; WBUSY alone
does not raise it. -/
def Obligations.InterruptFollowsCommandEnd : Prop :=
  (∀ s : State, s.irq = true ↔ s.ctrl.irqEn = true ∧ (s.status.done = true ∨ s.status.error = true))
    ∧ (∀ (i : Instr) (s t : State), exec i s = .next t → t.irq = s.ctrl.irqEn)
    ∧ (∀ s : State, s.status.busy = true → ∃ t, engineStep s = .next t ∧ t.irq = s.ctrl.irqEn)
    ∧ (∀ s t : State, s.status.busy = true → s.agenda = [] → step s = .next t → t.irq = s.ctrl.irqEn)
    ∧ (∀ (s t : State) (w : Word), s.status.busy = false → hostWrite s 0x0C w = .next t → t.irq = false)
    ∧ (∀ (s t : State) (w : Word), w.getLsbD 1 = true → w.getLsbD 2 = true → hostWrite s 0x08 w = .next t →
        t.irq = false)
    ∧ (∀ (s t : State) (w : Word), w.getLsbD 1 = true → hostWrite s 0x04 w = .next t → t.irq = false)
    ∧ (∀ s t : State, step { s with agenda := .resetInput :: s.agenda } = .next t → t.irq = false)
    ∧ ∀ (s t : State) (w : Word), w.getLsbD 1 = false → w.getLsbD 0 = true → hostWrite s 0x04 w = .next t →
        t.irq = (s.status.done || s.status.error)

/-! ## The register block -/

/-- ID (10_state.md R21). -/
def Obligations.IdentificationIsFixed : Prop :=
  ∀ (s : State) (v : Word),
    (∃ t, hostRead s 0x00 = .next t ∧ t.readData = 0x43450007#32) ∧ hostWrite s 0x00 v = .next s

/-- CTRL with SOFT_RESET not written (10_state.md R22): bit 0 is IRQ_EN, no other register changes, and it reads back
as bit 0 alone, whether or not a command runs. -/
def Obligations.ControlWrite : Prop :=
  ∀ (s : State) (v : Word), v.getLsbD 1 = false →
    hostWrite s 0x04 v = .next { s with ctrl := { irqEn := v.getLsbD 0 } }
      ∧ ∃ t, hostRead { s with ctrl := { irqEn := v.getLsbD 0 } } 0x04 = .next t ∧ t.readData = v &&& 1#32

/-- STATUS as it reads (10_state.md R23): the field places, every other bit 0, and no register changed by the read. A
read that shows DONE = 1, or an interrupt taken, is the host seeing the end: from then on it reads every byte of
memory as it is, the output among them (20_memory.md R70; 70_reset_and_hazards.md R361; 60_exceptions.md R330). Before
it, the recorded windows stay; the record is the model's (log entry 6). -/
def Obligations.StatusReads : Prop :=
  (∀ s : State, ∃ t, hostRead s 0x08 = .next t ∧ SameRegistersAndMemory s t
    ∧ t.readData.getLsbD 0 = s.status.busy ∧ t.readData.getLsbD 1 = s.status.done
    ∧ t.readData.getLsbD 2 = s.status.error ∧ t.readData.getLsbD 3 = s.status.wbusy
    ∧ t.readData.extractLsb' 4 4 = 0 ∧ t.readData.extractLsb' 12 20 = 0
    ∧ (t.readData.extractLsb' 8 4).toNat
        = (match s.status.errCode with
          | none => 0
          | some .corruptStream => 1
          | some .unsupportedFormat => 2
          | some .invalidParameter => 3
          | some .illegalCommand => 4
          | some .busFault => 5))
  ∧ ∀ (s t : State),
      (hostRead s 0x08 = .next t → t.windows = if s.status.done then [] else s.windows)
      ∧ (step { s with agenda := .takeInterrupt :: s.agenda } = .next t →
          SameRegistersAndMemory s t ∧ t.readData = (if s.irq then 1 else 0)
            ∧ t.windows = if s.irq then [] else s.windows)
      ∧ ((s.status.done = true ∧ hostRead s 0x08 = .next t)
            ∨ (s.irq = true ∧ step { s with agenda := .takeInterrupt :: s.agenda } = .next t) →
          ∀ a : Word, a.toNat < s.regBase ∨ s.regBase + 256 ≤ a.toNat →
            step { t with agenda := .memRead a :: t.agenda }
              = .next { t with readData := (s.mem.read a.toNat).setWidth 32 })

/-- A write to STATUS clears DONE, ERROR and WBUSY where it has a 1 and changes nothing else (10_state.md R23;
60_exceptions.md R329), whether or not a command runs. -/
def Obligations.StatusAcknowledge : Prop :=
  ∀ (s : State) (v : Word),
    hostWrite s 0x08 v = .next
      { s with status :=
          { s.status with
            done := if v.getLsbD 1 then false else s.status.done
            error := if v.getLsbD 2 then false else s.status.error
            wbusy := if v.getLsbD 3 then false else s.status.wbusy } }

/-- A write to CMD, and a read of it (10_state.md R24). The windows are the model's own record (log entry 6), of which
nothing is said. -/
def Obligations.CommandWrite : Prop :=
  ∀ (s : State) (v : Word),
    (s.status.busy = false →
      ∃ ws, hostWrite s 0x0C v = .next
        { s with
          cmd := v
          status := { busy := true, done := false, error := false, wbusy := s.status.wbusy, errCode := none }
          result0 := 0
          result1 := 0
          errInfo := 0
          windows := ws })
    ∧ (s.status.busy = true → hostWrite s 0x0C v = .next { s with status := { s.status with wbusy := true } })
    ∧ (∃ t, hostRead s 0x0C = .next t ∧ t.readData = s.cmd)
    ∧ ∀ e, decode v = .error e → s.status.busy = false → s.agenda = [] →
        ∃ t u, hostWrite s 0x0C v = .next t ∧ step t = .next u ∧ t.Failed u .illegalCommand 0 0

/-- The operand registers with no command in flight: each takes what is written, reads it back, and no other state
changes (10_state.md R25, R26, R27). -/
def Obligations.OperandWrites : Prop :=
  ∀ (s : State) (v : Word), s.status.busy = false →
    (∀ p ∈ [((0x10 : BitVec 8), { s with srcAddr := v }), (0x14, { s with srcLen := v }), (0x18, { s with dstAddr := v }),
        (0x1C, { s with dstLen := v }), (0x20, { s with param0 := v }), (0x24, { s with param1 := v })],
      hostWrite s p.1 v = .next p.2 ∧ ∃ t, hostRead p.2 p.1 = .next t ∧ t.readData = v)

/-- Host accesses while BUSY = 1 (70_reset_and_hazards.md R360): a write to CMD or an operand register changes nothing
but WBUSY, which does not affect the running command; CTRL and STATUS are written as at any time; every register
reads; and in a state with the invariant RESULT0, RESULT1 and ERR_INFO read 0. -/
def Obligations.BusyWritesAreLost : Prop :=
  ∀ (s : State) (v : Word), s.status.busy = true →
    (∀ o ∈ [(0x0C : BitVec 8), 0x10, 0x14, 0x18, 0x1C, 0x20, 0x24],
      hostWrite s o v = .next { s with status := { s.status with wbusy := true } })
    ∧ (∀ (i : Instr) (t : State), exec i s = .next t →
        exec i { s with status := { s.status with wbusy := true } }
          = .next { t with status := { t.status with wbusy := true } })
    ∧ (v.getLsbD 1 = false → hostWrite s 0x04 v = .next { s with ctrl := { irqEn := v.getLsbD 0 } })
    ∧ (∃ t, hostWrite s 0x08 v = .next t ∧ t.status.busy = true ∧ (v.getLsbD 3 = true → t.status.wbusy = false))
    ∧ (∀ o : BitVec 8, o.toNat % 4 = 0 → ∃ t, hostRead s o = .next t ∧ SameRegistersAndMemory s t)
    ∧ (s.Inv → ∀ o ∈ [(0x28 : BitVec 8), 0x2C, 0x30], ∃ t, hostRead s o = .next t ∧ t.readData = 0)

/-- ID, RESULT0, RESULT1, ERR_INFO and the reserved offsets ignore writes; the reserved offsets read 0, and RESULT0,
RESULT1 and ERR_INFO read what the last start, end or reset left in them (10_state.md R20, R21, R28, R29). -/
def Obligations.ReadOnlyOffsets : Prop :=
  ∀ (s : State) (o : BitVec 8) (v : Word), o.toNat % 4 = 0 →
    ((o = 0x00 ∨ o = 0x28 ∨ o = 0x2C ∨ o = 0x30 ∨ 0x34 ≤ o.toNat) → hostWrite s o v = .next s)
      ∧ (0x34 ≤ o.toNat → ∃ t, hostRead s o = .next t ∧ t.readData = 0 ∧ SameRegistersAndMemory s t)
      ∧ ∀ p ∈ [((0x28 : BitVec 8), s.result0), (0x2C, s.result1), (0x30, s.errInfo)],
          ∃ t, hostRead s p.1 = .next t ∧ t.readData = p.2 ∧ SameRegistersAndMemory s t

/-- An access of the register window of another size or alignment is refused (10_state.md R20;
93_implementation_defined.md I3): a register access, and a one-byte access to an address of the window. -/
def Obligations.MisshapenAccessRefused : Prop :=
  (∀ (s : State) (o : BitVec 8) (w : AccessWidth) (v : Word), ¬ (w = .word ∧ o.toNat % 4 = 0) →
    step { s with agenda := .regWrite o w v :: s.agenda } = .refused .registerAccessShape
      ∧ step { s with agenda := .regRead o w :: s.agenda } = .refused .registerAccessShape)
  ∧ ∀ (s : State) (a : Word) (v : Byte), s.regBase ≤ a.toNat → a.toNat < s.regBase + 256 →
      step { s with agenda := .memWrite a v :: s.agenda } = .refused .registerAccessShape
        ∧ step { s with agenda := .memRead a :: s.agenda } = .refused .registerAccessShape

/-! ## Reset -/

/-- The values after either reset (70_reset_and_hazards.md R350, R352): power-on, after which CORE waits, the reset
input and the soft reset. The two resets leave memory alone where no command runs. -/
def Obligations.ResetValues : Prop :=
  (∀ o : BitVec 8, o.toNat % 4 = 0 →
    ∃ t, hostRead State.reset o = .next t ∧ t.readData = if o = 0 then 0x43450007#32 else 0)
  ∧ State.reset.irq = false ∧ step State.reset = .next State.reset
  ∧ ∀ (s t : State) (v : Word),
      (step { s with agenda := .resetInput :: s.agenda } = .next t ∨ (v.getLsbD 1 = true ∧ hostWrite s 0x04 v = .next t)) →
      t.irq = false ∧ t.status.busy = false ∧ (s.status.busy = false → t.mem = s.mem)
        ∧ ∀ o : BitVec 8, o.toNat % 4 = 0 →
            ∃ u, hostRead t o = .next u ∧ u.readData = if o = 0 then 0x43450007#32 else 0

/-- A soft reset abandons the running command: its output bytes each hold their old value or the one its engine step
would have left, all other memory is unchanged, and CORE takes a new command at once (70_reset_and_hazards.md R351;
93_implementation_defined.md I6). That the platform's reset input, of which R351 does not speak, does the same to a
running command is the model's deduction (log entry 9). -/
def Obligations.SoftResetAbandons : Prop :=
  ∀ (s : State) (v : Word) (o : Host.Outcome State Fault Refusal), s.status.busy = true →
    (v.getLsbD 1 = true ∧ o = hostWrite s 0x04 v) ∨ o = step { s with agenda := .resetInput :: s.agenda } →
    ∃ t u, o = .next t ∧ engineStep s = .next u
      ∧ t.status.busy = false ∧ t.status.done = false ∧ t.result0 = 0 ∧ t.result1 = 0 ∧ t.errInfo = 0
      ∧ (∀ b, t.mem.read b = s.mem.read b
          ∨ (s.dstAddr.toNat ≤ b ∧ b < s.dstAddr.toNat + s.dstLen.toNat ∧ t.mem.read b = u.mem.read b))
      ∧ ∀ c : Word, ∃ r, hostWrite t 0x0C c = .next r ∧ r.status.busy = true ∧ r.cmd = c

/-! ## Errors -/

/-- A FMT that names no format, or none the command takes, or a SWZ that names no mode (30_encoding.md R85;
60_exceptions.md R323): UnsupportedFormat with ERR_INFO 0, before any check of a buffer and any access. -/
def Obligations.UnsupportedFieldsEnd : Prop :=
  ∀ (i : Instr) (s : State), i.wellFormed = false → EndsBeforeWork i s .unsupportedFormat 0

/-- Buffers that wrap, meet the register window or meet each other (20_memory.md R65): InvalidParameter with ERR_INFO
0, before any access. -/
def Obligations.BufferChecksEnd : Prop :=
  ∀ (i : Instr) (s : State), i.wellFormed = true → i.usesBuffers = true → ¬ s.BuffersUsable →
    EndsBeforeWork i s .invalidParameter 0

/-- Operand sizes that a command cannot accept (60_exceptions.md R321, code 3): InvalidParameter with ERR_INFO 0,
before any access. -/
def Obligations.SizeChecksEnd : Prop :=
  ∀ (fmt : BitVec 4) (f : PixelFormat) (s : State), pixelFormatOf fmt = some f →
    (f = .etc1 ∨ f = .etc1a4 → s.srcLen.toNat < (if f = .etc1 then 8 else 16) ∨ s.dstLen.toNat < 64 →
      EndsBeforeWork (.etc1Dec fmt) s .invalidParameter 0)
    ∧ (f = .etc1 ∨ f = .etc1a4 → s.srcLen.toNat < 64 ∨ s.dstLen.toNat < (if f = .etc1 then 8 else 16) →
      EndsBeforeWork (.etc1Enc fmt) s .invalidParameter 0)
    ∧ (s.dstLen.toNat < 4 * pixelCount f s.srcLen.toNat → EndsBeforeWork (.pixDec fmt) s .invalidParameter 0)
    ∧ ((f = .etc1 ∨ f = .etc1a4) ∧ s.param0.toNat % 16 ≠ 0 ∨ s.srcLen.toNat < 4 * s.param0.toNat
        ∨ s.dstLen.toNat < encodedSize f s.param0.toNat → EndsBeforeWork (.pixEnc fmt) s .invalidParameter 0)
    ∧ (s.dstLen.toNat < s.param0.toNat →
        EndsBeforeWork .rleDec s .invalidParameter 0 ∧ EndsBeforeWork .huff4Dec s .invalidParameter 0
          ∧ EndsBeforeWork .huff8Dec s .invalidParameter 0)

/-- Texture dimensions of 0 or above 32768, and textures that do not fit their buffers (44_swizzle.md R290, R300,
R301): InvalidParameter with ERR_INFO 0, before any access. -/
def Obligations.TextureChecksEnd : Prop :=
  ∀ (fmt swz : BitVec 4) (f : PixelFormat) (mode : SwizzleMode) (pad : Bool) (s : State) (w h : Nat),
    pixelFormatOf fmt = some f → swizzleModeOf swz = some mode →
    s.param0.toNat % 65536 = w → s.param0.toNat / 65536 = h →
    (w = 0 ∨ h = 0 ∨ 32768 < w ∨ 32768 < h →
      EndsBeforeWork (.texDim swz pad) s .invalidParameter 0 ∧ EndsBeforeWork (.texDec fmt swz pad) s .invalidParameter 0
        ∧ EndsBeforeWork (.texEnc fmt swz pad) s .invalidParameter 0)
    ∧ (pixelCount f s.srcLen.toNat < padDim w pad * padDim h pad ∨ s.dstLen.toNat < 4 * w * h →
      EndsBeforeWork (.texDec fmt swz pad) s .invalidParameter 0)
    ∧ (s.srcLen.toNat < 4 * w * h ∨ s.dstLen.toNat < encodedSize f (padDim w pad * padDim h pad) →
      EndsBeforeWork (.texEnc fmt swz pad) s .invalidParameter 0)

/-- The checks on a stream's header (40_decompressors.md R117, R121, R127): the LZ10 tag, the container method, which
comes before the length, and a declared length above DST_LEN. -/
def Obligations.HeaderChecksEnd : Prop :=
  ∀ s : State, s.BuffersUsable → s.BusAccepts →
    let b (j : Nat) : Nat := (s.mem.read (s.srcAddr.toNat + j)).toNat
    let n3 := b 1 + 256 * b 2 + 65536 * b 3
    let n := (b 0 + 256 * n3) / 8
    (1 ≤ s.srcLen.toNat → b 0 ≠ 0x10 → EndsBeforeWork .lz10Dec s .unsupportedFormat 1)
    ∧ (4 ≤ s.srcLen.toNat → b 0 = 0x10 → s.dstLen.toNat < n3 → EndsBeforeWork .lz10Dec s .invalidParameter 4)
    ∧ (4 ≤ s.srcLen.toNat → s.dstLen.toNat < n3 → EndsBeforeWork .lz11Dec s .invalidParameter 4)
    ∧ (4 ≤ s.srcLen.toNat → 5 ≤ b 0 % 8 → EndsBeforeWork .contDec s .unsupportedFormat 4)
    ∧ (4 ≤ s.srcLen.toNat → b 0 % 8 < 5 → s.dstLen.toNat < n → EndsBeforeWork .contDec s .invalidParameter 4)

/-- A stream that ends inside its header (40_decompressors.md R117, R121, R127; 20_memory.md R66): CorruptStream with
ERR_INFO = SRC_LEN, nothing written. -/
def Obligations.HeaderCutShort : Prop :=
  ∀ s : State, s.BuffersUsable → s.BusAccepts → s.srcLen.toNat < 4 →
    EndsBeforeWork .lz11Dec s .corruptStream s.srcLen.toNat ∧ EndsBeforeWork .contDec s .corruptStream s.srcLen.toNat
      ∧ (s.srcLen.toNat = 0 ∨ s.mem.read s.srcAddr.toNat = 0x10 →
          EndsBeforeWork .lz10Dec s .corruptStream s.srcLen.toNat)

/-- An error other than CorruptStream and BusFault leaves memory as it was and RESULT0 = 0 (60_exceptions.md R326),
and only the six decompressors end with CorruptStream (R324). Where they do, by the input's end, a back-reference
before the output, one or a run past the length, or a child outside the tree, ERR_INFO is `in.pos`, the bytes written
before stand from DST_ADDR on with RESULT0 their number, and all other memory is as before (40_decompressors.md R112,
R116, R120, R123, R127; 41_huffman.md R162, R165, R166). The spec supplies G4 to G8 from general knowledge (log entry
14). -/
def Obligations.ErrorsBeforeWork : Prop :=
  (∀ (i : Instr) (s t : State), exec i s = .next t →
    (t.status.errCode = some .unsupportedFormat ∨ t.status.errCode = some .invalidParameter →
      t.mem = s.mem ∧ t.result0 = 0)
    ∧ (t.status.errCode = some .corruptStream →
        i ∈ [.lz10Dec, .lz11Dec, .rleDec, .contDec, .huff4Dec, .huff8Dec] ∧ t.errInfo.toNat ≤ s.srcLen.toNat)
    ∧ t.status.errCode ≠ some .illegalCommand)
  ∧ ∀ s : State, s.BuffersUsable → s.BusAccepts →
      (∀ n, n < 2 ^ 24 → n ≤ s.dstLen.toNat →
        CorruptOn .lz10Dec s (0x10#8 :: littleBytes 3 n) (LzStuck LzToken.legal10 LzToken.bytes10 n)
          ∧ ∀ tag : Byte,
              CorruptOn .lz11Dec s (tag :: littleBytes 3 n) (LzStuck LzToken.legal11 LzToken.bytes11 n))
      ∧ (s.param0.toNat ≤ s.dstLen.toNat →
          CorruptOn .rleDec s [] (RleStuck s.param0.toNat)
            ∧ CorruptOn .huff4Dec s [] (HuffStuck false s.param0.toNat)
            ∧ CorruptOn .huff8Dec s [] (HuffStuck true s.param0.toNat))
      ∧ ∀ m n, n < 2 ^ 29 → n ≤ s.dstLen.toNat →
          CorruptOn .contDec s (littleBytes 4 (8 * n + m)) (ContainerStuck m n)

/-- BusFault is raised only for an access of the command's buffers that the platform rejects, whose address ERR_INFO
holds; on a platform that rejects none it is never raised (20_memory.md R69). It leaves each byte of memory with its
old value or the one that the same command leaves where no access is rejected, and the RESULT0 bytes written before it
stand (60_exceptions.md R325, R326; 93_implementation_defined.md I5; log entry 8). And where every read is accepted, the
first rejected one of the output bytes that a command writes ends it with BusFault there, RESULT0 the number of bytes
before it. The spec supplies G11, on which TEX.DEC's order rests, from general knowledge (log entry 14). -/
def Obligations.BusFaultNamesRejectedAccess : Prop :=
  (∀ (i : Instr) (s t u : State), exec i s = .next t → t.status.errCode = some .busFault →
    exec i { s with platform := { s.platform with busFault := [] } } = .next u →
    ((s.platform.rejects t.errInfo.toNat .read = true
          ∧ (s.env.input.has t.errInfo.toNat = true ∨ s.env.output.has t.errInfo.toNat = true))
        ∨ (s.platform.rejects t.errInfo.toNat .write = true ∧ s.env.output.has t.errInfo.toNat = true))
      ∧ u.status.errCode ≠ some .busFault
      ∧ (∀ b, t.mem.read b = s.mem.read b ∨ t.mem.read b = u.mem.read b)
      ∧ t.result0.toNat ≤ s.dstLen.toNat
      ∧ ∀ k < t.result0.toNat,
          t.mem.read (s.dstAddr.toNat + storedPlace i s k) = u.mem.read (s.dstAddr.toNat + storedPlace i s k))
  ∧ ∀ (i : Instr) (s u : State) (k : Nat), i.usesBuffers = true →
      exec i { s with platform := { s.platform with busFault := [] } } = .next u → k < u.result0.toNat →
      (∀ j < s.srcLen.toNat, s.platform.rejects (s.srcAddr.toNat + j) .read = false) →
      (∀ j < s.dstLen.toNat, s.platform.rejects (s.dstAddr.toNat + j) .read = false) →
      (∀ j < k, s.platform.rejects (s.dstAddr.toNat + storedPlace i s j) .write = false) →
      s.platform.rejects (s.dstAddr.toNat + storedPlace i s k) .write = true →
      ∃ t, exec i s = .next t ∧ s.Failed t .busFault k (s.dstAddr.toNat + storedPlace i s k)

/-- The first byte that the platform rejects raises BusFault with its address, RESULT0 the number of bytes written
before (20_memory.md R69; 60_exceptions.md R325, R327). It may be any input byte that a command reads: of a
decompressor's header, tree or first flag byte; of its body, wherever the body is; of the texels, blocks or records of
the other six commands with buffers. It may be a byte of a MemRead, or of a MemWrite, those before it stored. That a
MemRead and a MemWrite go from the lowest address up, and the order of a record's bytes, are the model's (log entry
16). The spec supplies G4 to G8, G11 from general knowledge (log entry 14). -/
def Obligations.FirstReadRejected : Prop :=
  (∀ (i : Instr) (s : State) (k : Nat), i ∈ [.lz10Dec, .lz11Dec, .rleDec, .contDec, .huff4Dec, .huff8Dec] →
    (i ∈ [.rleDec, .huff4Dec, .huff8Dec] → s.param0.toNat ≤ s.dstLen.toNat) →
    s.BuffersUsable → k < headLength i s → k < s.srcLen.toNat →
    (∀ j < k, s.platform.rejects (s.srcAddr.toNat + j) .read = false) →
    s.platform.rejects (s.srcAddr.toNat + k) .read = true →
    ∃ t, exec i s = .next t ∧ s.Failed t .busFault 0 (s.srcAddr.toNat + k)
      ∧ ∀ b, b < s.dstAddr.toNat ∨ s.dstAddr.toNat + s.dstLen.toNat ≤ b → t.mem.read b = s.mem.read b)
  ∧ (∀ s : State, s.BuffersUsable →
      (∀ j < s.dstLen.toNat, s.platform.rejects (s.dstAddr.toNat + j) .write = false
        ∧ s.platform.rejects (s.dstAddr.toNat + j) .read = false) →
      (∀ n, n < 2 ^ 24 → n ≤ s.dstLen.toNat →
        FaultOn .lz10Dec s (0x10#8 :: littleBytes 3 n) (LzStuck LzToken.legal10 LzToken.bytes10 n)
          ∧ ∀ tag : Byte, FaultOn .lz11Dec s (tag :: littleBytes 3 n) (LzStuck LzToken.legal11 LzToken.bytes11 n))
      ∧ (s.param0.toNat ≤ s.dstLen.toNat →
          FaultOn .rleDec s [] (RleStuck s.param0.toNat) ∧ FaultOn .huff4Dec s [] (HuffStuck false s.param0.toNat)
            ∧ FaultOn .huff8Dec s [] (HuffStuck true s.param0.toNat))
      ∧ ∀ m n, n < 2 ^ 29 → n ≤ s.dstLen.toNat → FaultOn .contDec s (littleBytes 4 (8 * n + m)) (ContainerStuck m n))
  ∧ (∀ (i : Instr) (s u : State) (before : List (Nat × Nat)) (offset stored : Nat) (after : List (Nat × Nat)),
      exec i { s with platform := { s.platform with busFault := [] } } = .next u → u.status.errCode = none →
      inputReads i s = before ++ (offset, stored) :: after →
      (∀ p ∈ before, s.platform.rejects (s.srcAddr.toNat + p.1) .read = false) →
      s.platform.rejects (s.srcAddr.toNat + offset) .read = true →
      (∀ k < stored, s.platform.rejects (s.dstAddr.toNat + storedPlace i s k) .write = false) →
      ∃ t, exec i s = .next t ∧ s.Failed t .busFault stored (s.srcAddr.toNat + offset)
        ∧ ∀ b, b < s.dstAddr.toNat ∨ s.dstAddr.toNat + s.dstLen.toNat ≤ b → t.mem.read b = s.mem.read b)
  ∧ (∀ (env : Env) (a n k : Nat) (w : Work), k < n → (∀ j < k, env.platform.rejects (a + j) .read = false) →
      env.platform.rejects (a + k) .read = true →
      memRead env a n w = (.error { err := .busFault, info := a + k }, w))
  ∧ ∀ (env : Env) (a n k v : Nat) (w : Work), k < n → (∀ j < k, env.platform.rejects (a + j) .write = false) →
      env.platform.rejects (a + k) .write = true →
      ∃ w', memWrite env a n v w = (.error { err := .busFault, info := a + k }, w')
        ∧ w'.inPos = w.inPos ∧ w'.stored = w.stored + k
        ∧ (∀ j < k, w'.mem.read (a + j) = (BitVec.ofNat (8 * n) v).extractLsb' (8 * j) 8)
        ∧ ∀ b, b < a ∨ a + k ≤ b → w'.mem.read b = w.mem.read b

/-! ## The memory port -/

/-- `MemRead` (20_memory.md R61). -/
def Obligations.MemReadLittleEndian : Prop :=
  ∀ (env : Env) (a n : Nat) (w : Work), (∀ j < n, env.platform.rejects (a + j) .read = false) →
    memRead env a n w = (.ok (∑ j ∈ Finset.range n, (w.mem.read (a + j)).toNat <<< (8 * j)), w)

/-- `MemWrite` (20_memory.md R62): byte j is bits 8j+7 to 8j of the value, and no other byte changes. -/
def Obligations.MemWriteLittleEndian : Prop :=
  ∀ (env : Env) (a n v : Nat) (w : Work), (∀ j < n, env.platform.rejects (a + j) .write = false) →
    ∃ w', memWrite env a n v w = (.ok (), w') ∧ w'.inPos = w.inPos
      ∧ (∀ j < n, w'.mem.read (a + j) = (BitVec.ofNat (8 * n) v).extractLsb' (8 * j) 8)
      ∧ ∀ b, b < a ∨ a + n ≤ b → w'.mem.read b = w.mem.read b

/-! ## NOP and the addressing commands -/

/-- NOP (60_exceptions.md R340), in every state: success with both results 0, no access and no buffer check; a word
with OP 0 and any other bit set is no command; and a written NOP leaves STATUS = 2. -/
def Obligations.NopSucceeds : Prop :=
  (∀ s : State, ∃ t, exec .nop s = .next t ∧ s.Succeeded t 0 0 ∧ t.mem = s.mem ∧ t.irq = s.ctrl.irqEn)
    ∧ (∀ w : Word, w.extractLsb' 0 8 = 0 → w ≠ 0 → ∃ e, decode w = .error e)
    ∧ ∀ s : State, s.status.busy = false → s.status.wbusy = false → s.agenda = [] →
        ∃ t u v, hostWrite s 0x0C 0 = .next t ∧ step t = .next u ∧ hostRead u 0x08 = .next v
          ∧ v.readData = 0x00000002

/-- SWZ.ADDR (44_swizzle.md R292, R293, R294, R296): the coordinates by the mode's formula; a stride that is no
positive multiple of 8 is InvalidParameter; a code that names no mode is UnsupportedFormat. The spec supplies G11 from
general knowledge (log entry 14). -/
def Obligations.SwizzleAddress : Prop :=
  ∀ (swz : BitVec 4) (s : State),
    (swz.toNat < 4 → s.param1.toNat ≠ 0 → s.param1.toNat % 8 = 0 →
      ∃ t, exec (.swzAddr swz) s = .next t ∧ t.mem = s.mem
        ∧ s.Succeeded t (swizzled s.param0.toNat s.param1.toNat swz.toNat).1
            (swizzled s.param0.toNat s.param1.toNat swz.toNat).2
        ∧ (swizzled s.param0.toNat s.param1.toNat swz.toNat).1 < 2 ^ 32
        ∧ (swizzled s.param0.toNat s.param1.toNat swz.toNat).2 < 2 ^ 32)
    ∧ (swz.toNat < 4 → s.param1.toNat = 0 ∨ s.param1.toNat % 8 ≠ 0 → EndsBeforeWork (.swzAddr swz) s .invalidParameter 0)
    ∧ (4 ≤ swz.toNat → EndsBeforeWork (.swzAddr swz) s .unsupportedFormat 0)

/-- TEX.DIM (44_swizzle.md R291, R297): the padded height above the padded width, and the stride, which is the padded
width for the modes 0 and 1 and the padded height for 2 and 3; dimensions that are not 1 to 32768 and codes that name
no mode are errors. -/
def Obligations.TextureDimensions : Prop :=
  ∀ (swz : BitVec 4) (pad : Bool) (s : State) (w h : Nat),
    s.param0.toNat % 65536 = w → s.param0.toNat / 65536 = h →
    (swz.toNat < 4 → 1 ≤ w → w ≤ 32768 → 1 ≤ h → h ≤ 32768 →
      ∃ pw ph t, Padded w pad pw ∧ Padded h pad ph ∧ 8 ≤ pw ∧ pw ≤ 32768 ∧ 8 ≤ ph ∧ ph ≤ 32768
        ∧ exec (.texDim swz pad) s = .next t ∧ t.mem = s.mem
        ∧ s.Succeeded t (65536 * ph + pw) (if swz.toNat ≤ 1 then pw else ph))
    ∧ (swz.toNat < 4 → w = 0 ∨ h = 0 ∨ 32768 < w ∨ 32768 < h →
      EndsBeforeWork (.texDim swz pad) s .invalidParameter 0)
    ∧ (4 ≤ swz.toNat → EndsBeforeWork (.texDim swz pad) s .unsupportedFormat 0)

/-- `addressOf` is one to one from the indices of a padded texture onto its rectangle, in every mode, and from the
indices below the stride's square onto that square (44_swizzle.md R298). The spec supplies G11 from general knowledge
(log entry 14). -/
def Obligations.AddressBijection : Prop :=
  (∀ (mode : SwizzleMode) (pw ph : Nat), 0 < pw → 0 < ph → 8 ∣ pw → 8 ∣ ph →
    (∀ n < pw * ph, (addressOf n (strideOf pw ph mode) mode).1 < pw ∧ (addressOf n (strideOf pw ph mode) mode).2 < ph)
      ∧ ∀ x < pw, ∀ y < ph, ∃! n, n < pw * ph ∧ addressOf n (strideOf pw ph mode) mode = (x, y))
  ∧ ∀ (mode : SwizzleMode) (stride : Nat), 0 < stride → 8 ∣ stride →
    (∀ n < stride * stride, (addressOf n stride mode).1 < stride ∧ (addressOf n stride mode).2 < stride)
      ∧ ∀ x < stride, ∀ y < stride, ∃! n, n < stride * stride ∧ addressOf n stride mode = (x, y)

/-! ## The decompressors -/

/-- RLE.DEC on an input that begins with an RLE body of the declared length (40_decompressors.md R122, R123, R124). -/
def Obligations.RleDecompresses : Prop :=
  ∀ (s : State) (input out : List Byte), RleBody input out → s.BuffersUsable → s.BusAccepts →
    s.mem.Holds s.srcAddr.toNat input → input.length ≤ s.srcLen.toNat →
    s.param0.toNat = out.length → out.length ≤ s.dstLen.toNat →
    EndsWithBytes .rleDec s out.length 0 out.length (out.getD · 0)

/-- LZ10.DEC on a header and an LZ10 body of the declared length (40_decompressors.md R113 to R117). The spec supplies
G4 from general knowledge (log entry 14). -/
def Obligations.Lz10Decompresses : Prop :=
  ∀ (s : State) (input out : List Byte), Lz10Body input out → out.length < 2 ^ 24 → s.BuffersUsable → s.BusAccepts →
    s.mem.Holds s.srcAddr.toNat (0x10#8 :: littleBytes 3 out.length ++ input) →
    4 + input.length ≤ s.srcLen.toNat → out.length ≤ s.dstLen.toNat →
    EndsWithBytes .lz10Dec s out.length 0 out.length (out.getD · 0)

/-- LZ11.DEC on a header with any tag and an LZ11 body of the declared length (40_decompressors.md R118 to R121). The
spec supplies G5 from general knowledge (log entry 14). -/
def Obligations.Lz11Decompresses : Prop :=
  ∀ (s : State) (tag : Byte) (input out : List Byte), Lz11Body input out → out.length < 2 ^ 24 → s.BuffersUsable →
    s.BusAccepts → s.mem.Holds s.srcAddr.toNat (tag :: littleBytes 3 out.length ++ input) →
    4 + input.length ≤ s.srcLen.toNat → out.length ≤ s.dstLen.toNat →
    EndsWithBytes .lz11Dec s out.length 0 out.length (out.getD · 0)

/-- HUFF4.DEC and HUFF8.DEC on an input that begins with a Huffman body of the declared length (41_huffman.md R160 to
R169). The spec supplies G6 to G8 from general knowledge (log entry 14). -/
def Obligations.HuffmanDecompresses : Prop :=
  ∀ (s : State) (input out : List Byte), s.BuffersUsable → s.BusAccepts →
    s.mem.Holds s.srcAddr.toNat input → input.length ≤ s.srcLen.toNat →
    s.param0.toNat = out.length → out.length ≤ s.dstLen.toNat →
    (HuffBody false input out → EndsWithBytes .huff4Dec s out.length 0 out.length (out.getD · 0))
      ∧ (HuffBody true input out → EndsWithBytes .huff8Dec s out.length 0 out.length (out.getD · 0))

/-- CONT.DEC on a header and a body of its method with the declared length (40_decompressors.md R125, R126, R127). The
spec supplies G4, G6 to G8 from general knowledge (log entry 14). -/
def Obligations.ContainerDecompresses : Prop :=
  ∀ (s : State) (m : Nat) (input out : List Byte), ContainerBody m input out → out.length < 2 ^ 29 →
    s.BuffersUsable → s.BusAccepts → s.mem.Holds s.srcAddr.toNat (littleBytes 4 (8 * out.length + m) ++ input) →
    4 + input.length ≤ s.srcLen.toNat → out.length ≤ s.dstLen.toNat →
    EndsWithBytes .contDec s out.length m out.length (out.getD · 0)

/-- Only a body of the declared length decompresses with success: an input with no such body, whether it ends too
soon, overruns the length, or reaches before the output, never does (40_decompressors.md R110, R111, R112;
41_huffman.md R166). The spec supplies G4 to G8 from general knowledge (log entry 14). -/
def Obligations.SuccessMeansWholeBody : Prop :=
  ∀ s t : State, t.status.errCode = none →
    (exec .rleDec s = .next t →
      ∃ input out, RleBody input out ∧ s.mem.Holds s.srcAddr.toNat input ∧ input.length ≤ s.srcLen.toNat
        ∧ out.length = s.param0.toNat ∧ t.mem.Holds s.dstAddr.toNat out ∧ t.result0.toNat = out.length)
    ∧ (exec .lz10Dec s = .next t →
      ∃ input out, Lz10Body input out
        ∧ s.mem.Holds s.srcAddr.toNat (0x10#8 :: littleBytes 3 out.length ++ input) ∧ 4 + input.length ≤ s.srcLen.toNat
        ∧ t.mem.Holds s.dstAddr.toNat out ∧ t.result0.toNat = out.length)
    ∧ (exec .lz11Dec s = .next t →
      ∃ tag input out, Lz11Body input out
        ∧ s.mem.Holds s.srcAddr.toNat (tag :: littleBytes 3 out.length ++ input) ∧ 4 + input.length ≤ s.srcLen.toNat
        ∧ t.mem.Holds s.dstAddr.toNat out ∧ t.result0.toNat = out.length)
    ∧ (∀ wide : Bool, exec (if wide then .huff8Dec else .huff4Dec) s = .next t →
      ∃ input out, HuffBody wide input out ∧ s.mem.Holds s.srcAddr.toNat input ∧ input.length ≤ s.srcLen.toNat
        ∧ out.length = s.param0.toNat ∧ t.mem.Holds s.dstAddr.toNat out ∧ t.result0.toNat = out.length)
    ∧ (exec .contDec s = .next t →
      ∃ m input out, m < 5 ∧ ContainerBody m input out
        ∧ s.mem.Holds s.srcAddr.toNat (littleBytes 4 (8 * out.length + m) ++ input) ∧ 4 + input.length ≤ s.srcLen.toNat
        ∧ t.mem.Holds s.dstAddr.toNat out ∧ t.result0.toNat = out.length ∧ t.result1.toNat = m)

/-! ## The pixel format codec -/

/-- The FMT codes (30_encoding.md R81), the sizes of R181, and the layouts of the twelve formats without blocks
(42_pixel_format.md R186 to R197): bit replication on decode, truncation on encode, 255 for a channel that is not
stored, luminance from G. The spec supplies G1, G2 from general knowledge (log entry 14). -/
def Obligations.TexelLayouts : Prop :=
  ((List.range 16).map fun code => pixelFormatOf (BitVec.ofNat 4 code))
      = [some .rgba8888, some .rgb888, some .rgba5551, some .rgb565, some .rgba4444, some .la88, some .hl88, some .l8,
          some .a8, some .la44, some .l4, some .a4, some .etc1, some .etc1a4, none, none]
    ∧ texelLayout .rgba8888 = .bytes 4 decodeRgba8888 encodeRgba8888
    ∧ texelLayout .rgb888 = .bytes 3 decodeRgb888 encodeRgb888
    ∧ texelLayout .rgba5551 = .bytes 2 decodeRgba5551 encodeRgba5551
    ∧ texelLayout .rgb565 = .bytes 2 decodeRgb565 encodeRgb565
    ∧ texelLayout .rgba4444 = .bytes 2 decodeRgba4444 encodeRgba4444
    ∧ texelLayout .la88 = .bytes 2 decodeLa88 encodeLa88 ∧ texelLayout .hl88 = .bytes 2 decodeHl88 encodeHl88
    ∧ texelLayout .l8 = .bytes 1 decodeL8 encodeL8 ∧ texelLayout .a8 = .bytes 1 decodeA8 encodeA8
    ∧ texelLayout .la44 = .bytes 1 decodeLa44 encodeLa44
    ∧ texelLayout .l4 = .nibbles decodeL4 encodeL4 ∧ texelLayout .a4 = .nibbles decodeA4 encodeA4
    ∧ texelLayout .etc1 = .blocks false ∧ texelLayout .etc1a4 = .blocks true
    ∧ (∀ fs ∈ [([PixelFormat.rgba8888], 4), ([.rgb888], 3), ([.rgba5551, .rgb565, .rgba4444, .la88, .hl88], 2),
          ([.l8, .a8, .la44], 1)], ∀ f ∈ fs.1, ∀ n,
        pixelCount f n = n / fs.2 ∧ encodedSize f n = n * fs.2 ∧ countLegal f n = true)
    ∧ (∀ f ∈ [PixelFormat.l4, .a4], ∀ n,
        pixelCount f n = 2 * n ∧ encodedSize f n = (n + 1) / 2 ∧ countLegal f n = true)
    ∧ (∀ fs ∈ [(PixelFormat.etc1, 8), (.etc1a4, 16)], ∀ n,
        pixelCount fs.1 n = 16 * (n / fs.2) ∧ encodedSize fs.1 n = n / 16 * fs.2
          ∧ (countLegal fs.1 n = true ↔ n % 16 = 0))
    ∧ (∀ r g b a : Byte, decodeRgba8888 (r ++ g ++ b ++ a).toNat = ⟨r, g, b, a⟩)
    ∧ (∀ r g b : Byte, decodeRgb888 (r ++ g ++ b).toNat = ⟨r, g, b, 255⟩)
    ∧ (∀ (r g b : BitVec 5) (a : BitVec 1),
        decodeRgba5551 (r ++ g ++ b ++ a).toNat
          = ⟨r ++ r.extractLsb' 2 3, g ++ g.extractLsb' 2 3, b ++ b.extractLsb' 2 3, a.signExtend 8⟩)
    ∧ (∀ (r : BitVec 5) (g : BitVec 6) (b : BitVec 5),
        decodeRgb565 (r ++ g ++ b).toNat
          = ⟨r ++ r.extractLsb' 2 3, g ++ g.extractLsb' 4 2, b ++ b.extractLsb' 2 3, 255⟩)
    ∧ (∀ r g b a : BitVec 4, decodeRgba4444 (r ++ g ++ b ++ a).toNat = ⟨r ++ r, g ++ g, b ++ b, a ++ a⟩)
    ∧ (∀ l a : Byte, decodeLa88 (l ++ a).toNat = ⟨l, l, l, a⟩)
    ∧ (∀ h l : Byte, decodeHl88 (h ++ l).toNat = ⟨h, l, 255, 255⟩)
    ∧ (∀ l : Byte, decodeL8 l.toNat = ⟨l, l, l, 255⟩) ∧ (∀ a : Byte, decodeA8 a.toNat = ⟨255, 255, 255, a⟩)
    ∧ (∀ l a : BitVec 4, decodeLa44 (l ++ a).toNat = ⟨l ++ l, l ++ l, l ++ l, a ++ a⟩)
    ∧ (∀ v : BitVec 4, decodeL4 v.toNat = ⟨v ++ v, v ++ v, v ++ v, 255⟩ ∧ decodeA4 v.toNat = ⟨255, 255, 255, v ++ v⟩)
    ∧ ∀ c : Pixel,
        encodeRgba8888 c = (c.r ++ c.g ++ c.b ++ c.a).toNat ∧ encodeRgb888 c = (c.r ++ c.g ++ c.b).toNat
          ∧ encodeRgba5551 c
              = (c.r.extractLsb' 3 5 ++ c.g.extractLsb' 3 5 ++ c.b.extractLsb' 3 5 ++ c.a.extractLsb' 7 1).toNat
          ∧ encodeRgb565 c = (c.r.extractLsb' 3 5 ++ c.g.extractLsb' 2 6 ++ c.b.extractLsb' 3 5).toNat
          ∧ encodeRgba4444 c
              = (c.r.extractLsb' 4 4 ++ c.g.extractLsb' 4 4 ++ c.b.extractLsb' 4 4 ++ c.a.extractLsb' 4 4).toNat
          ∧ encodeLa88 c = (c.g ++ c.a).toNat ∧ encodeHl88 c = (c.r ++ c.g).toNat ∧ encodeL8 c = c.g.toNat
          ∧ encodeA8 c = c.a.toNat ∧ encodeLa44 c = (c.g.extractLsb' 4 4 ++ c.a.extractLsb' 4 4).toNat
          ∧ encodeL4 c = (c.g.extractLsb' 4 4).toNat ∧ encodeA4 c = (c.a.extractLsb' 4 4).toNat

/-- Every texel of every format but the ETC1 ones is what its own decoding encodes to (42_pixel_format.md R202, R203),
without the zero-alpha step. The spec supplies G2 from general knowledge (log entry 14). -/
def Obligations.TexelRoundTrip : Prop :=
  ∀ (f : PixelFormat) (t : Nat),
    match texelLayout f with
    | .bytes size decode encode => t < 256 ^ size → encode (decode t) = t
    | .nibbles decode encode => t < 16 → encode (decode t) = t
    | .blocks _ => True

/-- PIX.DEC (42_pixel_format.md R181, R182, R200): record j of the output is pixel j of the input. The spec supplies
G1 to G3, G9, G10 from general knowledge (log entry 14). -/
def Obligations.PixelDecode : Prop :=
  ∀ (fmt : BitVec 4) (f : PixelFormat) (s : State), pixelFormatOf fmt = some f → s.BuffersUsable → s.BusAccepts →
    4 * pixelCount f s.srcLen.toNat ≤ s.dstLen.toNat →
    EndsWithBytes (.pixDec fmt) s (4 * pixelCount f s.srcLen.toNat) (pixelCount f s.srcLen.toNat)
      (4 * pixelCount f s.srcLen.toNat)
      (fun k => channelByte (pixelAt s.mem f s.srcAddr.toNat (k / 4)) (k % 4))

/-- PIX.ENC (42_pixel_format.md R181, R183, R199, R201): the texel bytes of the records, the zero-alpha step first. That
ZERO_ALPHA_RGB has R in bits 23:16, G in 15:8 and B in 7:0 is the model's choice (log entry 2). The spec supplies G1 to
G3, G9, G10 from general knowledge (log entry 14). -/
def Obligations.PixelEncode : Prop :=
  ∀ (fmt : BitVec 4) (f : PixelFormat) (s : State), pixelFormatOf fmt = some f → s.BuffersUsable → s.BusAccepts →
    (f = .etc1 ∨ f = .etc1a4 → s.param0.toNat % 16 = 0) → 4 * s.param0.toNat ≤ s.srcLen.toNat →
    encodedSize f s.param0.toNat ≤ s.dstLen.toNat →
    let bytes := texelBytes f
      ((List.range s.param0.toNat).map fun n => zeroAlpha s.platform (recordAt s.mem s.srcAddr.toNat n))
    (∀ c : Pixel, zeroAlpha s.platform c
        = if c.a = 0 then
            { r := s.platform.zeroAlphaRgb.extractLsb' 16 8, g := s.platform.zeroAlphaRgb.extractLsb' 8 8,
              b := s.platform.zeroAlphaRgb.extractLsb' 0 8, a := 0 }
          else c)
      ∧ bytes.length = encodedSize f s.param0.toNat
      ∧ EndsWithBytes (.pixEnc fmt) s (encodedSize f s.param0.toNat) s.param0.toNat (encodedSize f s.param0.toNat)
          (bytes.getD · 0)

/-! ## The ETC1 block codec -/

/-- The permutation of 43_etc1.md R232: its table, its inverse, which is its cube, its cycles, and what it orders:
caller position k of the pixels the codec takes and yields is block pixel `order3ds k`. -/
def Obligations.CallerOrder : Prop :=
  (List.range 16).map order3ds = [0, 4, 1, 5, 8, 12, 9, 13, 2, 6, 3, 7, 10, 14, 11, 15]
    ∧ (List.range 16).map inv3ds = [0, 2, 8, 10, 1, 3, 9, 11, 4, 6, 12, 14, 5, 7, 13, 15]
    ∧ (∀ k < 16, inv3ds (order3ds k) = k ∧ order3ds (inv3ds k) = k ∧ inv3ds k = order3ds (order3ds (order3ds k))
        ∧ order3ds (order3ds (order3ds (order3ds k))) = k)
    ∧ (∀ c ∈ [[1, 4, 8, 2], [3, 5, 12, 10], [7, 13, 14, 11], [6, 9], [0], [15]],
        c.map order3ds = c.tail ++ c.take 1)
    ∧ (∀ pixels : List Pixel, pixels.length = 16 → ∀ k < 16, (blockOrder pixels)[order3ds k]? = pixels[k]?)
    ∧ ∀ (w : Nat) (aw : Option Nat), ∀ k < 16, (decodeBlock w aw)[k]? = some (blockPixel w aw (order3ds k))

/-- The decoded pixel (43_etc1.md R233 to R237), for every block word and alpha plane. The spec supplies G3, G9, G10
from general knowledge (log entry 14). -/
def Obligations.DecodedPixel : Prop :=
  ∀ (w : BitVec 64) (plane : Option (BitVec 64)) (k : Nat), k < 16 →
    (decodeBlock w.toNat (plane.map BitVec.toNat))[k]? = some (callerPixel w plane k)

/-- ETC1.DEC (43_etc1.md R238, R245): the 16 records are the block's pixels in caller order. The spec supplies G3, G9,
G10 from general knowledge (log entry 14). -/
def Obligations.BlockDecode : Prop :=
  ∀ (alpha : Bool) (s : State), s.BuffersUsable → s.BusAccepts →
    (if alpha then 16 else 8) ≤ s.srcLen.toNat → 64 ≤ s.dstLen.toNat →
    EndsWithBytes (.etc1Dec (if alpha then 13 else 12)) s 64 0 64
      (fun k => channelByte ((blockAt s.mem s.srcAddr.toNat alpha).getD (k / 4) (Pixel.ofNat 0 0 0 0)) (k % 4))

/-- ETC1.ENC (43_etc1.md R250, R275): the encoded block, its error in RESULT1, and no zero-alpha step. Equal colours
are the solid block; others the first of the four flip and diff combinations whose two searches have the least error,
packed field by field (R250, R265, R269, R273). The spec supplies G3, G9, G10 from general knowledge (log entry 14).
-/
def Obligations.BlockEncode : Prop :=
  (∀ (alpha : Bool) (s : State), s.BuffersUsable → s.BusAccepts →
    64 ≤ s.srcLen.toNat → (if alpha then 16 else 8) ≤ s.dstLen.toNat →
    let pixels := (List.range 16).map fun n => recordAt s.mem s.srcAddr.toNat n
    EndsWithBytes (.etc1Enc (if alpha then 13 else 12)) s (if alpha then 16 else 8)
      (encodeColours ((blockOrder pixels).map Pixel.rgb)).2 (if alpha then 16 else 8)
      ((encodedBlock alpha pixels).getD · 0))
  ∧ ∀ pixels : List Pixel, pixels.length = 16 →
      let colours := (blockOrder pixels).map Pixel.rgb
      (∀ c, colours = List.replicate 16 c → encodeColours colours = solidBlock c)
      ∧ ((∀ c, colours ≠ List.replicate 16 c) →
          (encodeColours colours).1 < 2 ^ 64
            ∧ IsGeneralBlock colours (BitVec.ofNat 64 (encodeColours colours).1) (encodeColours colours).2)

/-- Encoding and decoding the same block are consistent (43_etc1.md R277): the error the encoder yields is the error
of the decoded pixels, and the decoded alphas are the encoded ones cut to four bits. The spec supplies G3, G9, G10
from general knowledge (log entry 14). -/
def Obligations.EncodeErrorIsDecodeError : Prop :=
  ∀ pixels : List Pixel, pixels.length = 16 →
    let block := encodeColours ((blockOrder pixels).map Pixel.rgb)
    (∑ k ∈ Finset.range 16,
        perceptualError ((decodeBlock block.1 none).getD k (Pixel.ofNat 0 0 0 0)).rgb
          (pixels.getD k (Pixel.ofNat 0 0 0 0)).rgb) = block.2
      ∧ ∀ k < 16,
          ((decodeBlock block.1 (some (alphaWord (blockOrder pixels)))).getD k (Pixel.ofNat 0 0 0 0)).a.toNat
            = 17 * ((pixels.getD k (Pixel.ofNat 0 0 0 0)).a.toNat / 16)

/-- The solid block of a colour (43_etc1.md R260, R261) is the first of least error of all 64 combinations with all
levels: the lowest combination on a tie, and in it the least level of each channel. Its word holds that choice in both
halves, with flip 0 and the one selector, and its error is that of 16 pixels. The spec supplies G3 from general
knowledge (log entry 14). -/
def Obligations.SolidBlockIsLeast : Prop :=
  ∀ c : Pixel, ∃ x : SolidChoice, x.IsFirstLeast c.rgb
    ∧ (solidBlock c.rgb).1 < 2 ^ 64
    ∧ HoldsSolutions (BitVec.ofNat 64 (solidBlock c.rgb).1) false x.diff x.half x.half
    ∧ (solidBlock c.rgb).2 = 16 * x.cost c.rgb

/-- The bounded search of a sub-block (43_etc1.md R266 to R271): from the quantised average it yields, of the legal
bases within 4 levels with the eight tables, the first of least error in the order they are tried, if one of them has
an error of at most 9000; otherwise the first of least error within 8 levels; and nothing where no base within 8
levels is legal. A candidate's error is that of the pixels' best selectors, the least selector on a tie. The spec
supplies G3 from general knowledge (log entry 14). -/
def Obligations.SearchFindsLeastNearby : Prop :=
  ∀ (pixels : List Rgb) (diff : Bool) (ref : Option Rgb),
    (NearFits pixels diff ref → ∃ best, search pixels diff ref = some best ∧ IsFirstLeast pixels diff ref 4 best)
    ∧ (¬ NearFits pixels diff ref → (∃ c t, Candidate pixels diff ref 8 c t) →
        ∃ best, search pixels diff ref = some best ∧ IsFirstLeast pixels diff ref 8 best)
    ∧ ((∀ c t, ¬ Candidate pixels diff ref 8 c t) → search pixels diff ref = none)
    ∧ startBase pixels diff
        = { r := (pixels.map Rgb.r).sum / pixels.length * levels diff / 256
            g := (pixels.map Rgb.g).sum / pixels.length * levels diff / 256
            b := (pixels.map Rgb.b).sum / pixels.length * levels diff / 256 }
    ∧ levels diff = (if diff then 32 else 16)
    ∧ ∀ (c : Rgb) (t : Nat),
        let sol := evaluate pixels c diff t
        let cost (p : Rgb) (s : Nat) : Nat := perceptualError (shade (scaleBase diff c) (modifier t s)) p
        sol.base = c ∧ sol.table = t ∧ sol.sel.length = pixels.length
          ∧ sol.err = ((pixels.zip sol.sel).map fun x => cost x.1 x.2).sum
          ∧ ∀ x ∈ pixels.zip sol.sel, x.2 < 4 ∧ ∀ s < 4, cost x.1 x.2 < cost x.1 s ∨ cost x.1 x.2 = cost x.1 s ∧ x.2 ≤ s

/-! ## The texture commands -/

/-- TEX.DEC (44_swizzle.md R299, R300): each texel of the padded texture whose address lies in the image is the record
there, every record is one of them, and no other byte changes. The spec supplies G1 to G3, G9 to G11 from general
knowledge (log entry 14). -/
def Obligations.TextureDecode : Prop :=
  ∀ (fmt swz : BitVec 4) (f : PixelFormat) (mode : SwizzleMode) (pad : Bool) (s : State) (w h pw ph : Nat),
    pixelFormatOf fmt = some f → swizzleModeOf swz = some mode →
    s.param0.toNat % 65536 = w → s.param0.toNat / 65536 = h → 1 ≤ w → w ≤ 32768 → 1 ≤ h → h ≤ 32768 →
    pw = padDim w pad → ph = padDim h pad →
    pw * ph ≤ pixelCount f s.srcLen.toNat → 4 * w * h ≤ s.dstLen.toNat → s.BuffersUsable → s.BusAccepts →
    ∃ t, exec (.texDec fmt swz pad) s = .next t ∧ s.Succeeded t (4 * w * h) (pw * ph)
      ∧ (∀ n < pw * ph, ∀ x < w, ∀ y < h, addressOf n (strideOf pw ph mode) mode = (x, y) →
          recordAt t.mem s.dstAddr.toNat (y * w + x) = pixelAt s.mem f s.srcAddr.toNat n)
      ∧ (∀ x < w, ∀ y < h, ∃ n < pw * ph, addressOf n (strideOf pw ph mode) mode = (x, y))
      ∧ ∀ b, b < s.dstAddr.toNat ∨ s.dstAddr.toNat + 4 * w * h ≤ b → t.mem.read b = s.mem.read b

/-- TEX.ENC (44_swizzle.md R299, R301): the texel bytes of the padded texture, texel n the record at its address, the
padding repeating the edge, the zero-alpha step first, with the model's packing of ZERO_ALPHA_RGB (log entry 2). The
spec supplies G1 to G3, G9 to G11 from general knowledge (log entry 14). -/
def Obligations.TextureEncode : Prop :=
  ∀ (fmt swz : BitVec 4) (f : PixelFormat) (mode : SwizzleMode) (pad : Bool) (s : State) (w h pw ph : Nat),
    pixelFormatOf fmt = some f → swizzleModeOf swz = some mode →
    s.param0.toNat % 65536 = w → s.param0.toNat / 65536 = h → 1 ≤ w → w ≤ 32768 → 1 ≤ h → h ≤ 32768 →
    pw = padDim w pad → ph = padDim h pad →
    4 * w * h ≤ s.srcLen.toNat → encodedSize f (pw * ph) ≤ s.dstLen.toNat → s.BuffersUsable → s.BusAccepts →
    let record (p : Nat × Nat) : Pixel := recordAt s.mem s.srcAddr.toNat (min p.2 (h - 1) * w + min p.1 (w - 1))
    let bytes := texelBytes f
      ((List.range (pw * ph)).map fun n => zeroAlpha s.platform (record (addressOf n (strideOf pw ph mode) mode)))
    EndsWithBytes (.texEnc fmt swz pad) s (encodedSize f (pw * ph)) (pw * ph) (encodedSize f (pw * ph)) (bytes.getD · 0)
end

