-- ==== Sys2Proof/Laws/Engine.lean ====
section
/-! SUPPORT. How a piece of a command runs: the equations of `pure`, `raise`, `bind`, `get` and `modify` at a working
state, and `Ensures`, which says what holds of every outcome of a piece, with one rule for each way of building one.
No proof about a command needs to unfold ExceptT or StateM. -/
namespace Sys2Proof.Machine

variable {α β : Type}

/-! ## Equations -/

@[simp] theorem run_pure (v : α) (w : Work) : (pure v : Eng α) w = (.ok v, w) := rfl

@[simp] theorem run_raise (e : Err) (info : Nat) (w : Work) :
    (raise e info : Eng α) w = (.error { err := e, info := info }, w) := rfl

@[simp] theorem run_get (w : Work) : (get : Eng Work) w = (.ok w, w) := rfl

@[simp] theorem run_modify (f : Work → Work) (w : Work) : (modify f : Eng Unit) w = (.ok (), f w) := rfl

/-- The outcome of `x` followed by `f`. -/
theorem run_bind (x : Eng α) (f : α → Eng β) (w : Work) :
    (x >>= f) w = match x w with
      | (.ok v, w') => f v w'
      | (.error r, w') => (.error r, w') := by
  simp only [bind, ExceptT.bind, ExceptT.mk, StateT.bind]
  rcases h : x w with ⟨⟨⟩ | ⟨⟩, w'⟩ <;> rfl

theorem run_bind_ok {x : Eng α} {f : α → Eng β} {w w' : Work} {v : α} (h : x w = (.ok v, w')) :
    (x >>= f) w = f v w' := by
  rw [run_bind, h]

theorem run_bind_error {x : Eng α} {f : α → Eng β} {w w' : Work} {r : Raise} (h : x w = (.error r, w')) :
    (x >>= f) w = (.error r, w') := by
  rw [run_bind, h]

@[simp] theorem run_pure_bind (v : α) (f : α → Eng β) (w : Work) : ((pure v : Eng α) >>= f) w = f v w :=
  run_bind_ok rfl

@[simp] theorem run_raise_bind (e : Err) (info : Nat) (f : α → Eng β) (w : Work) :
    ((raise e info : Eng α) >>= f) w = (.error { err := e, info := info }, w) :=
  run_bind_error rfl

@[simp] theorem run_get_bind (f : Work → Eng β) (w : Work) : ((get : Eng Work) >>= f) w = f w w :=
  run_bind_ok rfl

@[simp] theorem run_modify_bind (g : Work → Work) (f : Unit → Eng β) (w : Work) :
    ((modify g : Eng Unit) >>= f) w = f () (g w) :=
  run_bind_ok rfl

theorem run_bind_assoc {γ : Type} (x : Eng α) (f : α → Eng β) (g : β → Eng γ) (w : Work) :
    ((x >>= f) >>= g) w = (x >>= fun v => f v >>= g) w := by
  rw [run_bind, run_bind, run_bind]
  rcases x w with ⟨⟨⟩ | ⟨⟩, w'⟩
  · rfl
  · simp only [run_bind]

/-- Two pieces with the same outcome at every working state are the same piece. -/
theorem run_ext {x y : Eng α} (h : ∀ w, x w = y w) : x = y := funext h

/-! ## Every outcome -/

/-- From every working state with `pre`, `x` either yields a value and a working state with `post`, or raises and leaves
one with `fail`. -/
def Ensures (pre : Work → Prop) (x : Eng α) (post : α → Work → Prop) (fail : Raise → Work → Prop) : Prop :=
  ∀ w, pre w → match x w with
    | (.ok v, w') => post v w'
    | (.error r, w') => fail r w'

theorem Ensures.ok {pre : Work → Prop} {x : Eng α} {post : α → Work → Prop} {fail : Raise → Work → Prop}
    (h : Ensures pre x post fail) {w w' : Work} {v : α} (hw : pre w) (hx : x w = (.ok v, w')) : post v w' := by
  simpa [hx] using h w hw

theorem Ensures.error {pre : Work → Prop} {x : Eng α} {post : α → Work → Prop} {fail : Raise → Work → Prop}
    (h : Ensures pre x post fail) {w w' : Work} {r : Raise} (hw : pre w) (hx : x w = (.error r, w')) : fail r w' := by
  simpa [hx] using h w hw

theorem Ensures.pure {pre : Work → Prop} {v : α} {post : α → Work → Prop} {fail : Raise → Work → Prop}
    (h : ∀ w, pre w → post v w) : Ensures pre (pure v) post fail := h

theorem Ensures.raise {pre : Work → Prop} {e : Err} {info : Nat} {post : α → Work → Prop} {fail : Raise → Work → Prop}
    (h : ∀ w, pre w → fail { err := e, info := info } w) : Ensures pre (raise e info) post fail := h

theorem Ensures.bind {pre : Work → Prop} {x : Eng α} {mid : α → Work → Prop} {f : α → Eng β} {post : β → Work → Prop}
    {fail : Raise → Work → Prop} (hx : Ensures pre x mid fail) (hf : ∀ v, Ensures (mid v) (f v) post fail) :
    Ensures pre (x >>= f) post fail := by
  intro w hw
  rw [run_bind]
  have := hx w hw
  rcases h : x w with ⟨r | v, w'⟩
  · simpa [h] using this
  · exact hf v w' (by simpa [h] using this)

theorem Ensures.ite {pre : Work → Prop} {c : Prop} [Decidable c] {x y : Eng α} {post : α → Work → Prop}
    {fail : Raise → Work → Prop} (hx : c → Ensures pre x post fail) (hy : ¬ c → Ensures pre y post fail) :
    Ensures pre (if c then x else y) post fail := by
  split
  · next h => exact hx h
  · next h => exact hy h

theorem Ensures.weaken {pre pre' : Work → Prop} {x : Eng α} {post post' : α → Work → Prop}
    {fail fail' : Raise → Work → Prop} (h : Ensures pre x post fail) (hpre : ∀ w, pre' w → pre w)
    (hpost : ∀ v w, post v w → post' v w) (hfail : ∀ r w, fail r w → fail' r w) : Ensures pre' x post' fail' := by
  intro w hw
  have := h w (hpre w hw)
  rcases hx : x w with ⟨r | v, w'⟩
  · rw [hx] at this
    exact hfail _ _ this
  · rw [hx] at this
    exact hpost _ _ this

theorem Ensures.pre {pre pre' : Work → Prop} {x : Eng α} {post : α → Work → Prop}
    {fail : Raise → Work → Prop} (h : Ensures pre x post fail) (hpre : ∀ w, pre' w → pre w) :
    Ensures pre' x post fail :=
  h.weaken hpre (fun _ _ h => h) (fun _ _ h => h)

theorem Ensures.post {pre : Work → Prop} {x : Eng α} {post post' : α → Work → Prop}
    {fail : Raise → Work → Prop} (h : Ensures pre x post fail) (hpost : ∀ v w, post v w → post' v w) :
    Ensures pre x post' fail :=
  h.weaken (fun _ h => h) hpost (fun _ _ h => h)

/-- A fact that does not depend on the working state may be assumed. -/
theorem Ensures.assume {c : Prop} {pre : Work → Prop} {x : Eng α} {post : α → Work → Prop}
    {fail : Raise → Work → Prop} (h : c → Ensures pre x post fail) : Ensures (fun w => c ∧ pre w) x post fail :=
  fun w hw => h hw.1 w hw.2

/-! ## Loops -/

theorem run_repeatTimes_succ (body : Eng Unit) (n : Nat) (w : Work) :
    repeatTimes body (n + 1) w = (body >>= fun _ => repeatTimes body n) w := rfl

theorem run_forFrom_succ (body : Nat → Eng Unit) (n j : Nat) (w : Work) :
    forFrom body (n + 1) j w = (body j >>= fun _ => forFrom body n (j + 1)) w := rfl

theorem run_collectFrom_succ (body : Nat → Eng α) (n j : Nat) (w : Work) :
    collectFrom body (n + 1) j w
      = (body j >>= fun x => collectFrom body n (j + 1) >>= fun xs => pure (x :: xs)) w := rfl

/-- `inv k` holds before round k; n rounds in all. -/
theorem Ensures.repeatTimes {inv : Nat → Work → Prop} {body : Eng Unit} {fail : Raise → Work → Prop} {n : Nat}
    {k : Nat} (h : ∀ j, k ≤ j → j < k + n → Ensures (inv j) body (fun _ => inv (j + 1)) fail) :
    Ensures (inv k) (repeatTimes body n) (fun _ => inv (k + n)) fail := by
  induction n generalizing k with
  | zero => exact fun w hw => hw
  | succ n ih =>
    refine Ensures.bind (h k (Nat.le_refl k) (by omega)) fun _ => ?_
    have := ih (k := k + 1) fun j h1 h2 => h j (by omega) (by omega)
    rwa [show k + 1 + n = k + (n + 1) by omega] at this

theorem Ensures.forFrom {inv : Nat → Work → Prop} {body : Nat → Eng Unit} {fail : Raise → Work → Prop} {n k : Nat}
    (h : ∀ j, k ≤ j → j < k + n → Ensures (inv j) (body j) (fun _ => inv (j + 1)) fail) :
    Ensures (inv k) (forFrom body n k) (fun _ => inv (k + n)) fail := by
  induction n generalizing k with
  | zero => exact fun w hw => hw
  | succ n ih =>
    refine Ensures.bind (h k (Nat.le_refl k) (by omega)) fun _ => ?_
    have := ih (k := k + 1) fun j h1 h2 => h j (by omega) (by omega)
    rwa [show k + 1 + n = k + (n + 1) by omega] at this

/-- `inv` is kept by every round, and `good j` holds of the value of round j. -/
theorem Ensures.collectFrom {inv : Work → Prop} {good : Nat → α → Prop} {body : Nat → Eng α}
    {fail : Raise → Work → Prop} {n k : Nat}
    (h : ∀ j, k ≤ j → j < k + n → Ensures inv (body j) (fun v w => good j v ∧ inv w) fail) :
    Ensures inv (collectFrom body n k)
      (fun vs w => (vs.length = n ∧ ∀ j (hj : j < vs.length), good (k + j) vs[j]) ∧ inv w) fail := by
  induction n generalizing k with
  | zero => exact fun w hw => ⟨⟨rfl, fun j hj => absurd hj (by simp)⟩, hw⟩
  | succ n ih =>
    refine Ensures.bind (h k (Nat.le_refl k) (by omega)) fun x => Ensures.assume fun hx => ?_
    refine Ensures.bind (ih (k := k + 1) fun j h1 h2 => h j (by omega) (by omega)) fun xs =>
      Ensures.pure fun w hw => ⟨⟨by simp [hw.1.1], ?_⟩, hw.2⟩
    intro j hj
    cases j with
    | zero => simpa using hx
    | succ j =>
      have := hw.1.2 j (by simpa using hj)
      rw [show k + 1 + j = k + (j + 1) by omega] at this
      simpa using this

end Sys2Proof.Machine
end

