-- ==== Sys2Proof/Laws/Memory.lean ====
section
/-! SUPPORT. The laws of the byte memory: a byte read after a write, the canonical form kept by every operation, and what
`fill` and `mix` leave at each address. No proof about memory needs to unfold `insert`, `erase` or `sortedAbove` again. -/
namespace Sys2Proof.Machine

/-! ## Reading after one operation -/

theorem Memory.read_nil (a : Nat) : Memory.read [] a = 0 := rfl

theorem Memory.erase_cons (c : Host.Cell) (m : Memory) (a : Nat) :
    Memory.erase (c :: m) a = if c.1 = a then Memory.erase m a else c :: Memory.erase m a := by
  by_cases h : c.1 = a <;> simp [Memory.erase, h]

theorem Memory.read_erase_same (m : Memory) (a : Nat) : (Memory.erase m a).read a = 0 := by
  induction m with
  | nil => rfl
  | cons c m ih =>
    rw [Memory.erase_cons]
    by_cases h : c.1 = a
    · simpa [h] using ih
    · simpa [h, Memory.read] using ih

theorem Memory.read_erase_other (m : Memory) {a b : Nat} (h : b ≠ a) : (Memory.erase m a).read b = m.read b := by
  induction m with
  | nil => rfl
  | cons c m ih =>
    rw [Memory.erase_cons]
    by_cases hc : c.1 = a
    · have : c.1 ≠ b := fun e => h (by omega)
      simp [hc, Memory.read, ih, show ¬ a = b from fun e => h e.symm]
    · simp [hc, Memory.read, ih]

theorem Memory.read_insert_same (m : Memory) (a : Nat) (v : Byte) (h : ∀ c ∈ m, c.1 ≠ a) :
    (Memory.insert m a v).read a = v := by
  induction m with
  | nil => simp [Memory.insert, Memory.read]
  | cons c m ih =>
    have hc : c.1 ≠ a := h c (by simp)
    by_cases hlt : a < c.1
    · simp [Memory.insert, hlt, Memory.read]
    · simpa [Memory.insert, hlt, Memory.read, hc] using ih fun d hd => h d (by simp [hd])

theorem Memory.read_insert_other (m : Memory) {a b : Nat} (v : Byte) (h : b ≠ a) :
    (Memory.insert m a v).read b = m.read b := by
  induction m with
  | nil => simp [Memory.insert, Memory.read, Ne.symm h]
  | cons c m ih =>
    by_cases hlt : a < c.1
    · simp [Memory.insert, hlt, Memory.read, Ne.symm h]
    · simp [Memory.insert, hlt, Memory.read, ih]

theorem Memory.mem_erase {m : Memory} {a : Nat} {c : Host.Cell} : c ∈ Memory.erase m a ↔ c ∈ m ∧ c.1 ≠ a := by
  simp [Memory.erase]

theorem Memory.mem_insert {m : Memory} {a : Nat} {v : Byte} {c : Host.Cell} :
    c ∈ Memory.insert m a v ↔ c = (a, v) ∨ c ∈ m := by
  induction m with
  | nil => simp [Memory.insert]
  | cons d m ih =>
    by_cases hlt : a < d.1
    · simp [Memory.insert, hlt]
    · simp [Memory.insert, hlt, ih]; tauto

/-- A byte reads as what was written to it. -/
@[simp] theorem Memory.read_write_same (m : Memory) (a : Nat) (v : Byte) : (Memory.write m a v).read a = v := by
  unfold Memory.write
  split
  · next h => rw [Memory.read_erase_same, h]
  · exact Memory.read_insert_same _ _ _ fun c hc => (Memory.mem_erase.mp hc).2

/-- A write changes no other byte (20_memory.md R62). -/
theorem Memory.read_write_other (m : Memory) {a b : Nat} (v : Byte) (h : b ≠ a) :
    (Memory.write m a v).read b = m.read b := by
  unfold Memory.write
  split
  · exact Memory.read_erase_other m h
  · rw [Memory.read_insert_other _ v h, Memory.read_erase_other m h]

theorem Memory.read_write (m : Memory) (a b : Nat) (v : Byte) :
    (Memory.write m a v).read b = if b = a then v else m.read b := by
  split
  · next h => rw [h, Memory.read_write_same]
  · next h => exact Memory.read_write_other m v h

/-! ## The canonical form -/

theorem Memory.sortedAbove_cons {lo : Option Nat} {a : Nat} {v : Byte} {m : Memory} :
    Memory.sortedAbove lo ((a, v) :: m) = true ↔ (∀ l ∈ lo, l < a) ∧ v ≠ 0 ∧ Memory.sortedAbove (some a) m = true := by
  cases lo <;> simp [Memory.sortedAbove, and_assoc]

theorem Memory.sortedAbove_weaken {m : Memory} {lo lo' : Option Nat} (h : Memory.sortedAbove lo m = true)
    (hlo : ∀ l' ∈ lo', ∃ l ∈ lo, l' ≤ l) : Memory.sortedAbove lo' m = true := by
  cases m with
  | nil => rfl
  | cons c m =>
    obtain ⟨a, v⟩ := c
    rw [Memory.sortedAbove_cons] at h ⊢
    refine ⟨fun l' hl' => ?_, h.2⟩
    obtain ⟨l, hl, hle⟩ := hlo l' hl'
    have := h.1 l hl
    omega

theorem Memory.sortedAbove_erase {m : Memory} {lo : Option Nat} (a : Nat) (h : Memory.sortedAbove lo m = true) :
    Memory.sortedAbove lo (Memory.erase m a) = true := by
  induction m generalizing lo with
  | nil => rfl
  | cons c m ih =>
    obtain ⟨b, v⟩ := c
    rw [Memory.sortedAbove_cons] at h
    rw [Memory.erase_cons]
    split
    · refine Memory.sortedAbove_weaken (ih h.2.2) fun l hl => ⟨b, rfl, ?_⟩
      have := h.1 l hl
      omega
    · exact Memory.sortedAbove_cons.mpr ⟨h.1, h.2.1, ih h.2.2⟩

theorem Memory.sortedAbove_insert {m : Memory} {lo : Option Nat} {a : Nat} {v : Byte} (h : Memory.sortedAbove lo m = true)
    (hlo : ∀ l ∈ lo, l < a) (hv : v ≠ 0) (hm : ∀ c ∈ m, c.1 ≠ a) :
    Memory.sortedAbove lo (Memory.insert m a v) = true := by
  induction m generalizing lo with
  | nil => exact Memory.sortedAbove_cons.mpr ⟨hlo, hv, rfl⟩
  | cons c m ih =>
    obtain ⟨b, u⟩ := c
    have hb : b ≠ a := hm (b, u) (by simp)
    rw [Memory.sortedAbove_cons] at h
    by_cases hlt : a < b
    · simp only [Memory.insert, hlt, if_true]
      exact Memory.sortedAbove_cons.mpr
        ⟨hlo, hv, Memory.sortedAbove_cons.mpr ⟨fun l hl => by simp at hl; omega, h.2⟩⟩
    · simp only [Memory.insert, hlt, if_false]
      refine Memory.sortedAbove_cons.mpr
        ⟨h.1, h.2.1, ih h.2.2 (fun l hl => by simp at hl; omega) fun d hd => hm d (by simp [hd])⟩

theorem Memory.wf_nil : Memory.wf [] = true := rfl

theorem Memory.wf_erase {m : Memory} (a : Nat) (h : m.wf = true) : (Memory.erase m a).wf = true :=
  Memory.sortedAbove_erase a h

/-- A write keeps the canonical form. -/
theorem Memory.wf_write {m : Memory} (a : Nat) (v : Byte) (h : m.wf = true) : (Memory.write m a v).wf = true := by
  unfold Memory.write
  split
  · exact Memory.wf_erase a h
  · next hv =>
    exact Memory.sortedAbove_insert (Memory.wf_erase a h) (by simp) hv fun c hc => (Memory.mem_erase.mp hc).2

theorem Memory.read_eq_of_mem {m : Memory} {lo : Option Nat} (h : Memory.sortedAbove lo m = true) :
    ∀ c ∈ m, (∀ l ∈ lo, l < c.1) ∧ c.2 ≠ 0 ∧ m.read c.1 = c.2 := by
  induction m generalizing lo with
  | nil => simp
  | cons d m ih =>
    obtain ⟨a, v⟩ := d
    rw [Memory.sortedAbove_cons] at h
    intro c hc
    rcases List.mem_cons.mp hc with rfl | hc
    · exact ⟨h.1, h.2.1, by simp [Memory.read]⟩
    · obtain ⟨habove, hne, hread⟩ := ih h.2.2 c hc
      have hlt : a < c.1 := habove a rfl
      refine ⟨fun l hl => ?_, hne, ?_⟩
      · have := h.1 l hl
        omega
      · simp [Memory.read, Nat.ne_of_lt hlt, hread]

/-- In a canonical memory a listed byte is what its address reads as, and is not 0. -/
theorem Memory.read_of_mem {m : Memory} (h : m.wf = true) {c : Host.Cell} (hc : c ∈ m) : m.read c.1 = c.2 ∧ c.2 ≠ 0 :=
  ⟨(Memory.read_eq_of_mem h c hc).2.2, (Memory.read_eq_of_mem h c hc).2.1⟩

theorem Memory.mem_of_read_ne {m : Memory} {a : Nat} (h : m.read a ≠ 0) : (a, m.read a) ∈ m := by
  induction m with
  | nil => exact absurd rfl h
  | cons c m ih =>
    obtain ⟨b, v⟩ := c
    by_cases hb : b = a
    · simp [Memory.read, hb]
    · simp only [Memory.read, hb, if_false] at h ⊢
      exact List.mem_cons_of_mem _ (ih h)

theorem Memory.read_below {m : Memory} {lo : Option Nat} {a : Nat} (h : Memory.sortedAbove lo m = true)
    (ha : ∃ l ∈ lo, a ≤ l) : m.read a = 0 := by
  by_contra hne
  obtain ⟨l, hl, hle⟩ := ha
  have := (Memory.read_eq_of_mem h _ (Memory.mem_of_read_ne hne)).1 l hl
  simp at this
  omega

theorem Memory.ext_sorted {m m' : Memory} {lo lo' : Option Nat} (h : Memory.sortedAbove lo m = true)
    (h' : Memory.sortedAbove lo' m' = true) (heq : ∀ a, m.read a = m'.read a) : m = m' := by
  induction m generalizing lo lo' m' with
  | nil =>
    cases m' with
    | nil => rfl
    | cons c m' =>
      obtain ⟨b, v⟩ := c
      have := Memory.read_eq_of_mem h' (b, v) (by simp)
      exact absurd (this.2.2.symm.trans (heq b).symm) this.2.1
  | cons c m ih =>
    obtain ⟨a, v⟩ := c
    cases m' with
    | nil =>
      have := Memory.read_eq_of_mem h (a, v) (by simp)
      exact absurd (this.2.2.symm.trans (heq a)) this.2.1
    | cons c' m' =>
      obtain ⟨b, u⟩ := c'
      rw [Memory.sortedAbove_cons] at h h'
      have hab : a = b := by
        by_contra hne
        rcases Nat.lt_or_gt_of_ne hne with hlt | hlt
        · have e := heq a
          simp only [Memory.read, if_true, show ¬ b = a from fun e => hne e.symm, if_false] at e
          rw [Memory.read_below h'.2.2 ⟨b, rfl, Nat.le_of_lt hlt⟩] at e
          exact h.2.1 e
        · have e := heq b
          simp only [Memory.read, if_true, hne, if_false] at e
          rw [Memory.read_below h.2.2 ⟨a, rfl, Nat.le_of_lt hlt⟩] at e
          exact h'.2.1 e.symm
      subst hab
      have hvu : v = u := by simpa [Memory.read] using heq a
      subst hvu
      congr 1
      refine ih h.2.2 h'.2.2 fun x => ?_
      by_cases hx : a = x
      · subst hx
        rw [Memory.read_below h.2.2 ⟨a, rfl, Nat.le_refl a⟩, Memory.read_below h'.2.2 ⟨a, rfl, Nat.le_refl a⟩]
      · simpa [Memory.read, hx] using heq x

/-- Canonical memories that read alike are the same data. -/
theorem Memory.ext_read {m m' : Memory} (h : m.wf = true) (h' : m'.wf = true) (heq : ∀ a, m.read a = m'.read a) :
    m = m' :=
  Memory.ext_sorted h h' heq

/-! ## Places -/

/-- A write to a place where the test holds lists no byte where it does not. -/
theorem Memory.placed_write {p : Nat → Prop} {m : Memory} {a : Nat} (v : Byte) (h : ∀ c ∈ m, p c.1) (ha : p a ∨ v = 0) :
    ∀ c ∈ Memory.write m a v, p c.1 := by
  unfold Memory.write
  split
  · exact fun c hc => h c (Memory.mem_erase.mp hc).1
  · next hv =>
    intro c hc
    rcases Memory.mem_insert.mp hc with rfl | hc
    · exact ha.resolve_right hv
    · exact h c (Memory.mem_erase.mp hc).1

/-! ## Open bytes: fill and mix -/

/-- `fill` writes each address of its range and no other. -/
theorem Memory.read_fill (f : Nat → Byte) (len a : Nat) (m : Memory) (b : Nat) :
    (Memory.fill f len a m).read b = if a ≤ b ∧ b < a + len then f b else m.read b := by
  induction len generalizing a m with
  | zero => rw [Memory.fill, if_neg (by omega)]
  | succ len ih =>
    rw [Memory.fill, ih, Memory.read_write]
    by_cases hb : b = a
    · subst hb; simp
    · by_cases h1 : a + 1 ≤ b ∧ b < a + 1 + len
      · rw [if_pos h1, if_pos (by omega)]
      · rw [if_neg h1, if_neg hb, if_neg (by omega)]

theorem Memory.wf_fill (f : Nat → Byte) (len a : Nat) {m : Memory} (h : m.wf = true) :
    (Memory.fill f len a m).wf = true := by
  induction len generalizing a m with
  | zero => exact h
  | succ len ih => exact ih _ (Memory.wf_write _ _ h)

theorem Memory.placed_fill {p : Nat → Prop} (f : Nat → Byte) (len a : Nat) {m : Memory} (h : ∀ c ∈ m, p c.1)
    (hf : ∀ b, p b ∨ f b = 0) : ∀ c ∈ Memory.fill f len a m, p c.1 := by
  induction len generalizing a m with
  | zero => exact h
  | succ len ih => exact ih _ (Memory.placed_write _ h (hf a))

/-- `mix` leaves at each address of its range one of the two memories' bytes, and every other address as it was. -/
theorem Memory.read_mix (pick : Nat → Bool) (ideal : Memory) (len a : Nat) (m : Memory) (b : Nat) :
    (Memory.mix pick ideal len a m).read b = if (a ≤ b ∧ b < a + len) ∧ pick b = true then ideal.read b else m.read b := by
  induction len generalizing a m with
  | zero => rw [Memory.mix, if_neg (by omega)]
  | succ len ih =>
    rw [Memory.mix, ih]
    by_cases hb : b = a
    · subst hb
      by_cases hp : pick b = true <;> simp [hp]
    · have hw : (if pick a = true then Memory.write m a (ideal.read a) else m).read b = m.read b := by
        split
        · exact Memory.read_write_other m _ hb
        · rfl
      rw [hw]
      by_cases h1 : (a + 1 ≤ b ∧ b < a + 1 + len) ∧ pick b = true
      · rw [if_pos h1, if_pos ⟨by omega, h1.2⟩]
      · rw [if_neg h1, if_neg fun h2 => h1 ⟨by omega, h2.2⟩]

theorem Memory.wf_mix (pick : Nat → Bool) (ideal : Memory) (len a : Nat) {m : Memory} (h : m.wf = true) :
    (Memory.mix pick ideal len a m).wf = true := by
  induction len generalizing a m with
  | zero => exact h
  | succ len ih =>
    refine ih _ ?_
    split
    · exact Memory.wf_write _ _ h
    · exact h

theorem Memory.placed_of_read {p : Nat → Prop} {m : Memory} (h : ∀ c ∈ m, p c.1) (a : Nat) :
    p a ∨ m.read a = 0 := by
  by_cases hr : m.read a = 0
  · exact .inr hr
  · exact .inl (h _ (Memory.mem_of_read_ne hr))

theorem Memory.placed_mix {p : Nat → Prop} (pick : Nat → Bool) {ideal : Memory} (len a : Nat) {m : Memory}
    (hi : ∀ b, p b ∨ ideal.read b = 0) (h : ∀ c ∈ m, p c.1) : ∀ c ∈ Memory.mix pick ideal len a m, p c.1 := by
  induction len generalizing a m with
  | zero => exact h
  | succ len ih =>
    refine ih _ ?_
    split
    · exact Memory.placed_write _ h (hi a)
    · exact h

/-- No empty buffer has a byte. -/
theorem Buffer.has_iff (b : Buffer) (a : Nat) : b.has a = true ↔ b.addr ≤ a ∧ a < b.addr + b.len := by
  simp [Buffer.has]

theorem Buffer.meets_iff (b c : Buffer) :
    b.meets c = true ↔ (b.len ≠ 0 ∧ c.len ≠ 0 ∧ b.addr < c.addr + c.len ∧ c.addr < b.addr + b.len) := by
  simp [Buffer.meets, and_assoc]

theorem Buffer.wraps_iff (b : Buffer) : b.wraps = true ↔ 2 ^ 32 < b.addr + b.len := by
  rw [Buffer.wraps, decide_eq_true_eq, Config.addressSpace]

theorem Platform.isMemory_iff (p : Platform) (a : Nat) :
    p.isMemory a = true ↔ a < 2 ^ 32 ∧ ¬ (256 * p.regPage.toNat ≤ a ∧ a < 256 * p.regPage.toNat + 256) := by
  rw [Platform.isMemory, Bool.and_eq_true, decide_eq_true_eq, Bool.not_eq_true', Bool.eq_false_iff, ne_eq,
    Buffer.has_iff, Platform.registerWindow, Config.addressSpace, Config.windowSize]

end Sys2Proof.Machine
end

