-- ==== Sys2Proof/Laws/Ops.lean ====
section
/-! SUPPORT. One lemma (or a few, one for each of its outcomes) for each shared operation of Machine/Ops.lean and
Machine/Operands.lean: what it answers and what working state it leaves. -/
namespace Sys2Proof.Machine

/-! ## Bytes in memory -/

theorem ofNat_mod_byte (v : Nat) : BitVec.ofNat 8 (v % 256) = BitVec.ofNat 8 v :=
  BitVec.eq_of_toNat_eq (by simp)

theorem littleBytes_length (n v : Nat) : (littleBytes n v).length = n := by
  induction n generalizing v with
  | zero => rfl
  | succ n ih => simp [littleBytes, ih]

theorem Memory.little_lt (m : Memory) (a n : Nat) : m.little a n < 256 ^ n := by
  induction n generalizing a with
  | zero => simp [Memory.little]
  | succ n ih =>
    have h1 := ih (a + 1)
    have h2 := (m.read a).isLt
    simp only [Memory.little, Nat.pow_succ]
    omega

theorem Memory.little_one (m : Memory) (a : Nat) : m.little a 1 = (m.read a).toNat := by simp [Memory.little]

theorem Memory.little_congr {m m' : Memory} {a n : Nat} (h : ∀ j < n, m.read (a + j) = m'.read (a + j)) :
    m.little a n = m'.little a n := by
  induction n generalizing a with
  | zero => rfl
  | succ n ih =>
    have h0 := h 0 (by omega)
    rw [Nat.add_zero] at h0
    rw [Memory.little, Memory.little, h0, ih fun j hj => by
      rw [show a + 1 + j = a + (j + 1) by omega]
      exact h (j + 1) (by omega)]

theorem Memory.holds_nil (m : Memory) (a : Nat) : m.Holds a [] := fun j hj => absurd hj (by simp)

theorem Memory.holds_cons {m : Memory} {a : Nat} {v : Byte} {vs : List Byte} :
    m.Holds a (v :: vs) ↔ m.read a = v ∧ m.Holds (a + 1) vs := by
  constructor
  · intro h
    refine ⟨by simpa using h 0 (by simp), fun j hj => ?_⟩
    have := h (j + 1) (by simpa using hj)
    rw [show a + (j + 1) = a + 1 + j by omega] at this
    simpa using this
  · rintro ⟨h0, h⟩ j hj
    cases j with
    | zero => simpa using h0
    | succ j =>
      have := h j (by simpa using hj)
      rw [show a + 1 + j = a + (j + 1) by omega] at this
      simpa using this

theorem Memory.holds_append {m : Memory} {a : Nat} {xs ys : List Byte} :
    m.Holds a (xs ++ ys) ↔ m.Holds a xs ∧ m.Holds (a + xs.length) ys := by
  induction xs generalizing a with
  | nil => simp [Memory.holds_nil]
  | cons x xs ih =>
    rw [List.cons_append, Memory.holds_cons, Memory.holds_cons, ih, List.length_cons,
      show a + (xs.length + 1) = a + 1 + xs.length by omega, and_assoc]

theorem Memory.little_of_holds {m : Memory} {a n v : Nat} (h : m.Holds a (littleBytes n v)) (hv : v < 256 ^ n) :
    m.little a n = v := by
  induction n generalizing a v with
  | zero => simp at hv; simp [Memory.little, hv]
  | succ n ih =>
    rw [littleBytes, Memory.holds_cons] at h
    have hdiv : v / 256 < 256 ^ n := by
      rw [Nat.pow_succ] at hv
      omega
    rw [Memory.little, h.1, ih h.2 hdiv]
    simp
    omega

theorem Memory.store_append (m : Memory) (a : Nat) (xs ys : List Byte) :
    m.store a (xs ++ ys) = (m.store a xs).store (a + xs.length) ys := by
  induction xs generalizing m a with
  | nil => rfl
  | cons x xs ih =>
    rw [List.cons_append, Memory.store, Memory.store, ih, List.length_cons,
      show a + 1 + xs.length = a + (xs.length + 1) by omega]

theorem Memory.read_store_outside {m : Memory} {a b : Nat} {bytes : List Byte} (h : b < a ∨ a + bytes.length ≤ b) :
    (m.store a bytes).read b = m.read b := by
  induction bytes generalizing m a with
  | nil => rfl
  | cons v vs ih =>
    rw [List.length_cons] at h
    rw [Memory.store, ih (by omega), Memory.read_write_other _ _ (by omega)]

theorem Memory.holds_store (m : Memory) (a : Nat) (bytes : List Byte) : (m.store a bytes).Holds a bytes := by
  induction bytes generalizing m a with
  | nil => exact Memory.holds_nil _ _
  | cons v vs ih =>
    refine Memory.holds_cons.mpr ⟨?_, ih _ _⟩
    rw [Memory.store, Memory.read_store_outside (by omega), Memory.read_write_same]

theorem Memory.read_store_inside {m : Memory} {a j : Nat} {bytes : List Byte} (h : j < bytes.length) :
    (m.store a bytes).read (a + j) = bytes.getD j 0 :=
  Memory.holds_store m a bytes j h

theorem Memory.wf_store {m : Memory} (a : Nat) (bytes : List Byte) (h : m.wf = true) :
    (m.store a bytes).wf = true := by
  induction bytes generalizing m a with
  | nil => exact h
  | cons v vs ih => exact ih _ (Memory.wf_write _ _ h)

theorem Memory.placed_store {p : Nat → Prop} {m : Memory} {a : Nat} {bytes : List Byte} (h : ∀ c ∈ m, p c.1)
    (ha : ∀ j < bytes.length, p (a + j)) : ∀ c ∈ m.store a bytes, p c.1 := by
  induction bytes generalizing m a with
  | nil => exact h
  | cons v vs ih =>
    refine ih (Memory.placed_write _ h (.inl (by simpa using ha 0 (by simp)))) fun j hj => ?_
    rw [show a + 1 + j = a + (j + 1) by omega]
    exact ha (j + 1) (by simpa using hj)

/-! ## The working state -/

/-- The working state after `k` more input bytes. -/
def Work.advance (w : Work) (k : Nat) : Work := { w with inPos := w.inPos + k }

/-- The working state after the bytes have been stored from `a` on. -/
def Work.put (w : Work) (a : Nat) (bytes : List Byte) : Work :=
  { w with mem := w.mem.store a bytes, stored := w.stored + bytes.length }

@[simp] theorem Work.advance_mem (w : Work) (k : Nat) : (w.advance k).mem = w.mem := rfl
@[simp] theorem Work.advance_inPos (w : Work) (k : Nat) : (w.advance k).inPos = w.inPos + k := rfl
@[simp] theorem Work.advance_stored (w : Work) (k : Nat) : (w.advance k).stored = w.stored := rfl
@[simp] theorem Work.advance_zero (w : Work) : w.advance 0 = w := rfl
@[simp] theorem Work.put_mem (w : Work) (a : Nat) (bytes : List Byte) : (w.put a bytes).mem = w.mem.store a bytes := rfl
@[simp] theorem Work.put_inPos (w : Work) (a : Nat) (bytes : List Byte) : (w.put a bytes).inPos = w.inPos := rfl
@[simp] theorem Work.put_stored (w : Work) (a : Nat) (bytes : List Byte) :
    (w.put a bytes).stored = w.stored + bytes.length := rfl
@[simp] theorem Work.put_nil (w : Work) (a : Nat) : w.put a [] = w := rfl
@[simp] theorem Work.start_mem (m : Memory) : (Work.start m).mem = m := rfl
@[simp] theorem Work.start_inPos (m : Memory) : (Work.start m).inPos = 0 := rfl
@[simp] theorem Work.start_stored (m : Memory) : (Work.start m).stored = 0 := rfl

theorem Work.advance_advance (w : Work) (j k : Nat) : (w.advance j).advance k = w.advance (j + k) := by
  simp [Work.advance, Nat.add_assoc]

theorem Work.put_advance (w : Work) (a k : Nat) (bytes : List Byte) :
    (w.put a bytes).advance k = (w.advance k).put a bytes := rfl

theorem Work.put_put (w : Work) (a : Nat) (xs ys : List Byte) :
    (w.put a xs).put (a + xs.length) ys = w.put a (xs ++ ys) := by
  simp [Work.put, Memory.store_append, Nat.add_assoc]

/-! ## The memory port -/

/-- One byte read: BusFault at the address where the platform rejects it (20_memory.md R61, R69). -/
theorem readByte_run (env : Env) (a : Nat) (w : Work) :
    readByte env a w
      = if env.platform.rejects a .read then (.error { err := .busFault, info := a }, w)
        else (.ok (w.mem.read a).toNat, w) := by
  unfold readByte
  split <;> rfl

/-- One byte stored: BusFault at the address where the platform rejects it (20_memory.md R62, R69). -/
theorem storeByte_run (env : Env) (a v : Nat) (w : Work) :
    storeByte env a v w
      = if env.platform.rejects a .write then (.error { err := .busFault, info := a }, w)
        else (.ok (), w.put a [BitVec.ofNat 8 v]) := by
  unfold storeByte
  split <;> rfl

/-- `MemRead` of bytes that the platform lets through. -/
theorem memRead_ok {env : Env} {a n : Nat} {w : Work} (h : ∀ j < n, env.platform.rejects (a + j) .read = false) :
    memRead env a n w = (.ok (w.mem.little a n), w) := by
  induction n generalizing a with
  | zero => rfl
  | succ n ih =>
    have h0 : env.platform.rejects a .read = false := h 0 (by omega)
    have hrest := ih (a := a + 1) fun j hj => by
      rw [show a + 1 + j = a + (j + 1) by omega]
      exact h (j + 1) (by omega)
    rw [memRead, run_bind_ok (by rw [readByte_run, h0]; rfl), run_bind_ok hrest]
    rfl

/-- `MemRead` answers the bytes, or BusFault at the first byte the platform rejects; it changes nothing. -/
theorem memRead_cases (env : Env) (a n : Nat) (w : Work) :
    ((∀ j < n, env.platform.rejects (a + j) .read = false) ∧ memRead env a n w = (.ok (w.mem.little a n), w))
      ∨ ∃ j < n, env.platform.rejects (a + j) .read = true ∧ (∀ i < j, env.platform.rejects (a + i) .read = false)
          ∧ memRead env a n w = (.error { err := .busFault, info := a + j }, w) := by
  induction n generalizing a with
  | zero => exact .inl ⟨fun j hj => absurd hj (by omega), rfl⟩
  | succ n ih =>
    by_cases h0 : env.platform.rejects a .read = true
    · exact .inr ⟨0, by omega, h0, fun i hi => absurd hi (by omega),
        by rw [memRead, run_bind_error (by rw [readByte_run, h0]; rfl)]; rfl⟩
    · have h0' : env.platform.rejects a .read = false := by simpa using h0
      rcases ih (a + 1) with ⟨hall, hrun⟩ | ⟨j, hj, hrej, hbefore, hrun⟩
      · have hall' : ∀ j < n + 1, env.platform.rejects (a + j) .read = false := by
          intro j hj
          cases j with
          | zero => exact h0'
          | succ j => rw [show a + (j + 1) = a + 1 + j by omega]; exact hall j (by omega)
        exact .inl ⟨hall', memRead_ok hall'⟩
      · refine .inr ⟨j + 1, by omega, by rw [show a + (j + 1) = a + 1 + j by omega]; exact hrej, ?_, ?_⟩
        · intro i hi
          cases i with
          | zero => exact h0'
          | succ i => rw [show a + (i + 1) = a + 1 + i by omega]; exact hbefore i (by omega)
        · rw [memRead, run_bind_ok (by rw [readByte_run, h0']; rfl), run_bind_error hrun,
            show a + 1 + j = a + (j + 1) by omega]

/-- `MemWrite` of bytes that the platform lets through. -/
theorem memWrite_ok {env : Env} {a n v : Nat} {w : Work} (h : ∀ j < n, env.platform.rejects (a + j) .write = false) :
    memWrite env a n v w = (.ok (), w.put a (littleBytes n v)) := by
  induction n generalizing a v w with
  | zero => rfl
  | succ n ih =>
    have h0 : env.platform.rejects a .write = false := h 0 (by omega)
    have hrest := ih (a := a + 1) (v := v / 256) (w := w.put a [BitVec.ofNat 8 (v % 256)]) fun j hj => by
      rw [show a + 1 + j = a + (j + 1) by omega]
      exact h (j + 1) (by omega)
    rw [memWrite, run_bind_ok (by rw [storeByte_run, h0]; rfl), hrest, littleBytes, ofNat_mod_byte]
    exact congrArg (Prod.mk _) (Work.put_put w a [BitVec.ofNat 8 v] (littleBytes n (v / 256)))

/-- `MemWrite` stores the bytes, or those before the first byte the platform rejects and then BusFault there. -/
theorem memWrite_cases (env : Env) (a n v : Nat) (w : Work) :
    ((∀ j < n, env.platform.rejects (a + j) .write = false)
        ∧ memWrite env a n v w = (.ok (), w.put a (littleBytes n v)))
      ∨ ∃ j < n, env.platform.rejects (a + j) .write = true
          ∧ (∀ i < j, env.platform.rejects (a + i) .write = false)
          ∧ memWrite env a n v w = (.error { err := .busFault, info := a + j }, w.put a (littleBytes j v)) := by
  induction n generalizing a v w with
  | zero => exact .inl ⟨fun j hj => absurd hj (by omega), rfl⟩
  | succ n ih =>
    by_cases h0 : env.platform.rejects a .write = true
    · exact .inr ⟨0, by omega, h0, fun i hi => absurd hi (by omega),
        by rw [memWrite, run_bind_error (by rw [storeByte_run, h0]; rfl)]; rfl⟩
    · have h0' : env.platform.rejects a .write = false := by simpa using h0
      rcases ih (a + 1) (v / 256) (w.put a [BitVec.ofNat 8 (v % 256)]) with ⟨hall, hrun⟩ | ⟨j, hj, hrej, hbefore, hrun⟩
      · have hall' : ∀ j < n + 1, env.platform.rejects (a + j) .write = false := by
          intro j hj
          cases j with
          | zero => exact h0'
          | succ j => rw [show a + (j + 1) = a + 1 + j by omega]; exact hall j (by omega)
        exact .inl ⟨hall', memWrite_ok hall'⟩
      · refine .inr ⟨j + 1, by omega, by rw [show a + (j + 1) = a + 1 + j by omega]; exact hrej, ?_, ?_⟩
        · intro i hi
          cases i with
          | zero => exact h0'
          | succ i => rw [show a + (i + 1) = a + 1 + i by omega]; exact hbefore i (by omega)
        · rw [memWrite, run_bind_ok (by rw [storeByte_run, h0']; rfl), hrun, littleBytes, ofNat_mod_byte,
            show a + 1 + j = a + (j + 1) by omega]
          exact congrArg (Prod.mk _) (Work.put_put w a [BitVec.ofNat 8 v] (littleBytes j (v / 256)))

/-! ## The input cursor and the output count -/

@[simp] theorem inPos_run (w : Work) : inPos w = (.ok w.inPos, w) := rfl

@[simp] theorem outLen_run (w : Work) : outLen w = (.ok w.stored, w) := rfl

@[simp] theorem inPos_bind {α : Type} (f : Nat → Eng α) (w : Work) : (inPos >>= f) w = f w.inPos w := run_bind_ok rfl

@[simp] theorem outLen_bind {α : Type} (f : Nat → Eng α) (w : Work) : (outLen >>= f) w = f w.stored w := run_bind_ok rfl

theorem inByte_ok {env : Env} {w : Work} (h : w.inPos < env.srcLen)
    (hr : env.platform.rejects (env.src + w.inPos) .read = false) :
    inByte env w = (.ok (w.mem.read (env.src + w.inPos)).toNat, w.advance 1) := by
  have hread : memRead env (env.src + w.inPos) 1 w = (.ok (w.mem.read (env.src + w.inPos)).toNat, w) := by
    rw [memRead_ok fun j hj => by rw [show j = 0 by omega]; exact hr, Memory.little_one]
  rw [inByte, inPos_bind, if_neg (by omega), run_bind_ok hread]
  rfl

theorem inByte_end {env : Env} {w : Work} (h : env.srcLen ≤ w.inPos) :
    inByte env w = (.error { err := .corruptStream, info := w.inPos }, w) := by
  rw [inByte, inPos_bind, if_pos h]
  rfl

/-- `in.byte()` (20_memory.md R66): the byte and the cursor one further; CorruptStream at the end of the input; BusFault
where the platform rejects the read. -/
theorem inByte_cases (env : Env) (w : Work) :
    (w.inPos < env.srcLen ∧ env.platform.rejects (env.src + w.inPos) .read = false
        ∧ inByte env w = (.ok (w.mem.read (env.src + w.inPos)).toNat, w.advance 1))
      ∨ (env.srcLen ≤ w.inPos ∧ inByte env w = (.error { err := .corruptStream, info := w.inPos }, w))
      ∨ (w.inPos < env.srcLen ∧ env.platform.rejects (env.src + w.inPos) .read = true
        ∧ inByte env w = (.error { err := .busFault, info := env.src + w.inPos }, w)) := by
  by_cases h : env.srcLen ≤ w.inPos
  · exact .inr (.inl ⟨h, inByte_end h⟩)
  · by_cases hr : env.platform.rejects (env.src + w.inPos) .read = true
    · refine .inr (.inr ⟨by omega, hr, ?_⟩)
      have hread : memRead env (env.src + w.inPos) 1 w = (.error { err := .busFault, info := env.src + w.inPos }, w) := by
        rw [memRead, run_bind_error (by rw [readByte_run, hr]; rfl)]
      rw [inByte, inPos_bind, if_neg h, run_bind_error hread]
    · exact .inl ⟨by omega, by simpa using hr, inByte_ok (by omega) (by simpa using hr)⟩

/-- `in.bytes(n)` of bytes that are there and that the platform lets through. -/
theorem inBytes_ok {env : Env} {n : Nat} {w : Work} (h : w.inPos + n ≤ env.srcLen)
    (hr : ∀ j < n, env.platform.rejects (env.src + w.inPos + j) .read = false) :
    inBytes env n w = (.ok (w.mem.little (env.src + w.inPos) n), w.advance n) := by
  induction n generalizing w with
  | zero => rfl
  | succ n ih =>
    have hrest := ih (w := w.advance 1) (by simp; omega) fun j hj => by
      rw [Work.advance_inPos, show env.src + (w.inPos + 1) + j = env.src + w.inPos + (j + 1) by omega]
      exact hr (j + 1) (by omega)
    rw [inBytes, run_bind_ok (inByte_ok (by omega) (by simpa using hr 0 (by omega))), run_bind_ok hrest, Work.advance_advance,
      Work.advance_mem, Work.advance_inPos, Nat.add_comm 1 n]
    rfl

theorem append_ok {env : Env} {v : Nat} {w : Work} (h : env.platform.rejects (env.dst + w.stored) .write = false) :
    append env v w = (.ok (), w.put (env.dst + w.stored) [BitVec.ofNat 8 v]) := by
  rw [append, outLen_bind, memWrite_ok fun j hj => by rw [show j = 0 by omega]; exact h]
  simp [littleBytes]

/-- `out.append(v)` (20_memory.md R67): the byte after the last one; BusFault where the platform rejects it. -/
theorem append_cases (env : Env) (v : Nat) (w : Work) :
    (env.platform.rejects (env.dst + w.stored) .write = false
        ∧ append env v w = (.ok (), w.put (env.dst + w.stored) [BitVec.ofNat 8 v]))
      ∨ (env.platform.rejects (env.dst + w.stored) .write = true
        ∧ append env v w = (.error { err := .busFault, info := env.dst + w.stored }, w)) := by
  by_cases h : env.platform.rejects (env.dst + w.stored) .write = true
  · refine .inr ⟨h, ?_⟩
    rw [append, outLen_bind, memWrite, run_bind_error (by rw [storeByte_run, h]; rfl)]
  · exact .inl ⟨by simpa using h, append_ok (by simpa using h)⟩

/-- `out.bytes(v, n)` where the platform lets the bytes through. -/
theorem appendBytes_ok {env : Env} {v n : Nat} {w : Work}
    (h : ∀ j < n, env.platform.rejects (env.dst + w.stored + j) .write = false) :
    appendBytes env v n w = (.ok (), w.put (env.dst + w.stored) (littleBytes n v)) := by
  induction n generalizing v w with
  | zero => rfl
  | succ n ih =>
    have hrest := ih (v := v / 256) (w := w.put (env.dst + w.stored) [BitVec.ofNat 8 (v % 256)]) fun j hj => by
      have := h (j + 1) (by omega)
      simpa [show env.dst + (w.stored + 1) + j = env.dst + w.stored + (j + 1) by omega] using this
    rw [appendBytes, run_bind_ok (append_ok (by simpa using h 0 (by omega))), hrest, littleBytes, ofNat_mod_byte]
    exact congrArg (Prod.mk _) (Work.put_put w (env.dst + w.stored) [BitVec.ofNat 8 v] (littleBytes n (v / 256)))

theorem outByte_ok {env : Env} {j : Nat} {w : Work} (h : env.platform.rejects (env.dst + j) .read = false) :
    outByte env j w = (.ok (w.mem.read (env.dst + j)).toNat, w) := by
  rw [outByte, memRead_ok fun i hi => by rw [show i = 0 by omega]; exact h, Memory.little_one]

/-! ## Checks -/

theorem require_run (ok : Bool) (w : Work) :
    require ok w = if ok then (.ok (), w) else (.error { err := .invalidParameter, info := 0 }, w) := by
  unfold require
  split <;> rfl

theorem require_bind_true {α : Type} (f : Unit → Eng α) {ok : Bool} (h : ok = true) (w : Work) :
    (require ok >>= f) w = f () w :=
  run_bind_ok (by rw [require_run, h]; rfl)

theorem require_bind_false {α : Type} (f : Unit → Eng α) {ok : Bool} (h : ok = false) (w : Work) :
    (require ok >>= f) w = (.error { err := .invalidParameter, info := 0 }, w) :=
  run_bind_error (by rw [require_run, h]; rfl)

theorem takeFormat_some {fmt : BitVec 4} {f : PixelFormat} (h : pixelFormatOf fmt = some f) :
    takeFormat fmt = pure f := by
  rw [takeFormat, h]

theorem takeFormat_none {fmt : BitVec 4} (h : pixelFormatOf fmt = none) :
    takeFormat fmt = raise .unsupportedFormat 0 := by
  rw [takeFormat, h]

theorem takeMode_some {swz : BitVec 4} {m : SwizzleMode} (h : swizzleModeOf swz = some m) : takeMode swz = pure m := by
  rw [takeMode, h]

theorem takeMode_none {swz : BitVec 4} (h : swizzleModeOf swz = none) : takeMode swz = raise .unsupportedFormat 0 := by
  rw [takeMode, h]

theorem takeFormat_bind {α : Type} {fmt : BitVec 4} {f : PixelFormat} (h : pixelFormatOf fmt = some f)
    (g : PixelFormat → Eng α) (w : Work) : (takeFormat fmt >>= g) w = g f w := by
  rw [takeFormat_some h, run_pure_bind]

theorem takeMode_bind {α : Type} {swz : BitVec 4} {m : SwizzleMode} (h : swizzleModeOf swz = some m)
    (g : SwizzleMode → Eng α) (w : Work) : (takeMode swz >>= g) w = g m w := by
  rw [takeMode_some h, run_pure_bind]

/-- The buffer checks of 20_memory.md R65, on the registers. -/
theorem buffersLegal_iff (s : State) : s.env.buffersLegal = true ↔ s.BuffersUsable := by
  have hw : ∀ b : Buffer, b.wraps = false ↔ b.addr + b.len ≤ 2 ^ 32 := fun b => by
    rw [← Bool.not_eq_true, Buffer.wraps_iff]
    omega
  have hm : ∀ b c : Buffer, b.meets c = false
      ↔ (b.len = 0 ∨ c.len = 0 ∨ b.addr + b.len ≤ c.addr ∨ c.addr + c.len ≤ b.addr) := fun b c => by
    rw [← Bool.not_eq_true, Buffer.meets_iff]
    omega
  simp only [Env.buffersLegal, Bool.not_eq_true', Bool.or_eq_false_iff, hw, hm]
  simp only [State.env, Env.input, Env.output, Platform.registerWindow, Config.windowSize]
  constructor
  · rintro ⟨⟨⟨⟨h1, h2⟩, h3⟩, h4⟩, h5⟩
    exact ⟨h1, h2, by simp only [State.regBase]; omega, by simp only [State.regBase]; omega, h5⟩
  · rintro ⟨h1, h2, h3, h4, h5⟩
    simp only [State.regBase] at h3 h4
    exact ⟨⟨⟨⟨h1, h2⟩, by omega⟩, by omega⟩, h5⟩

theorem checkBuffers_bind_legal {α : Type} {env : Env} (h : env.buffersLegal = true) (f : Unit → Eng α) (w : Work) :
    (checkBuffers env >>= f) w = f () w :=
  require_bind_true f h w

/-! ## Pixel records -/

/-- The four bytes of a pixel record (30_encoding.md R86). -/
def Pixel.bytes (p : Pixel) : List Byte := [p.r, p.g, p.b, p.a]

@[simp] theorem Pixel.bytes_length (p : Pixel) : p.bytes.length = 4 := rfl

theorem readPixel_ok {env : Env} {a n : Nat} {w : Work}
    (h : ∀ j < 4, env.platform.rejects (a + 4 * n + j) .read = false) :
    readPixel env a n w
      = (.ok { r := w.mem.read (a + 4 * n), g := w.mem.read (a + 4 * n + 1), b := w.mem.read (a + 4 * n + 2),
               a := w.mem.read (a + 4 * n + 3) }, w) := by
  have one : ∀ j < 4, memRead env (a + 4 * n + j) 1 w = (.ok (w.mem.read (a + 4 * n + j)).toNat, w) := fun j hj => by
    rw [memRead_ok fun i hi => by rw [show i = 0 by omega]; exact h j hj, Memory.little_one]
  have zero : memRead env (a + 4 * n) 1 w = (.ok (w.mem.read (a + 4 * n)).toNat, w) := one 0 (by omega)
  rw [readPixel, run_bind_ok zero, run_bind_ok (one 1 (by omega)), run_bind_ok (one 2 (by omega)),
    run_bind_ok (one 3 (by omega))]
  simp [Pixel.ofNat]

theorem writePixel_ok {env : Env} {a n : Nat} {c : Pixel} {w : Work}
    (h : ∀ j < 4, env.platform.rejects (a + 4 * n + j) .write = false) :
    writePixel env a n c w = (.ok (), w.put (a + 4 * n) c.bytes) := by
  have one : ∀ (j : Nat) (v : Byte) (w : Work), j < 4 →
      memWrite env (a + 4 * n + j) 1 v.toNat w = (.ok (), w.put (a + 4 * n + j) [v]) := fun j v w hj => by
    rw [memWrite_ok fun i hi => by rw [show i = 0 by omega]; exact h j hj]
    simp [littleBytes]
  have zero : memWrite env (a + 4 * n) 1 c.r.toNat w = (.ok (), w.put (a + 4 * n) [c.r]) := one 0 c.r w (by omega)
  rw [writePixel, run_bind_ok zero, run_bind_ok (one 1 c.g _ (by omega)),
    run_bind_ok (one 2 c.b _ (by omega)), one 3 c.a _ (by omega)]
  simp [Work.put, Memory.store, Pixel.bytes, Nat.add_assoc]

/-- Consecutive records where the platform lets them through. -/
theorem writePixels_ok {env : Env} {a n : Nat} {cs : List Pixel} {w : Work}
    (h : ∀ j < 4 * cs.length, env.platform.rejects (a + 4 * n + j) .write = false) :
    writePixels env a cs n w = (.ok (), w.put (a + 4 * n) (cs.flatMap Pixel.bytes)) := by
  induction cs generalizing n w with
  | nil => rfl
  | cons c cs ih =>
    have hrest := ih (n := n + 1) (w := w.put (a + 4 * n) c.bytes) fun j hj => by
      rw [show a + 4 * (n + 1) + j = a + 4 * n + (j + 4) by omega]
      exact h (j + 4) (by simp; omega)
    rw [writePixels, run_bind_ok (writePixel_ok fun j hj => h j (by simp; omega)), hrest, List.flatMap_cons,
      show a + 4 * (n + 1) = a + 4 * n + c.bytes.length by simp; omega, Work.put_put]

/-! ## The end of a command -/

theorem endWithSuccess_succeeded (s : State) (m : Memory) (r0 r1 : Nat) :
    s.Succeeded (s.endWithSuccess m r0 r1) r0 r1 :=
  ⟨⟨rfl, rfl, rfl, rfl, rfl, rfl, rfl, rfl, rfl, rfl, rfl, rfl⟩, rfl, rfl, rfl, rfl, rfl⟩

theorem endWithError_failed (s : State) (m : Memory) (n : Nat) (r : Raise) :
    s.Failed (s.endWithError m n r) r.err n r.info :=
  ⟨⟨rfl, rfl, rfl, rfl, rfl, rfl, rfl, rfl, rfl, rfl, rfl, rfl⟩, rfl, rfl, rfl, rfl⟩

theorem endWithBusFault_failed (s : State) (w : Work) (r : Raise) (m : Memory) :
    s.Failed (s.endWithBusFault w r m) r.err w.stored r.info :=
  ⟨⟨rfl, rfl, rfl, rfl, rfl, rfl, rfl, rfl, rfl, rfl, rfl, rfl⟩, rfl, rfl, rfl, rfl⟩

theorem afterCommand_of_ok {s : State} {body : Env → Eng (Nat × Nat)} {r0 r1 : Nat} {w : Work}
    (h : body s.env (Work.start s.mem) = (.ok (r0, r1), w)) : s.afterCommand body = s.endWithSuccess w.mem r0 r1 := by
  simp [State.afterCommand, h]

theorem afterCommand_of_error {s : State} {body : Env → Eng (Nat × Nat)} {r : Raise} {w : Work}
    (h : body s.env (Work.start s.mem) = (.error r, w)) (hr : r.err ≠ .busFault) :
    s.afterCommand body = s.endWithError w.mem w.stored r := by
  obtain ⟨e, info⟩ := r
  cases e <;> simp_all [State.afterCommand]

theorem afterCommand_of_busFault {s : State} {body : Env → Eng (Nat × Nat)} {r : Raise} {w : Work}
    (h : body s.env (Work.start s.mem) = (.error r, w)) (hr : r.err = .busFault) :
    s.afterCommand body = s.endWithBusFault w r (body s.env.withoutBusFaults (Work.start s.mem)).2.mem := by
  obtain ⟨e, info⟩ := r
  cases e <;> simp_all [State.afterCommand]

/-- A command ends in one of three ways: with its results, with an error of its own, or with a rejected access
(60_exceptions.md R320). -/
theorem afterCommand_cases (s : State) (body : Env → Eng (Nat × Nat)) :
    (∃ r0 r1 w, body s.env (Work.start s.mem) = (.ok (r0, r1), w)
        ∧ s.afterCommand body = s.endWithSuccess w.mem r0 r1)
      ∨ (∃ r w, body s.env (Work.start s.mem) = (.error r, w) ∧ r.err ≠ .busFault
        ∧ s.afterCommand body = s.endWithError w.mem w.stored r)
      ∨ (∃ r w, body s.env (Work.start s.mem) = (.error r, w) ∧ r.err = .busFault
        ∧ s.afterCommand body
            = s.endWithBusFault w r (body s.env.withoutBusFaults (Work.start s.mem)).2.mem) := by
  rcases h : body s.env (Work.start s.mem) with ⟨r | ⟨r0, r1⟩, w⟩
  · by_cases hr : r.err = .busFault
    · exact .inr (.inr ⟨r, w, rfl, hr, afterCommand_of_busFault h hr⟩)
    · exact .inr (.inl ⟨r, w, rfl, hr, afterCommand_of_error h hr⟩)
  · exact .inl ⟨r0, r1, w, rfl, afterCommand_of_ok h⟩

end Sys2Proof.Machine
end

