-- ==== Sys2Proof/Laws/Confine.lean ====
section
/-! SUPPORT. What every piece of a command keeps, whatever its outcome: it writes inside the output buffer only, keeps the
memory's canonical form, never moves the cursor past the input, and raises only what 60_exceptions.md R321 says. One
lemma for each shared piece; a command's lemma is a few `Ensures.bind`s over them. -/
namespace Sys2Proof.Machine

/-- The working state of a command that started with memory `m`. -/
structure Within (env : Env) (m : Memory) (w : Work) : Prop where
  frame : ∀ b, env.output.has b = false → w.mem.read b = m.read b
  wf : m.wf = true → w.mem.wf = true
  placed : ∀ p : Nat → Prop, (∀ c ∈ m, p c.1) → (∀ b, env.output.has b = true → p b) → ∀ c ∈ w.mem, p c.1
  pos : w.inPos ≤ env.srcLen
  quiet : env.buffersLegal = false → w.mem = m

/-- Nothing has been stored yet. -/
structure Untouched (env : Env) (m : Memory) (w : Work) : Prop where
  mem : w.mem = m
  stored : w.stored = 0
  pos : w.inPos ≤ env.srcLen

/-- What holds when a piece raises: CorruptStream only where `corrupt` allows it, at a position of the input;
UnsupportedFormat and InvalidParameter before any store; BusFault at an access of the buffers that the platform
rejects; never IllegalCommand. -/
structure Raised (env : Env) (m : Memory) (corrupt : Bool) (r : Raise) (w : Work) : Prop where
  within : Within env m w
  corruptStream : r.err = .corruptStream → corrupt = true ∧ r.info ≤ env.srcLen
  early : r.err = .unsupportedFormat ∨ r.err = .invalidParameter → Untouched env m w
  busFault : r.err = .busFault → env.buffersLegal = true ∧
    ((env.platform.rejects r.info .read = true ∧ (env.input.has r.info = true ∨ env.output.has r.info = true))
      ∨ (env.platform.rejects r.info .write = true ∧ env.output.has r.info = true))
  command : r.err ≠ .illegalCommand

theorem Untouched.within {env : Env} {m : Memory} {w : Work} (h : Untouched env m w) : Within env m w :=
  ⟨fun b _ => by rw [h.mem], fun hm => by rw [h.mem]; exact hm, fun p hm _ => by rw [h.mem]; exact hm, h.pos,
    fun _ => h.mem⟩

theorem Untouched.start (env : Env) (m : Memory) : Untouched env m (Work.start m) := ⟨rfl, rfl, Nat.zero_le _⟩

variable {env : Env} {m : Memory} {corrupt : Bool}

/-! ## Raising -/

/-- An error before any store. -/
theorem Untouched.raised {w : Work} (h : Untouched env m w) {e : Err} {info : Nat}
    (he : e = .unsupportedFormat ∨ e = .invalidParameter) :
    Raised env m corrupt { err := e, info := info } w :=
  ⟨h.within, fun hc => absurd he (by simp at hc; simp [hc]), fun _ => h, fun hb => absurd he (by simp at hb; simp [hb]),
    fun hi => absurd he (by simp at hi; simp [hi])⟩

theorem Within.raisedCorrupt {w : Work} (h : Within env m w) : Raised env m true { err := .corruptStream, info := w.inPos } w :=
  ⟨h, fun _ => ⟨rfl, h.pos⟩, fun h => by simp at h, fun h => by simp at h, by simp⟩

theorem Within.raisedRead {w : Work} (h : Within env m w) (hl : env.buffersLegal = true) {a : Nat}
    (ha : env.input.has a = true ∨ env.output.has a = true) (hr : env.platform.rejects a .read = true) :
    Raised env m corrupt { err := .busFault, info := a } w :=
  ⟨h, fun h => by simp at h, fun h => by simp at h, fun _ => ⟨hl, .inl ⟨hr, ha⟩⟩, by simp⟩

theorem Within.raisedWrite {w : Work} (h : Within env m w) (hl : env.buffersLegal = true) {a : Nat}
    (ha : env.output.has a = true) (hr : env.platform.rejects a .write = true) :
    Raised env m corrupt { err := .busFault, info := a } w :=
  ⟨h, fun h => by simp at h, fun h => by simp at h, fun _ => ⟨hl, .inr ⟨hr, ha⟩⟩, by simp⟩

theorem raiseEarly_ensures {α : Type} {e : Err} {info : Nat} {post : α → Work → Prop}
    (he : e = .unsupportedFormat ∨ e = .invalidParameter) :
    Ensures (Untouched env m) (raise e info) post (Raised env m corrupt) :=
  Ensures.raise fun _ hw => hw.raised he

/-- CorruptStream at the cursor. -/
theorem raiseAtCursor_ensures {α : Type} {pre : Work → Prop} {post : α → Work → Prop}
    (h : ∀ w, pre w → Within env m w) :
    Ensures pre (inPos >>= fun pos => raise .corruptStream pos) post (Raised env m true) := fun w hw => (h w hw).raisedCorrupt

/-! ## Reads -/

theorem readByte_ensures {pre : Work → Prop} {a : Nat} (hl : env.buffersLegal = true)
    (ha : env.input.has a = true ∨ env.output.has a = true) (h : ∀ w, pre w → Within env m w) :
    Ensures pre (readByte env a) (fun _ => pre) (Raised env m corrupt) := by
  intro w hw
  rw [readByte_run]
  by_cases hr : env.platform.rejects a .read = true
  · rw [if_pos hr]; exact (h w hw).raisedRead hl ha hr
  · rw [if_neg hr]; exact hw

theorem memRead_ensures {pre : Work → Prop} {a n : Nat} (hl : env.buffersLegal = true)
    (ha : ∀ j < n, env.input.has (a + j) = true ∨ env.output.has (a + j) = true) (h : ∀ w, pre w → Within env m w) :
    Ensures pre (memRead env a n) (fun _ => pre) (Raised env m corrupt) := by
  induction n generalizing a with
  | zero => exact fun w hw => hw
  | succ n ih =>
    refine Ensures.bind (readByte_ensures hl (by simpa using ha 0 (by omega)) h) fun low => ?_
    refine Ensures.bind (ih fun j hj => ?_) fun high => Ensures.pure fun w hw => hw
    rw [show a + 1 + j = a + (j + 1) by omega]
    exact ha (j + 1) (by omega)

theorem inByte_ensures {k : Nat} (hl : env.buffersLegal = true) :
    Ensures (fun w => Within env m w ∧ w.stored = k) (inByte env) (fun _ w => Within env m w ∧ w.stored = k)
      (Raised env m true) := by
  rintro w ⟨hw, hk⟩
  rcases inByte_cases env w with ⟨hlt, -, hrun⟩ | ⟨hle, hrun⟩ | ⟨hlt, hr, hrun⟩
  · rw [hrun]
    exact ⟨⟨hw.frame, hw.wf, hw.placed, by simpa using hlt, hw.quiet⟩, hk⟩
  · rw [hrun]
    exact hw.raisedCorrupt
  · rw [hrun]
    exact hw.raisedRead hl (.inl (by rw [Buffer.has_iff]; simp [Env.input]; omega)) hr

theorem inByte_untouched_ensures (hl : env.buffersLegal = true) :
    Ensures (Untouched env m) (inByte env) (fun _ => Untouched env m) (Raised env m true) := by
  intro w hw
  rcases inByte_cases env w with ⟨hlt, -, hrun⟩ | ⟨hle, hrun⟩ | ⟨hlt, hr, hrun⟩
  · rw [hrun]
    exact ⟨hw.mem, hw.stored, by simpa using hlt⟩
  · rw [hrun]
    exact hw.within.raisedCorrupt
  · rw [hrun]
    exact hw.within.raisedRead hl (.inl (by rw [Buffer.has_iff]; simp [Env.input]; omega)) hr

theorem inBytes_ensures {k n : Nat} (hl : env.buffersLegal = true) :
    Ensures (fun w => Within env m w ∧ w.stored = k) (inBytes env n) (fun _ w => Within env m w ∧ w.stored = k)
      (Raised env m true) := by
  induction n with
  | zero => exact fun w hw => hw
  | succ n ih => exact Ensures.bind (inByte_ensures hl) fun _ => Ensures.bind ih fun _ => Ensures.pure fun w hw => hw

theorem inBytes_untouched_ensures {n : Nat} (hl : env.buffersLegal = true) :
    Ensures (Untouched env m) (inBytes env n) (fun _ => Untouched env m) (Raised env m true) := by
  induction n with
  | zero => exact fun w hw => hw
  | succ n ih =>
    exact Ensures.bind (inByte_untouched_ensures hl) fun _ => Ensures.bind ih fun _ => Ensures.pure fun w hw => hw

/-! ## Writes -/

theorem Within.put {w : Work} (h : Within env m w) (hl : env.buffersLegal = true) {a : Nat} {bytes : List Byte}
    (ha : ∀ j < bytes.length, env.output.has (a + j) = true) : Within env m (w.put a bytes) := by
  refine ⟨fun b hb => ?_, fun hm => Memory.wf_store _ _ (h.wf hm), fun p hm hp => ?_, h.pos, fun hf => by simp [hl] at hf⟩
  · rw [Work.put_mem, Memory.read_store_outside, h.frame b hb]
    by_contra hin
    have := ha (b - a) (by omega)
    rw [show a + (b - a) = b by omega, hb] at this
    simp at this
  · exact Memory.placed_store (h.placed p hm hp) fun j hj => hp _ (ha j hj)

theorem memWrite_ensures {k a n v : Nat} (hl : env.buffersLegal = true) (ha : ∀ j < n, env.output.has (a + j) = true) :
    Ensures (fun w => Within env m w ∧ w.stored = k) (memWrite env a n v)
      (fun _ w => Within env m w ∧ w.stored = k + n) (Raised env m corrupt) := by
  rintro w ⟨hw, hk⟩
  rcases memWrite_cases env a n v w with ⟨-, hrun⟩ | ⟨j, hj, hr, -, hrun⟩
  · rw [hrun]
    exact ⟨hw.put hl (by rwa [littleBytes_length]), by simp [hk, littleBytes_length]⟩
  · rw [hrun]
    exact (hw.put hl (bytes := littleBytes j v) (by rw [littleBytes_length]; exact fun i hi => ha i (by omega))).raisedWrite hl
      (ha j hj) hr

theorem output_has (h : j < env.dstLen) : env.output.has (env.dst + j) = true := by
  rw [Buffer.has_iff]
  simp [Env.output]
  omega

theorem input_has (h : j < env.srcLen) : env.input.has (env.src + j) = true := by
  rw [Buffer.has_iff]
  simp [Env.input]
  omega

/-- One more byte, where there is room. -/
theorem append_ensures {k v : Nat} (hl : env.buffersLegal = true) (hk : k < env.dstLen) :
    Ensures (fun w => Within env m w ∧ w.stored = k) (append env v) (fun _ w => Within env m w ∧ w.stored = k + 1)
      (Raised env m corrupt) := by
  rintro w ⟨hw, hs⟩
  have hhas := output_has (env := env) hk
  rcases append_cases env v w with ⟨-, hrun⟩ | ⟨hr, hrun⟩
  · rw [hrun]
    refine ⟨hw.put hl fun j hj => ?_, by simp [hs]⟩
    simp only [List.length_singleton, Nat.lt_one_iff] at hj
    simpa [hj, hs] using hhas
  · rw [hrun]
    rw [hs] at hr ⊢
    exact hw.raisedWrite hl hhas hr

theorem appendBytes_ensures {k n v : Nat} (hl : env.buffersLegal = true) (hk : k + n ≤ env.dstLen) :
    Ensures (fun w => Within env m w ∧ w.stored = k) (appendBytes env v n)
      (fun _ w => Within env m w ∧ w.stored = k + n) (Raised env m corrupt) := by
  induction n generalizing k v with
  | zero => exact fun w hw => hw
  | succ n ih =>
    refine Ensures.bind (append_ensures hl (by omega)) fun _ => ?_
    have := ih (k := k + 1) (v := v / 256) (by omega)
    rwa [show k + 1 + n = k + (n + 1) by omega] at this

theorem outByte_ensures {k j : Nat} (hl : env.buffersLegal = true) (hj : j < env.dstLen) :
    Ensures (fun w => Within env m w ∧ w.stored = k) (outByte env j) (fun _ w => Within env m w ∧ w.stored = k)
      (Raised env m corrupt) :=
  memRead_ensures hl (fun i hi => .inr (by rw [show i = 0 by omega]; exact output_has hj)) fun _ hw => hw.1

/-! ## Checks -/

theorem require_ensures {ok : Bool} :
    Ensures (Untouched env m) (require ok) (fun _ w => ok = true ∧ Untouched env m w) (Raised env m corrupt) := by
  intro w hw
  rw [require_run]
  cases ok with
  | true => exact ⟨rfl, hw⟩
  | false => exact hw.raised (.inr rfl)

theorem checkBuffers_ensures :
    Ensures (Untouched env m) (checkBuffers env) (fun _ w => env.buffersLegal = true ∧ Untouched env m w)
      (Raised env m corrupt) := require_ensures

theorem takeFormat_ensures {fmt : BitVec 4} :
    Ensures (Untouched env m) (takeFormat fmt) (fun f w => pixelFormatOf fmt = some f ∧ Untouched env m w)
      (Raised env m corrupt) := by
  cases h : pixelFormatOf fmt with
  | some f => rw [takeFormat_some h]; exact fun w hw => ⟨rfl, hw⟩
  | none => rw [takeFormat_none h]; exact fun w hw => hw.raised (.inl rfl)

theorem takeMode_ensures {swz : BitVec 4} :
    Ensures (Untouched env m) (takeMode swz) (fun mode w => swizzleModeOf swz = some mode ∧ Untouched env m w)
      (Raised env m corrupt) := by
  cases h : swizzleModeOf swz with
  | some f => rw [takeMode_some h]; exact fun w hw => ⟨rfl, hw⟩
  | none => rw [takeMode_none h]; exact fun w hw => hw.raised (.inl rfl)

theorem takeBlockFormat_ensures {fmt : BitVec 4} :
    Ensures (Untouched env m) (takeBlockFormat fmt) (fun _ => Untouched env m) (Raised env m corrupt) := by
  refine Ensures.bind takeFormat_ensures fun f => Ensures.assume fun _ => ?_
  cases f
  case etc1 => exact fun w hw => hw
  case etc1a4 => exact fun w hw => hw
  all_goals exact raiseEarly_ensures (.inl rfl)

theorem takeTexture_ensures {mode : SwizzleMode} {pad : Bool} :
    Ensures (Untouched env m) (takeTexture env mode pad)
      (fun t w => (env.dimensionsLegal = true ∧ t = ⟨env.width, env.height, padDim env.width pad, padDim env.height pad,
          strideOf (padDim env.width pad) (padDim env.height pad) mode⟩) ∧ Untouched env m w)
      (Raised env m corrupt) :=
  Ensures.bind require_ensures fun _ => Ensures.assume fun hd => Ensures.pure fun _ hw => ⟨⟨hd, rfl⟩, hw⟩

theorem checkDeclared_ensures {n : Nat} :
    Ensures (Untouched env m) (checkDeclared env n) (fun _ w => n ≤ env.dstLen ∧ Untouched env m w)
      (Raised env m corrupt) := by
  refine Ensures.ite (fun _ w hw => ?_) fun h w hw => ⟨by omega, hw⟩
  exact hw.raised (.inr rfl)

/-- The working state with nothing stored, seen as one with 0 bytes stored. -/
theorem Untouched.zero {w : Work} (h : Untouched env m w) : Within env m w ∧ w.stored = 0 := ⟨h.within, h.stored⟩

/-! ## Pixel records -/

theorem readPixel_ensures {pre : Work → Prop} {a n : Nat} (hl : env.buffersLegal = true)
    (ha : ∀ j < 4, env.input.has (a + 4 * n + j) = true) (h : ∀ w, pre w → Within env m w) :
    Ensures pre (readPixel env a n) (fun _ => pre) (Raised env m corrupt) := by
  have one : ∀ j < 4, Ensures pre (memRead env (a + 4 * n + j) 1) (fun _ => pre) (Raised env m corrupt) := fun j hj =>
    memRead_ensures hl (fun i hi => .inl (by rw [show i = 0 by omega]; exact ha j hj)) h
  exact Ensures.bind (one 0 (by omega)) fun _ => Ensures.bind (one 1 (by omega)) fun _ =>
    Ensures.bind (one 2 (by omega)) fun _ => Ensures.bind (one 3 (by omega)) fun _ => Ensures.pure fun w hw => hw

theorem writePixel_ensures {k a n : Nat} {c : Pixel} (hl : env.buffersLegal = true)
    (ha : ∀ j < 4, env.output.has (a + 4 * n + j) = true) :
    Ensures (fun w => Within env m w ∧ w.stored = k) (writePixel env a n c)
      (fun _ w => Within env m w ∧ w.stored = k + 4) (Raised env m corrupt) := by
  have one : ∀ (j k : Nat) (v : Nat), j < 4 → Ensures (fun w => Within env m w ∧ w.stored = k)
      (memWrite env (a + 4 * n + j) 1 v) (fun _ w => Within env m w ∧ w.stored = k + 1) (Raised env m corrupt) :=
    fun j k v hj => memWrite_ensures hl fun i hi => by rw [show i = 0 by omega]; exact ha j hj
  exact Ensures.bind (one 0 k _ (by omega)) fun _ => Ensures.bind (one 1 _ _ (by omega)) fun _ =>
    Ensures.bind (one 2 _ _ (by omega)) fun _ => one 3 _ _ (by omega)

theorem writePixels_ensures {k n : Nat} {cs : List Pixel} (hl : env.buffersLegal = true)
    (ha : 4 * (n + cs.length) ≤ env.dstLen) :
    Ensures (fun w => Within env m w ∧ w.stored = k) (writePixels env env.dst cs n)
      (fun _ w => Within env m w ∧ w.stored = k + 4 * cs.length) (Raised env m corrupt) := by
  induction cs generalizing n k with
  | nil => exact fun w hw => hw
  | cons c cs ih =>
    rw [List.length_cons] at ha
    refine Ensures.bind (writePixel_ensures hl fun j hj => ?_) fun _ => ?_
    · rw [Nat.add_assoc]
      exact output_has (by omega)
    · have := ih (n := n + 1) (k := k + 4) (by omega)
      rwa [show k + 4 + 4 * cs.length = k + 4 * (c :: cs).length by simp; omega] at this

/-! ## Texels -/

theorem readBlock_ensures {pre : Work → Prop} {a : Nat} {alpha : Bool} (hl : env.buffersLegal = true)
    (ha : ∀ j < blockBytes alpha, env.input.has (a + j) = true) (h : ∀ w, pre w → Within env m w) :
    Ensures pre (readBlock env a alpha) (fun _ => pre) (Raised env m corrupt) := by
  unfold readBlock
  cases alpha with
  | true =>
    refine Ensures.bind (memRead_ensures hl (fun j hj => .inl ?_) h) fun _ =>
      Ensures.bind (memRead_ensures hl (fun j hj => .inl (ha j (by simp [blockBytes]; omega))) h) fun _ =>
        Ensures.pure fun w hw => hw
    rw [Nat.add_assoc]
    exact ha (8 + j) (by simp [blockBytes]; omega)
  | false =>
    exact Ensures.bind (memRead_ensures hl (fun j hj => .inl (ha j (by simpa [blockBytes] using hj))) h) fun _ =>
      Ensures.pure fun w hw => hw

theorem pixelCount_bytes {f : PixelFormat} {size : Nat} {d : Nat → Pixel} {e : Pixel → Nat}
    (h : texelLayout f = .bytes size d e) (len : Nat) : pixelCount f len = len / size := by simp [pixelCount, h]

theorem pixelCount_nibbles {f : PixelFormat} {d : Nat → Pixel} {e : Pixel → Nat}
    (h : texelLayout f = .nibbles d e) (len : Nat) : pixelCount f len = 2 * len := by simp [pixelCount, h]

theorem pixelCount_blocks {f : PixelFormat} {alpha : Bool} (h : texelLayout f = .blocks alpha) (len : Nat) :
    pixelCount f len = 16 * (len / blockBytes alpha) := by simp [pixelCount, h]

/-- Reading a pixel of the texel buffer reads inside it. -/
theorem pixDecode_ensures {pre : Work → Prop} {f : PixelFormat} {j : Nat} (hl : env.buffersLegal = true)
    (hj : j < pixelCount f env.srcLen) (h : ∀ w, pre w → Within env m w) :
    Ensures pre (pixDecode env f env.src j) (fun _ => pre) (Raised env m corrupt) := by
  unfold pixDecode
  split
  · next size d e hf =>
    rw [pixelCount_bytes hf] at hj
    refine Ensures.bind (memRead_ensures hl (fun i hi => .inl ?_) h) fun _ => Ensures.pure fun w hw => hw
    rw [Nat.add_assoc]
    have h1 : size * (j + 1) ≤ env.srcLen :=
      Nat.le_trans (Nat.mul_le_mul_left size hj) (Nat.mul_div_le env.srcLen size)
    rw [Nat.mul_add, Nat.mul_one, Nat.mul_comm] at h1
    exact input_has (by omega)
  · next d e hf =>
    rw [pixelCount_nibbles hf] at hj
    refine Ensures.bind (memRead_ensures hl (fun i hi => .inl ?_) h) fun _ => Ensures.pure fun w hw => hw
    rw [Nat.add_assoc]
    exact input_has (by omega)
  · next alpha hf =>
    rw [pixelCount_blocks hf] at hj
    refine Ensures.bind (readBlock_ensures hl (fun i hi => ?_) h) fun _ => Ensures.pure fun w hw => hw
    rw [Nat.add_assoc]
    have h1 : blockBytes alpha * (j / 16 + 1) ≤ env.srcLen :=
      Nat.le_trans (Nat.mul_le_mul_left _ (by omega : j / 16 + 1 ≤ env.srcLen / blockBytes alpha))
        (Nat.mul_div_le env.srcLen _)
    rw [Nat.mul_add, Nat.mul_one] at h1
    exact input_has (by omega)

theorem etc1Encode_ensures {k : Nat} {pixels : List Pixel} {alpha : Bool} (hl : env.buffersLegal = true)
    (hk : k + blockBytes alpha ≤ env.dstLen) :
    Ensures (fun w => Within env m w ∧ w.stored = k) (etc1Encode env pixels alpha)
      (fun _ w => Within env m w ∧ w.stored = k + blockBytes alpha) (Raised env m corrupt) := by
  unfold etc1Encode
  cases alpha with
  | true =>
    simp only [blockBytes, if_true] at hk ⊢
    refine Ensures.bind (appendBytes_ensures hl (by omega)) fun _ => ?_
    exact Ensures.bind (appendBytes_ensures hl (by omega)) fun _ => Ensures.pure fun w hw => hw
  | false =>
    simp only [blockBytes, Bool.false_eq_true, if_false] at hk ⊢
    exact Ensures.bind (appendBytes_ensures hl (by omega)) fun _ => Ensures.pure fun w hw => hw

theorem encodeByteTexels_ensures {k size : Nat} {e : Pixel → Nat} {cs : List Pixel} (hl : env.buffersLegal = true)
    (hk : k + cs.length * size ≤ env.dstLen) :
    Ensures (fun w => Within env m w ∧ w.stored = k) (encodeByteTexels env size e cs)
      (fun _ w => Within env m w ∧ w.stored = k + cs.length * size) (Raised env m corrupt) := by
  induction cs generalizing k with
  | nil => exact fun w hw => ⟨hw.1, by simpa using hw.2⟩
  | cons c cs ih =>
    rw [List.length_cons, Nat.succ_mul] at hk
    refine Ensures.bind (appendBytes_ensures hl (by omega)) fun _ => ?_
    have := ih (k := k + size) (by omega)
    rwa [show k + size + cs.length * size = k + (c :: cs).length * size by
      rw [List.length_cons, Nat.succ_mul]; omega] at this

theorem encodeNibbleTexels_ensures {k : Nat} {e : Pixel → Nat} {cs : List Pixel} {pend : Option Nat}
    (hl : env.buffersLegal = true) (hk : k + (cs.length + pend.toList.length + 1) / 2 ≤ env.dstLen) :
    Ensures (fun w => Within env m w ∧ w.stored = k) (encodeNibbleTexels env e cs pend)
      (fun _ w => Within env m w ∧ w.stored = k + (cs.length + pend.toList.length + 1) / 2) (Raised env m corrupt) := by
  induction cs generalizing k pend with
  | nil =>
    cases pend with
    | none => exact fun w hw => ⟨hw.1, by simpa using hw.2⟩
    | some low =>
      have := append_ensures (m := m) (corrupt := corrupt) (v := low) hl (k := k) (by simp at hk; omega)
      simpa [encodeNibbleTexels] using this
  | cons c cs ih =>
    cases pend with
    | none =>
      have := ih (k := k) (pend := some (e c)) (by simpa using hk)
      simpa [encodeNibbleTexels] using this
    | some low =>
      simp only [List.length_cons, Option.toList_some, List.length_nil] at hk ⊢
      refine Ensures.bind (append_ensures hl (by omega)) fun _ => ?_
      have := ih (k := k + 1) (pend := none) (by simp; omega)
      simp only [Option.toList_none, List.length_nil] at this
      rwa [show k + 1 + (cs.length + 0 + 1) / 2 = k + (cs.length + 1 + (0 + 1) + 1) / 2 by omega] at this

theorem encodeBlockTexels_ensures {k n : Nat} {alpha : Bool} {cs : List Pixel} (hl : env.buffersLegal = true)
    (hk : k + n * blockBytes alpha ≤ env.dstLen) :
    Ensures (fun w => Within env m w ∧ w.stored = k) (encodeBlockTexels env alpha n cs)
      (fun _ w => Within env m w ∧ w.stored = k + n * blockBytes alpha) (Raised env m corrupt) := by
  induction n generalizing k cs with
  | zero => exact fun w hw => ⟨hw.1, by simpa using hw.2⟩
  | succ n ih =>
    rw [Nat.succ_mul] at hk
    refine Ensures.bind (etc1Encode_ensures hl (by omega)) fun _ => ?_
    have := ih (k := k + blockBytes alpha) (cs := cs.drop 16) (by omega)
    rwa [show k + blockBytes alpha + n * blockBytes alpha = k + (n + 1) * blockBytes alpha by
      rw [Nat.succ_mul]; omega] at this

/-- Encoding pixels appends exactly their encoded size (42_pixel_format.md R183). -/
theorem pixEncode_ensures {k : Nat} {f : PixelFormat} {cs : List Pixel} (hl : env.buffersLegal = true)
    (hk : k + encodedSize f cs.length ≤ env.dstLen) :
    Ensures (fun w => Within env m w ∧ w.stored = k) (pixEncode env f cs)
      (fun _ w => Within env m w ∧ w.stored = k + encodedSize f cs.length) (Raised env m corrupt) := by
  unfold pixEncode
  cases hf : texelLayout f with
  | bytes size d e =>
    simp only [encodedSize, hf] at hk ⊢
    have := encodeByteTexels_ensures (m := m) (corrupt := corrupt) (k := k) (size := size) (e := e)
      (cs := cs.map (zeroAlpha env.platform)) hl (by simpa using hk)
    simpa using this
  | nibbles d e =>
    simp only [encodedSize, hf] at hk ⊢
    have := encodeNibbleTexels_ensures (m := m) (corrupt := corrupt) (k := k) (e := e)
      (cs := cs.map (zeroAlpha env.platform)) (pend := none) hl (by simpa using hk)
    simpa using this
  | blocks alpha =>
    simp only [encodedSize, hf] at hk ⊢
    have := encodeBlockTexels_ensures (m := m) (corrupt := corrupt) (k := k) (cs := cs.map (zeroAlpha env.platform))
      (n := cs.length / 16) (alpha := alpha) hl (by simpa using hk)
    simpa using this

/-! ## Texels of a texture -/

theorem placeTexel_eq (f : PixelFormat) (mode : SwizzleMode) (t : Texture) (n : Nat) :
    placeTexel env f mode t n
      = (pixDecode env f env.src n >>= fun c =>
          if (addressOf n t.stride mode).1 < t.w ∧ (addressOf n t.stride mode).2 < t.h then
            writePixel env env.dst ((addressOf n t.stride mode).2 * t.w + (addressOf n t.stride mode).1) c
          else pure ()) := rfl

theorem gatherPixel_eq (mode : SwizzleMode) (t : Texture) (n : Nat) :
    gatherPixel env mode t n
      = readPixel env env.src
          (min (addressOf n t.stride mode).2 (t.h - 1) * t.w + min (addressOf n t.stride mode).1 (t.w - 1)) := rfl

/-- The record of (x, y) lies in the raster (44_swizzle.md R299). -/
theorem record_in_raster {x y w h : Nat} (hx : x < w) (hy : y < h) : y * w + x < w * h := by
  have h1 : (y + 1) * w ≤ h * w := Nat.mul_le_mul_right _ hy
  rw [Nat.succ_mul, Nat.mul_comm h w] at h1
  omega

/-- Placing a texel writes inside the raster. -/
theorem placeTexel_ensures {f : PixelFormat} {mode : SwizzleMode} {t : Texture} {n : Nat}
    (hl : env.buffersLegal = true) (hn : n < pixelCount f env.srcLen) (hd : 4 * t.w * t.h ≤ env.dstLen) :
    Ensures (Within env m) (placeTexel env f mode t n) (fun _ => Within env m) (Raised env m corrupt) := by
  rw [placeTexel_eq]
  refine Ensures.bind (pixDecode_ensures hl hn fun w hw => hw) fun c => ?_
  refine Ensures.ite (fun hxy w hw => ?_) fun _ => Ensures.pure fun w hw => hw
  have hin := record_in_raster hxy.1 hxy.2
  rw [Nat.mul_assoc] at hd
  refine ((writePixel_ensures (k := w.stored) hl fun i hi => ?_).post fun _ w hw => hw.1) w ⟨hw, rfl⟩
  rw [Nat.add_assoc]
  exact output_has (by omega)

/-- Gathering a pixel reads inside the raster. -/
theorem gatherPixel_ensures {pre : Work → Prop} {mode : SwizzleMode} {t : Texture} {n : Nat}
    (hl : env.buffersLegal = true) (hw : 0 < t.w) (hh : 0 < t.h) (hs : 4 * t.w * t.h ≤ env.srcLen)
    (h : ∀ w, pre w → Within env m w) :
    Ensures pre (gatherPixel env mode t n) (fun _ => pre) (Raised env m corrupt) := by
  rw [gatherPixel_eq]
  have hin := record_in_raster (x := min (addressOf n t.stride mode).1 (t.w - 1))
    (y := min (addressOf n t.stride mode).2 (t.h - 1)) (w := t.w) (h := t.h) (by omega) (by omega)
  rw [Nat.mul_assoc] at hs
  refine readPixel_ensures hl (fun i hi => ?_) h
  rw [Nat.add_assoc]
  exact input_has (by omega)

/-! ## Streams -/

/-- The working state of a body that may store up to `n` bytes. -/
def Room (env : Env) (m : Memory) (n : Nat) (w : Work) : Prop := Within env m w ∧ w.stored ≤ n

theorem ofStored_ensures {α : Type} {n : Nat} {x : Eng α} {post : α → Work → Prop} {fail : Raise → Work → Prop}
    (h : ∀ k ≤ n, Ensures (fun w => Within env m w ∧ w.stored = k) x post fail) : Ensures (Room env m n) x post fail :=
  fun w hw => h w.stored hw.2 w ⟨hw.1, rfl⟩

/-- The count of output bytes, read before the rest. -/
theorem outLen_bind_ensures {α : Type} {n : Nat} {x : Nat → Eng α} {post : α → Work → Prop} {fail : Raise → Work → Prop}
    (h : ∀ k ≤ n, Ensures (fun w => Within env m w ∧ w.stored = k) (x k) post fail) :
    Ensures (Room env m n) (outLen >>= x) post fail :=
  fun w hw => by rw [outLen_bind]; exact h w.stored hw.2 w ⟨hw.1, rfl⟩

theorem outLen_bind_at_ensures {α : Type} {k : Nat} {x : Nat → Eng α} {post : α → Work → Prop}
    {fail : Raise → Work → Prop} (h : Ensures (fun w => Within env m w ∧ w.stored = k) (x k) post fail) :
    Ensures (fun w => Within env m w ∧ w.stored = k) (outLen >>= x) post fail :=
  fun w hw => by rw [outLen_bind, hw.2]; exact h w hw

theorem copyback_ensures {k disp len n : Nat} (hl : env.buffersLegal = true) (hn : n ≤ env.dstLen) :
    Ensures (fun w => Within env m w ∧ w.stored = k) (copyback env disp len n) (fun _ => Room env m n)
      (Raised env m true) := by
  refine outLen_bind_at_ensures ?_
  refine Ensures.ite (fun _ => raiseAtCursor_ensures fun w hw => hw.1) fun hd => ?_
  refine Ensures.ite (fun _ => raiseAtCursor_ensures fun w hw => hw.1) fun ho => ?_
  refine (Ensures.repeatTimes (k := 0) (inv := fun j w => Within env m w ∧ w.stored = k + j) fun j _ hj => ?_).post
    fun _ w hw => ⟨hw.1, by have := hw.2; omega⟩
  refine outLen_bind_at_ensures ?_
  exact Ensures.bind (outByte_ensures hl (by omega)) fun v => append_ensures hl (by omega)

theorem lz10Reference_ensures {k : Nat} (hl : env.buffersLegal = true) :
    Ensures (fun w => Within env m w ∧ w.stored = k) (lz10Reference env) (fun _ w => Within env m w ∧ w.stored = k)
      (Raised env m true) :=
  Ensures.bind (inByte_ensures hl) fun _ => Ensures.bind (inByte_ensures hl) fun _ => Ensures.pure fun _ hw => hw

theorem lz11Reference_ensures {k : Nat} (hl : env.buffersLegal = true) :
    Ensures (fun w => Within env m w ∧ w.stored = k) (lz11Reference env) (fun _ w => Within env m w ∧ w.stored = k)
      (Raised env m true) := by
  refine Ensures.bind (inByte_ensures hl) fun b1 => ?_
  split
  · exact Ensures.bind (inByte_ensures hl) fun _ => Ensures.bind (inByte_ensures hl) fun _ => Ensures.pure fun _ hw => hw
  · exact Ensures.bind (inByte_ensures hl) fun _ => Ensures.bind (inByte_ensures hl) fun _ =>
      Ensures.bind (inByte_ensures hl) fun _ => Ensures.pure fun w hw => hw
  · exact Ensures.bind (inByte_ensures hl) fun _ => Ensures.pure fun w hw => hw

theorem lzBody_ensures {reference : Eng (Nat × Nat)} {n bound : Nat} (hl : env.buffersLegal = true) (hn : n ≤ env.dstLen)
    (href : ∀ k, Ensures (fun w => Within env m w ∧ w.stored = k) reference (fun _ w => Within env m w ∧ w.stored = k)
      (Raised env m true)) :
    Ensures (Room env m n) (lzBody env reference n bound) (fun _ => Room env m n) (Raised env m true) := by
  have token : ∀ k flag, k < n → Ensures (fun w => Within env m w ∧ w.stored = k) (lzToken env reference n flag)
      (fun _ => Room env m n) (Raised env m true) := fun k flag hk => by
    refine Ensures.ite (fun _ => ?_) fun _ => ?_
    · exact Ensures.bind (inByte_ensures hl) fun v =>
        (append_ensures hl (by omega)).post fun _ w hw => ⟨hw.1, by have := hw.2; omega⟩
    · exact Ensures.bind (href k) fun dl => copyback_ensures hl hn
  have group : ∀ flags i, Ensures (Room env m n) (lzGroup env reference n flags i) (fun _ => Room env m n)
      (Raised env m true) := fun flags i => by
    induction i with
    | zero => exact fun w hw => hw
    | succ i ih =>
      refine outLen_bind_ensures fun k hk => Ensures.ite (fun _ w hw => ⟨hw.1, by omega⟩) fun hne => ?_
      exact Ensures.bind (token k _ (by omega)) fun _ => ih
  induction bound with
  | zero => exact fun w hw => hw
  | succ bound ih =>
    refine outLen_bind_ensures fun k hk => Ensures.ite (fun _ => ?_) fun _ w hw => ⟨hw.1, by omega⟩
    refine Ensures.bind (inByte_ensures hl) fun flags => ?_
    exact Ensures.bind ((group flags 8).pre fun w hw => ⟨hw.1, by omega⟩) fun _ => ih

theorem rleBody_ensures {n : Nat} (hl : env.buffersLegal = true) (hn : n ≤ env.dstLen) :
    Ensures (Room env m n) (rleBody env n) (fun _ => Room env m n) (Raised env m true) := by
  have group : ∀ k, k ≤ n → Ensures (fun w => Within env m w ∧ w.stored = k) (rleGroup env n) (fun _ => Room env m n)
      (Raised env m true) := fun k hk => by
    refine Ensures.bind (inByte_ensures hl) fun f => Ensures.ite (fun _ => ?_) fun _ => ?_
    · refine Ensures.bind (inByte_ensures hl) fun v => outLen_bind_at_ensures ?_
      refine Ensures.ite (fun _ => raiseAtCursor_ensures fun w hw => hw.1) fun ho => ?_
      exact (Ensures.repeatTimes (k := 0) (inv := fun j w => Within env m w ∧ w.stored = k + j) fun j _ hj =>
        append_ensures hl (by omega)).post fun _ w hw => ⟨hw.1, by have := hw.2; omega⟩
    · refine outLen_bind_at_ensures ?_
      refine Ensures.ite (fun _ => raiseAtCursor_ensures fun w hw => hw.1) fun ho => ?_
      exact (Ensures.repeatTimes (k := 0) (inv := fun j w => Within env m w ∧ w.stored = k + j) fun j _ hj =>
        Ensures.bind (inByte_ensures hl) fun v => append_ensures hl (by omega)).post
          fun _ w hw => ⟨hw.1, by have := hw.2; omega⟩
  have loop : ∀ bound, Ensures (Room env m n) (rleLoop env n bound) (fun _ => Room env m n) (Raised env m true) :=
    fun bound => by
      induction bound with
      | zero => exact fun w hw => hw
      | succ bound ih =>
        refine outLen_bind_ensures fun k hk => Ensures.ite (fun _ => ?_) fun _ w hw => ⟨hw.1, by omega⟩
        exact Ensures.bind (group k hk) fun _ => ih
  exact loop n

theorem verbatimBody_ensures {n : Nat} (hl : env.buffersLegal = true) (hn : n ≤ env.dstLen) :
    Ensures (fun w => Within env m w ∧ w.stored = 0) (verbatimBody env n) (fun _ => Room env m n) (Raised env m true) :=
  (Ensures.repeatTimes (k := 0) (inv := fun j w => Within env m w ∧ w.stored = j) fun j _ hj =>
    Ensures.bind (inByte_ensures hl) fun v => append_ensures hl (by omega)).post fun _ w hw =>
      ⟨hw.1, by have := hw.2; omega⟩

/-- The bytes the decoder has stored are its symbols: one each, or one for two. -/
def huffStored (wide : Bool) (h : HuffState) : Nat := if wide then h.syms else h.syms / 2

/-- A nibble is pending exactly after an odd number of 4-bit symbols. -/
def huffPending (wide : Bool) (h : HuffState) : Prop :=
  if wide then h.pend = none else (h.pend.isSome = true ↔ h.syms % 2 = 1)

theorem huffStep_ensures {wide : Bool} {tree : List Nat} {h : HuffState} (hl : env.buffersLegal = true)
    (hp : huffPending wide h) (hs : huffStored wide h < env.dstLen) :
    Ensures (fun w => Within env m w ∧ w.stored = huffStored wide h) (huffStep env wide tree h)
      (fun h' w => huffPending wide h' ∧ (h'.syms = h.syms ∨ h'.syms = h.syms + 1)
        ∧ (Within env m w ∧ w.stored = huffStored wide h')) (Raised env m true) := by
  have refill : Ensures (fun w => Within env m w ∧ w.stored = huffStored wide h) (huffRefill env h)
      (fun h' w => (h'.syms = h.syms ∧ h'.pend = h.pend) ∧ (Within env m w ∧ w.stored = huffStored wide h))
      (Raised env m true) := by
    refine Ensures.ite (fun _ => ?_) fun _ => Ensures.pure fun w hw => ⟨⟨rfl, rfl⟩, hw⟩
    exact Ensures.bind (inBytes_ensures hl) fun _ => Ensures.pure fun w hw => ⟨⟨rfl, rfl⟩, hw⟩
  refine Ensures.bind refill fun h1 => Ensures.assume fun hh => ?_
  refine Ensures.ite (fun _ => raiseAtCursor_ensures fun w hw => hw.1) fun _ => ?_
  refine Ensures.ite (fun _ => ?_) fun _ => Ensures.pure fun w hw => ?_
  · cases wide with
    | true =>
      simp only [huffStored, if_true] at hs ⊢
      refine Ensures.bind (Ensures.bind (append_ensures hl hs) fun _ => Ensures.pure (v := none)
        (post := fun p w => p = none ∧ (Within env m w ∧ w.stored = h.syms + 1)) fun w hw => ⟨rfl, hw⟩) fun p =>
          Ensures.assume fun hpn => Ensures.pure fun w hw => ?_
      exact ⟨by simpa [huffPending] using hpn, .inr (by simp [hh.1]), by simpa [hh.1] using hw⟩
    | false =>
      simp only [huffStored, Bool.false_eq_true, if_false, huffPending] at hs hp ⊢
      unfold huffEmit
      simp only [Bool.false_eq_true, if_false, hh.2]
      cases hpend : h.pend with
      | none =>
        have heven : ¬ h.syms % 2 = 1 := fun ho => by rw [hpend] at hp; simpa using hp.mpr ho
        refine Ensures.bind (Ensures.pure (v := some _)
          (post := fun p w => p.isSome = true ∧ (Within env m w ∧ w.stored = h.syms / 2)) fun w hw => ⟨rfl, hw⟩) fun p =>
            Ensures.assume fun hpn => Ensures.pure fun w hw => ?_
        refine ⟨by simp [hpn, hh.1]; omega, .inr (by simp [hh.1]), hw.1, ?_⟩
        simp only [hh.1]
        have := hw.2
        omega
      | some low =>
        have hodd : h.syms % 2 = 1 := hp.mp (by rw [hpend]; rfl)
        refine Ensures.bind (Ensures.bind (append_ensures hl hs) fun _ => Ensures.pure (v := none)
          (post := fun p w => p = none ∧ (Within env m w ∧ w.stored = h.syms / 2 + 1)) fun w hw => ⟨rfl, hw⟩) fun p =>
            Ensures.assume fun hpn => Ensures.pure fun w hw => ?_
        refine ⟨by simp [hpn, hh.1]; omega, .inr (by simp [hh.1]), hw.1, ?_⟩
        simp only [hh.1]
        have := hw.2
        omega
  · refine ⟨?_, .inl hh.1, ?_⟩
    · simpa [huffPending, hh.1, hh.2] using hp
    · simpa [huffStored, hh.1] using hw

theorem huffBody_ensures {n : Nat} {wide : Bool} (hl : env.buffersLegal = true) (hn : n ≤ env.dstLen) :
    Ensures (fun w => Within env m w ∧ w.stored = 0) (huffBody env n wide) (fun _ => Room env m n)
      (Raised env m true) := by
  refine Ensures.ite (fun _ => Ensures.pure fun w hw => ⟨hw.1, by have := hw.2; omega⟩) fun hne => ?_
  have tree : Ensures (fun w => Within env m w ∧ w.stored = 0) (huffTree env) (fun _ w => Within env m w ∧ w.stored = 0)
      (Raised env m true) := by
    refine Ensures.bind (inByte_ensures hl) fun size => Ensures.bind ?_ fun rest => Ensures.pure fun w hw => hw
    exact (Ensures.collectFrom (good := fun _ _ => True) fun j _ _ => (inByte_ensures hl).post
      fun _ w hw => ⟨trivial, hw⟩).post fun _ w hw => hw.2
  refine Ensures.bind tree fun tree => ?_
  have walk : ∀ bound h, huffPending wide h → h.syms ≤ (if wide then n else 2 * n) →
      Ensures (fun w => Within env m w ∧ w.stored = huffStored wide h)
        (huffWalk env wide tree (if wide then n else 2 * n) bound h) (fun _ => Room env m n) (Raised env m true) := by
    intro bound
    induction bound with
    | zero =>
      intro h _ hle
      refine Ensures.ite (fun _ => raiseAtCursor_ensures fun w hw => hw.1) fun _ => Ensures.pure fun w hw => ⟨hw.1, ?_⟩
      have := hw.2
      cases wide <;> simp [huffStored] at * <;> omega
    | succ bound ih =>
      intro h hp hle
      refine Ensures.ite (fun hlt => ?_) fun _ => Ensures.pure fun w hw => ⟨hw.1, ?_⟩
      · refine Ensures.bind (huffStep_ensures hl hp (by cases wide <;> simp [huffStored] at * <;> omega))
          fun h' w hw => ih h' hw.1 (by omega) w hw.2.2
      · have := hw.2
        cases wide <;> simp [huffStored] at * <;> omega
  exact walk _ _ (by cases wide <;> simp [huffPending, huffStart]) (by simp [huffStart]) |>.pre fun w hw => by
    cases wide <;> simpa [huffStored, huffStart] using hw

theorem containerBody_ensures {mth n : Nat} (hl : env.buffersLegal = true) (hn : n ≤ env.dstLen) :
    Ensures (fun w => Within env m w ∧ w.stored = 0) (containerBody env mth n) (fun _ => Room env m n)
      (Raised env m true) := by
  have room : ∀ w, Within env m w ∧ w.stored = 0 → Room env m n w := fun w hw => ⟨hw.1, by have := hw.2; omega⟩
  unfold containerBody
  split
  · exact verbatimBody_ensures hl hn
  · exact (lzBody_ensures hl hn fun k => lz10Reference_ensures hl).pre room
  · exact huffBody_ensures hl hn
  · exact huffBody_ensures hl hn
  · exact (rleBody_ensures hl hn).pre room

end Sys2Proof.Machine
end

