-- ==== Sys2Proof/Laws/Commands.lean ====
section
/-! SUPPORT. What every command keeps, whatever its outcome: `CommandKeeps`, one lemma for each command's body, and the
body that `exec` runs. -/
namespace Sys2Proof.Machine

/-- The commands that may end with CorruptStream (60_exceptions.md R324). -/
def decompresses : Instr → Bool
  | .lz10Dec | .lz11Dec | .rleDec | .contDec | .huff4Dec | .huff8Dec => true
  | .nop | .etc1Dec _ | .etc1Enc _ | .swzAddr _ | .texDim _ _ | .pixDec _ | .pixEnc _ | .texDec _ _ _ | .texEnc _ _ _ =>
    false

/-- What a command's body keeps from its start on. -/
def CommandKeeps (corrupt : Bool) (body : Env → Eng (Nat × Nat)) : Prop :=
  ∀ env m, Ensures (Untouched env m) (body env) (fun _ => Within env m) (Raised env m corrupt)

/-- `exec i` runs a body that keeps `CommandKeeps`. -/
def RunsKeeping (i : Instr) (corrupt : Bool) : Prop :=
  ∃ body, (∀ s, exec i s = runCommand s body) ∧ CommandKeeps corrupt body

variable {env : Env} {m : Memory} {corrupt : Bool}

/-- The results do not matter for what is kept. -/
theorem pure_keeps {pre : Work → Prop} {r : Nat × Nat} (h : ∀ w, pre w → Within env m w) :
    Ensures pre (pure r) (fun _ => Within env m) (Raised env m corrupt) := Ensures.pure h

theorem nop_keeps : RunsKeeping .nop false := ⟨_, fun _ => rfl, fun _ _ _ hw => hw.within⟩

theorem etc1Dec_keeps (fmt : BitVec 4) : RunsKeeping (.etc1Dec fmt) false := by
  refine ⟨_, fun _ => rfl, fun env m => ?_⟩
  refine Ensures.bind takeBlockFormat_ensures fun alpha => ?_
  refine Ensures.bind require_ensures fun _ => Ensures.assume fun h1 => ?_
  refine Ensures.bind require_ensures fun _ => Ensures.assume fun h2 => ?_
  refine Ensures.bind checkBuffers_ensures fun _ => Ensures.assume fun hl => ?_
  simp only [decide_eq_true_eq] at h1 h2
  have hlen : ∀ w aw, (decodeBlock w aw).length = 16 := fun w aw => by simp [decodeBlock]
  have hread : Ensures (Untouched env m) (readBlock env env.src alpha)
      (fun p w => p.length = 16 ∧ Untouched env m w) (Raised env m false) := by
    have hin : ∀ j < blockBytes alpha, env.input.has (env.src + j) = true := fun j hj => input_has (by omega)
    unfold readBlock
    cases alpha with
    | true =>
      refine Ensures.bind (memRead_ensures hl (fun j hj => .inl ?_) fun _ h => h.within) fun _ =>
        Ensures.bind (memRead_ensures hl (fun j hj => .inl (hin j (by simp [blockBytes]; omega))) fun _ h => h.within)
          fun _ => Ensures.pure fun w hw => ⟨hlen _ _, hw⟩
      rw [Nat.add_assoc]
      exact hin (8 + j) (by simp [blockBytes]; omega)
    | false =>
      exact Ensures.bind (memRead_ensures hl (fun j hj => .inl (hin j (by simpa [blockBytes] using hj)))
        fun _ h => h.within) fun _ => Ensures.pure fun w hw => ⟨hlen _ _, hw⟩
  refine Ensures.bind hread fun p => Ensures.assume fun hp => ?_
  refine Ensures.bind ((writePixels_ensures (n := 0) (k := 0) hl (by omega)).pre fun w hw => hw.zero) fun _ => ?_
  exact pure_keeps fun w hw => hw.1

theorem etc1Enc_keeps (fmt : BitVec 4) : RunsKeeping (.etc1Enc fmt) false := by
  refine ⟨_, fun _ => rfl, fun env m => ?_⟩
  refine Ensures.bind takeBlockFormat_ensures fun alpha => ?_
  refine Ensures.bind require_ensures fun _ => Ensures.assume fun h1 => ?_
  refine Ensures.bind require_ensures fun _ => Ensures.assume fun h2 => ?_
  refine Ensures.bind checkBuffers_ensures fun _ => Ensures.assume fun hl => ?_
  simp only [decide_eq_true_eq] at h1 h2
  refine Ensures.bind (Ensures.collectFrom (good := fun _ _ => True) fun j _ hj => ?_) fun cs => ?_
  · refine (readPixel_ensures (pre := Untouched env m) hl (fun i hi => ?_) fun _ h => h.within).post fun _ w hw => ⟨trivial, hw⟩
    rw [Nat.add_assoc]
    exact input_has (by omega)
  · refine Ensures.bind ((etc1Encode_ensures (k := 0) hl (by omega)).pre fun w hw => hw.2.zero) fun _ => ?_
    exact pure_keeps fun w hw => hw.1

theorem swzAddr_keeps (swz : BitVec 4) : RunsKeeping (.swzAddr swz) false := by
  refine ⟨_, fun _ => rfl, fun env m => ?_⟩
  refine Ensures.bind takeMode_ensures fun mode => Ensures.assume fun _ => ?_
  refine Ensures.bind require_ensures fun _ => Ensures.assume fun _ => ?_
  exact pure_keeps fun w hw => hw.within

theorem texDim_keeps (swz : BitVec 4) (pad : Bool) : RunsKeeping (.texDim swz pad) false := by
  refine ⟨_, fun _ => rfl, fun env m => ?_⟩
  refine Ensures.bind takeMode_ensures fun mode => Ensures.assume fun _ => ?_
  refine Ensures.bind takeTexture_ensures fun t => Ensures.assume fun _ => ?_
  exact pure_keeps fun w hw => hw.within

theorem lz10Dec_keeps : RunsKeeping .lz10Dec true := by
  refine ⟨_, fun _ => rfl, fun env m => ?_⟩
  refine Ensures.bind checkBuffers_ensures fun _ => Ensures.assume fun hl => ?_
  refine Ensures.bind (inByte_untouched_ensures hl) fun tag => Ensures.ite (fun _ w hw => ?_) fun _ => ?_
  · exact hw.raised (.inl rfl)
  · refine Ensures.bind (inBytes_untouched_ensures hl) fun n => ?_
    refine Ensures.bind checkDeclared_ensures fun _ => Ensures.assume fun hn => ?_
    refine Ensures.bind ((lzBody_ensures hl hn fun k => lz10Reference_ensures hl).pre fun w hw =>
      ⟨hw.within, by rw [hw.stored]; exact Nat.zero_le _⟩) fun _ => pure_keeps fun w hw => hw.1

theorem lz11Dec_keeps : RunsKeeping .lz11Dec true := by
  refine ⟨_, fun _ => rfl, fun env m => ?_⟩
  refine Ensures.bind checkBuffers_ensures fun _ => Ensures.assume fun hl => ?_
  refine Ensures.bind (inBytes_untouched_ensures hl) fun v => ?_
  refine Ensures.bind checkDeclared_ensures fun _ => Ensures.assume fun hn => ?_
  refine Ensures.bind ((lzBody_ensures hl hn fun k => lz11Reference_ensures hl).pre fun w hw =>
    ⟨hw.within, by rw [hw.stored]; exact Nat.zero_le _⟩) fun _ => pure_keeps fun w hw => hw.1

theorem rleDec_keeps : RunsKeeping .rleDec true := by
  refine ⟨_, fun _ => rfl, fun env m => ?_⟩
  refine Ensures.bind require_ensures fun _ => Ensures.assume fun hn => ?_
  refine Ensures.bind checkBuffers_ensures fun _ => Ensures.assume fun hl => ?_
  simp only [decide_eq_true_eq] at hn
  refine Ensures.bind ((rleBody_ensures hl hn).pre fun w hw => ⟨hw.within, by rw [hw.stored]; exact Nat.zero_le _⟩)
    fun _ => pure_keeps fun w hw => hw.1

theorem contDec_keeps : RunsKeeping .contDec true := by
  refine ⟨_, fun _ => rfl, fun env m => ?_⟩
  refine Ensures.bind checkBuffers_ensures fun _ => Ensures.assume fun hl => ?_
  refine Ensures.bind (inBytes_untouched_ensures hl) fun v => Ensures.ite (fun _ w hw => ?_) fun _ => ?_
  · exact hw.raised (.inl rfl)
  · refine Ensures.bind checkDeclared_ensures fun _ => Ensures.assume fun hn => ?_
    refine Ensures.bind ((containerBody_ensures hl hn).pre fun w hw => hw.zero) fun _ => pure_keeps fun w hw => hw.1

theorem huff4Dec_keeps : RunsKeeping .huff4Dec true := by
  refine ⟨_, fun _ => rfl, fun env m => ?_⟩
  refine Ensures.bind require_ensures fun _ => Ensures.assume fun hn => ?_
  refine Ensures.bind checkBuffers_ensures fun _ => Ensures.assume fun hl => ?_
  simp only [decide_eq_true_eq] at hn
  refine Ensures.bind ((huffBody_ensures hl hn).pre fun w hw => hw.zero) fun _ => pure_keeps fun w hw => hw.1

theorem huff8Dec_keeps : RunsKeeping .huff8Dec true := by
  refine ⟨_, fun _ => rfl, fun env m => ?_⟩
  refine Ensures.bind require_ensures fun _ => Ensures.assume fun hn => ?_
  refine Ensures.bind checkBuffers_ensures fun _ => Ensures.assume fun hl => ?_
  simp only [decide_eq_true_eq] at hn
  refine Ensures.bind ((huffBody_ensures hl hn).pre fun w hw => hw.zero) fun _ => pure_keeps fun w hw => hw.1

theorem pixDec_keeps (fmt : BitVec 4) : RunsKeeping (.pixDec fmt) false := by
  refine ⟨_, fun _ => rfl, fun env m => ?_⟩
  refine Ensures.bind takeFormat_ensures fun f => Ensures.assume fun _ => ?_
  refine Ensures.bind require_ensures fun _ => Ensures.assume fun h1 => ?_
  refine Ensures.bind checkBuffers_ensures fun _ => Ensures.assume fun hl => ?_
  simp only [decide_eq_true_eq] at h1
  refine Ensures.bind (mid := fun _ w => Within env m w) ?_ fun _ => pure_keeps fun w hw => hw
  refine ((Ensures.forFrom (k := 0) (inv := fun j w => Within env m w ∧ w.stored = 4 * j) fun j _ hj => ?_).pre
    fun w hw => hw.zero).post fun _ w hw => hw.1
  refine Ensures.bind (pixDecode_ensures hl (by omega) fun w hw => hw.1) fun c => ?_
  refine writePixel_ensures hl fun i hi => ?_
  rw [Nat.add_assoc]
  exact output_has (by omega)

theorem pixEnc_keeps (fmt : BitVec 4) : RunsKeeping (.pixEnc fmt) false := by
  refine ⟨_, fun _ => rfl, fun env m => ?_⟩
  refine Ensures.bind takeFormat_ensures fun f => Ensures.assume fun _ => ?_
  refine Ensures.bind require_ensures fun _ => Ensures.assume fun _ => ?_
  refine Ensures.bind require_ensures fun _ => Ensures.assume fun h1 => ?_
  refine Ensures.bind require_ensures fun _ => Ensures.assume fun h2 => ?_
  refine Ensures.bind checkBuffers_ensures fun _ => Ensures.assume fun hl => ?_
  simp only [decide_eq_true_eq] at h1 h2
  refine Ensures.bind (Ensures.collectFrom (good := fun _ _ => True) fun j _ hj => ?_) fun cs =>
    fun w hw => ?_
  · refine (readPixel_ensures (pre := Untouched env m) hl (fun i hi => ?_) fun _ h => h.within).post fun _ w hw => ⟨trivial, hw⟩
    rw [Nat.add_assoc]
    exact input_has (by omega)
  · refine Ensures.bind (pixEncode_ensures (k := 0) hl (by rw [hw.1.1]; omega)) (fun _ => pure_keeps fun w hw => hw.1)
      w hw.2.zero

theorem texDec_keeps (fmt swz : BitVec 4) (pad : Bool) : RunsKeeping (.texDec fmt swz pad) false := by
  refine ⟨_, fun _ => rfl, fun env m => ?_⟩
  refine Ensures.bind takeFormat_ensures fun f => Ensures.assume fun _ => ?_
  refine Ensures.bind takeMode_ensures fun mode => Ensures.assume fun _ => ?_
  refine Ensures.bind takeTexture_ensures fun t => Ensures.assume fun _ => ?_
  refine Ensures.bind require_ensures fun _ => Ensures.assume fun h1 => ?_
  refine Ensures.bind require_ensures fun _ => Ensures.assume fun h2 => ?_
  refine Ensures.bind checkBuffers_ensures fun _ => Ensures.assume fun hl => ?_
  simp only [decide_eq_true_eq] at h1 h2
  refine Ensures.bind (mid := fun _ w => Within env m w) ?_ fun _ => pure_keeps fun w hw => hw
  refine ((Ensures.forFrom (k := 0) (inv := fun _ w => Within env m w) fun j _ hj => ?_).pre fun w hw => hw.within)
  exact placeTexel_ensures hl (by omega) h2

theorem texEnc_keeps (fmt swz : BitVec 4) (pad : Bool) : RunsKeeping (.texEnc fmt swz pad) false := by
  refine ⟨_, fun _ => rfl, fun env m => ?_⟩
  refine Ensures.bind takeFormat_ensures fun f => Ensures.assume fun _ => ?_
  refine Ensures.bind takeMode_ensures fun mode => Ensures.assume fun _ => ?_
  refine Ensures.bind takeTexture_ensures fun t => Ensures.assume fun ht => ?_
  refine Ensures.bind require_ensures fun _ => Ensures.assume fun h1 => ?_
  refine Ensures.bind require_ensures fun _ => Ensures.assume fun h2 => ?_
  refine Ensures.bind checkBuffers_ensures fun _ => Ensures.assume fun hl => ?_
  simp only [decide_eq_true_eq] at h1 h2
  obtain ⟨hd, rfl⟩ := ht
  have hpos : 0 < env.width ∧ 0 < env.height := by
    simp [Env.dimensionsLegal] at hd
    omega
  refine Ensures.bind (Ensures.collectFrom (good := fun _ _ => True) fun j _ hj => ?_) fun cs =>
    fun w hw => ?_
  · exact (gatherPixel_ensures (pre := Untouched env m) hl hpos.1 hpos.2 h1 fun _ h => h.within).post
      fun _ w hw => ⟨trivial, hw⟩
  · refine Ensures.bind (pixEncode_ensures (k := 0) hl (by rw [hw.1.1]; omega)) (fun _ => pure_keeps fun w hw => hw.1)
      w hw.2.zero

/-- Every command keeps what its start promises. -/
theorem command_keeps (i : Instr) : RunsKeeping i (decompresses i) := by
  cases i with
  | nop => exact nop_keeps
  | etc1Dec fmt => exact etc1Dec_keeps fmt
  | etc1Enc fmt => exact etc1Enc_keeps fmt
  | swzAddr swz => exact swzAddr_keeps swz
  | texDim swz pad => exact texDim_keeps swz pad
  | lz10Dec => exact lz10Dec_keeps
  | lz11Dec => exact lz11Dec_keeps
  | rleDec => exact rleDec_keeps
  | contDec => exact contDec_keeps
  | huff4Dec => exact huff4Dec_keeps
  | huff8Dec => exact huff8Dec_keeps
  | pixDec fmt => exact pixDec_keeps fmt
  | pixEnc fmt => exact pixEnc_keeps fmt
  | texDec fmt swz pad => exact texDec_keeps fmt swz pad
  | texEnc fmt swz pad => exact texEnc_keeps fmt swz pad

end Sys2Proof.Machine
end

