-- ==== Sys2Proof/Laws/PerInstr.lean ====
section
/-! SUPPORT. The families of statements that are made for every command: that each command's word is one of the words of
its row of the opcode table. -/
namespace Sys2Proof.Laws

/-- Mask and match of the command's row of spec/opcode_table.json. -/
def tableRow : Instr → Word × Word
  | .nop => (0xFFFFFFFF, 0x00)
  | .etc1Dec _ => (0xFFFFF0FF, 0x01)
  | .etc1Enc _ => (0xFFFFF0FF, 0x02)
  | .swzAddr _ => (0xFFFF0FFF, 0x08)
  | .texDim _ _ => (0xFFFE0FFF, 0x09)
  | .lz10Dec => (0xFFFFFFFF, 0x10)
  | .lz11Dec => (0xFFFFFFFF, 0x11)
  | .rleDec => (0xFFFFFFFF, 0x12)
  | .contDec => (0xFFFFFFFF, 0x13)
  | .huff4Dec => (0xFFFFFFFF, 0x14)
  | .huff8Dec => (0xFFFFFFFF, 0x15)
  | .pixDec _ => (0xFFFFF0FF, 0x20)
  | .pixEnc _ => (0xFFFFF0FF, 0x21)
  | .texDec _ _ _ => (0xFFFE00FF, 0x30)
  | .texEnc _ _ _ => (0xFFFE00FF, 0x31)

/-- The command's word has its row's fixed bits. -/
def TableRow.Statement (i : Instr) : Prop := encode i &&& (tableRow i).1 = (tableRow i).2

theorem TableRow.nop : TableRow.Statement .nop := by unfold TableRow.Statement; decide
theorem TableRow.etc1Dec (fmt : BitVec 4) : TableRow.Statement (.etc1Dec fmt) := by
  unfold TableRow.Statement; revert fmt; decide
theorem TableRow.etc1Enc (fmt : BitVec 4) : TableRow.Statement (.etc1Enc fmt) := by
  unfold TableRow.Statement; revert fmt; decide
theorem TableRow.swzAddr (swz : BitVec 4) : TableRow.Statement (.swzAddr swz) := by
  unfold TableRow.Statement; revert swz; decide
theorem TableRow.texDim (swz : BitVec 4) (pad : Bool) : TableRow.Statement (.texDim swz pad) := by
  unfold TableRow.Statement; revert swz pad; decide
theorem TableRow.lz10Dec : TableRow.Statement .lz10Dec := by unfold TableRow.Statement; decide
theorem TableRow.lz11Dec : TableRow.Statement .lz11Dec := by unfold TableRow.Statement; decide
theorem TableRow.rleDec : TableRow.Statement .rleDec := by unfold TableRow.Statement; decide
theorem TableRow.contDec : TableRow.Statement .contDec := by unfold TableRow.Statement; decide
theorem TableRow.huff4Dec : TableRow.Statement .huff4Dec := by unfold TableRow.Statement; decide
theorem TableRow.huff8Dec : TableRow.Statement .huff8Dec := by unfold TableRow.Statement; decide
theorem TableRow.pixDec (fmt : BitVec 4) : TableRow.Statement (.pixDec fmt) := by
  unfold TableRow.Statement; revert fmt; decide
theorem TableRow.pixEnc (fmt : BitVec 4) : TableRow.Statement (.pixEnc fmt) := by
  unfold TableRow.Statement; revert fmt; decide
theorem TableRow.texDec (fmt swz : BitVec 4) (pad : Bool) : TableRow.Statement (.texDec fmt swz pad) := by
  unfold TableRow.Statement
  show commandWord 0x30 fmt swz pad &&& 0xFFFE00FF = 0x30
  ext k hk
  simp only [commandWord, BitVec.getElem_and, BitVec.getElem_append]
  interval_cases k <;> simp
theorem TableRow.texEnc (fmt swz : BitVec 4) (pad : Bool) : TableRow.Statement (.texEnc fmt swz pad) := by
  unfold TableRow.Statement
  show commandWord 0x31 fmt swz pad &&& 0xFFFE00FF = 0x31
  ext k hk
  simp only [commandWord, BitVec.getElem_and, BitVec.getElem_append]
  interval_cases k <;> simp

end Sys2Proof.Laws
end

