-- ==== Sys2Proof/Laws/State.lean ====
section
/-! SUPPORT. Each field of State and of STATUS after each named update, so that no proof unfolds a record update. -/
namespace Sys2Proof.Machine

/-! ## STATUS -/

@[simp] theorem Status.start_busy (st : Status) : st.start.busy = true := rfl
@[simp] theorem Status.start_done (st : Status) : st.start.done = false := rfl
@[simp] theorem Status.start_error (st : Status) : st.start.error = false := rfl
@[simp] theorem Status.start_wbusy (st : Status) : st.start.wbusy = st.wbusy := rfl
@[simp] theorem Status.start_errCode (st : Status) : st.start.errCode = none := rfl

@[simp] theorem Status.finish_busy (st : Status) (e : Option Err) : (st.finish e).busy = false := rfl
@[simp] theorem Status.finish_done (st : Status) (e : Option Err) : (st.finish e).done = true := rfl
@[simp] theorem Status.finish_error (st : Status) (e : Option Err) : (st.finish e).error = e.isSome := rfl
@[simp] theorem Status.finish_wbusy (st : Status) (e : Option Err) : (st.finish e).wbusy = st.wbusy := rfl
@[simp] theorem Status.finish_errCode (st : Status) (e : Option Err) : (st.finish e).errCode = e := rfl

@[simp] theorem Status.acknowledge_busy (st : Status) (v : Word) : (st.acknowledge v).busy = st.busy := rfl
@[simp] theorem Status.acknowledge_done (st : Status) (v : Word) : (st.acknowledge v).done = (st.done && !v.getLsbD 1) := rfl
@[simp] theorem Status.acknowledge_error (st : Status) (v : Word) : (st.acknowledge v).error = (st.error && !v.getLsbD 2) := rfl
@[simp] theorem Status.acknowledge_wbusy (st : Status) (v : Word) : (st.acknowledge v).wbusy = (st.wbusy && !v.getLsbD 3) := rfl
@[simp] theorem Status.acknowledge_errCode (st : Status) (v : Word) : (st.acknowledge v).errCode = st.errCode := rfl

@[simp] theorem Status.lostWrite_busy (st : Status) : st.lostWrite.busy = st.busy := rfl
@[simp] theorem Status.lostWrite_done (st : Status) : st.lostWrite.done = st.done := rfl
@[simp] theorem Status.lostWrite_error (st : Status) : st.lostWrite.error = st.error := rfl
@[simp] theorem Status.lostWrite_wbusy (st : Status) : st.lostWrite.wbusy = true := rfl
@[simp] theorem Status.lostWrite_errCode (st : Status) : st.lostWrite.errCode = st.errCode := rfl

/-! ## State -/

@[simp] theorem State.endWithSuccess_ctrl (s : State) (m : Memory) (r0 r1 : Nat) : (s.endWithSuccess m r0 r1).ctrl
    = s.ctrl := rfl
@[simp] theorem State.endWithSuccess_status (s : State) (m : Memory) (r0 r1 : Nat) : (s.endWithSuccess m r0 r1).status
    = s.status.finish none := rfl
@[simp] theorem State.endWithSuccess_cmd (s : State) (m : Memory) (r0 r1 : Nat) : (s.endWithSuccess m r0 r1).cmd
    = s.cmd := rfl
@[simp] theorem State.endWithSuccess_srcAddr (s : State) (m : Memory) (r0 r1 : Nat) : (s.endWithSuccess m r0 r1).srcAddr
    = s.srcAddr := rfl
@[simp] theorem State.endWithSuccess_srcLen (s : State) (m : Memory) (r0 r1 : Nat) : (s.endWithSuccess m r0 r1).srcLen
    = s.srcLen := rfl
@[simp] theorem State.endWithSuccess_dstAddr (s : State) (m : Memory) (r0 r1 : Nat) : (s.endWithSuccess m r0 r1).dstAddr
    = s.dstAddr := rfl
@[simp] theorem State.endWithSuccess_dstLen (s : State) (m : Memory) (r0 r1 : Nat) : (s.endWithSuccess m r0 r1).dstLen
    = s.dstLen := rfl
@[simp] theorem State.endWithSuccess_param0 (s : State) (m : Memory) (r0 r1 : Nat) : (s.endWithSuccess m r0 r1).param0
    = s.param0 := rfl
@[simp] theorem State.endWithSuccess_param1 (s : State) (m : Memory) (r0 r1 : Nat) : (s.endWithSuccess m r0 r1).param1
    = s.param1 := rfl
@[simp] theorem State.endWithSuccess_result0 (s : State) (m : Memory) (r0 r1 : Nat) : (s.endWithSuccess m r0 r1).result0
    = BitVec.ofNat 32 r0 := rfl
@[simp] theorem State.endWithSuccess_result1 (s : State) (m : Memory) (r0 r1 : Nat) : (s.endWithSuccess m r0 r1).result1
    = BitVec.ofNat 32 r1 := rfl
@[simp] theorem State.endWithSuccess_errInfo (s : State) (m : Memory) (r0 r1 : Nat) : (s.endWithSuccess m r0 r1).errInfo
    = 0 := rfl
@[simp] theorem State.endWithSuccess_mem (s : State) (m : Memory) (r0 r1 : Nat) : (s.endWithSuccess m r0 r1).mem
    = m := rfl
@[simp] theorem State.endWithSuccess_platform (s : State) (m : Memory) (r0 r1 : Nat) : (s.endWithSuccess m r0 r1).platform
    = s.platform := rfl
@[simp] theorem State.endWithSuccess_agenda (s : State) (m : Memory) (r0 r1 : Nat) : (s.endWithSuccess m r0 r1).agenda
    = s.agenda := rfl
@[simp] theorem State.endWithSuccess_windows (s : State) (m : Memory) (r0 r1 : Nat) : (s.endWithSuccess m r0 r1).windows
    = s.windows := rfl
@[simp] theorem State.endWithSuccess_readData (s : State) (m : Memory) (r0 r1 : Nat) : (s.endWithSuccess m r0 r1).readData
    = s.readData := rfl
@[simp] theorem State.endWithSuccess_draws (s : State) (m : Memory) (r0 r1 : Nat) : (s.endWithSuccess m r0 r1).draws
    = s.draws := rfl

@[simp] theorem State.endWithError_ctrl (s : State) (m : Memory) (n : Nat) (r : Raise) : (s.endWithError m n r).ctrl
    = s.ctrl := rfl
@[simp] theorem State.endWithError_status (s : State) (m : Memory) (n : Nat) (r : Raise) : (s.endWithError m n r).status
    = s.status.finish (some r.err) := rfl
@[simp] theorem State.endWithError_cmd (s : State) (m : Memory) (n : Nat) (r : Raise) : (s.endWithError m n r).cmd
    = s.cmd := rfl
@[simp] theorem State.endWithError_srcAddr (s : State) (m : Memory) (n : Nat) (r : Raise) : (s.endWithError m n r).srcAddr
    = s.srcAddr := rfl
@[simp] theorem State.endWithError_srcLen (s : State) (m : Memory) (n : Nat) (r : Raise) : (s.endWithError m n r).srcLen
    = s.srcLen := rfl
@[simp] theorem State.endWithError_dstAddr (s : State) (m : Memory) (n : Nat) (r : Raise) : (s.endWithError m n r).dstAddr
    = s.dstAddr := rfl
@[simp] theorem State.endWithError_dstLen (s : State) (m : Memory) (n : Nat) (r : Raise) : (s.endWithError m n r).dstLen
    = s.dstLen := rfl
@[simp] theorem State.endWithError_param0 (s : State) (m : Memory) (n : Nat) (r : Raise) : (s.endWithError m n r).param0
    = s.param0 := rfl
@[simp] theorem State.endWithError_param1 (s : State) (m : Memory) (n : Nat) (r : Raise) : (s.endWithError m n r).param1
    = s.param1 := rfl
@[simp] theorem State.endWithError_result0 (s : State) (m : Memory) (n : Nat) (r : Raise) : (s.endWithError m n r).result0
    = BitVec.ofNat 32 n := rfl
@[simp] theorem State.endWithError_result1 (s : State) (m : Memory) (n : Nat) (r : Raise) : (s.endWithError m n r).result1
    = 0 := rfl
@[simp] theorem State.endWithError_errInfo (s : State) (m : Memory) (n : Nat) (r : Raise) : (s.endWithError m n r).errInfo
    = BitVec.ofNat 32 r.info := rfl
@[simp] theorem State.endWithError_mem (s : State) (m : Memory) (n : Nat) (r : Raise) : (s.endWithError m n r).mem
    = m := rfl
@[simp] theorem State.endWithError_platform (s : State) (m : Memory) (n : Nat) (r : Raise) : (s.endWithError m n r).platform
    = s.platform := rfl
@[simp] theorem State.endWithError_agenda (s : State) (m : Memory) (n : Nat) (r : Raise) : (s.endWithError m n r).agenda
    = s.agenda := rfl
@[simp] theorem State.endWithError_windows (s : State) (m : Memory) (n : Nat) (r : Raise) : (s.endWithError m n r).windows
    = s.windows := rfl
@[simp] theorem State.endWithError_readData (s : State) (m : Memory) (n : Nat) (r : Raise) : (s.endWithError m n r).readData
    = s.readData := rfl
@[simp] theorem State.endWithError_draws (s : State) (m : Memory) (n : Nat) (r : Raise) : (s.endWithError m n r).draws
    = s.draws := rfl

@[simp] theorem State.endWithBusFault_ctrl (s : State) (w : Work) (r : Raise) (m : Memory) : (s.endWithBusFault w r m).ctrl
    = s.ctrl := rfl
@[simp] theorem State.endWithBusFault_status (s : State) (w : Work) (r : Raise) (m : Memory) : (s.endWithBusFault w r m).status
    = s.status.finish (some r.err) := rfl
@[simp] theorem State.endWithBusFault_cmd (s : State) (w : Work) (r : Raise) (m : Memory) : (s.endWithBusFault w r m).cmd
    = s.cmd := rfl
@[simp] theorem State.endWithBusFault_srcAddr (s : State) (w : Work) (r : Raise) (m : Memory) : (s.endWithBusFault w r m).srcAddr
    = s.srcAddr := rfl
@[simp] theorem State.endWithBusFault_srcLen (s : State) (w : Work) (r : Raise) (m : Memory) : (s.endWithBusFault w r m).srcLen
    = s.srcLen := rfl
@[simp] theorem State.endWithBusFault_dstAddr (s : State) (w : Work) (r : Raise) (m : Memory) : (s.endWithBusFault w r m).dstAddr
    = s.dstAddr := rfl
@[simp] theorem State.endWithBusFault_dstLen (s : State) (w : Work) (r : Raise) (m : Memory) : (s.endWithBusFault w r m).dstLen
    = s.dstLen := rfl
@[simp] theorem State.endWithBusFault_param0 (s : State) (w : Work) (r : Raise) (m : Memory) : (s.endWithBusFault w r m).param0
    = s.param0 := rfl
@[simp] theorem State.endWithBusFault_param1 (s : State) (w : Work) (r : Raise) (m : Memory) : (s.endWithBusFault w r m).param1
    = s.param1 := rfl
@[simp] theorem State.endWithBusFault_result0 (s : State) (w : Work) (r : Raise) (m : Memory) : (s.endWithBusFault w r m).result0
    = BitVec.ofNat 32 w.stored := rfl
@[simp] theorem State.endWithBusFault_result1 (s : State) (w : Work) (r : Raise) (m : Memory) : (s.endWithBusFault w r m).result1
    = 0 := rfl
@[simp] theorem State.endWithBusFault_errInfo (s : State) (w : Work) (r : Raise) (m : Memory) : (s.endWithBusFault w r m).errInfo
    = BitVec.ofNat 32 r.info := rfl
@[simp] theorem State.endWithBusFault_mem (s : State) (w : Work) (r : Raise) (m : Memory) : (s.endWithBusFault w r m).mem
    = Memory.mix (Config.freeChoice s.draws) m s.dstLen.toNat s.dstAddr.toNat w.mem := rfl
@[simp] theorem State.endWithBusFault_platform (s : State) (w : Work) (r : Raise) (m : Memory) : (s.endWithBusFault w r m).platform
    = s.platform := rfl
@[simp] theorem State.endWithBusFault_agenda (s : State) (w : Work) (r : Raise) (m : Memory) : (s.endWithBusFault w r m).agenda
    = s.agenda := rfl
@[simp] theorem State.endWithBusFault_windows (s : State) (w : Work) (r : Raise) (m : Memory) : (s.endWithBusFault w r m).windows
    = s.windows := rfl
@[simp] theorem State.endWithBusFault_readData (s : State) (w : Work) (r : Raise) (m : Memory) : (s.endWithBusFault w r m).readData
    = s.readData := rfl
@[simp] theorem State.endWithBusFault_draws (s : State) (w : Work) (r : Raise) (m : Memory) : (s.endWithBusFault w r m).draws
    = s.draws + 1 := rfl

@[simp] theorem State.acknowledge_ctrl (s : State) (v : Word) : (s.acknowledge v).ctrl = s.ctrl := rfl
@[simp] theorem State.acknowledge_status (s : State) (v : Word) : (s.acknowledge v).status
    = s.status.acknowledge v := rfl
@[simp] theorem State.acknowledge_cmd (s : State) (v : Word) : (s.acknowledge v).cmd = s.cmd := rfl
@[simp] theorem State.acknowledge_srcAddr (s : State) (v : Word) : (s.acknowledge v).srcAddr = s.srcAddr := rfl
@[simp] theorem State.acknowledge_srcLen (s : State) (v : Word) : (s.acknowledge v).srcLen = s.srcLen := rfl
@[simp] theorem State.acknowledge_dstAddr (s : State) (v : Word) : (s.acknowledge v).dstAddr = s.dstAddr := rfl
@[simp] theorem State.acknowledge_dstLen (s : State) (v : Word) : (s.acknowledge v).dstLen = s.dstLen := rfl
@[simp] theorem State.acknowledge_param0 (s : State) (v : Word) : (s.acknowledge v).param0 = s.param0 := rfl
@[simp] theorem State.acknowledge_param1 (s : State) (v : Word) : (s.acknowledge v).param1 = s.param1 := rfl
@[simp] theorem State.acknowledge_result0 (s : State) (v : Word) : (s.acknowledge v).result0 = s.result0 := rfl
@[simp] theorem State.acknowledge_result1 (s : State) (v : Word) : (s.acknowledge v).result1 = s.result1 := rfl
@[simp] theorem State.acknowledge_errInfo (s : State) (v : Word) : (s.acknowledge v).errInfo = s.errInfo := rfl
@[simp] theorem State.acknowledge_mem (s : State) (v : Word) : (s.acknowledge v).mem = s.mem := rfl
@[simp] theorem State.acknowledge_platform (s : State) (v : Word) : (s.acknowledge v).platform = s.platform := rfl
@[simp] theorem State.acknowledge_agenda (s : State) (v : Word) : (s.acknowledge v).agenda = s.agenda := rfl
@[simp] theorem State.acknowledge_windows (s : State) (v : Word) : (s.acknowledge v).windows = s.windows := rfl
@[simp] theorem State.acknowledge_readData (s : State) (v : Word) : (s.acknowledge v).readData = s.readData := rfl
@[simp] theorem State.acknowledge_draws (s : State) (v : Word) : (s.acknowledge v).draws = s.draws := rfl

@[simp] theorem State.drawn_ctrl (s : State) : s.drawn.ctrl = s.ctrl := rfl
@[simp] theorem State.drawn_status (s : State) : s.drawn.status = s.status := rfl
@[simp] theorem State.drawn_cmd (s : State) : s.drawn.cmd = s.cmd := rfl
@[simp] theorem State.drawn_srcAddr (s : State) : s.drawn.srcAddr = s.srcAddr := rfl
@[simp] theorem State.drawn_srcLen (s : State) : s.drawn.srcLen = s.srcLen := rfl
@[simp] theorem State.drawn_dstAddr (s : State) : s.drawn.dstAddr = s.dstAddr := rfl
@[simp] theorem State.drawn_dstLen (s : State) : s.drawn.dstLen = s.dstLen := rfl
@[simp] theorem State.drawn_param0 (s : State) : s.drawn.param0 = s.param0 := rfl
@[simp] theorem State.drawn_param1 (s : State) : s.drawn.param1 = s.param1 := rfl
@[simp] theorem State.drawn_result0 (s : State) : s.drawn.result0 = s.result0 := rfl
@[simp] theorem State.drawn_result1 (s : State) : s.drawn.result1 = s.result1 := rfl
@[simp] theorem State.drawn_errInfo (s : State) : s.drawn.errInfo = s.errInfo := rfl
@[simp] theorem State.drawn_mem (s : State) : s.drawn.mem = s.mem := rfl
@[simp] theorem State.drawn_platform (s : State) : s.drawn.platform = s.platform := rfl
@[simp] theorem State.drawn_agenda (s : State) : s.drawn.agenda = s.agenda := rfl
@[simp] theorem State.drawn_windows (s : State) : s.drawn.windows = s.windows := rfl
@[simp] theorem State.drawn_readData (s : State) : s.drawn.readData = s.readData := rfl
@[simp] theorem State.drawn_draws (s : State) : s.drawn.draws = s.draws + 1 := rfl

@[simp] theorem State.spoilBytes_ctrl (s : State) (b : Buffer) : (s.spoilBytes b).ctrl = s.ctrl := rfl
@[simp] theorem State.spoilBytes_status (s : State) (b : Buffer) : (s.spoilBytes b).status = s.status := rfl
@[simp] theorem State.spoilBytes_cmd (s : State) (b : Buffer) : (s.spoilBytes b).cmd = s.cmd := rfl
@[simp] theorem State.spoilBytes_srcAddr (s : State) (b : Buffer) : (s.spoilBytes b).srcAddr = s.srcAddr := rfl
@[simp] theorem State.spoilBytes_srcLen (s : State) (b : Buffer) : (s.spoilBytes b).srcLen = s.srcLen := rfl
@[simp] theorem State.spoilBytes_dstAddr (s : State) (b : Buffer) : (s.spoilBytes b).dstAddr = s.dstAddr := rfl
@[simp] theorem State.spoilBytes_dstLen (s : State) (b : Buffer) : (s.spoilBytes b).dstLen = s.dstLen := rfl
@[simp] theorem State.spoilBytes_param0 (s : State) (b : Buffer) : (s.spoilBytes b).param0 = s.param0 := rfl
@[simp] theorem State.spoilBytes_param1 (s : State) (b : Buffer) : (s.spoilBytes b).param1 = s.param1 := rfl
@[simp] theorem State.spoilBytes_result0 (s : State) (b : Buffer) : (s.spoilBytes b).result0 = s.result0 := rfl
@[simp] theorem State.spoilBytes_result1 (s : State) (b : Buffer) : (s.spoilBytes b).result1 = s.result1 := rfl
@[simp] theorem State.spoilBytes_errInfo (s : State) (b : Buffer) : (s.spoilBytes b).errInfo = s.errInfo := rfl
@[simp] theorem State.spoilBytes_mem (s : State) (b : Buffer) : (s.spoilBytes b).mem = s.freeBytes b := rfl
@[simp] theorem State.spoilBytes_platform (s : State) (b : Buffer) : (s.spoilBytes b).platform = s.platform := rfl
@[simp] theorem State.spoilBytes_agenda (s : State) (b : Buffer) : (s.spoilBytes b).agenda = s.agenda := rfl
@[simp] theorem State.spoilBytes_windows (s : State) (b : Buffer) : (s.spoilBytes b).windows = s.windows := rfl
@[simp] theorem State.spoilBytes_readData (s : State) (b : Buffer) : (s.spoilBytes b).readData = s.readData := rfl
@[simp] theorem State.spoilBytes_draws (s : State) (b : Buffer) : (s.spoilBytes b).draws = s.draws + 1 := rfl

@[simp] theorem State.spoilResults_ctrl (s : State) : s.spoilResults.ctrl = s.ctrl := rfl
@[simp] theorem State.spoilResults_status (s : State) : s.spoilResults.status = s.status := rfl
@[simp] theorem State.spoilResults_cmd (s : State) : s.spoilResults.cmd = s.cmd := rfl
@[simp] theorem State.spoilResults_srcAddr (s : State) : s.spoilResults.srcAddr = s.srcAddr := rfl
@[simp] theorem State.spoilResults_srcLen (s : State) : s.spoilResults.srcLen = s.srcLen := rfl
@[simp] theorem State.spoilResults_dstAddr (s : State) : s.spoilResults.dstAddr = s.dstAddr := rfl
@[simp] theorem State.spoilResults_dstLen (s : State) : s.spoilResults.dstLen = s.dstLen := rfl
@[simp] theorem State.spoilResults_param0 (s : State) : s.spoilResults.param0 = s.param0 := rfl
@[simp] theorem State.spoilResults_param1 (s : State) : s.spoilResults.param1 = s.param1 := rfl
@[simp] theorem State.spoilResults_result0 (s : State) : s.spoilResults.result0 = Config.freeWord s.draws 0 := rfl
@[simp] theorem State.spoilResults_result1 (s : State) : s.spoilResults.result1 = Config.freeWord s.draws 1 := rfl
@[simp] theorem State.spoilResults_errInfo (s : State) : s.spoilResults.errInfo = Config.freeWord s.draws 2 := rfl
@[simp] theorem State.spoilResults_mem (s : State) : s.spoilResults.mem = s.mem := rfl
@[simp] theorem State.spoilResults_platform (s : State) : s.spoilResults.platform = s.platform := rfl
@[simp] theorem State.spoilResults_agenda (s : State) : s.spoilResults.agenda = s.agenda := rfl
@[simp] theorem State.spoilResults_windows (s : State) : s.spoilResults.windows = s.windows := rfl
@[simp] theorem State.spoilResults_readData (s : State) : s.spoilResults.readData = s.readData := rfl
@[simp] theorem State.spoilResults_draws (s : State) : s.spoilResults.draws = s.draws + 1 := rfl

@[simp] theorem State.spoilCode_ctrl (s : State) : s.spoilCode.ctrl = s.ctrl := rfl
@[simp] theorem State.spoilCode_cmd (s : State) : s.spoilCode.cmd = s.cmd := rfl
@[simp] theorem State.spoilCode_srcAddr (s : State) : s.spoilCode.srcAddr = s.srcAddr := rfl
@[simp] theorem State.spoilCode_srcLen (s : State) : s.spoilCode.srcLen = s.srcLen := rfl
@[simp] theorem State.spoilCode_dstAddr (s : State) : s.spoilCode.dstAddr = s.dstAddr := rfl
@[simp] theorem State.spoilCode_dstLen (s : State) : s.spoilCode.dstLen = s.dstLen := rfl
@[simp] theorem State.spoilCode_param0 (s : State) : s.spoilCode.param0 = s.param0 := rfl
@[simp] theorem State.spoilCode_param1 (s : State) : s.spoilCode.param1 = s.param1 := rfl
@[simp] theorem State.spoilCode_result0 (s : State) : s.spoilCode.result0 = s.result0 := rfl
@[simp] theorem State.spoilCode_result1 (s : State) : s.spoilCode.result1 = s.result1 := rfl
@[simp] theorem State.spoilCode_errInfo (s : State) : s.spoilCode.errInfo = s.errInfo := rfl
@[simp] theorem State.spoilCode_mem (s : State) : s.spoilCode.mem = s.mem := rfl
@[simp] theorem State.spoilCode_platform (s : State) : s.spoilCode.platform = s.platform := rfl
@[simp] theorem State.spoilCode_agenda (s : State) : s.spoilCode.agenda = s.agenda := rfl
@[simp] theorem State.spoilCode_windows (s : State) : s.spoilCode.windows = s.windows := rfl
@[simp] theorem State.spoilCode_readData (s : State) : s.spoilCode.readData = s.readData := rfl
@[simp] theorem State.spoilCode_draws (s : State) : s.spoilCode.draws = s.draws + 1 := rfl

@[simp] theorem State.startCommand_ctrl (s : State) (w : Word) : (s.startCommand w).ctrl = s.ctrl := rfl
@[simp] theorem State.startCommand_status (s : State) (w : Word) : (s.startCommand w).status = s.status.start := rfl
@[simp] theorem State.startCommand_cmd (s : State) (w : Word) : (s.startCommand w).cmd = w := rfl
@[simp] theorem State.startCommand_srcAddr (s : State) (w : Word) : (s.startCommand w).srcAddr = s.srcAddr := rfl
@[simp] theorem State.startCommand_srcLen (s : State) (w : Word) : (s.startCommand w).srcLen = s.srcLen := rfl
@[simp] theorem State.startCommand_dstAddr (s : State) (w : Word) : (s.startCommand w).dstAddr = s.dstAddr := rfl
@[simp] theorem State.startCommand_dstLen (s : State) (w : Word) : (s.startCommand w).dstLen = s.dstLen := rfl
@[simp] theorem State.startCommand_param0 (s : State) (w : Word) : (s.startCommand w).param0 = s.param0 := rfl
@[simp] theorem State.startCommand_param1 (s : State) (w : Word) : (s.startCommand w).param1 = s.param1 := rfl
@[simp] theorem State.startCommand_result0 (s : State) (w : Word) : (s.startCommand w).result0 = 0 := rfl
@[simp] theorem State.startCommand_result1 (s : State) (w : Word) : (s.startCommand w).result1 = 0 := rfl
@[simp] theorem State.startCommand_errInfo (s : State) (w : Word) : (s.startCommand w).errInfo = 0 := rfl
@[simp] theorem State.startCommand_mem (s : State) (w : Word) : (s.startCommand w).mem = s.mem := rfl
@[simp] theorem State.startCommand_platform (s : State) (w : Word) : (s.startCommand w).platform = s.platform := rfl
@[simp] theorem State.startCommand_agenda (s : State) (w : Word) : (s.startCommand w).agenda = s.agenda := rfl
@[simp] theorem State.startCommand_windows (s : State) (w : Word) : (s.startCommand w).windows
    = s.windowFor w :: s.windows := rfl
@[simp] theorem State.startCommand_readData (s : State) (w : Word) : (s.startCommand w).readData = s.readData := rfl
@[simp] theorem State.startCommand_draws (s : State) (w : Word) : (s.startCommand w).draws = s.draws := rfl

@[simp] theorem State.endIllegal_ctrl (s : State) : s.endIllegal.ctrl = s.ctrl := rfl
@[simp] theorem State.endIllegal_status (s : State) : s.endIllegal.status
    = s.status.finish (some .illegalCommand) := rfl
@[simp] theorem State.endIllegal_cmd (s : State) : s.endIllegal.cmd = s.cmd := rfl
@[simp] theorem State.endIllegal_srcAddr (s : State) : s.endIllegal.srcAddr = s.srcAddr := rfl
@[simp] theorem State.endIllegal_srcLen (s : State) : s.endIllegal.srcLen = s.srcLen := rfl
@[simp] theorem State.endIllegal_dstAddr (s : State) : s.endIllegal.dstAddr = s.dstAddr := rfl
@[simp] theorem State.endIllegal_dstLen (s : State) : s.endIllegal.dstLen = s.dstLen := rfl
@[simp] theorem State.endIllegal_param0 (s : State) : s.endIllegal.param0 = s.param0 := rfl
@[simp] theorem State.endIllegal_param1 (s : State) : s.endIllegal.param1 = s.param1 := rfl
@[simp] theorem State.endIllegal_result0 (s : State) : s.endIllegal.result0 = 0 := rfl
@[simp] theorem State.endIllegal_result1 (s : State) : s.endIllegal.result1 = 0 := rfl
@[simp] theorem State.endIllegal_errInfo (s : State) : s.endIllegal.errInfo = 0 := rfl
@[simp] theorem State.endIllegal_mem (s : State) : s.endIllegal.mem = s.mem := rfl
@[simp] theorem State.endIllegal_platform (s : State) : s.endIllegal.platform = s.platform := rfl
@[simp] theorem State.endIllegal_agenda (s : State) : s.endIllegal.agenda = s.agenda := rfl
@[simp] theorem State.endIllegal_windows (s : State) : s.endIllegal.windows = s.windows := rfl
@[simp] theorem State.endIllegal_readData (s : State) : s.endIllegal.readData = s.readData := rfl
@[simp] theorem State.endIllegal_draws (s : State) : s.endIllegal.draws = s.draws := rfl

@[simp] theorem State.resetRegisters_ctrl (s : State) : s.resetRegisters.ctrl = State.reset.ctrl := rfl
@[simp] theorem State.resetRegisters_status (s : State) : s.resetRegisters.status = State.reset.status := rfl
@[simp] theorem State.resetRegisters_cmd (s : State) : s.resetRegisters.cmd = 0 := rfl
@[simp] theorem State.resetRegisters_srcAddr (s : State) : s.resetRegisters.srcAddr = 0 := rfl
@[simp] theorem State.resetRegisters_srcLen (s : State) : s.resetRegisters.srcLen = 0 := rfl
@[simp] theorem State.resetRegisters_dstAddr (s : State) : s.resetRegisters.dstAddr = 0 := rfl
@[simp] theorem State.resetRegisters_dstLen (s : State) : s.resetRegisters.dstLen = 0 := rfl
@[simp] theorem State.resetRegisters_param0 (s : State) : s.resetRegisters.param0 = 0 := rfl
@[simp] theorem State.resetRegisters_param1 (s : State) : s.resetRegisters.param1 = 0 := rfl
@[simp] theorem State.resetRegisters_result0 (s : State) : s.resetRegisters.result0 = 0 := rfl
@[simp] theorem State.resetRegisters_result1 (s : State) : s.resetRegisters.result1 = 0 := rfl
@[simp] theorem State.resetRegisters_errInfo (s : State) : s.resetRegisters.errInfo = 0 := rfl
@[simp] theorem State.resetRegisters_mem (s : State) : s.resetRegisters.mem = s.mem := rfl
@[simp] theorem State.resetRegisters_platform (s : State) : s.resetRegisters.platform = s.platform := rfl
@[simp] theorem State.resetRegisters_agenda (s : State) : s.resetRegisters.agenda = s.agenda := rfl
@[simp] theorem State.resetRegisters_windows (s : State) : s.resetRegisters.windows = [] := rfl
@[simp] theorem State.resetRegisters_readData (s : State) : s.resetRegisters.readData = s.readData := rfl
@[simp] theorem State.resetRegisters_draws (s : State) : s.resetRegisters.draws = s.draws := rfl

@[simp] theorem State.closeWindows_ctrl (s : State) : s.closeWindows.ctrl = s.ctrl := rfl
@[simp] theorem State.closeWindows_status (s : State) : s.closeWindows.status = s.status := rfl
@[simp] theorem State.closeWindows_cmd (s : State) : s.closeWindows.cmd = s.cmd := rfl
@[simp] theorem State.closeWindows_srcAddr (s : State) : s.closeWindows.srcAddr = s.srcAddr := rfl
@[simp] theorem State.closeWindows_srcLen (s : State) : s.closeWindows.srcLen = s.srcLen := rfl
@[simp] theorem State.closeWindows_dstAddr (s : State) : s.closeWindows.dstAddr = s.dstAddr := rfl
@[simp] theorem State.closeWindows_dstLen (s : State) : s.closeWindows.dstLen = s.dstLen := rfl
@[simp] theorem State.closeWindows_param0 (s : State) : s.closeWindows.param0 = s.param0 := rfl
@[simp] theorem State.closeWindows_param1 (s : State) : s.closeWindows.param1 = s.param1 := rfl
@[simp] theorem State.closeWindows_result0 (s : State) : s.closeWindows.result0 = s.result0 := rfl
@[simp] theorem State.closeWindows_result1 (s : State) : s.closeWindows.result1 = s.result1 := rfl
@[simp] theorem State.closeWindows_errInfo (s : State) : s.closeWindows.errInfo = s.errInfo := rfl
@[simp] theorem State.closeWindows_mem (s : State) : s.closeWindows.mem = s.mem := rfl
@[simp] theorem State.closeWindows_platform (s : State) : s.closeWindows.platform = s.platform := rfl
@[simp] theorem State.closeWindows_agenda (s : State) : s.closeWindows.agenda = s.agenda := rfl
@[simp] theorem State.closeWindows_windows (s : State) : s.closeWindows.windows = [] := rfl
@[simp] theorem State.closeWindows_readData (s : State) : s.closeWindows.readData = s.readData := rfl
@[simp] theorem State.closeWindows_draws (s : State) : s.closeWindows.draws = s.draws := rfl

@[simp] theorem State.spoilCode_busy (s : State) : s.spoilCode.status.busy = s.status.busy := rfl
@[simp] theorem State.spoilCode_done (s : State) : s.spoilCode.status.done = s.status.done := rfl
@[simp] theorem State.spoilCode_wbusy (s : State) : s.spoilCode.status.wbusy = s.status.wbusy := rfl
@[simp] theorem State.spoilCode_error (s : State) :
    s.spoilCode.status.error = s.spoilCode.status.errCode.isSome := rfl

/-! ## What a field of State decides -/

theorem State.env_congr {s t : State} (h1 : t.srcAddr = s.srcAddr) (h2 : t.srcLen = s.srcLen)
    (h3 : t.dstAddr = s.dstAddr) (h4 : t.dstLen = s.dstLen) (h5 : t.param0 = s.param0) (h6 : t.param1 = s.param1)
    (h7 : t.platform = s.platform) : t.env = s.env := by
  simp [State.env, h1, h2, h3, h4, h5, h6, h7]

theorem State.windowFor_congr {s t : State} (h : t.env = s.env) (w : Word) : t.windowFor w = s.windowFor w := by
  simp [State.windowFor, h]


end Sys2Proof.Machine
end

