-- ==== Sys2Proof/Laws/Settle.lean ====
section
/-! SUPPORT. What is unspecified at the end of a command and after a touch of its buffers, said once:
`State.settled_cases` names the three ways a command can end, `State.touch_cases` what a touch can do, and the lemmas
after each say what none of them changes, so that no proof unfolds `State.spoil` or `State.touch`. -/
namespace Sys2Proof.Machine

/-! ## Free bytes -/

/-- A byte outside the buffer is not freed. -/
theorem State.read_freeBytes_outside (s : State) {b : Buffer} {a : Nat} (h : b.has a = false) :
    (s.freeBytes b).read a = s.mem.read a := by
  have h' : ¬ (b.addr ≤ a ∧ a < b.addr + b.len) := by
    rw [← Buffer.has_iff, h]
    exact Bool.false_ne_true
  rw [State.freeBytes, Memory.read_fill, if_neg h']

/-- Free bytes keep the memory's canonical form. -/
theorem State.wf_freeBytes {s : State} (b : Buffer) (h : s.mem.wf = true) : (s.freeBytes b).wf = true :=
  Memory.wf_fill _ _ _ h

/-- Free bytes are listed only where memory is. -/
theorem State.placed_freeBytes {s : State} (b : Buffer) (h : s.memoryPlaced) :
    ∀ c ∈ s.freeBytes b, s.platform.isMemory c.1 = true := by
  refine Memory.placed_fill (p := fun a => s.platform.isMemory a = true) _ _ _ h fun a => ?_
  by_cases hm : s.platform.isMemory a = true
  · exact .inl hm
  · rw [if_neg hm]
    exact .inr ((Memory.placed_of_read (p := fun a => s.platform.isMemory a = true) h a).resolve_left hm)

/-- The first bytes of a buffer are its bytes. -/
theorem Buffer.first_has {b : Buffer} {n a : Nat} : (b.first n).has a = true ↔ b.has a = true ∧ a < b.addr + n := by
  simp only [Buffer.has_iff, Buffer.first]
  omega

theorem Buffer.first_has_of_not {b : Buffer} (n : Nat) {a : Nat} (h : b.has a = false) : (b.first n).has a = false := by
  rw [Bool.eq_false_iff] at h ⊢
  exact fun hf => h (Buffer.first_has.mp hf).1

/-! ## The ends -/

/-- A settled command was disturbed, or ran on a device, or ends as `exec` says. -/
theorem State.settled_cases (s : State) (i : Instr) (t : State) :
    (s.disturbed i = true ∧ s.settled i t = t.spoil s.env.output)
      ∨ (s.disturbed i = false ∧ s.runsOnDevice i = true ∧ s.settled i t = s.endOnDevice i t)
      ∨ (s.disturbed i = false ∧ s.runsOnDevice i = false ∧ s.settled i t = t) := by
  unfold State.settled
  cases s.disturbed i <;> cases s.runsOnDevice i <;> simp

/-- On a device nothing but the first bytes of the output buffer, as many as the command writes, changes in memory. -/
theorem State.endOnDevice_read (s : State) (i : Instr) (t : State) {a : Nat}
    (h : (s.env.output.first (s.deviceOutput i)).has a = false) : (s.endOnDevice i t).mem.read a = s.mem.read a :=
  State.read_freeBytes_outside ({ t with mem := s.mem } : State) h

/-- Spoiled results leave every register but those of the end. -/
theorem State.SameBesidesEnd.spoil {s t : State} (h : s.SameBesidesEnd t) (b : Buffer) : s.SameBesidesEnd (t.spoil b) :=
  ⟨h.ctrl, h.cmd, h.srcAddr, h.srcLen, h.dstAddr, h.dstLen, h.param0, h.param1, h.platform, h.agenda, h.windows,
    h.readData⟩

/-- Settling leaves every register but those of the end. -/
theorem State.SameBesidesEnd.settled {s t : State} (h : s.SameBesidesEnd t) (i : Instr) :
    s.SameBesidesEnd (s.settled i t) := by
  rcases s.settled_cases i t with ⟨-, he⟩ | ⟨-, -, he⟩ | ⟨-, -, he⟩ <;> rw [he]
  · exact h.spoil _
  · exact State.SameBesidesEnd.spoil (t := { t with mem := s.mem })
      ⟨h.ctrl, h.cmd, h.srcAddr, h.srcLen, h.dstAddr, h.dstLen, h.param0, h.param1, h.platform, h.agenda, h.windows,
        h.readData⟩ _
  · exact h

/-- Settling touches no byte outside the output buffer that the command left alone. -/
theorem State.settled_read_outside {s t : State} (i : Instr) {a : Nat} (ha : s.env.output.has a = false)
    (h : t.mem.read a = s.mem.read a) : (s.settled i t).mem.read a = s.mem.read a := by
  rcases s.settled_cases i t with ⟨-, he⟩ | ⟨-, -, he⟩ | ⟨-, -, he⟩ <;> rw [he]
  · exact (State.read_freeBytes_outside t ha).trans h
  · exact s.endOnDevice_read i t (Buffer.first_has_of_not _ ha)
  · exact h

/-- Settling keeps the end's BUSY, DONE and WBUSY, and ERROR goes with ERR_CODE. -/
theorem State.settled_status {s t : State} (i : Instr) (hd : t.status.done = true)
    (he : t.status.error = t.status.errCode.isSome) :
    (s.settled i t).status.busy = t.status.busy ∧ (s.settled i t).status.done = true
      ∧ (s.settled i t).status.wbusy = t.status.wbusy
      ∧ (s.settled i t).status.error = (s.settled i t).status.errCode.isSome := by
  rcases s.settled_cases i t with ⟨-, h⟩ | ⟨-, -, h⟩ | ⟨-, -, h⟩ <;> rw [h]
  · exact ⟨rfl, hd, rfl, rfl⟩
  · exact ⟨rfl, hd, rfl, rfl⟩
  · exact ⟨rfl, hd, rfl, he⟩

/-! ## Touched buffers -/

/-- Spoiling the buffers of ended commands changes nothing but memory and the count of draws. -/
theorem State.spoilEnded_same (d : Direction) (a : Nat) (ws : List Window) (s : State) :
    ∃ m n, s.spoilEnded d a ws = { s with mem := m, draws := n } := by
  unfold State.spoilEnded
  generalize ws.filter _ = l
  induction l generalizing s with
  | nil => exact ⟨_, _, rfl⟩
  | cons w l ih =>
    obtain ⟨m, n, h⟩ := ih (s.spoilBytes w.output)
    exact ⟨m, n, by rw [List.foldl_cons, h]; rfl⟩

/-- It changes no byte outside those buffers. -/
theorem State.read_spoilEnded (d : Direction) (a : Nat) (ws : List Window) (s : State) {b : Nat}
    (h : ∀ w ∈ ws, w.output.has b = false) : (s.spoilEnded d a ws).mem.read b = s.mem.read b := by
  have hl : ∀ w ∈ ws.filter (fun w => w.brokenBy d a), w.output.has b = false := fun w hw =>
    h w (List.mem_filter.mp hw).1
  unfold State.spoilEnded
  generalize ws.filter _ = l at hl
  induction l generalizing s with
  | nil => rfl
  | cons w l ih =>
    rw [List.foldl_cons, ih _ fun v hv => hl v (List.mem_cons_of_mem _ hv)]
    exact State.read_freeBytes_outside s (hl w List.mem_cons_self)

/-- It does nothing where no window is broken. -/
theorem State.spoilEnded_unbroken (d : Direction) (a : Nat) {ws : List Window} (s : State)
    (h : ∀ w ∈ ws, w.brokenBy d a = false) : s.spoilEnded d a ws = s := by
  have he : ws.filter (fun w => w.brokenBy d a) = [] := List.filter_eq_nil_iff.mpr fun w hw => by simp [h w hw]
  rw [State.spoilEnded, he, List.foldl_nil]

/-- A touch meets no window; or it marks the running command's; or the latest command has ended, and loses its results
if its window is broken. The ended commands whose windows are broken lose their output bytes. -/
theorem State.touch_cases (s : State) (d : Direction) (a : Nat) :
    (s.windows = [] ∧ s.touch d a = s)
      ∨ ∃ w ws, s.windows = w :: ws ∧
          ((s.status.busy = true
              ∧ s.touch d a = ({ s with windows := w.touched d a :: ws } : State).spoilEnded d a ws)
            ∨ (s.status.busy = false ∧ w.brokenBy d a = true
              ∧ s.touch d a = (s.spoilEnded d a (w :: ws)).spoilResults)
            ∨ (s.status.busy = false ∧ w.brokenBy d a = false ∧ s.touch d a = s.spoilEnded d a ws)) := by
  unfold State.touch
  split
  · exact .inl ⟨‹_›, rfl⟩
  · next w ws hw =>
    refine .inr ⟨w, ws, hw, ?_⟩
    cases s.status.busy <;> cases w.brokenBy d a <;> simp

/-- No touch changes STATUS (10_state.md R23). -/
@[simp] theorem State.touch_status (s : State) (d : Direction) (a : Nat) : (s.touch d a).status = s.status := by
  have key := fun (u : State) (ws : List Window) => State.spoilEnded_same d a ws u
  rcases s.touch_cases d a with ⟨-, h⟩ | ⟨w, ws, -, ⟨-, h⟩ | ⟨-, -, h⟩ | ⟨-, -, h⟩⟩
  · rw [h]
  · obtain ⟨m, n, e⟩ := key { s with windows := w.touched d a :: ws } ws
    rw [h, e]
  · obtain ⟨m, n, e⟩ := key s (w :: ws)
    rw [h, e]
    rfl
  · obtain ⟨m, n, e⟩ := key s ws
    rw [h, e]

/-- No touch changes what the host has read. -/
@[simp] theorem State.touch_readData (s : State) (d : Direction) (a : Nat) : (s.touch d a).readData = s.readData := by
  have key := fun (u : State) (ws : List Window) => State.spoilEnded_same d a ws u
  rcases s.touch_cases d a with ⟨-, h⟩ | ⟨w, ws, -, ⟨-, h⟩ | ⟨-, -, h⟩ | ⟨-, -, h⟩⟩
  · rw [h]
  · obtain ⟨m, n, e⟩ := key { s with windows := w.touched d a :: ws } ws
    rw [h, e]
  · obtain ⟨m, n, e⟩ := key s (w :: ws)
    rw [h, e]
    rfl
  · obtain ⟨m, n, e⟩ := key s ws
    rw [h, e]

/-- A touch changes no byte outside the recorded output buffers. -/
theorem State.read_touch (s : State) (d : Direction) (a : Nat) {b : Nat}
    (hb : ∀ w ∈ s.windows, w.output.has b = false) : (s.touch d a).mem.read b = s.mem.read b := by
  rcases s.touch_cases d a with ⟨-, h⟩ | ⟨w, ws, hw, hc⟩
  · rw [h]
  · rw [hw] at hb
    have ht : ∀ v ∈ ws, v.output.has b = false := fun v hv => hb v (List.mem_cons_of_mem _ hv)
    rcases hc with ⟨-, h⟩ | ⟨-, -, h⟩ | ⟨-, -, h⟩ <;> rw [h]
    · exact State.read_spoilEnded d a ws _ ht
    · exact State.read_spoilEnded d a (w :: ws) s hb
    · exact State.read_spoilEnded d a ws s ht

/-- A touch that breaks no window does nothing. -/
theorem State.touch_unbroken (s : State) (d : Direction) (a : Nat)
    (hb : ∀ w ∈ s.windows, w.brokenBy d a = false) : s.touch d a = s := by
  rcases s.touch_cases d a with ⟨-, h⟩ | ⟨w, ws, hw, hc⟩
  · exact h
  · rw [hw] at hb
    have ht : ∀ v ∈ ws, v.brokenBy d a = false := fun v hv => hb v (List.mem_cons_of_mem _ hv)
    have hm : w.touched d a = w := by simp [Window.touched, hb w List.mem_cons_self]
    rcases hc with ⟨-, h⟩ | ⟨-, h1, -⟩ | ⟨-, -, h⟩
    · rw [h, State.spoilEnded_unbroken d a _ ht, hm, ← hw]
    · rw [hb w List.mem_cons_self] at h1
      cases h1
    · rw [h, State.spoilEnded_unbroken d a _ ht]

end Sys2Proof.Machine
end

