-- ==== Sys2Proof/Tests/Slice0.lean ====
section
/-! SUPPORT. Tests: ill-formed commands, command words written out from their layout, one step of each command and of the
register block with the expected results of spec/95_test_vectors.md, and, for every statement with hypotheses, concrete
states and operands that meet them. -/
namespace Sys2Proof.Tests

open Sys2Proof.Machine Sys2Proof.Reference

set_option Elab.async false

/-! ## Ill-formed commands: one for each check of WellFormed.lean (30_encoding.md R85; 43_etc1.md R245, R275) -/

theorem test_illformed_format : (Instr.pixDec 14).wellFormed = false ∧ (Instr.pixEnc 15).wellFormed = false := by decide
theorem test_illformed_blockFormat :
    (Instr.etc1Dec 11).wellFormed = false ∧ (Instr.etc1Enc 14).wellFormed = false := by decide
theorem test_illformed_mode : (Instr.swzAddr 4).wellFormed = false ∧ (Instr.texDim 15 true).wellFormed = false := by
  decide
theorem test_illformed_texture :
    (Instr.texDec 14 0 false).wellFormed = false ∧ (Instr.texEnc 0 4 false).wellFormed = false := by decide
theorem test_wellformed_boundaries :
    (Instr.texDec 13 3 true).wellFormed = true ∧ (Instr.etc1Dec 12).wellFormed = true
      ∧ (Instr.etc1Enc 13).wellFormed = true := by decide

/-! ## Decoding: words written out from the layout of 30_encoding.md R80 (reserved, PAD_SWZ_FMT_OP) -/

theorem test_decode_nop : decode 0b000000000000000_0_0000_0000_00000000#32 = .ok .nop := by decide
theorem test_decode_etc1Dec : decode 0b000000000000000_0_0000_1101_00000001#32 = .ok (.etc1Dec 13) := by decide
theorem test_decode_etc1Enc : decode 0b000000000000000_0_0000_1100_00000010#32 = .ok (.etc1Enc 12) := by decide
theorem test_decode_swzAddr : decode 0b000000000000000_0_0011_0000_00001000#32 = .ok (.swzAddr 3) := by decide
theorem test_decode_texDim : decode 0b000000000000000_1_0010_0000_00001001#32 = .ok (.texDim 2 true) := by decide
theorem test_decode_lz10Dec : decode 0b000000000000000_0_0000_0000_00010000#32 = .ok .lz10Dec := by decide
theorem test_decode_lz11Dec : decode 0b000000000000000_0_0000_0000_00010001#32 = .ok .lz11Dec := by decide
theorem test_decode_rleDec : decode 0b000000000000000_0_0000_0000_00010010#32 = .ok .rleDec := by decide
theorem test_decode_contDec : decode 0b000000000000000_0_0000_0000_00010011#32 = .ok .contDec := by decide
theorem test_decode_huff4Dec : decode 0b000000000000000_0_0000_0000_00010100#32 = .ok .huff4Dec := by decide
theorem test_decode_huff8Dec : decode 0b000000000000000_0_0000_0000_00010101#32 = .ok .huff8Dec := by decide
theorem test_decode_pixDec : decode 0b000000000000000_0_0000_1110_00100000#32 = .ok (.pixDec 14) := by decide
theorem test_decode_pixEnc : decode 0b000000000000000_0_0000_0010_00100001#32 = .ok (.pixEnc 2) := by decide
theorem test_decode_texDec : decode 0b000000000000000_1_0001_0111_00110000#32 = .ok (.texDec 7 1 true) := by decide
theorem test_decode_texEnc : decode 0b000000000000000_0_0100_0011_00110001#32 = .ok (.texEnc 3 4 false) := by decide
/-- CW-2, CW-3, CW-4, CW-5, CW-6, CW-8, DIM-9, and SWZ on a command that does not use it. -/
theorem test_decode_illegal :
    [0x00000003#32, 0x00020000, 0x00010000, 0x00000110, 0x00020E20, 0x000000FF, 0x00000109, 0x00001020].map decode
      = [.error .reservedOp, .error .reservedBits, .error .unusedPad, .error .unusedFmt, .error .reservedBits,
          .error .reservedOp, .error .unusedFmt, .error .unusedSwz] := by decide
theorem test_table_word :
    decodeTableWord 32 0x00010730 = some (.texDec 7 0 true) ∧ decodeTableWord 32 0x00000003 = none := by decide

/-! ## One command on a small machine (the conventions of spec/95_test_vectors.md) -/

/-- A platform with the register window at the top of the address space. -/
def bench : Platform := { regPage := 0xFFFFFF, zeroAlphaRgb := 0x123456, busFault := [], devices := [] }

/-- The input bytes at 0x1000, the output buffer of 0x1000 bytes at 0x8000. -/
def start (input : List Byte) : State :=
  { State.reset with
    platform := bench
    mem := Memory.store [] 0x1000 input
    srcAddr := 0x1000
    srcLen := BitVec.ofNat 32 input.length
    dstAddr := 0x8000
    dstLen := 0x1000 }

/-- The output bytes and the registers after the command word's step. -/
def ends (s : State) (w status r0 r1 info : Nat) (out : List Byte) : Bool :=
  match step (s.withFetchWord 32 w) with
  | .next t =>
    decide (t.status.toWord.toNat = status) && decide (t.result0.toNat = r0) && decide (t.result1.toNat = r1)
      && decide (t.errInfo.toNat = info)
      && (List.range (out.length + 1)).all fun j => t.mem.read (s.dstAddr.toNat + j) == out.getD j 0
  | .fault _ => false
  | .refused _ => false

/-- CW-1. -/
theorem test_nop : ends (start []) 0x0 0x2 0 0 0 [] = true := by decide +kernel
/-- ETC-D3: a white block. -/
theorem test_etc1Dec :
    ends (start [0, 0, 0, 0, 0, 255, 255, 255]) 0xC01 0x2 64 0 0 (List.replicate 64 255) = true := by decide +kernel
/-- ETC-D6. -/
theorem test_etc1Dec_short :
    ends { start [0, 0, 0, 0, 0, 255, 255, 255] with dstLen := 63 } 0xC01 0x306 0 0 0 [] = true := by decide +kernel
/-- ETC-E3. -/
theorem test_etc1Enc :
    ends (start ((List.replicate 16 [128, 64, 32, 255]).flatten)) 0xC02 0x2 8 176 0 [0, 0, 255, 255, 2, 32, 64, 128]
      = true := by decide +kernel
/-- ETC-E11. -/
theorem test_etc1Enc_short : ends { start [] with srcLen := 63 } 0xD02 0x306 0 0 0 [] = true := by decide +kernel
/-- SWZ-15, Rotate90. -/
theorem test_swzAddr : ends { start [] with param0 := 200, param1 := 24 } 0x2008 0x2 10 23 0 [] = true := by
  decide +kernel
/-- SWZ-E1. -/
theorem test_swzAddr_stride : ends { start [] with param1 := 12 } 0x8 0x306 0 0 0 [] = true := by decide +kernel
/-- DIM-2. -/
theorem test_texDim : ends { start [] with param0 := 0x00090014 } 0x12009 0x2 0x00100020 16 0 [] = true := by
  decide +kernel
/-- DIM-8. -/
theorem test_texDim_wide : ends { start [] with param0 := 0x00018001 } 0x9 0x306 0 0 0 [] = true := by decide +kernel
/-- LZ10-2. -/
theorem test_lz10Dec :
    ends (start [0x10, 6, 0, 0, 0x20, 0x41, 0x42, 0x10, 1]) 0x10 0x2 6 0 0 [0x41, 0x42, 0x41, 0x42, 0x41, 0x42]
      = true := by decide +kernel
/-- LZ10-6. -/
theorem test_lz10Dec_overrun : ends (start [0x10, 3, 0, 0, 0x40, 0x41, 0x10, 0]) 0x10 0x106 1 0 8 [0x41] = true := by
  decide +kernel
/-- LZ11-2. -/
theorem test_lz11Dec :
    ends (start [0x11, 0x12, 0, 0, 0x40, 0x41, 0, 0, 0]) 0x11 0x2 18 0 0 (List.replicate 18 0x41) = true := by
  decide +kernel
/-- LZ11-5. -/
theorem test_lz11Dec_cut : ends (start [0x11, 0x20, 0, 0, 0x80, 0, 0x10]) 0x11 0x106 0 0 7 [] = true := by
  decide +kernel
/-- RLE-1. -/
theorem test_rleDec :
    ends { start [2, 0xAA, 0xBB, 0xCC, 0x81, 0xFF] with param0 := 7 } 0x12 0x2 7 0 0
      [0xAA, 0xBB, 0xCC, 0xFF, 0xFF, 0xFF, 0xFF] = true := by decide +kernel
/-- RLE-5. -/
theorem test_rleDec_cut : ends { start [3, 1, 2] with param0 := 4 } 0x12 0x106 2 0 3 [1, 2] = true := by decide +kernel
/-- CONT-3. -/
theorem test_contDec :
    ends (start [0x31, 0, 0, 0, 0x20, 0x41, 0x42, 0x10, 1]) 0x13 0x2 6 1 0 [0x41, 0x42, 0x41, 0x42, 0x41, 0x42]
      = true := by decide +kernel
/-- CONT-8. -/
theorem test_contDec_method : ends (start [255, 255, 255, 255]) 0x13 0x206 0 0 4 [] = true := by decide +kernel
/-- HUF-1. -/
theorem test_huff4Dec :
    ends { start [1, 0xC0, 3, 0xC, 0, 0, 0, 0x40] with param0 := 1 } 0x14 0x2 1 0 0 [0xC3] = true := by decide +kernel
/-- HUF-5. -/
theorem test_huff4Dec_cut : ends { start [1, 0xC0, 3, 0xC, 0, 0] with param0 := 1 } 0x14 0x106 0 0 6 [] = true := by
  decide +kernel
/-- HUF-2. -/
theorem test_huff8Dec :
    ends { start [2, 0x80, 0x41, 0xC0, 0x42, 0x43, 0, 0, 0, 0x58] with param0 := 4 } 0x15 0x2 4 0 0
      [0x41, 0x42, 0x43, 0x41] = true := by decide +kernel
/-- HUF-4. -/
theorem test_huff8Dec_tree : ends { start [0, 0xC0, 0, 0, 0, 0] with param0 := 1 } 0x15 0x106 0 0 6 [] = true := by
  decide +kernel
/-- PIX-D3. -/
theorem test_pixDec : ends (start [0xC5, 0x8B]) 0x220 0x2 4 1 0 [140, 123, 16, 255] = true := by decide +kernel
/-- PIX-D11. -/
theorem test_pixDec_nibbles :
    ends (start [0xA5]) 0xA20 0x2 8 2 0 [85, 85, 85, 255, 170, 170, 170, 255] = true := by decide +kernel
/-- PIX-C2. -/
theorem test_pixEnc :
    ends { start [0, 0x10, 0, 255, 0, 0x20, 0, 255, 0, 0xFF, 0, 255] with param0 := 3 } 0xA21 0x2 2 3 0 [0x21, 0x0F]
      = true := by decide +kernel
/-- PIX-C5. -/
theorem test_pixEnc_zeroAlpha :
    ends { start [200, 100, 50, 0] with param0 := 1 } 0x21 0x2 4 1 0 [0, 0x56, 0x34, 0x12] = true := by decide +kernel
/-- TEX-7: one row of a 2 by 1 texture, the padding dropped. -/
theorem test_texDec :
    ends { start ([0x11, 0x22] ++ List.replicate 62 0x22) with param0 := 0x00010002 } 0x730 0x2 8 64 0
      [0x11, 0x11, 0x11, 255, 0x22, 0x22, 0x22, 255] = true := by decide +kernel
/-- TEX-8. -/
theorem test_texDec_short :
    ends { start [] with srcLen := 63, param0 := 0x00080008 } 0x10730 0x306 0 0 0 [] = true := by decide +kernel
/-- TEX-6. -/
theorem test_texEnc :
    ends { start [0x11, 0x11, 0x11, 255, 0x22, 0x22, 0x22, 255] with param0 := 0x00010002 } 0x731 0x2 64 64 0
      (let a := [0x11, 0x22, 0x11, 0x22, 0x22, 0x22, 0x22, 0x22]
        let b := a ++ a ++ List.replicate 16 0x22
        b ++ b) = true := by decide +kernel

/-! ## Command word, buffers, registers, reset -/

/-- CW-2. -/
theorem test_illegal_word : ends (start [0x10]) 0x3 0x406 0 0 0 [] = true := by decide +kernel
/-- CW-7. -/
theorem test_unsupported_fields : ends (start []) 0x4E30 0x206 0 0 0 [] = true := by decide +kernel
/-- BUF-1. -/
theorem test_buffer_wraps :
    ends { start [] with srcAddr := 0xFFFFFFF0, srcLen := 0x20 } 0x10 0x306 0 0 0 [] = true := by decide +kernel
/-- BUF-2 and BUF-5. -/
theorem test_buffers_meet :
    ends { start [0, 0, 0, 0] with srcLen := 8, dstAddr := 0x1004, dstLen := 64 } 0x720 0x306 0 0 0 [] = true
      ∧ ends { start [1, 2, 3, 4] with dstAddr := 0x1004, dstLen := 16 } 0x720 0x2 16 4 0
          [1, 1, 1, 255, 2, 2, 2, 255, 3, 3, 3, 255, 4, 4, 4, 255] = true := by decide +kernel
/-- BUF-3: the output buffer reaches into the register window. -/
theorem test_buffer_in_window :
    ends { start [1] with dstAddr := 0xFFFFFEFC, dstLen := 8 } 0x720 0x306 0 0 0 [] = true := by decide +kernel
/-- BUF-4: an empty buffer at the top. -/
theorem test_buffer_empty : ends { start [] with srcAddr := 0xFFFFFFFF } 0x720 0x2 0 0 0 [] = true := by decide +kernel
/-- BUF-6. -/
theorem test_bus_fault :
    (match step (({ start [0x10, 1, 0, 0, 0, 1] with
        platform := { bench with busFault := [⟨0x1002, 0x1002, .read⟩] } } : State).withFetchWord 32 0x10) with
      | .next t => t.status.toWord == 0x506 && t.errInfo == 0x1002 && t.result0 == 0
      | .fault _ => false
      | .refused _ => false) = true := by decide +kernel

/-- The input byte lies on a device whose reads have side effects (93_implementation_defined.md I4). -/
def onDevice (s : State) : State := { s with platform := { bench with devices := [⟨0x1000, 1⟩] } }

/-- FMT 14 and an output buffer too small for the pixel end as on plain memory (60_exceptions.md R326). -/
theorem test_device_checks :
    ends (onDevice (start [0xC5])) 0xE20 0x206 0 0 0 [] = true
      ∧ ends (onDevice { start [0xC5] with dstLen := 3 }) 0x720 0x306 0 0 0 [] = true := by decide +kernel
/-- One pixel of L8: four bytes are any values, the fifth is as before. -/
theorem test_device_output (t : State) :
    ((onDevice (start [0xC5])).endOnDevice (.pixDec 7) t).mem.read 0x8004 = 0 :=
  ((onDevice (start [0xC5])).endOnDevice_read _ t (by decide +kernel)).trans (by decide +kernel)

/-- The machine after the moves of its agenda (one step each). -/
def play : (fuel : Nat) → State → State
  | 0, s => s
  | n + 1, s => match step s with
    | .next t => play n t
    | .fault _ => s
    | .refused _ => s

/-- What the host last read after the moves. -/
def reads (s : State) (moves : List Event) (v : Word) : Bool :=
  (play moves.length { s with agenda := moves }).readData == v

/-- REG-1 to REG-5. -/
theorem test_registers :
    reads (start []) [.regWrite 0 .word 0, .regRead 0 .word] 0x43450007 = true
      ∧ reads (start []) [.regWrite 0x28 .word 5, .regRead 0x28 .word] 0 = true
      ∧ reads (start []) [.regWrite 0x40 .word 5, .regRead 0x40 .word] 0 = true
      ∧ reads (start []) [.regWrite 4 .word 0xFFFFFFFC, .regRead 4 .word] 0 = true := by decide +kernel
/-- REG-6 and REG-7: PARAM0 = 7 while a NOP runs. -/
theorem test_lost_write :
    reads { start [] with param0 := 7 } [.regWrite 0x0C .word 0, .regWrite 0x20 .word 5, .regRead 0x20 .word] 7 = true
      ∧ reads (start []) [.regWrite 0x0C .word 0, .regWrite 0x20 .word 5, .regRead 8 .word] 9 = true
      ∧ reads (start []) [.regWrite 0x0C .word 0, .regWrite 0x20 .word 5, .engine, .regRead 8 .word] 0xA = true := by
  decide +kernel
/-- REG-9, REG-10, REG-11. -/
theorem test_acknowledge :
    reads (start []) [.regWrite 0x0C .word 3, .engine, .regWrite 8 .word 2, .regRead 8 .word] 0x404 = true
      ∧ reads (start []) [.regWrite 0x0C .word 3, .engine, .regWrite 8 .word 6, .regRead 8 .word] 0x400 = true
      ∧ reads (start []) [.regWrite 0x0C .word 3, .engine, .regWrite 8 .word 6, .regWrite 0x0C .word 0, .engine,
          .regRead 8 .word] 2 = true := by decide +kernel
/-- IRQ-1 to IRQ-5 (`takeInterrupt` reads the interrupt output). -/
theorem test_interrupt :
    reads (start []) [.regWrite 4 .word 1, .regWrite 0x0C .word 0, .engine, .takeInterrupt] 1 = true
      ∧ reads (start []) [.regWrite 4 .word 1, .regWrite 0x0C .word 0, .engine, .regWrite 4 .word 0, .takeInterrupt] 0
          = true
      ∧ reads (start []) [.regWrite 4 .word 1, .regWrite 0x0C .word 0, .engine, .regWrite 8 .word 0xE, .takeInterrupt] 0
          = true
      ∧ ({ start [] with ctrl := ⟨true⟩, status := ⟨false, false, false, true, none⟩ } : State).irq = false := by
  decide +kernel
/-- DONE = 1 and ERROR acknowledged alone after an error: a touch of the output buffer leaves STATUS as it is
(10_state.md R23). -/
theorem test_touch_leaves_status :
    let s : State :=
      { start [] with
        status := { State.reset.status with done := true, errCode := some .corruptStream }
        windows := [⟨⟨0x1000, 0⟩, ⟨0x8000, 0x1000⟩, false⟩] };
    (s.touch .write 0x8000).status = s.status ∧ (s.touch .write 0x8000).draws = 2 :=
  ⟨State.touch_status _ _ _, by decide +kernel⟩
/-- RST-1 and RST-2, with no output byte to be left open. -/
theorem test_soft_reset :
    reads { start [] with param0 := 5 } [.regWrite 0x0C .word 0, .regWrite 4 .word 3, .regRead 0x20 .word] 0 = true
      ∧ reads (start []) [.regWrite 0x0C .word 0, .regWrite 4 .word 3, .regRead 8 .word] 0 = true
      ∧ reads (start []) [.regWrite 0x0C .word 0, .regWrite 4 .word 3, .regWrite 0x0C .word 0, .engine, .regRead 8 .word]
          2 = true := by decide +kernel
/-- An access of the register window that is no aligned 32-bit access (10_state.md R20). -/
theorem test_misshapen :
    step { start [] with agenda := [.regWrite 0x10 .byte 1] } = .refused .registerAccessShape
      ∧ step { start [] with agenda := [.regRead 0x12 .word] } = .refused .registerAccessShape := ⟨rfl, rfl⟩

/-! ## Concrete states and operands that meet the hypotheses of the statements of Obligations.lean -/

/-- The machine of `start` with the command word written to CMD. -/
def started (input : List Byte) (i : Instr) : State := (start input).startCommand (encode i)

theorem accepts {s : State} (h : s.platform.busFault = []) : s.BusAccepts := by
  constructor <;> intro j _ <;> simp [Platform.rejects, h]

theorem usable {s : State} (h : s.env.buffersLegal = true) : s.BuffersUsable := (buffersLegal_iff s).mp h

theorem notUsable {s : State} (h : s.env.buffersLegal = false) : ¬ s.BuffersUsable := fun hu => by
  simp [(buffersLegal_iff s).mpr hu] at h

/-- The memory holds the bytes, as a test. -/
def holds (m : Memory) (a : Nat) (bytes : List Byte) : Bool :=
  (List.range bytes.length).all fun j => m.read (a + j) == bytes.getD j 0

theorem holds_of {m : Memory} {a : Nat} {bytes : List Byte} (h : holds m a bytes = true) : m.Holds a bytes := by
  intro j hj
  have := List.all_eq_true.mp h j (List.mem_range.mpr hj)
  simpa using this

theorem witness_DecodeEncode : decode 0x00010730 = .ok (.texDec 7 0 true) ∧ 0x00010730#32 = encode (.texDec 7 0 true) := by
  decide
theorem witness_WrittenCommandRuns :
    (start []).status.busy = false ∧ (start []).platform.devices = [] ∧ (start []).agenda = [] := by decide
theorem witness_StepRunsCommand :
    let s := started [1] .rleDec
    let u : State := { s with agenda := [.engine, .takeInterrupt] }
    (s.status.busy = true ∧ decode s.cmd = .ok .rleDec ∧ s.disturbed .rleDec = false ∧ s.runsOnDevice .rleDec = false
        ∧ s.agenda = [])
      ∧ (u.status.busy = true ∧ decode u.cmd = .ok .rleDec ∧ u.disturbed .rleDec = false
        ∧ u.runsOnDevice .rleDec = false ∧ u.agenda = .engine :: [.takeInterrupt])
      ∧ (onDevice (started [1] (.pixDec 14))).runsOnDevice (.pixDec 14) = false := by decide +kernel
theorem witness_IllegalWordEnds :
    let s := (start []).startCommand 0x00000003
    s.status.busy = true ∧ decode s.cmd = .error .reservedOp ∧ s.agenda = [] := by decide
theorem witness_EveryCommandEnds :
    (∃ t, exec .nop (start []) = .next t ∧ t.status.errCode = none)
      ∧ ∃ t, exec .lz10Dec (start []) = .next t ∧ t.status.errCode ≠ none :=
  ⟨⟨_, rfl, rfl⟩, ⟨_, rfl, by decide +kernel⟩⟩
/-- The first and the last byte outside the register window; the bytes beside the buffers, in no window; a disturbed
command, one on a device, and the bytes at the edges of the two buffers of one that neither is. -/
theorem witness_DisturbedCommandEnds :
    ((0xFFFFFEFF : Word).toNat < (start []).regBase
        ∧ ({ start [] with platform := { bench with regPage := 0 } } : State).regBase + 256 ≤ (0x100 : Word).toNat
        ∧ ∀ a ∈ [0x0FFF, 0x1001, 0x7FFF, 0x9000], ∀ w ∈ (started [1] .rleDec).windows,
            w.input.has a = false ∧ w.output.has a = false)
      ∧ (let s : State := { started [1] .rleDec with windows := [⟨⟨0x1000, 1⟩, ⟨0x8000, 0x1000⟩, true⟩] }
        s.status.busy = true ∧ decode s.cmd = .ok .rleDec ∧ s.disturbed .rleDec = true ∧ s.agenda = [])
      ∧ (let s := onDevice (started [0xC5] (.pixDec 7))
        s.status.busy = true ∧ decode s.cmd = .ok (.pixDec 7) ∧ s.runsOnDevice (.pixDec 7) = true ∧ s.agenda = [])
      ∧ (let s := started [0xC5] (.pixDec 7)
        s.Inv ∧ s.status.busy = true ∧ decode s.cmd = .ok (.pixDec 7) ∧ Instr.usesBuffers (.pixDec 7) = true
          ∧ s.disturbed (.pixDec 7) = false
          ∧ (∀ a ∈ [(0x1000 : Word), 0x1001, 0x8000, 0x8FFF, 0x9000],
              ∃ t, step { s with agenda := .memWrite a 1 :: s.agenda } = .next t)
          ∧ ∀ a ∈ [(0x1000 : Word), 0x8000, 0x8FFF, 0x9000],
              ∃ t, step { s with agenda := .memRead a :: s.agenda } = .next t) := by
  refine ⟨by decide +kernel, by decide +kernel, by decide +kernel, ?_, rfl, by decide, rfl, by decide, ?_, ?_⟩
  · exact ⟨by decide +kernel, by unfold State.memoryPlaced; decide +kernel, fun _ => by decide,
      fun _ => ⟨_, _, rfl, rfl, rfl⟩, fun h => absurd h (by decide)⟩
  all_goals
    intro a h
    simp only [List.mem_cons, List.not_mem_nil, or_false] at h
    rcases h with rfl | rfl | rfl | rfl | rfl
    all_goals exact ⟨_, rfl⟩
/-- A reached end on a device: the check of FMT fails in one; the others run, each with the first byte past the most it
may write: by SRC_LEN, by PARAM0, by a header on no device and by one on a device. -/
theorem witness_OutputConfinement_device :
    (let s : State := onDevice (started [0xC5] (.pixDec 14));
      s.status.busy = true ∧ decode s.cmd = .ok (.pixDec 14) ∧ s.agenda = [] ∧ s.disturbed (.pixDec 14) = false
        ∧ (∃ t, step s = .next t)
        ∧ ∃ u, exec (.pixDec 14) s = .next u ∧ u.status.errCode = some .unsupportedFormat ∧ u.errInfo = 0)
      ∧ (let s := onDevice (started [0xC5] (.pixDec 7))
        s.status.busy = true ∧ decode s.cmd = .ok (.pixDec 7) ∧ s.agenda = [] ∧ s.disturbed (.pixDec 7) = false
          ∧ (∃ t, step s = .next t) ∧ s.runsOnDevice (.pixDec 7) = true
          ∧ s.dstAddr.toNat + mostStored (.pixDec 7) s = 0x8004)
      ∧ (let s : State := onDevice { started [0, 7] .rleDec with param0 := 1 }
        s.status.busy = true ∧ decode s.cmd = .ok .rleDec ∧ s.agenda = [] ∧ s.disturbed .rleDec = false
          ∧ (∃ t, step s = .next t) ∧ s.runsOnDevice .rleDec = true
          ∧ s.dstAddr.toNat + mostStored .rleDec s = 0x8001)
      ∧ (let s : State := { started [0x10, 1, 0, 0, 0, 7] .lz10Dec with
            platform := { bench with devices := [⟨0x1004, 2⟩] } }
        s.status.busy = true ∧ decode s.cmd = .ok .lz10Dec ∧ s.agenda = [] ∧ s.disturbed .lz10Dec = false
          ∧ (∃ t, step s = .next t) ∧ s.runsOnDevice .lz10Dec = true
          ∧ s.dstAddr.toNat + mostStored .lz10Dec s = 0x8001)
      ∧ (let s : State := onDevice (started [0x08, 0, 0, 0, 7] .contDec)
        s.status.busy = true ∧ decode s.cmd = .ok .contDec ∧ s.agenda = [] ∧ s.disturbed .contDec = false
          ∧ (∃ t, step s = .next t) ∧ s.runsOnDevice .contDec = true
          ∧ s.dstAddr.toNat + mostStored .contDec s = 0x9000) :=
  ⟨⟨rfl, by decide, rfl, by decide, ⟨_, rfl⟩, _, rfl, by decide +kernel, by decide +kernel⟩,
    ⟨rfl, by decide, rfl, by decide, ⟨_, rfl⟩, by decide +kernel, by decide +kernel⟩,
    ⟨rfl, by decide, rfl, by decide, ⟨_, rfl⟩, by decide +kernel, by decide +kernel⟩,
    ⟨rfl, by decide, rfl, by decide, ⟨_, rfl⟩, by decide +kernel, by decide +kernel⟩,
    ⟨rfl, by decide, rfl, by decide, ⟨_, rfl⟩, by decide +kernel, by decide +kernel⟩⟩
theorem witness_OutputConfinement :
    (∃ t, exec .nop (start []) = .next t ∧ Instr.usesBuffers .nop = false)
      ∧ (∃ t, exec .rleDec { start [] with srcAddr := 0xFFFFFFFF, srcLen := 2 } = .next t
          ∧ ¬ ({ start [] with srcAddr := 0xFFFFFFFF, srcLen := 2 } : State).BuffersUsable)
      ∧ 0x7FFF < (start []).dstAddr.toNat ∧ (start []).dstAddr.toNat + (start []).dstLen.toNat ≤ 0x9000 :=
  ⟨⟨_, rfl, rfl⟩, ⟨_, rfl, notUsable (by decide)⟩, by decide, by decide⟩
/-- Two states with different output buffers and the same input. -/
theorem witness_InputDeterminesOutcome :
    let s := { start [0, 7] with param0 := 1 }
    let u : State := { s with mem := s.mem.write 0x8001 9 }
    u.srcAddr = s.srcAddr ∧ u.srcLen = s.srcLen ∧ u.dstAddr = s.dstAddr ∧ u.dstLen = s.dstLen ∧ u.param0 = s.param0
      ∧ u.param1 = s.param1 ∧ u.platform = s.platform ∧ s.BusAccepts
      ∧ (∀ j < s.srcLen.toNat, u.mem.read (s.srcAddr.toNat + j) = s.mem.read (s.srcAddr.toNat + j))
      ∧ u.mem ≠ s.mem ∧ (∃ t, exec .rleDec s = .next t) ∧ ∃ v, exec .rleDec u = .next v :=
  ⟨rfl, rfl, rfl, rfl, rfl, rfl, rfl, accepts rfl, by decide +kernel, by decide +kernel, ⟨_, rfl⟩, ⟨_, rfl⟩⟩
theorem witness_StepKeepsInvariant :
    let s := started [0, 7] .rleDec
    s.Inv ∧ ∃ t, step s = .next t :=
  ⟨⟨by decide +kernel, by unfold State.memoryPlaced; decide +kernel, fun _ => by decide,
    fun _ => ⟨_, _, rfl, rfl, rfl⟩, fun h => absurd h (by decide)⟩, ⟨_, rfl⟩⟩
theorem witness_OnlyHostWritesChangeOperands :
    let s : State := { started [0, 7] .rleDec with agenda := [.memWrite 0x1000 1] }
    (∃ t, step s = .next t) ∧ (∀ o w v, s.agenda.head? ≠ some (.regWrite o w v))
      ∧ s.agenda.head? ≠ some .resetInput :=
  ⟨⟨_, rfl⟩, fun _ _ _ => by simp, by decide⟩
theorem witness_StepRefusesOnlyMisshapenAccess :
    step { start [] with agenda := [.memWrite 0xFFFFFF00 1] } = .refused .registerAccessShape
      ∧ step { start [] with agenda := [.memRead 0xFFFFFFFF] } = .refused .registerAccessShape
      ∧ ∃ t, step { start [] with agenda := [.memRead 0xFFFFFEFF] } = .next t := ⟨rfl, rfl, _, rfl⟩
theorem witness_InterruptFollowsCommandEnd :
    (∃ t, exec .nop (start []) = .next t)
      ∧ (((start []).startCommand 3).status.busy = true ∧ ((start []).startCommand 3).agenda = []
        ∧ ∃ t, step ((start []).startCommand 3) = .next t)
      ∧ (let s : State := { started [1] .rleDec with windows := [⟨⟨0x1000, 1⟩, ⟨0x8000, 0x1000⟩, true⟩] }
        s.status.busy = true ∧ s.agenda = [] ∧ s.disturbed .rleDec = true ∧ ∃ t, step s = .next t)
      ∧ ((start []).status.busy = false ∧ ∃ t, hostWrite (start []) 0x0C 0 = .next t)
      ∧ (BitVec.getLsbD 6#32 1 = true ∧ BitVec.getLsbD 6#32 2 = true ∧ ∃ t, hostWrite (start []) 0x08 6 = .next t)
      ∧ (∃ t, hostWrite (start []) 0x04 3 = .next t ∧ BitVec.getLsbD 3#32 1 = true)
      ∧ (∃ t, step { start [] with agenda := .resetInput :: (start []).agenda } = .next t)
      ∧ ∃ t, hostWrite (start []) 0x04 1 = .next t ∧ BitVec.getLsbD 1#32 1 = false ∧ BitVec.getLsbD 1#32 0 = true :=
  ⟨⟨_, rfl⟩, ⟨rfl, rfl, _, rfl⟩, ⟨rfl, rfl, rfl, _, rfl⟩, ⟨rfl, _, rfl⟩, ⟨rfl, rfl, _, rfl⟩, ⟨_, rfl, rfl⟩, ⟨_, rfl⟩, _,
    rfl, rfl, rfl⟩
theorem witness_ControlWrite : BitVec.getLsbD 0xFFFFFFFD#32 1 = false := by decide
/-- A host that sees DONE in STATUS, one that takes the interrupt, and one that sees neither; the last byte below the
register window and the first above it. -/
theorem witness_StatusReads :
    let idle : State := { start [] with windows := (started [] .rleDec).windows }
    let done : State := { idle with status := { idle.status with done := true }, ctrl := { irqEn := true } }
    (idle.status.done = false ∧ ∃ t, hostRead idle 0x08 = .next t)
      ∧ (done.status.done = true ∧ done.windows ≠ [] ∧ ∃ t, hostRead done 0x08 = .next t)
      ∧ (idle.irq = false ∧ ∃ t, step { idle with agenda := .takeInterrupt :: idle.agenda } = .next t)
      ∧ (done.irq = true ∧ ∃ t, step { done with agenda := .takeInterrupt :: done.agenda } = .next t)
      ∧ (0xFFFFFEFF : Word).toNat < done.regBase
      ∧ ({ done with platform := { bench with regPage := 0 } } : State).regBase + 256 ≤ (0x100 : Word).toNat :=
  ⟨⟨rfl, _, rfl⟩, ⟨rfl, by decide, _, rfl⟩, ⟨rfl, _, rfl⟩, ⟨rfl, _, rfl⟩, by decide, by decide⟩
theorem witness_CommandWrite :
    (start []).status.busy = false ∧ (start []).agenda = [] ∧ (started [] .nop).status.busy = true
      ∧ decode 0x00000003 = .error .reservedOp := by decide
theorem witness_OperandWrites :
    (start []).status.busy = false
      ∧ (0x24, { start [] with param1 := 1 }) ∈ [((0x10 : BitVec 8), { start [] with srcAddr := 1 }),
          (0x24, { start [] with param1 := 1 })] := by decide +kernel
theorem witness_BusyWritesAreLost :
    (started [0, 7] .rleDec).status.busy = true ∧ (∃ t, exec .rleDec (started [0, 7] .rleDec) = .next t)
      ∧ BitVec.getLsbD 0xFFFFFFFD#32 1 = false ∧ BitVec.getLsbD 8#32 3 = true ∧ (0xFC : BitVec 8).toNat % 4 = 0
      ∧ (started [0, 7] .rleDec).Inv :=
  ⟨rfl, ⟨_, rfl⟩, rfl, rfl, rfl, witness_StepKeepsInvariant.1⟩
theorem witness_ReadOnlyOffsets :
    (∀ o ∈ [(0x00 : BitVec 8), 0x28, 0x2C, 0x30, 0x34, 0xFC], o.toNat % 4 = 0)
      ∧ 0x34 ≤ (0x34 : BitVec 8).toNat ∧ 0x34 ≤ (0xFC : BitVec 8).toNat := by decide
theorem witness_MisshapenAccessRefused :
    ¬ (AccessWidth.half = .word ∧ (0x10 : BitVec 8).toNat % 4 = 0)
      ∧ ¬ (AccessWidth.word = .word ∧ (0x11 : BitVec 8).toNat % 4 = 0)
      ∧ (start []).regBase ≤ (0xFFFFFF00 : Word).toNat ∧ (0xFFFFFFFF : Word).toNat < (start []).regBase + 256 :=
  ⟨by decide, by decide, by decide, by decide⟩
theorem witness_ResetValues :
    (0xFC : BitVec 8).toNat % 4 = 0
      ∧ (∃ t, step { start [] with agenda := .resetInput :: (start []).agenda } = .next t) ∧ (start []).status.busy = false
      ∧ BitVec.getLsbD 3#32 1 = true ∧ ∃ t, hostWrite (start []) 0x04 3 = .next t :=
  ⟨by decide, ⟨_, rfl⟩, rfl, by decide, ⟨_, rfl⟩⟩
theorem witness_SoftResetAbandons :
    let s := started [0, 7] .rleDec
    s.status.busy = true ∧ (BitVec.getLsbD 2#32 1 = true ∧ ∃ o, o = hostWrite s 0x04 2)
      ∧ ∃ o, o = step { s with agenda := .resetInput :: s.agenda } := ⟨rfl, ⟨rfl, _, rfl⟩, _, rfl⟩
/-- One command for each check that fails; see also the tests of ill-formed commands above. -/
theorem witness_UnsupportedFieldsEnd :
    ∀ i ∈ [Instr.etc1Dec 0, .etc1Enc 15, .swzAddr 4, .texDim 4 true, .pixDec 14, .pixEnc 15, .texDec 14 0 true,
      .texEnc 0 15 true], i.wellFormed = false := by decide
/-- A wrapping input, an output in the register window, buffers that share one byte. -/
theorem witness_BufferChecksEnd :
    (Instr.pixDec 7).wellFormed = true ∧ (Instr.pixDec 7).usesBuffers = true
      ∧ ¬ ({ start [] with srcAddr := 0xFFFFFFFF, srcLen := 2 } : State).BuffersUsable
      ∧ ¬ ({ start [] with dstAddr := 0xFFFFFEFF, dstLen := 2 } : State).BuffersUsable
      ∧ ¬ ({ start [] with srcLen := 2, dstAddr := 0x1001, dstLen := 2 } : State).BuffersUsable :=
  ⟨rfl, rfl, notUsable (by decide), notUsable (by decide), notUsable (by decide)⟩
/-- Each size one below what its command takes. -/
theorem witness_SizeChecksEnd :
    pixelFormatOf 12 = some .etc1 ∧ pixelFormatOf 13 = some .etc1a4 ∧ pixelFormatOf 10 = some .l4
      ∧ ({ start [] with srcLen := 7 } : State).srcLen.toNat < 8 ∧ ({ start [] with dstLen := 63 } : State).dstLen.toNat < 64
      ∧ ({ start [] with srcLen := 63 } : State).srcLen.toNat < 64
      ∧ ({ start [] with dstLen := 15 } : State).dstLen.toNat < 16
      ∧ ({ start [1] with dstLen := 7 } : State).dstLen.toNat < 4 * pixelCount .l4 (start [1]).srcLen.toNat
      ∧ ({ start [] with param0 := 17 } : State).param0.toNat % 16 ≠ 0
      ∧ (start [1, 2, 3]).srcLen.toNat < 4 * ({ start [] with param0 := 1 } : State).param0.toNat
      ∧ ({ start [] with dstLen := 1 } : State).dstLen.toNat
          < encodedSize .l4 ({ start [] with param0 := 3 } : State).param0.toNat
      ∧ ({ start [] with dstLen := 1 } : State).dstLen.toNat < ({ start [] with param0 := 2 } : State).param0.toNat := by
  decide
/-- Dimensions 0 and 32769, and an 8 by 8 texture of A8 one byte too long for its buffers. -/
theorem witness_TextureChecksEnd :
    pixelFormatOf 8 = some .a8 ∧ swizzleModeOf 3 = some .transpose
      ∧ ({ start [] with param0 := 0x80010000 } : State).param0.toNat % 65536 = 0
      ∧ ({ start [] with param0 := 0x80010000 } : State).param0.toNat / 65536 = 32769
      ∧ ({ start [] with param0 := 0x00080008 } : State).param0.toNat % 65536 = 8
      ∧ ({ start [] with param0 := 0x00080008 } : State).param0.toNat / 65536 = 8
      ∧ pixelCount .a8 ({ start [] with srcLen := 63 } : State).srcLen.toNat < padDim 8 true * padDim 8 true
      ∧ ({ start [] with dstLen := 255 } : State).dstLen.toNat < 4 * 8 * 8
      ∧ ({ start [] with srcLen := 255 } : State).srcLen.toNat < 4 * 8 * 8
      ∧ ({ start [] with dstLen := 63 } : State).dstLen.toNat < encodedSize .a8 (padDim 8 true * padDim 8 true) := by
  decide +kernel
/-- The tag, the declared length and the method one past what the command takes. -/
theorem witness_HeaderChecksEnd :
    (start [0x11]).BuffersUsable ∧ (start [0x11]).BusAccepts ∧ 1 ≤ (start [0x11]).srcLen.toNat
      ∧ ((start [0x11]).mem.read 0x1000).toNat ≠ 0x10
      ∧ (let s : State := { start [0x10, 5, 0, 0] with dstLen := 4 }
        s.BuffersUsable ∧ s.BusAccepts ∧ 4 ≤ s.srcLen.toNat ∧ (s.mem.read 0x1000).toNat = 0x10
          ∧ s.dstLen.toNat < (s.mem.read 0x1001).toNat + 256 * (s.mem.read 0x1002).toNat
              + 65536 * (s.mem.read 0x1003).toNat)
      ∧ (let s := start [5, 0, 0, 0]
        s.BuffersUsable ∧ s.BusAccepts ∧ 4 ≤ s.srcLen.toNat ∧ 5 ≤ (s.mem.read 0x1000).toNat % 8)
      ∧ (let s : State := { start [0x14, 0, 0, 0] with dstLen := 1 }
        s.BuffersUsable ∧ s.BusAccepts ∧ 4 ≤ s.srcLen.toNat ∧ (s.mem.read 0x1000).toNat % 8 < 5
          ∧ s.dstLen.toNat < (s.mem.read 0x1000).toNat / 8) :=
  ⟨usable (by decide), accepts rfl, by decide, by decide +kernel,
    ⟨usable (by decide), accepts rfl, by decide, by decide +kernel, by decide +kernel⟩,
    ⟨usable (by decide), accepts rfl, by decide, by decide +kernel⟩,
    ⟨usable (by decide), accepts rfl, by decide, by decide +kernel, by decide +kernel⟩⟩
theorem witness_HeaderCutShort :
    ((start []).BuffersUsable ∧ (start []).BusAccepts ∧ (start []).srcLen.toNat = 0)
      ∧ (start [0x10, 0, 0]).BuffersUsable ∧ (start [0x10, 0, 0]).BusAccepts ∧ (start [0x10, 0, 0]).srcLen.toNat = 3
      ∧ (start [0x10, 0, 0]).mem.read 0x1000 = 0x10 :=
  ⟨⟨usable (by decide), accepts rfl, by decide⟩, usable (by decide), accepts rfl, by decide, by decide +kernel⟩
theorem witness_ErrorsBeforeWork :
    (∃ t, exec (.pixDec 14) (start []) = .next t ∧ t.status.errCode = some .unsupportedFormat)
      ∧ (∃ t, exec (.texDim 0 false) (start []) = .next t ∧ t.status.errCode = some .invalidParameter)
      ∧ ∃ t, exec .lz10Dec (start []) = .next t ∧ t.status.errCode = some .corruptStream :=
  ⟨⟨_, rfl, by decide +kernel⟩, ⟨_, rfl, by decide +kernel⟩, ⟨_, rfl, by decide +kernel⟩⟩
/-- LZ streams that cannot be had: a cut token, a missing flag byte, a reference past the length, one before the output. -/
theorem lzStuck_examples :
    LzStuck LzToken.legal10 LzToken.bytes10 3 true [0x40, 0x41, 0x10] [0x41]
      ∧ LzStuck LzToken.legal10 LzToken.bytes10 1 true [] []
      ∧ LzStuck LzToken.legal10 LzToken.bytes10 3 false [0x40, 0x41, 0x10, 0] [0x41]
      ∧ LzStuck LzToken.legal11 LzToken.bytes11 32 true [0x80, 0, 0x10] []
      ∧ LzStuck LzToken.legal11 LzToken.bytes11 32 false [0x80, 0x20, 0] [] :=
  ⟨⟨[], ⟨0x40, [.literal 0x41, .back 1 4]⟩, [.literal 0x41], .back 1 4, by decide, rfl, rfl, by decide +kernel,
      by decide, by decide +kernel, by decide +kernel, by decide +kernel⟩,
    ⟨[], ⟨0, [.literal 0]⟩, [], .literal 0, by decide, rfl, rfl, rfl, by decide, by decide +kernel, by decide +kernel, by decide +kernel⟩,
    ⟨[], ⟨0x40, [.literal 0x41, .back 1 4]⟩, [.literal 0x41], .back 1 4, by decide, rfl, rfl, by decide +kernel,
      by decide, by decide +kernel, 1, 4, rfl, by decide⟩,
    ⟨[], ⟨0x80, [.back 1 18]⟩, [], .back 1 18, by decide, rfl, rfl, rfl, by decide, by decide +kernel, by decide +kernel, by decide +kernel⟩,
    ⟨[], ⟨0x80, [.back 1 3]⟩, [], .back 1 3, by decide, rfl, rfl, rfl, by decide, by decide +kernel, 1, 3, rfl,
      by decide⟩⟩
/-- RLE streams that cannot be had: cut literals, a missing flag byte, a run and literals past the length. -/
theorem rleStuck_examples :
    RleStuck 4 true [3, 1, 2] [1, 2] ∧ RleStuck 1 true [] [] ∧ RleStuck 2 false [0x80, 5] []
      ∧ RleStuck 1 false [1] [] :=
  ⟨⟨[], .literals [1, 2, 0, 0], [3, 1, 2], by decide, by decide, by decide, by decide, by decide, by decide,
      fun vs h => by cases h; decide⟩,
    ⟨[], .run 3 0, [], by decide, by decide, by decide, by decide, by decide, by decide, fun _ h => by cases h⟩,
    ⟨[], .run 3 5, [0x80, 5], by decide, by decide, by decide, by decide, by decide, by decide⟩,
    ⟨[], .literals [0, 0], [1], by decide, by decide, by decide, by decide, by decide, by decide⟩⟩
/-- Huffman streams that cannot be had: a cut tree, a cut word, a child outside the tree. -/
theorem huffStuck_examples :
    HuffStuck true 1 true [1] [] ∧ HuffStuck false 1 true [1, 0xC0, 3, 0xC, 0, 0] []
      ∧ HuffStuck true 1 false [0, 0xC0, 0, 0, 0, 0] [] :=
  ⟨⟨by decide, .inl ⟨rfl, rfl, .inr (by decide)⟩⟩,
    ⟨by decide, .inr ⟨[1, 0xC0, 3, 0xC], [], [0, 0], [], [], [], 1, by decide, by decide, rfl, rfl, by decide, rfl,
      by decide⟩⟩,
    ⟨by decide, .inr ⟨[0, 0xC0], [0], [], [], [], [], 1, by decide, by decide +kernel, rfl, rfl, by decide, rfl, rfl,
      false, by decide, by decide +kernel, by decide⟩⟩⟩
theorem witness_ErrorsBeforeWork_lz10 :
    let s : State := { start [0x10, 3, 0, 0, 0x40, 0x41, 0x10] with dstLen := 3 }
    s.BuffersUsable ∧ s.BusAccepts ∧ 3 < 2 ^ 24 ∧ 3 ≤ s.dstLen.toNat
      ∧ LzStuck LzToken.legal10 LzToken.bytes10 3 true [0x40, 0x41, 0x10] [0x41]
      ∧ s.mem.Holds s.srcAddr.toNat (0x10#8 :: littleBytes 3 3 ++ [0x40, 0x41, 0x10]) ∧ 4 + 3 = s.srcLen.toNat :=
  ⟨usable (by decide), accepts rfl, by decide, by decide, lzStuck_examples.1, holds_of (by decide +kernel), by decide⟩
theorem witness_ErrorsBeforeWork_lz11 :
    let s : State := { start [9, 32, 0, 0, 0x80, 0x20, 0, 1] with dstLen := 32 }
    s.BuffersUsable ∧ s.BusAccepts ∧ 32 < 2 ^ 24 ∧ 32 ≤ s.dstLen.toNat
      ∧ LzStuck LzToken.legal11 LzToken.bytes11 32 false [0x80, 0x20, 0] []
      ∧ s.mem.Holds s.srcAddr.toNat (9#8 :: littleBytes 3 32 ++ [0x80, 0x20, 0]) ∧ 4 + 3 ≤ s.srcLen.toNat :=
  ⟨usable (by decide), accepts rfl, by decide, by decide, lzStuck_examples.2.2.2.2, holds_of (by decide +kernel),
    by decide⟩
theorem witness_ErrorsBeforeWork_rle :
    let s : State := { start [3, 1, 2] with param0 := 4, dstLen := 4 }
    s.BuffersUsable ∧ s.BusAccepts ∧ s.param0.toNat ≤ s.dstLen.toNat ∧ RleStuck s.param0.toNat true [3, 1, 2] [1, 2]
      ∧ s.mem.Holds s.srcAddr.toNat ([] ++ [3, 1, 2]) ∧ 0 + 3 = s.srcLen.toNat :=
  ⟨usable (by decide), accepts rfl, by decide, rleStuck_examples.1, holds_of (by decide +kernel), by decide⟩
theorem witness_ErrorsBeforeWork_huffman :
    let s : State := { start [1, 0xC0, 3, 0xC, 0, 0] with param0 := 1, dstLen := 1 }
    let u : State := { start [0, 0xC0, 0, 0, 0, 0] with param0 := 1, dstLen := 1 }
    (s.BuffersUsable ∧ s.BusAccepts ∧ s.param0.toNat ≤ s.dstLen.toNat
        ∧ HuffStuck false s.param0.toNat true [1, 0xC0, 3, 0xC, 0, 0] []
        ∧ s.mem.Holds s.srcAddr.toNat ([] ++ [1, 0xC0, 3, 0xC, 0, 0]) ∧ 0 + 6 = s.srcLen.toNat)
      ∧ u.BuffersUsable ∧ u.BusAccepts ∧ u.param0.toNat ≤ u.dstLen.toNat
      ∧ HuffStuck true u.param0.toNat false [0, 0xC0, 0, 0, 0, 0] []
      ∧ u.mem.Holds u.srcAddr.toNat ([] ++ [0, 0xC0, 0, 0, 0, 0]) ∧ 0 + 6 ≤ u.srcLen.toNat :=
  ⟨⟨usable (by decide), accepts rfl, by decide, huffStuck_examples.2.1, holds_of (by decide +kernel), by decide⟩,
    usable (by decide), accepts rfl, by decide, huffStuck_examples.2.2, holds_of (by decide +kernel), by decide⟩
/-- A verbatim body of two bytes that ends after one; the other methods' bodies are the examples above. -/
theorem witness_ErrorsBeforeWork_container :
    let s : State := { start [16, 0, 0, 0, 7] with dstLen := 2 }
    s.BuffersUsable ∧ s.BusAccepts ∧ 2 < 2 ^ 29 ∧ 2 ≤ s.dstLen.toNat ∧ ContainerStuck 0 2 true [7] [7]
      ∧ s.mem.Holds s.srcAddr.toNat (littleBytes 4 (8 * 2 + 0) ++ [7]) ∧ 4 + 1 = s.srcLen.toNat
      ∧ ContainerStuck 1 1 true [] [] ∧ ContainerStuck 2 1 true [1, 0xC0, 3, 0xC, 0, 0] []
      ∧ ContainerStuck 3 1 true [1] [] ∧ ContainerStuck 4 1 false [1] [] :=
  ⟨usable (by decide), accepts rfl, by decide, by decide, ⟨rfl, rfl, by decide⟩, holds_of (by decide +kernel),
    by decide, lzStuck_examples.2.1, huffStuck_examples.2.1, huffStuck_examples.1, rleStuck_examples.2.2.2⟩
/-- A rejected input read; an output write rejected after one byte; and one after the first record of a texture. -/
theorem witness_BusFaultNamesRejectedAccess :
    let input : State := { start [0x10] with platform := { bench with busFault := [⟨0x1000, 0x1000, .read⟩] } }
    let output : State :=
      { start [1, 7, 8] with
        param0 := 2, dstLen := 2, platform := { bench with busFault := [⟨0x8001, 0x8001, .write⟩] } }
    let texture : State :=
      { start (List.replicate 64 9) with
        param0 := 0x00010002, platform := { bench with busFault := [⟨0x8004, 0x8004, .write⟩] } }
    ((∃ t, exec .lz10Dec input = .next t ∧ t.status.errCode = some .busFault)
        ∧ ∃ u, exec .lz10Dec { input with platform := { input.platform with busFault := [] } } = .next u)
      ∧ ((∃ t, exec .rleDec output = .next t ∧ t.status.errCode = some .busFault ∧ t.result0 = 1)
        ∧ ∃ u, exec .rleDec { output with platform := { output.platform with busFault := [] } } = .next u)
      ∧ (∃ t, exec (.texDec 7 0 true) texture = .next t ∧ t.status.errCode = some .busFault ∧ t.result0 = 4)
      ∧ ∃ u, exec (.texDec 7 0 true) { texture with platform := { texture.platform with busFault := [] } } = .next u :=
  ⟨⟨⟨_, rfl, by decide +kernel⟩, _, rfl⟩, ⟨⟨_, rfl, by decide +kernel⟩, _, rfl⟩, ⟨_, rfl, by decide +kernel⟩, _, rfl⟩
/-- The first and the last byte before the output of LZ10 with its tag and with another, of RLE with a run and with
literals, and of a tree, the declared length at both ends of its range; the first and the last byte of eight. -/
theorem witness_FirstReadRejected :
    let s (input : List Byte) (k : Nat) : State :=
      { start input with
        param0 := 0x1000, platform := { bench with busFault := [⟨0x1000 + k, 0x1000 + k, .read⟩, ⟨0x8000, 0x8000, .write⟩] } }
    (∀ p ∈ [(Instr.lz10Dec, [0x10, 1, 0, 0], 0), (.lz10Dec, [0x10, 1, 0, 0], 3), (.lz10Dec, [0x11], 0),
          (.lz11Dec, [0x11, 1, 0, 0], 3), (.contDec, [8, 0, 0, 0], 3), (.rleDec, [0x80, 5], 1), (.rleDec, [0, 5], 0),
          (.huff4Dec, [1, 0xC0, 3, 0xC], 3), (.huff8Dec, [0, 0xC0, 1], 0)],
        p.1 ∈ [Instr.lz10Dec, .lz11Dec, .rleDec, .contDec, .huff4Dec, .huff8Dec]
          ∧ (s p.2.1 p.2.2).param0.toNat ≤ (s p.2.1 p.2.2).dstLen.toNat
          ∧ (s p.2.1 p.2.2).env.buffersLegal = true ∧ p.2.2 < headLength p.1 (s p.2.1 p.2.2)
          ∧ p.2.2 < (s p.2.1 p.2.2).srcLen.toNat
          ∧ (∀ j < p.2.2, (s p.2.1 p.2.2).platform.rejects ((s p.2.1 p.2.2).srcAddr.toNat + j) .read = false)
          ∧ (s p.2.1 p.2.2).platform.rejects ((s p.2.1 p.2.2).srcAddr.toNat + p.2.2) .read = true)
      ∧ (let u : State := { s [0, 5] 0 with param0 := 1 }
        0 < headLength .rleDec u ∧ u.param0.toNat ≤ u.dstLen.toNat)
      ∧ (∀ d ∈ [(0x1000, Direction.read), (0x8000, .write)],
          (0 < 8 ∧ (s [] 0).env.platform.rejects (d.1 + 0) d.2 = true)
            ∧ 7 < 8 ∧ (∀ j < 7, (s [] 0).env.platform.rejects (d.1 - 7 + j) d.2 = false)
            ∧ (s [] 0).env.platform.rejects (d.1 - 7 + 7) d.2 = true) :=
  ⟨by decide +kernel, by decide +kernel, by decide +kernel⟩
/-- An output byte of each kind of order: the last of a run, and the first of a texture's second record. -/
theorem witness_BusFaultNamesRejectedAccess_output :
    let run : State :=
      { start [0x80, 7] with
        param0 := 3, platform := { bench with busFault := [⟨0x8002, 0x8002, .write⟩] } }
    let texture : State :=
      { start (List.replicate 64 9) with
        param0 := 0x00010002, platform := { bench with busFault := [⟨0x8004, 0x8004, .write⟩] } }
    ((∃ u, exec .rleDec { run with platform := { run.platform with busFault := [] } } = .next u ∧ 2 < u.result0.toNat)
        ∧ (∀ j < run.srcLen.toNat, run.platform.rejects (run.srcAddr.toNat + j) .read = false)
        ∧ (∀ j < 2, run.platform.rejects (run.dstAddr.toNat + storedPlace .rleDec run j) .write = false)
        ∧ run.platform.rejects (run.dstAddr.toNat + storedPlace .rleDec run 2) .write = true)
      ∧ (∃ u, exec (.texDec 7 0 true) { texture with platform := { texture.platform with busFault := [] } } = .next u
          ∧ 4 < u.result0.toNat)
      ∧ (∀ j < 4, texture.platform.rejects (texture.dstAddr.toNat + storedPlace (.texDec 7 0 true) texture j) .write = false)
      ∧ texture.platform.rejects (texture.dstAddr.toNat + storedPlace (.texDec 7 0 true) texture 4) .write = true :=
  ⟨⟨⟨_, rfl, by decide +kernel⟩, by decide +kernel, by decide +kernel, by decide +kernel⟩, ⟨_, rfl, by decide +kernel⟩,
    by decide +kernel, by decide +kernel⟩
/-- A body of each kind that is stuck for want of a byte, and the input that goes on, with that byte rejected. -/
theorem witness_FirstReadRejected_body :
    let s (head input : List Byte) (n : Nat) : State :=
      { start (head ++ input ++ [0]) with
        param0 := n
        platform := { bench with busFault := [⟨0x1000 + head.length + input.length, 0x1FFF, .read⟩] } }
    (LzStuck LzToken.legal10 LzToken.bytes10 3 true [0x40, 0x41, 0x10] [0x41]
        ∧ LzStuck LzToken.legal11 LzToken.bytes11 32 true [0x80, 0, 0x10] [] ∧ RleStuck 4 true [3, 1, 2] [1, 2]
        ∧ HuffStuck false 1 true [1, 0xC0, 3, 0xC, 0, 0] [] ∧ HuffStuck true 1 true [1] []
        ∧ ContainerStuck 0 2 true [7] [7])
      ∧ (∀ p ∈ [(0x10#8 :: littleBytes 3 3, [0x40, 0x41, 0x10], 3), (9 :: littleBytes 3 32, [0x80, 0, 0x10], 32),
            ([], [3, 1, 2], 4), ([], [1, 0xC0, 3, 0xC, 0, 0], 1), ([], [1], 1), (littleBytes 4 (8 * 2 + 0), [7], 2)],
          let u := s p.1 p.2.1 p.2.2
          u.env.buffersLegal = true ∧ p.2.2 ≤ u.dstLen.toNat ∧ u.param0.toNat = p.2.2
            ∧ holds u.mem u.srcAddr.toNat (p.1 ++ p.2.1) = true ∧ p.1.length + p.2.1.length < u.srcLen.toNat
            ∧ (∀ j < p.1.length + p.2.1.length, u.platform.rejects (u.srcAddr.toNat + j) .read = false)
            ∧ u.platform.rejects (u.srcAddr.toNat + (p.1.length + p.2.1.length)) .read = true)
      ∧ ∀ head input n, ∀ j < 0x1000, (s head input n).platform.rejects (0x8000 + j) .write = false
        ∧ (s head input n).platform.rejects (0x8000 + j) .read = false := by
  refine ⟨⟨lzStuck_examples.1, lzStuck_examples.2.2.2.1, rleStuck_examples.1, huffStuck_examples.2.1,
    huffStuck_examples.1, rfl, rfl, by decide⟩, by decide +kernel, fun head input n j hj => ?_⟩
  simp [Platform.rejects]
  omega
/-- The first read of an ETC1A4 block, which is its colour word's, and the second pixel's of a byte format, each command
ending with success where no access is rejected. -/
theorem witness_FirstReadRejected_texels :
    let block : State :=
      { start (List.replicate 16 9) with platform := { bench with busFault := [⟨0x1000, 0x1008, .read⟩] } }
    let pixels : State := { start [1, 2] with platform := { bench with busFault := [⟨0x1001, 0x1001, .read⟩] } }
    ((∃ u, exec (.etc1Dec 13) { block with platform := { block.platform with busFault := [] } } = .next u
          ∧ u.status.errCode = none)
        ∧ inputReads (.etc1Dec 13) block = [] ++ (8, 0) :: (inputReads (.etc1Dec 13) block).tail
        ∧ block.platform.rejects (block.srcAddr.toNat + 8) .read = true)
      ∧ (∃ u, exec (.pixDec 7) { pixels with platform := { pixels.platform with busFault := [] } } = .next u
          ∧ u.status.errCode = none)
      ∧ inputReads (.pixDec 7) pixels = [(0, 0)] ++ (1, 4) :: []
      ∧ (∀ p ∈ [(0, 0)], pixels.platform.rejects (pixels.srcAddr.toNat + p.1) .read = false)
      ∧ pixels.platform.rejects (pixels.srcAddr.toNat + 1) .read = true
      ∧ ∀ k < 4, pixels.platform.rejects (pixels.dstAddr.toNat + storedPlace (.pixDec 7) pixels k) .write = false :=
  ⟨⟨⟨_, rfl, by decide +kernel⟩, by decide +kernel, by decide +kernel⟩, ⟨_, rfl, by decide +kernel⟩, by decide +kernel,
    by decide +kernel, by decide +kernel, by decide +kernel⟩
theorem witness_MemRead : ∀ j < 8, (start []).env.platform.rejects (0x1000 + j) .read = false := by decide
theorem witness_MemWrite : ∀ j < 8, (start []).env.platform.rejects (0x8000 + j) .write = false := by decide
theorem witness_SwizzleAddress :
    let s : State := { start [] with param0 := 0xFFFFFFFF, param1 := 8 }
    ((3 : BitVec 4).toNat < 4 ∧ s.param1.toNat ≠ 0 ∧ s.param1.toNat % 8 = 0)
      ∧ (start []).param1.toNat = 0 ∧ ({ start [] with param1 := 12 } : State).param1.toNat % 8 ≠ 0
      ∧ 4 ≤ (4 : BitVec 4).toNat := by decide
theorem witness_TextureDimensions :
    let s : State := { start [] with param0 := 0x80000001 }
    (s.param0.toNat % 65536 = 1 ∧ s.param0.toNat / 65536 = 32768 ∧ (3 : BitVec 4).toNat < 4)
      ∧ ({ start [] with param0 := 0x80018001 } : State).param0.toNat % 65536 = 32769
      ∧ ({ start [] with param0 := 0x80018001 } : State).param0.toNat / 65536 = 32769
      ∧ (start []).param0.toNat % 65536 = 0 ∧ 4 ≤ (4 : BitVec 4).toNat := by decide
theorem witness_NopSucceeds :
    BitVec.extractLsb' 0 8 0x00000100#32 = 0 ∧ 0x00000100#32 ≠ 0 ∧ (start []).status.busy = false
      ∧ (start []).status.wbusy = false ∧ (start []).agenda = [] := by decide
theorem witness_AddressBijection : 0 < 8 ∧ 0 < 24 ∧ 8 ∣ 8 ∧ 8 ∣ 24 ∧ 191 < 8 * 24 ∧ 63 < 8 * 8 ∧ 23 < 24 := by decide

/-- An RLE body with a run and a literal group. -/
theorem rleBody_example : RleBody [0x80, 5, 1, 6, 7] [5, 5, 5, 6, 7] :=
  ⟨[.run 3 5, .literals [6, 7]], by decide, by decide, by decide⟩
/-- The same bytes as LZ10: two groups would need nine tokens; here a literal, a back-reference, and two literals. -/
theorem lz10Body_example : Lz10Body [0x40, 5, 0x00, 0, 6, 7] [5, 5, 5, 5, 6, 7] :=
  ⟨[⟨0x40, [.literal 5, .back 1 3, .literal 6, .literal 7]⟩], by decide, by decide, by decide, by decide +kernel⟩
theorem lz11Body_example : Lz11Body [0x40, 5, 0x20, 0] [5, 5, 5, 5] :=
  ⟨[⟨0x40, [.literal 5, .back 1 3]⟩], by decide, by decide, by decide, by decide +kernel⟩
theorem huffBody_example : HuffBody true [2, 0x80, 0x41, 0xC0, 0x42, 0x43, 0, 0, 0, 0x58] [0x41, 0x42, 0x43, 0x41] :=
  .inr ⟨[2, 0x80, 0x41, 0xC0, 0x42, 0x43], [0x58000000], [[false], [true, false], [true, true], [false]],
    [0x41, 0x42, 0x43, 0x41], by decide +kernel, by decide +kernel, by decide +kernel, by decide +kernel,
    by decide +kernel, by decide, by decide⟩
theorem huffBody_nibbles_example : HuffBody false [1, 0xC0, 3, 0xC, 0, 0, 0, 0x40] [0xC3] :=
  .inr ⟨[1, 0xC0, 3, 0xC], [0x40000000], [[false], [true]], [3, 0xC], by decide +kernel, by decide +kernel,
    by decide +kernel, by decide +kernel, by decide +kernel, by decide, by decide +kernel⟩

theorem witness_RleDecompresses :
    let s : State := { start [0x80, 5, 1, 6, 7] with param0 := 5, dstLen := 5 }
    RleBody [0x80, 5, 1, 6, 7] [5, 5, 5, 6, 7] ∧ s.BuffersUsable ∧ s.BusAccepts
      ∧ s.mem.Holds s.srcAddr.toNat [0x80, 5, 1, 6, 7] ∧ 5 ≤ s.srcLen.toNat ∧ s.param0.toNat = 5 ∧ 5 ≤ s.dstLen.toNat :=
  ⟨rleBody_example, usable (by decide), accepts rfl, holds_of (by decide +kernel), by decide, by decide, by decide⟩
theorem witness_Lz10Decompresses :
    let s : State := { start [0x10, 6, 0, 0, 0x40, 5, 0x00, 0, 6, 7] with dstLen := 6 }
    Lz10Body [0x40, 5, 0x00, 0, 6, 7] [5, 5, 5, 5, 6, 7] ∧ s.BuffersUsable ∧ s.BusAccepts
      ∧ s.mem.Holds s.srcAddr.toNat (0x10#8 :: littleBytes 3 6 ++ [0x40, 5, 0x00, 0, 6, 7]) ∧ 4 + 6 ≤ s.srcLen.toNat
      ∧ 6 ≤ s.dstLen.toNat :=
  ⟨lz10Body_example, usable (by decide), accepts rfl, holds_of (by decide +kernel), by decide, by decide⟩
theorem witness_Lz11Decompresses :
    let s : State := { start [0, 4, 0, 0, 0x40, 5, 0x20, 0] with dstLen := 4 }
    Lz11Body [0x40, 5, 0x20, 0] [5, 5, 5, 5] ∧ s.BuffersUsable ∧ s.BusAccepts
      ∧ s.mem.Holds s.srcAddr.toNat (0x00#8 :: littleBytes 3 4 ++ [0x40, 5, 0x20, 0]) ∧ 4 + 4 ≤ s.srcLen.toNat
      ∧ 4 ≤ s.dstLen.toNat :=
  ⟨lz11Body_example, usable (by decide), accepts rfl, holds_of (by decide +kernel), by decide, by decide⟩
theorem witness_HuffmanDecompresses_wide :
    let s : State := { start [2, 0x80, 0x41, 0xC0, 0x42, 0x43, 0, 0, 0, 0x58] with param0 := 4, dstLen := 4 }
    s.BuffersUsable ∧ s.BusAccepts ∧ s.mem.Holds s.srcAddr.toNat [2, 0x80, 0x41, 0xC0, 0x42, 0x43, 0, 0, 0, 0x58]
      ∧ s.param0.toNat = 4 ∧ 4 ≤ s.dstLen.toNat
      ∧ HuffBody true [2, 0x80, 0x41, 0xC0, 0x42, 0x43, 0, 0, 0, 0x58] [0x41, 0x42, 0x43, 0x41] :=
  ⟨usable (by decide), accepts rfl, holds_of (by decide +kernel), by decide, by decide, huffBody_example⟩
theorem witness_HuffmanDecompresses_nibbles :
    let s : State := { start [1, 0xC0, 3, 0xC, 0, 0, 0, 0x40] with param0 := 1, dstLen := 1 }
    s.BuffersUsable ∧ s.BusAccepts ∧ s.mem.Holds s.srcAddr.toNat [1, 0xC0, 3, 0xC, 0, 0, 0, 0x40]
      ∧ s.param0.toNat = 1 ∧ 1 ≤ s.dstLen.toNat ∧ HuffBody false [1, 0xC0, 3, 0xC, 0, 0, 0, 0x40] [0xC3] :=
  ⟨usable (by decide), accepts rfl, holds_of (by decide +kernel), by decide, by decide, huffBody_nibbles_example⟩
theorem witness_ContainerDecompresses :
    let s : State := { start [0x2C, 0, 0, 0, 0x80, 5, 1, 6, 7] with dstLen := 5 }
    ContainerBody 4 [0x80, 5, 1, 6, 7] [5, 5, 5, 6, 7] ∧ s.BuffersUsable ∧ s.BusAccepts
      ∧ s.mem.Holds s.srcAddr.toNat (littleBytes 4 (8 * 5 + 4) ++ [0x80, 5, 1, 6, 7]) ∧ 4 + 5 ≤ s.srcLen.toNat
      ∧ 5 ≤ s.dstLen.toNat :=
  ⟨rleBody_example, usable (by decide), accepts rfl, holds_of (by decide +kernel), by decide, by decide⟩
theorem witness_ContainerDecompresses_methods :
    ContainerBody 0 [7] [7] ∧ ContainerBody 1 [0x40, 5, 0x00, 0, 6, 7] [5, 5, 5, 5, 6, 7]
      ∧ ContainerBody 2 [1, 0xC0, 3, 0xC, 0, 0, 0, 0x40] [0xC3]
      ∧ ContainerBody 3 [2, 0x80, 0x41, 0xC0, 0x42, 0x43, 0, 0, 0, 0x58] [0x41, 0x42, 0x43, 0x41] :=
  ⟨rfl, lz10Body_example, huffBody_nibbles_example, huffBody_example⟩
theorem witness_SuccessMeansWholeBody :
    (∃ t, exec .rleDec { start [0, 7] with param0 := 1 } = .next t ∧ t.status.errCode = none)
      ∧ (∃ t, exec .lz10Dec (start [0x10, 1, 0, 0, 0, 7]) = .next t ∧ t.status.errCode = none)
      ∧ (∃ t, exec .lz11Dec (start [0x11, 1, 0, 0, 0, 7]) = .next t ∧ t.status.errCode = none)
      ∧ (∃ t, exec (if false then .huff8Dec else .huff4Dec)
          { start [1, 0xC0, 3, 0xC, 0, 0, 0, 0x40] with param0 := 1 } = .next t ∧ t.status.errCode = none)
      ∧ (∃ t, exec (if true then .huff8Dec else .huff4Dec)
          { start [2, 0x80, 0x41, 0xC0, 0x42, 0x43, 0, 0, 0, 0x58] with param0 := 4 } = .next t
          ∧ t.status.errCode = none)
      ∧ ∃ t, exec .contDec (start [0x0C, 0, 0, 0, 0, 7]) = .next t ∧ t.status.errCode = none :=
  ⟨⟨_, rfl, by decide +kernel⟩, ⟨_, rfl, by decide +kernel⟩, ⟨_, rfl, by decide +kernel⟩, ⟨_, rfl, by decide +kernel⟩,
    ⟨_, rfl, by decide +kernel⟩, ⟨_, rfl, by decide +kernel⟩⟩
theorem witness_TexelRoundTrip : 2 ^ 32 - 1 < 256 ^ 4 ∧ 255 < 256 ^ 1 ∧ 15 < 16 := by decide
theorem witness_PixelDecode :
    let s : State := { start [0xA5] with dstLen := 8 }
    pixelFormatOf 10 = some .l4 ∧ s.BuffersUsable ∧ s.BusAccepts ∧ 4 * pixelCount .l4 s.srcLen.toNat ≤ s.dstLen.toNat :=
  ⟨rfl, usable (by decide), accepts rfl, by decide⟩
theorem witness_PixelEncode :
    let s : State := { start (List.replicate 64 9) with param0 := 16, dstLen := 16 }
    pixelFormatOf 13 = some .etc1a4 ∧ s.BuffersUsable ∧ s.BusAccepts ∧ s.param0.toNat % 16 = 0
      ∧ 4 * s.param0.toNat ≤ s.srcLen.toNat ∧ encodedSize .etc1a4 s.param0.toNat ≤ s.dstLen.toNat :=
  ⟨rfl, usable (by decide), accepts rfl, by decide, by decide, by decide⟩
theorem witness_CallerOrder : 0 < 16 ∧ 15 < 16 := by decide
theorem witness_BlockDecode :
    let s : State := { start (List.replicate 16 9) with dstLen := 64 }
    s.BuffersUsable ∧ s.BusAccepts ∧ 16 ≤ s.srcLen.toNat ∧ 64 ≤ s.dstLen.toNat :=
  ⟨usable (by decide), accepts rfl, by decide, by decide⟩
theorem witness_BlockEncode :
    let s : State := { start (List.replicate 64 9) with dstLen := 16 }
    s.BuffersUsable ∧ s.BusAccepts ∧ 64 ≤ s.srcLen.toNat ∧ 16 ≤ s.dstLen.toNat :=
  ⟨usable (by decide), accepts rfl, by decide, by decide⟩
/-- Sixteen equal pixels, and sixteen of which one has another red. -/
theorem witness_BlockEncode_colours :
    let equal := List.replicate 16 (Pixel.ofNat 1 2 3 4)
    let other := Pixel.ofNat 0 2 3 4 :: List.replicate 15 (Pixel.ofNat 1 2 3 4)
    equal.length = 16 ∧ (blockOrder equal).map Pixel.rgb = List.replicate 16 ⟨1, 2, 3⟩
      ∧ other.length = 16 ∧ ∀ c, (blockOrder other).map Pixel.rgb ≠ List.replicate 16 c := by
  refine ⟨by decide, by decide, by decide, fun c h => ?_⟩
  have h0 := congrArg (fun l => l[0]?) h
  have h1 := congrArg (fun l => l[1]?) h
  exact absurd (h0.trans h1.symm) (by decide)
theorem witness_EncodeErrorIsDecodeError : (List.replicate 16 (Pixel.ofNat 1 2 3 4)).length = 16 := by decide
/-- Choices at both ends of the combinations and of the levels; two of them tie. -/
theorem witness_SolidBlockIsLeast :
    let x : SolidChoice := ⟨false, 0, 0, ⟨0, 0, 0⟩⟩
    let y : SolidChoice := ⟨true, 0, 0, ⟨0, 0, 0⟩⟩
    let z : SolidChoice := ⟨true, 7, 3, ⟨31, 31, 31⟩⟩
    (x.table < 8 ∧ x.selector < 4 ∧ LegalBase x.diff none x.base)
      ∧ (z.table < 8 ∧ z.selector < 4 ∧ LegalBase z.diff none z.base)
      ∧ x.cost ⟨0, 0, 0⟩ = y.cost ⟨0, 0, 0⟩ ∧ x.number < y.number ∧ z.number = 63 :=
  ⟨⟨by decide, by decide, by decide, fun _ h => by cases h⟩, ⟨by decide, by decide, by decide, fun _ h => by cases h⟩,
    by decide, by decide, by decide⟩
/-- A start base that fits; a base held five levels away, so that no candidate is near; one held so far that there is
none. -/
theorem witness_SearchFindsLeastNearby :
    NearFits [⟨9, 9, 9⟩] false none
      ∧ (¬ NearFits [⟨0, 0, 0⟩] true (some ⟨9, 0, 0⟩) ∧ ∃ c t, Candidate [⟨0, 0, 0⟩] true (some ⟨9, 0, 0⟩) 8 c t)
      ∧ (∀ c t, ¬ Candidate [⟨0, 0, 0⟩] true (some ⟨100, 0, 0⟩) 8 c t)
      ∧ (⟨9, 9, 9⟩, 0) ∈ [(⟨9, 9, 9⟩ : Rgb)].zip [0] := by
  refine ⟨⟨⟨0, 0, 0⟩, 0, ⟨⟨by decide, fun _ h => by cases h⟩, by decide, by decide⟩, by decide +kernel⟩, ⟨?_, ?_⟩, ?_,
    by decide⟩
  · rintro ⟨c, t, ⟨⟨-, hr⟩, -, hd⟩, -⟩
    have h : -4 ≤ c.r - 9 := (hr _ rfl).1
    have e : startBase [⟨0, 0, 0⟩] true = ⟨0, 0, 0⟩ := by decide
    rw [e] at hd
    simp only [baseDistance] at hd
    omega
  · exact ⟨⟨5, 0, 0⟩, 0, ⟨by decide, fun _ h => by cases h; decide⟩, by decide, by decide⟩
  · rintro c t ⟨⟨hl, hr⟩, -, -⟩
    have h : -4 ≤ c.r - 100 := (hr _ rfl).1
    simp only [levels, if_true] at hl
    omega
theorem witness_TextureDecode :
    let s : State := { start (List.replicate 64 9) with param0 := 0x00010002, dstLen := 8 }
    pixelFormatOf 7 = some .l8 ∧ swizzleModeOf 2 = some .rotate90 ∧ s.param0.toNat % 65536 = 2
      ∧ s.param0.toNat / 65536 = 1 ∧ padDim 2 true = 8 ∧ padDim 1 true = 8 ∧ 8 * 8 ≤ pixelCount .l8 s.srcLen.toNat
      ∧ 4 * 2 * 1 ≤ s.dstLen.toNat ∧ s.BuffersUsable ∧ s.BusAccepts :=
  ⟨rfl, rfl, by decide, by decide, by decide +kernel, by decide +kernel, by decide, by decide, usable (by decide),
    accepts rfl⟩
theorem witness_TextureEncode :
    let s : State := { start (List.replicate 8 9) with param0 := 0x00010002, dstLen := 32 }
    pixelFormatOf 12 = some .etc1 ∧ swizzleModeOf 2 = some .rotate90 ∧ s.param0.toNat % 65536 = 2
      ∧ s.param0.toNat / 65536 = 1 ∧ padDim 2 true = 8 ∧ padDim 1 true = 8 ∧ 4 * 2 * 1 ≤ s.srcLen.toNat
      ∧ encodedSize .etc1 (8 * 8) ≤ s.dstLen.toNat ∧ s.BuffersUsable ∧ s.BusAccepts :=
  ⟨rfl, rfl, by decide, by decide, by decide +kernel, by decide +kernel, by decide, by decide, usable (by decide),
    accepts rfl⟩

end Sys2Proof.Tests
end

section
/-! PROOFS. What the moves of Machine/HostPort.lean do, one rule for each: the register accesses, the memory accesses of a
bus master, and the agenda they come from. -/
namespace Sys2Proof.Machine

open Sys2Proof.Reference

/-! ## The agenda -/

theorem step_of_agenda_nil {s : State} (h : s.agenda = []) :
    step s = if s.status.busy then engineStep s else .next s := by
  rw [step, nextMove, h]

theorem step_of_agenda_cons {s : State} {e : Event} {rest : List Event} (h : s.agenda = e :: rest) :
    step s = playEvent { s with agenda := rest } e := by
  rw [step, nextMove, h]

/-- A move put in front of the agenda is played on the state as it was. -/
theorem step_cons_agenda (s : State) (e : Event) : step { s with agenda := e :: s.agenda } = playEvent s e :=
  step_of_agenda_cons rfl

/-! ## Register accesses -/

theorem registerAccessLegal_iff {o : BitVec 8} {w : AccessWidth} :
    registerAccessLegal o w = true ↔ w = .word ∧ o.toNat % 4 = 0 := by
  simp [registerAccessLegal]

theorem playEvent_regWrite_legal (s : State) {o : BitVec 8} {w : AccessWidth} (v : Word)
    (h : w = .word ∧ o.toNat % 4 = 0) : playEvent s (.regWrite o w v) = .next (s.writeOffset o v) :=
  if_pos (registerAccessLegal_iff.mpr h)

theorem playEvent_regWrite_misshapen (s : State) {o : BitVec 8} {w : AccessWidth} (v : Word)
    (h : ¬ (w = .word ∧ o.toNat % 4 = 0)) : playEvent s (.regWrite o w v) = .refused .registerAccessShape :=
  if_neg (mt registerAccessLegal_iff.mp h)

theorem playEvent_regRead_legal (s : State) {o : BitVec 8} {w : AccessWidth} (h : w = .word ∧ o.toNat % 4 = 0) :
    playEvent s (.regRead o w) = .next (s.hostReadReg o) :=
  if_pos (registerAccessLegal_iff.mpr h)

theorem playEvent_regRead_misshapen (s : State) {o : BitVec 8} {w : AccessWidth}
    (h : ¬ (w = .word ∧ o.toNat % 4 = 0)) : playEvent s (.regRead o w) = .refused .registerAccessShape :=
  if_neg (mt registerAccessLegal_iff.mp h)

theorem hostWrite_aligned (s : State) {o : BitVec 8} (v : Word) (h : o.toNat % 4 = 0) :
    hostWrite s o v = .next (s.writeOffset o v) :=
  (step_cons_agenda s _).trans (playEvent_regWrite_legal s v ⟨rfl, h⟩)

theorem hostRead_aligned (s : State) {o : BitVec 8} (h : o.toNat % 4 = 0) :
    hostRead s o = .next (s.hostReadReg o) :=
  (step_cons_agenda s _).trans (playEvent_regRead_legal s ⟨rfl, h⟩)

@[simp] theorem regAt_regOffset (r : Reg) : regAt (regOffset r) = some r := by cases r <;> rfl

theorem regOffset_aligned (r : Reg) : (regOffset r).toNat % 4 = 0 := by cases r <;> rfl

/-- The offsets after ERR_INFO are reserved (10_state.md R20). -/
theorem regAt_reserved {o : BitVec 8} (h : 0x34 ≤ o.toNat) : regAt o = none := by
  unfold regAt
  split
  case h_14 => rfl
  all_goals omega

theorem hostWrite_regOffset (s : State) (r : Reg) (v : Word) :
    hostWrite s (regOffset r) v = .next (s.writeReg r v) := by
  rw [hostWrite_aligned s v (regOffset_aligned r), State.writeOffset, regAt_regOffset]

theorem hostRead_regOffset (s : State) (r : Reg) : hostRead s (regOffset r) = .next (s.hostReadReg (regOffset r)) :=
  hostRead_aligned s (regOffset_aligned r)

/-- A read leaves the windows, or it is the read of STATUS that shows DONE = 1 and closes them. -/
theorem State.hostReadReg_cases (s : State) (o : BitVec 8) :
    ((regAt o = some .status ∧ s.status.done = true)
        ∧ s.hostReadReg o = ({ s with readData := s.readOffset o } : State).closeWindows)
      ∨ (¬ (regAt o = some .status ∧ s.status.done = true) ∧ s.hostReadReg o = { s with readData := s.readOffset o }) := by
  by_cases h : regAt o = some .status ∧ s.status.done = true
  · exact .inl ⟨h, if_pos h⟩
  · exact .inr ⟨h, if_neg h⟩

theorem State.hostReadReg_readData (s : State) (o : BitVec 8) : (s.hostReadReg o).readData = s.readOffset o := by
  rcases s.hostReadReg_cases o with ⟨-, h⟩ | ⟨-, h⟩ <;> rw [h]
  rfl

@[simp] theorem State.readOffset_regOffset (s : State) (r : Reg) : s.readOffset (regOffset r) = s.readReg r := by
  rw [State.readOffset, regAt_regOffset]

/-- No register read changes a register (10_state.md R20 to R29). -/
theorem State.hostReadReg_same (s : State) (o : BitVec 8) : SameRegistersAndMemory s (s.hostReadReg o) := by
  rcases s.hostReadReg_cases o with ⟨-, h⟩ | ⟨-, h⟩ <;> rw [h] <;>
    exact ⟨rfl, rfl, rfl, rfl, rfl, rfl, rfl, rfl, rfl, rfl, rfl, rfl, rfl, rfl, rfl⟩

/-- A read of a register answers its value and changes no register. -/
theorem hostRead_register (s : State) (r : Reg) :
    ∃ t, hostRead s (regOffset r) = .next t ∧ t.readData = s.readReg r ∧ SameRegistersAndMemory s t :=
  ⟨_, hostRead_regOffset s r, by rw [State.hostReadReg_readData, State.readOffset_regOffset], s.hostReadReg_same _⟩

theorem State.hostReadReg_status_windows (s : State) :
    (s.hostReadReg (regOffset .status)).windows = if s.status.done then [] else s.windows := by
  rcases s.hostReadReg_cases (regOffset .status) with ⟨⟨-, hd⟩, h⟩ | ⟨hn, h⟩ <;> rw [h]
  · rw [hd]
    rfl
  · have hd : s.status.done = false := by simpa using hn
    rw [hd]
    rfl

/-- A write that a running command does not lose. -/
theorem State.guarded_idle {s : State} (written : State) (h : s.status.busy = false) : s.guarded written = written := by
  simp [State.guarded, h]

theorem State.guarded_busy {s : State} (written : State) (h : s.status.busy = true) :
    s.guarded written = { s with status := s.status.lostWrite } := by
  simp [State.guarded, h]

theorem State.writeCtrl_reset (s : State) {v : Word} (h : v.getLsbD 1 = true) : s.writeCtrl v = s.resetCore :=
  if_pos h

theorem State.writeCtrl_enable (s : State) {v : Word} (h : v.getLsbD 1 = false) :
    s.writeCtrl v = { s with ctrl := { irqEn := v.getLsbD 0 } } :=
  if_neg (ne_true_of_eq_false h)

/-! ## Memory accesses -/

theorem State.registerWindow_has (s : State) (a : Nat) :
    s.platform.registerWindow.has a = true ↔ s.regBase ≤ a ∧ a < s.regBase + 256 :=
  Buffer.has_iff _ a

theorem State.registerWindow_has_outside {s : State} {a : Nat} (h : a < s.regBase ∨ s.regBase + 256 ≤ a) :
    s.platform.registerWindow.has a = false := by
  rw [← Bool.not_eq_true, State.registerWindow_has]
  omega

theorem playEvent_memWrite_outside {s : State} {a : Word} (v : Byte)
    (h : a.toNat < s.regBase ∨ s.regBase + 256 ≤ a.toNat) :
    playEvent s (.memWrite a v) = .next (s.hostWriteByte a.toNat v) := by
  simp [playEvent, State.registerWindow_has_outside h]

theorem playEvent_memRead_outside {s : State} {a : Word} (h : a.toNat < s.regBase ∨ s.regBase + 256 ≤ a.toNat) :
    playEvent s (.memRead a) = .next (s.hostReadByte a.toNat) := by
  simp [playEvent, State.registerWindow_has_outside h]

theorem playEvent_memWrite_inside {s : State} {a : Word} (v : Byte)
    (h : s.regBase ≤ a.toNat ∧ a.toNat < s.regBase + 256) :
    playEvent s (.memWrite a v) = .refused .registerAccessShape :=
  if_pos ((s.registerWindow_has _).mpr h)

theorem playEvent_memRead_inside {s : State} {a : Word} (h : s.regBase ≤ a.toNat ∧ a.toNat < s.regBase + 256) :
    playEvent s (.memRead a) = .refused .registerAccessShape :=
  if_pos ((s.registerWindow_has _).mpr h)

theorem State.outputHidden_eq_false {s : State} {a : Nat} :
    s.outputHidden a = false ↔ ∀ w ∈ s.windows, w.output.has a = false := by
  simp [State.outputHidden]

/-- A byte that no recorded output buffer holds is read as it is. -/
theorem State.hostReadByte_unhidden {s : State} {a : Nat} (h : s.outputHidden a = false) :
    s.hostReadByte a = { s with readData := (s.mem.read a).setWidth 32 } := by
  simp [State.hostReadByte, h]

theorem State.hostReadByte_hidden {s : State} {a : Nat} (h : s.outputHidden a = true) :
    s.hostReadByte a
      = ({ s with readData := (Config.freeByte s.draws a).setWidth 32, draws := s.draws + 1 } : State).touch .read a := by
  simp [State.hostReadByte, h]

/-- A read of a byte that no recorded output buffer holds. -/
theorem step_memRead_unhidden {s : State} {a : Word} (ha : a.toNat < s.regBase ∨ s.regBase + 256 ≤ a.toNat)
    (h : ∀ w ∈ s.windows, w.output.has a.toNat = false) :
    step { s with agenda := .memRead a :: s.agenda } = .next { s with readData := (s.mem.read a.toNat).setWidth 32 } := by
  rw [step_cons_agenda, playEvent_memRead_outside ha, State.hostReadByte_unhidden (State.outputHidden_eq_false.mpr h)]

/-- What a write can break: the window of either buffer; what a read can: that of the output buffer. -/
theorem Window.brokenBy_write (w : Window) (a : Nat) :
    w.brokenBy .write a = true ↔ w.input.has a = true ∨ w.output.has a = true := by
  simp [Window.brokenBy, or_comm]

theorem Window.brokenBy_read (w : Window) (a : Nat) : w.brokenBy .read a = w.output.has a := by
  simp [Window.brokenBy]

/-! ## The interrupt -/

theorem State.takeInterrupt_asserted {s : State} (h : s.irq = true) :
    s.takeInterrupt = ({ s with readData := 1 } : State).closeWindows := by
  simp [State.takeInterrupt, h]

theorem State.takeInterrupt_quiet {s : State} (h : s.irq = false) : s.takeInterrupt = { s with readData := 0 } := by
  simp [State.takeInterrupt, h]

/-- Sampling IRQ returns it, changes no register and closes the windows where it is asserted. -/
theorem State.takeInterrupt_same (s : State) :
    SameRegistersAndMemory s s.takeInterrupt ∧ s.takeInterrupt.readData = (if s.irq then 1 else 0)
      ∧ s.takeInterrupt.windows = if s.irq then [] else s.windows := by
  cases h : s.irq
  · rw [State.takeInterrupt_quiet h]
    exact ⟨⟨rfl, rfl, rfl, rfl, rfl, rfl, rfl, rfl, rfl, rfl, rfl, rfl, rfl, rfl, rfl⟩, rfl, rfl⟩
  · rw [State.takeInterrupt_asserted h]
    exact ⟨⟨rfl, rfl, rfl, rfl, rfl, rfl, rfl, rfl, rfl, rfl, rfl, rfl, rfl, rfl, rfl⟩, rfl, rfl⟩

/-! ## What a touch changes -/

/-- While a command runs, a touch marks its window; besides that only memory and the count of draws change. -/
theorem State.touch_busy {s : State} (d : Direction) (a : Nat) (h : s.status.busy = true) :
    ∃ m n, s.touch d a = { s with windows := s.windows.modifyHead (·.touched d a), mem := m, draws := n } := by
  rcases s.touch_cases d a with ⟨hw, he⟩ | ⟨w, ws, hw, ⟨-, he⟩ | ⟨hb, -⟩ | ⟨hb, -⟩⟩
  · exact ⟨s.mem, s.draws, by rw [he, hw, List.modifyHead_nil, ← hw]⟩
  · obtain ⟨m, n, hs⟩ := State.spoilEnded_same d a ws { s with windows := w.touched d a :: ws }
    exact ⟨m, n, by rw [he, hs, hw, List.modifyHead_cons]⟩
  · exact absurd h (by simp [hb])
  · exact absurd h (by simp [hb])

/-- While none runs, a touch changes at most the results, memory and the count of draws. -/
theorem State.touch_idle {s : State} (d : Direction) (a : Nat) (h : s.status.busy = false) :
    ∃ m n r0 r1 e, s.touch d a = { s with mem := m, draws := n, result0 := r0, result1 := r1, errInfo := e } := by
  rcases s.touch_cases d a with ⟨-, he⟩ | ⟨w, ws, -, ⟨hb, -⟩ | ⟨-, -, he⟩ | ⟨-, -, he⟩⟩
  · exact ⟨_, _, _, _, _, he⟩
  · exact absurd h (by simp [hb])
  · obtain ⟨m, n, hs⟩ := State.spoilEnded_same d a (w :: ws) s
    exact ⟨_, _, _, _, _, by rw [he, hs]; rfl⟩
  · obtain ⟨m, n, hs⟩ := State.spoilEnded_same d a ws s
    exact ⟨_, _, _, _, _, by rw [he, hs]⟩

end Sys2Proof.Machine
end

section
/-! PROOFS. What every command's end leaves, whichever way it ends (`State.Ended`), and where the bytes of memory stay
(`Platform.Fits`): each shared operation once, then `exec` and the engine step. -/
namespace Sys2Proof.Machine

/-! ## Memory that fits the platform -/

/-- The memory is in canonical form and lists only bytes of memory: the part of `State.Inv` that speaks of memory. -/
structure Platform.Fits (p : Platform) (m : Memory) : Prop where
  canonical : m.wf = true
  placed : ∀ c ∈ m, p.isMemory c.1 = true

theorem State.Inv.fits {s : State} (h : s.Inv) : s.platform.Fits s.mem := ⟨h.canonical, h.placed⟩

theorem Platform.Fits.write {p : Platform} {m : Memory} (h : p.Fits m) {a : Nat} (v : Byte) (ha : p.isMemory a = true) :
    p.Fits (m.write a v) :=
  ⟨Memory.wf_write _ _ h.canonical, Memory.placed_write (p := fun a => p.isMemory a = true) v h.placed (.inl ha)⟩

theorem Platform.Fits.mix {p : Platform} {m ideal : Memory} (h : p.Fits m) (hi : p.Fits ideal) (pick : Nat → Bool)
    (len a : Nat) : p.Fits (Memory.mix pick ideal len a m) :=
  ⟨Memory.wf_mix _ _ _ _ h.canonical,
    Memory.placed_mix (p := fun a => p.isMemory a = true) _ _ _ (Memory.placed_of_read hi.placed) h.placed⟩

theorem Platform.Fits.freeBytes {s : State} (h : s.platform.Fits s.mem) (b : Buffer) :
    s.platform.Fits (s.freeBytes b) :=
  ⟨State.wf_freeBytes b h.canonical, State.placed_freeBytes b h.placed⟩

theorem Platform.Fits.spoilEnded {s : State} (h : s.platform.Fits s.mem) (d : Direction) (a : Nat) (ws : List Window) :
    s.platform.Fits (s.spoilEnded d a ws).mem := by
  unfold State.spoilEnded
  generalize ws.filter _ = l
  induction l generalizing s with
  | nil => exact h
  | cons w l ih => exact ih (s := s.spoilBytes w.output) (h.freeBytes w.output)

theorem Platform.Fits.touch {s : State} (h : s.platform.Fits s.mem) (d : Direction) (a : Nat) :
    s.platform.Fits (s.touch d a).mem := by
  rcases s.touch_cases d a with ⟨-, he⟩ | ⟨w, ws, -, ⟨-, he⟩ | ⟨-, -, he⟩ | ⟨-, -, he⟩⟩ <;> rw [he]
  · exact h
  · exact Platform.Fits.spoilEnded (s := { s with windows := w.touched d a :: ws }) h d a ws
  · exact h.spoilEnded d a (w :: ws)
  · exact h.spoilEnded d a ws

/-- The output bytes of a command that passed the buffer checks are bytes of memory (20_memory.md R65). -/
theorem Env.output_isMemory {env : Env} (hl : env.buffersLegal = true) {b : Nat} (hb : env.output.has b = true) :
    env.platform.isMemory b = true := by
  simp only [Env.buffersLegal, Bool.not_eq_true', Bool.or_eq_false_iff] at hl
  obtain ⟨⟨⟨⟨-, hwraps⟩, -⟩, hmeets⟩, -⟩ := hl
  rw [← Bool.not_eq_true, Buffer.wraps_iff] at hwraps
  rw [← Bool.not_eq_true, Buffer.meets_iff] at hmeets
  rw [Buffer.has_iff] at hb
  rw [Platform.isMemory_iff]
  simp only [Platform.registerWindow, Config.windowSize] at hmeets
  omega

/-- A command's working memory fits the platform if the memory it started with does. -/
theorem Within.fits {env : Env} {m : Memory} {w : Work} (h : Within env m w) (hm : env.platform.Fits m) :
    env.platform.Fits w.mem := by
  refine ⟨h.wf hm.canonical, ?_⟩
  cases hl : env.buffersLegal with
  | true => exact h.placed (fun a => env.platform.isMemory a = true) hm.placed fun b => env.output_isMemory hl
  | false =>
    rw [h.quiet hl]
    exact hm.placed

/-! ## The outcome of a body -/

/-- Whether a body ends with its results or raises, its working state is within the output buffer. -/
theorem CommandKeeps.within {corrupt : Bool} {body : Env → Eng (Nat × Nat)} (h : CommandKeeps corrupt body) (env : Env)
    (m : Memory) : Within env m (body env (Work.start m)).2 := by
  have hs := h env m _ (Untouched.start env m)
  rcases hb : body env (Work.start m) with ⟨r | v, w⟩ <;> rw [hb] at hs
  · exact hs.within
  · exact hs

/-- Every command is the end of a body that keeps `CommandKeeps`. -/
theorem exec_eq_afterCommand (i : Instr) :
    ∃ body, (∀ s, exec i s = .next (s.afterCommand body)) ∧ CommandKeeps (decompresses i) body :=
  command_keeps i

/-! ## The end of a command -/

/-- `t` is `s` after the end of a command: STATUS says that it ended and how, the other registers but the results stay,
and memory changes in the output buffer only and goes on fitting the platform. -/
structure State.Ended (s t : State) : Prop where
  same : s.SameBesidesEnd t
  busy : t.status.busy = false
  done : t.status.done = true
  wbusy : t.status.wbusy = s.status.wbusy
  error : t.status.error = t.status.errCode.isSome
  outside : ∀ b, s.env.output.has b = false → t.mem.read b = s.mem.read b
  fits : s.platform.Fits s.mem → s.platform.Fits t.mem

theorem State.Succeeded.ended {s t : State} {r0 r1 : Nat} (h : s.Succeeded t r0 r1)
    (outside : ∀ b, s.env.output.has b = false → t.mem.read b = s.mem.read b)
    (fits : s.platform.Fits s.mem → s.platform.Fits t.mem) : s.Ended t := by
  refine ⟨h.same, ?_, ?_, ?_, ?_, outside, fits⟩ <;> rw [h.status]
  rfl

theorem State.Failed.ended {s t : State} {e : Err} {stored info : Nat} (h : s.Failed t e stored info)
    (outside : ∀ b, s.env.output.has b = false → t.mem.read b = s.mem.read b)
    (fits : s.platform.Fits s.mem → s.platform.Fits t.mem) : s.Ended t := by
  refine ⟨h.same, ?_, ?_, ?_, ?_, outside, fits⟩ <;> rw [h.status]
  rfl

/-- The end of a body that stays within its output buffer. After a BusFault the further bytes that may have been stored
are those of the same body on a platform that rejects no access, which stays there as well. -/
theorem CommandKeeps.ended {corrupt : Bool} {body : Env → Eng (Nat × Nat)} (h : CommandKeeps corrupt body) (s : State) :
    s.Ended (s.afterCommand body) := by
  have hw := h.within s.env s.mem
  rcases afterCommand_cases s body with ⟨r0, r1, w, hb, he⟩ | ⟨r, w, hb, -, he⟩ | ⟨r, w, hb, -, he⟩ <;>
    rw [hb] at hw <;> rw [he]
  · exact (endWithSuccess_succeeded s w.mem r0 r1).ended hw.frame hw.fits
  · exact (endWithError_failed s w.mem w.stored r).ended hw.frame hw.fits
  · have hideal := h.within s.env.withoutBusFaults s.mem
    refine (endWithBusFault_failed s w r _).ended (fun b hb => ?_) fun hm => ?_
    · have hout : ¬ (s.dstAddr.toNat ≤ b ∧ b < s.dstAddr.toNat + s.dstLen.toNat) := fun hi =>
        absurd ((Buffer.has_iff s.env.output b).mpr hi) (by simp [hb])
      rw [State.endWithBusFault_mem, Memory.read_mix, if_neg fun hi => hout hi.1, hw.frame b hb]
    · have hfits := hideal.fits ⟨hm.canonical, hm.placed⟩
      exact (hw.fits hm).mix ⟨hfits.canonical, hfits.placed⟩ _ _ _

/-- Every command ends in one step (10_state.md R41). -/
theorem exec_ended (i : Instr) (s : State) : ∃ t, exec i s = .next t ∧ s.Ended t := by
  obtain ⟨body, hexec, hkeeps⟩ := exec_eq_afterCommand i
  exact ⟨_, hexec s, hkeeps.ended s⟩

/-- A success has ERR_INFO 0, an error RESULT1 0 (60_exceptions.md R325). -/
theorem afterCommand_results (s : State) (body : Env → Eng (Nat × Nat)) :
    ((s.afterCommand body).status.errCode = none → (s.afterCommand body).errInfo = 0)
      ∧ ((s.afterCommand body).status.errCode ≠ none → (s.afterCommand body).result1 = 0) := by
  rcases afterCommand_cases s body with ⟨r0, r1, w, -, he⟩ | ⟨r, w, -, -, he⟩ | ⟨r, w, -, -, he⟩ <;> rw [he] <;> simp

/-- What a command ends with does not depend on the moves to come. -/
theorem exec_agenda (i : Instr) (s : State) (rest : List Event) :
    ∃ t, exec i s = .next t ∧ exec i { s with agenda := rest } = .next { t with agenda := rest } := by
  obtain ⟨body, hexec, -⟩ := exec_eq_afterCommand i
  refine ⟨_, hexec s, ?_⟩
  rw [hexec]
  rcases afterCommand_cases s body with ⟨r0, r1, w, hb, he⟩ | ⟨r, w, hb, hr, he⟩ | ⟨r, w, hb, hr, he⟩ <;> rw [he]
  · rw [afterCommand_of_ok (s := { s with agenda := rest }) hb]
    rfl
  · rw [afterCommand_of_error (s := { s with agenda := rest }) hb hr]
    rfl
  · rw [afterCommand_of_busFault (s := { s with agenda := rest }) hb hr]
    rfl

/-! ## The engine step -/

/-- What is unspecified about an end leaves it an end. -/
theorem State.Ended.settled {s t : State} (h : s.Ended t) (i : Instr) : s.Ended (s.settled i t) := by
  obtain ⟨hbusy, hdone, hwbusy, herror⟩ := State.settled_status i h.done h.error
  refine ⟨h.same.settled i, hbusy.trans h.busy, hdone, hwbusy.trans h.wbusy, herror,
    fun b hb => State.settled_read_outside i hb (h.outside b hb), fun hm => ?_⟩
  rcases s.settled_cases i t with ⟨-, he⟩ | ⟨-, -, he⟩ | ⟨-, -, he⟩ <;> rw [he]
  · have ht := h.fits hm
    rw [← h.same.platform] at ht ⊢
    exact ht.freeBytes _
  · rw [← h.same.platform] at hm ⊢
    exact Platform.Fits.freeBytes (s := { t with mem := s.mem }) hm _
  · exact h.fits hm

theorem State.endIllegal_failed (s : State) : s.Failed s.endIllegal .illegalCommand 0 0 :=
  endWithError_failed s s.mem 0 _

theorem State.endIllegal_ended (s : State) : s.Ended s.endIllegal := s.endIllegal_failed.ended (fun _ _ => rfl) id

theorem engineStep_of_ok {s : State} {i : Instr} (h : decode s.cmd = .ok i) : engineStep s = settle s i (exec i s) := by
  rw [engineStep, h]

theorem engineStep_of_error {s : State} {e : DecodeError} (h : decode s.cmd = .error e) :
    engineStep s = .next s.endIllegal := by
  rw [engineStep, h]

/-- A command that is undisturbed and on no device ends as `exec` says. -/
theorem engineStep_undisturbed {s : State} {i : Instr} (h : decode s.cmd = .ok i) (hd : s.disturbed i = false)
    (hv : s.runsOnDevice i = false) : engineStep s = exec i s := by
  obtain ⟨t, he, -⟩ := exec_ended i s
  rw [engineStep_of_ok h, he, settle, State.settled, hd, hv]
  rfl

/-- Every engine step ends the command in CMD, whatever it is (10_state.md R41; 60_exceptions.md R320). -/
theorem engineStep_ended (s : State) : ∃ t, engineStep s = .next t ∧ s.Ended t := by
  cases h : decode s.cmd with
  | error e => exact ⟨_, engineStep_of_error h, s.endIllegal_ended⟩
  | ok i =>
    obtain ⟨t, he, ht⟩ := exec_ended i s
    exact ⟨s.settled i t, by rw [engineStep_of_ok h, he, settle], ht.settled i⟩

/-! ## Reset -/

theorem Platform.Fits.abandon {s : State} (h : s.platform.Fits s.mem) : s.platform.Fits s.abandon.mem := by
  unfold State.abandon
  split
  · obtain ⟨t, he, ht⟩ := engineStep_ended s
    have hm : s.abandonedMemory = Memory.mix (Config.freeChoice s.draws) t.mem s.dstLen.toNat s.dstAddr.toNat s.mem := by
      rw [State.abandonedMemory, he]
    change s.platform.Fits s.abandonedMemory
    rw [hm]
    exact h.mix (ht.fits h) _ _ _
  · exact h

@[simp] theorem State.abandon_platform (s : State) : s.abandon.platform = s.platform := by
  unfold State.abandon
  split <;> rfl

@[simp] theorem State.resetCore_platform (s : State) : s.resetCore.platform = s.platform := s.abandon_platform

end Sys2Proof.Machine
end

section
/-! PROOFS. What a move can do (`State.Moved`), said once for every step, and that each move keeps the invariant of the
machine. -/
namespace Sys2Proof.Machine

/-! ## The moves -/

/-- The moves that are refused: accesses of the register window that are no aligned 32-bit access (10_state.md R20). -/
def State.Misshapen (s : State) : Event → Prop
  | .regWrite o w _ => ¬ (w = .word ∧ o.toNat % 4 = 0)
  | .regRead o w => ¬ (w = .word ∧ o.toNat % 4 = 0)
  | .memWrite a _ => s.regBase ≤ a.toNat ∧ a.toNat < s.regBase + 256
  | .memRead a => s.regBase ≤ a.toNat ∧ a.toNat < s.regBase + 256
  | .takeInterrupt | .resetInput | .engine => False

/-- Where each move that is not refused leads. The engine's turn ends the running command, if there is one. -/
inductive State.Moved (s : State) : Event → State → Prop
  | regWrite (o : BitVec 8) (w : AccessWidth) (v : Word) : s.Moved (.regWrite o w v) (s.writeOffset o v)
  | regRead (o : BitVec 8) (w : AccessWidth) : s.Moved (.regRead o w) (s.hostReadReg o)
  | memWrite (a : Word) (v : Byte) (outside : a.toNat < s.regBase ∨ s.regBase + 256 ≤ a.toNat) :
    s.Moved (.memWrite a v) (s.hostWriteByte a.toNat v)
  | memRead (a : Word) : s.Moved (.memRead a) (s.hostReadByte a.toNat)
  | takeInterrupt : s.Moved .takeInterrupt s.takeInterrupt
  | resetInput : s.Moved .resetInput s.resetCore
  | engine (t : State) (ended : s.Ended t) : s.Moved .engine t
  | idle : s.Moved .engine s

/-- The engine's turn, with moves to come or without. -/
theorem engineTurn_moves (s : State) :
    ∃ t, (if s.status.busy then engineStep s else .next s) = .next t ∧ s.Moved .engine t := by
  cases s.status.busy with
  | false => exact ⟨s, rfl, .idle⟩
  | true =>
    obtain ⟨t, he, ht⟩ := engineStep_ended s
    exact ⟨t, he, .engine t ht⟩

/-- A move answers a next state unless it is misshapen. -/
theorem playEvent_answers (s : State) (e : Event) :
    (∃ t, playEvent s e = .next t ∧ s.Moved e t) ∨ (playEvent s e = .refused .registerAccessShape ∧ s.Misshapen e) := by
  cases e with
  | regWrite o w v =>
    by_cases h : w = .word ∧ o.toNat % 4 = 0
    · exact .inl ⟨_, playEvent_regWrite_legal s v h, .regWrite o w v⟩
    · exact .inr ⟨playEvent_regWrite_misshapen s v h, h⟩
  | regRead o w =>
    by_cases h : w = .word ∧ o.toNat % 4 = 0
    · exact .inl ⟨_, playEvent_regRead_legal s h, .regRead o w⟩
    · exact .inr ⟨playEvent_regRead_misshapen s h, h⟩
  | memWrite a v =>
    by_cases h : s.regBase ≤ a.toNat ∧ a.toNat < s.regBase + 256
    · exact .inr ⟨playEvent_memWrite_inside v h, h⟩
    · have ho : a.toNat < s.regBase ∨ s.regBase + 256 ≤ a.toNat := by omega
      exact .inl ⟨_, playEvent_memWrite_outside v ho, .memWrite a v ho⟩
  | memRead a =>
    by_cases h : s.regBase ≤ a.toNat ∧ a.toNat < s.regBase + 256
    · exact .inr ⟨playEvent_memRead_inside h, h⟩
    · exact .inl ⟨_, playEvent_memRead_outside (by omega), .memRead a⟩
  | takeInterrupt => exact .inl ⟨_, rfl, .takeInterrupt⟩
  | resetInput => exact .inl ⟨_, rfl, .resetInput⟩
  | engine => exact .inl (engineTurn_moves s)

theorem moved_of_playEvent {s t : State} {e : Event} (h : playEvent s e = .next t) : s.Moved e t := by
  rcases playEvent_answers s e with ⟨u, he, hu⟩ | ⟨he, -⟩
  · cases he.symm.trans h
    exact hu
  · cases he.symm.trans h

/-- A step is the engine's turn where no move is to come, and the next move otherwise. -/
theorem step_cases {s t : State} (h : step s = .next t) :
    (s.agenda = [] ∧ s.Moved .engine t)
      ∨ ∃ e rest, s.agenda = e :: rest ∧ ({ s with agenda := rest } : State).Moved e t := by
  cases ha : s.agenda with
  | nil =>
    obtain ⟨u, he, hu⟩ := engineTurn_moves s
    rw [step_of_agenda_nil ha] at h
    cases he.symm.trans h
    exact .inl ⟨rfl, hu⟩
  | cons e rest =>
    rw [step_of_agenda_cons ha] at h
    exact .inr ⟨e, rest, rfl, moved_of_playEvent h⟩

/-! ## Where the invariant comes from -/

/-- While no command runs, the invariant is about memory and ERROR alone. -/
theorem State.Inv.of_idle {s : State} (hb : s.status.busy = false) (hm : s.platform.Fits s.mem) (hn : s.errorIsNamed) :
    s.Inv :=
  ⟨hm.canonical, hm.placed, fun h => absurd h (by simp [hb]), fun h => absurd h (by simp [hb]), hn⟩

/-- The end of a command has the invariant. -/
theorem State.Ended.inv {s t : State} (h : s.Ended t) (hm : s.platform.Fits s.mem) : t.Inv := by
  refine .of_idle h.busy ?_ fun he hc => ?_
  · rw [h.same.platform]
    exact h.fits hm
  · rw [h.error, hc] at he
    exact absurd he (by decide)

/-! ## Register writes -/

theorem State.Inv.resetCore {s : State} (h : s.Inv) : s.resetCore.Inv := by
  refine .of_idle rfl ?_ fun he => absurd he Bool.false_ne_true
  rw [State.resetCore_platform]
  exact h.fits.abandon

theorem State.Inv.writeCtrl {s : State} (h : s.Inv) (v : Word) : (s.writeCtrl v).Inv := by
  cases hv : v.getLsbD 1 with
  | true =>
    rw [s.writeCtrl_reset hv]
    exact h.resetCore
  | false =>
    rw [s.writeCtrl_enable hv]
    exact ⟨h.canonical, h.placed, h.clean, h.watched, h.named⟩

theorem State.Inv.acknowledge {s : State} (h : s.Inv) (v : Word) : (s.acknowledge v).Inv := by
  refine ⟨h.canonical, h.placed, fun hb => ?_, h.watched, fun he => h.named ?_⟩
  · obtain ⟨hdone, herror, hresults⟩ := h.clean hb
    exact ⟨by simp [hdone], by simp [herror], hresults⟩
  · exact (Bool.and_eq_true_iff.mp he).1

/-- A lost write changes WBUSY only, of which the invariant does not speak. -/
theorem State.Inv.guarded {s written : State} (h : s.Inv) (hw : s.status.busy = false → written.Inv) :
    (s.guarded written).Inv := by
  cases hb : s.status.busy with
  | true =>
    rw [State.guarded_busy written hb]
    exact ⟨h.canonical, h.placed, h.clean, h.watched, h.named⟩
  | false =>
    rw [State.guarded_idle written hb]
    exact hw hb

/-- A started command has its window at the head of the record. -/
theorem State.Inv.startCommand {s : State} (h : s.Inv) (v : Word) : (s.startCommand v).Inv :=
  ⟨h.canonical, h.placed, fun _ => ⟨rfl, rfl, rfl, rfl, rfl, rfl⟩, fun _ => ⟨_, _, rfl, rfl, rfl⟩,
    fun he => absurd he Bool.false_ne_true⟩

theorem State.Inv.writeReg {s : State} (h : s.Inv) (r : Reg) (v : Word) : (s.writeReg r v).Inv := by
  cases r with
  | id | result0 | result1 | errInfo => exact h
  | ctrl => exact h.writeCtrl v
  | status => exact h.acknowledge v
  | cmd => exact h.guarded fun _ => h.startCommand v
  | srcAddr | srcLen | dstAddr | dstLen | param0 | param1 => exact h.guarded fun hb => .of_idle hb h.fits h.named

theorem State.Inv.writeOffset {s : State} (h : s.Inv) (o : BitVec 8) (v : Word) : (s.writeOffset o v).Inv := by
  unfold State.writeOffset
  split
  · exact h.writeReg _ v
  · exact h

/-! ## Reads and the interrupt -/

theorem State.Inv.readData {s : State} (h : s.Inv) (v : Word) : ({ s with readData := v } : State).Inv :=
  ⟨h.canonical, h.placed, h.clean, h.watched, h.named⟩

/-- Only the windows of commands that have ended are closed. -/
theorem State.Inv.closeWindows {s : State} (h : s.Inv) (hs : s.status.done = true ∨ s.status.error = true) :
    s.closeWindows.Inv := by
  refine .of_idle ?_ h.fits h.named
  rw [State.closeWindows_status, ← Bool.not_eq_true]
  intro hb
  obtain ⟨hdone, herror, -⟩ := h.clean hb
  simp [hdone, herror] at hs

theorem State.Inv.hostReadReg {s : State} (h : s.Inv) (o : BitVec 8) : (s.hostReadReg o).Inv := by
  rcases s.hostReadReg_cases o with ⟨⟨-, hd⟩, he⟩ | ⟨-, he⟩ <;> rw [he]
  · exact (h.readData _).closeWindows (.inl hd)
  · exact h.readData _

theorem State.irq_iff (s : State) :
    s.irq = true ↔ s.ctrl.irqEn = true ∧ (s.status.done = true ∨ s.status.error = true) := by
  simp [State.irq]

theorem State.Inv.takeInterrupt {s : State} (h : s.Inv) : s.takeInterrupt.Inv := by
  cases hi : s.irq with
  | true =>
    rw [State.takeInterrupt_asserted hi]
    exact (h.readData _).closeWindows (s.irq_iff.mp hi).2
  | false =>
    rw [State.takeInterrupt_quiet hi]
    exact h.readData _

/-! ## Memory accesses -/

/-- A touch marks the running command's window and leaves its buffers recorded. -/
theorem State.Inv.touch {s : State} (h : s.Inv) (d : Direction) (a : Nat) : (s.touch d a).Inv := by
  have hm := h.fits.touch d a
  cases hb : s.status.busy with
  | true =>
    obtain ⟨w, ws, hw, hinput, houtput⟩ := h.watched hb
    obtain ⟨m, n, he⟩ := State.touch_busy d a hb
    rw [he] at hm ⊢
    exact ⟨hm.canonical, hm.placed, h.clean, fun _ => ⟨w.touched d a, ws, by rw [hw]; rfl, hinput, houtput⟩, h.named⟩
  | false =>
    obtain ⟨m, n, r0, r1, e, he⟩ := State.touch_idle d a hb
    rw [he] at hm ⊢
    exact .of_idle hb hm h.named

theorem State.Inv.hostWriteByte {s : State} (h : s.Inv) {a : Nat} (v : Byte) (ha : s.platform.isMemory a = true) :
    (s.hostWriteByte a v).Inv := by
  have hm := h.fits.write v ha
  have hi : ({ s with mem := s.mem.write a v } : State).Inv := ⟨hm.canonical, hm.placed, h.clean, h.watched, h.named⟩
  exact hi.touch .write a

theorem State.Inv.hostReadByte {s : State} (h : s.Inv) (a : Nat) : (s.hostReadByte a).Inv := by
  cases ho : s.outputHidden a with
  | false =>
    rw [State.hostReadByte_unhidden ho]
    exact h.readData _
  | true =>
    rw [State.hostReadByte_hidden ho]
    refine State.Inv.touch ?_ .read a
    exact ⟨h.canonical, h.placed, h.clean, h.watched, h.named⟩

/-- An address outside the register window is a byte of memory. -/
theorem State.isMemory_of_outside {s : State} {a : Word} (h : a.toNat < s.regBase ∨ s.regBase + 256 ≤ a.toNat) :
    s.platform.isMemory a.toNat = true :=
  (Platform.isMemory_iff _ _).mpr ⟨a.isLt, by rw [State.regBase] at h; omega⟩

/-! ## The step -/

theorem State.Inv.agenda {s : State} (h : s.Inv) (rest : List Event) : ({ s with agenda := rest } : State).Inv :=
  ⟨h.canonical, h.placed, h.clean, h.watched, h.named⟩

theorem State.Inv.moved {s t : State} {e : Event} (h : s.Inv) (hm : s.Moved e t) : t.Inv := by
  cases hm with
  | regWrite o w v => exact h.writeOffset o v
  | regRead o w => exact h.hostReadReg o
  | memWrite a v outside => exact h.hostWriteByte v (State.isMemory_of_outside outside)
  | memRead a => exact h.hostReadByte a.toNat
  | takeInterrupt => exact h.takeInterrupt
  | resetInput => exact h.resetCore
  | engine t ended => exact ended.inv h.fits
  | idle => exact h

/-- Settles O11: `State.Inv.moved`, one lemma for each move. -/
theorem stepKeepsInvariant : Obligations.StepKeepsInvariant := by
  intro s t h hs
  rcases step_cases hs with ⟨-, hm⟩ | ⟨e, rest, -, hm⟩
  · exact h.moved hm
  · exact (h.agenda rest).moved hm

end Sys2Proof.Machine
end

section
/-! PROOFS. Whole-machine rules that follow from the moves: which steps are refused, which registers a step changes, how a
command ends and what disturbs it. -/
namespace Sys2Proof.Machine

open Sys2Proof.Reference

/-! ## How a command ends -/

/-- Settles O7: `CommandKeeps.ended` for the end, `afterCommand_results` for the results. -/
theorem everyCommandEnds : Obligations.EveryCommandEnds := by
  intro i s
  obtain ⟨body, hexec, hkeeps⟩ := exec_eq_afterCommand i
  have h := hkeeps.ended s
  exact ⟨_, hexec s, h.same, h.busy, h.done, h.wbusy, h.error, afterCommand_results s body⟩

/-! ## Refused steps -/

/-- Settles O14: with moves to come the next one is played (`playEvent_answers`), without them the engine has its
turn. -/
theorem stepRefusesOnlyMisshapenAccess : Obligations.StepRefusesOnlyMisshapenAccess := by
  intro s
  cases ha : s.agenda with
  | nil =>
    obtain ⟨t, he, -⟩ := engineTurn_moves s
    exact .inl ⟨t, (step_of_agenda_nil ha).trans he⟩
  | cons e rest =>
    rw [step_of_agenda_cons ha]
    rcases playEvent_answers { s with agenda := rest } e with ⟨t, he, -⟩ | ⟨he, hm⟩
    · exact .inl ⟨t, he⟩
    · refine .inr ⟨he, e, rest, rfl, ?_⟩
      cases e <;> exact hm

/-- Settles O24. -/
theorem misshapenAccessRefused : Obligations.MisshapenAccessRefused := by
  refine ⟨fun s o w v h => ?_, fun s a v hlo hhi => ?_⟩
  · exact ⟨(step_cons_agenda s _).trans (playEvent_regWrite_misshapen s v h),
      (step_cons_agenda s _).trans (playEvent_regRead_misshapen s h)⟩
  · exact ⟨(step_cons_agenda s _).trans (playEvent_memWrite_inside v ⟨hlo, hhi⟩),
      (step_cons_agenda s _).trans (playEvent_memRead_inside ⟨hlo, hhi⟩)⟩

/-! ## Registers that only the host writes -/

/-- The platform, CTRL, CMD and the operand registers are the same. -/
structure State.SameOperands (s t : State) : Prop where
  platform : t.platform = s.platform
  ctrl : t.ctrl = s.ctrl
  cmd : t.cmd = s.cmd
  srcAddr : t.srcAddr = s.srcAddr
  srcLen : t.srcLen = s.srcLen
  dstAddr : t.dstAddr = s.dstAddr
  dstLen : t.dstLen = s.dstLen
  param0 : t.param0 = s.param0
  param1 : t.param1 = s.param1

theorem State.SameBesidesEnd.sameOperands {s t : State} (h : s.SameBesidesEnd t) : s.SameOperands t :=
  ⟨h.platform, h.ctrl, h.cmd, h.srcAddr, h.srcLen, h.dstAddr, h.dstLen, h.param0, h.param1⟩

theorem State.sameOperands_of_sameRegisters {s t : State} (h : SameRegistersAndMemory s t) : s.SameOperands t :=
  ⟨h.platform, h.ctrl, h.cmd, h.srcAddr, h.srcLen, h.dstAddr, h.dstLen, h.param0, h.param1⟩

theorem State.SameOperands.touch {s u : State} (h : s.SameOperands u) (d : Direction) (a : Nat) :
    s.SameOperands (u.touch d a) := by
  cases hb : u.status.busy with
  | true =>
    obtain ⟨m, n, he⟩ := State.touch_busy d a hb
    rw [he]
    exact ⟨h.platform, h.ctrl, h.cmd, h.srcAddr, h.srcLen, h.dstAddr, h.dstLen, h.param0, h.param1⟩
  | false =>
    obtain ⟨m, n, r0, r1, e, he⟩ := State.touch_idle d a hb
    rw [he]
    exact ⟨h.platform, h.ctrl, h.cmd, h.srcAddr, h.srcLen, h.dstAddr, h.dstLen, h.param0, h.param1⟩

theorem State.hostWriteByte_sameOperands (s : State) (a : Nat) (v : Byte) : s.SameOperands (s.hostWriteByte a v) :=
  have hs : s.SameOperands { s with mem := s.mem.write a v } := ⟨rfl, rfl, rfl, rfl, rfl, rfl, rfl, rfl, rfl⟩
  hs.touch .write a

theorem State.hostReadByte_sameOperands (s : State) (a : Nat) : s.SameOperands (s.hostReadByte a) := by
  cases ho : s.outputHidden a with
  | false =>
    rw [State.hostReadByte_unhidden ho]
    exact ⟨rfl, rfl, rfl, rfl, rfl, rfl, rfl, rfl, rfl⟩
  | true =>
    rw [State.hostReadByte_hidden ho]
    refine State.SameOperands.touch ?_ .read a
    exact ⟨rfl, rfl, rfl, rfl, rfl, rfl, rfl, rfl, rfl⟩

theorem State.guarded_platform {s written : State} (h : written.platform = s.platform) :
    (s.guarded written).platform = s.platform := by
  unfold State.guarded
  split
  · rfl
  · exact h

theorem State.writeCtrl_platform (s : State) (v : Word) : (s.writeCtrl v).platform = s.platform := by
  unfold State.writeCtrl
  split
  · exact s.resetCore_platform
  · rfl

theorem State.writeOffset_platform (s : State) (o : BitVec 8) (v : Word) : (s.writeOffset o v).platform = s.platform := by
  unfold State.writeOffset
  split
  · next r _ =>
    cases r with
    | id | status | result0 | result1 | errInfo => rfl
    | ctrl => exact s.writeCtrl_platform v
    | cmd | srcAddr | srcLen | dstAddr | dstLen | param0 | param1 => exact State.guarded_platform rfl
  · rfl

/-- Every move but a register write and the reset input leaves what only they may change (10_state.md R30). -/
theorem State.Moved.sameOperands {s t : State} {e : Event} (h : s.Moved e t) (hw : ∀ o w v, e ≠ .regWrite o w v)
    (hr : e ≠ .resetInput) : s.SameOperands t := by
  cases h with
  | regWrite o w v => exact absurd rfl (hw o w v)
  | regRead o w => exact State.sameOperands_of_sameRegisters (s.hostReadReg_same o)
  | memWrite a v outside => exact s.hostWriteByte_sameOperands a.toNat v
  | memRead a => exact s.hostReadByte_sameOperands a.toNat
  | takeInterrupt => exact State.sameOperands_of_sameRegisters s.takeInterrupt_same.1
  | resetInput => exact absurd rfl hr
  | engine t ended => exact ended.same.sameOperands
  | idle => exact ⟨rfl, rfl, rfl, rfl, rfl, rfl, rfl, rfl, rfl⟩

theorem State.Moved.platform {s t : State} {e : Event} (h : s.Moved e t) : t.platform = s.platform := by
  by_cases hk : (∀ o w v, e ≠ .regWrite o w v) ∧ e ≠ .resetInput
  · exact (h.sameOperands hk.1 hk.2).platform
  · cases h with
    | regWrite o w v => exact s.writeOffset_platform o v
    | resetInput => exact s.resetCore_platform
    | _ => exact absurd ⟨nofun, nofun⟩ hk

/-- Settles O13: `State.Moved.platform` and `State.Moved.sameOperands`. -/
theorem onlyHostWritesChangeOperands : Obligations.OnlyHostWritesChangeOperands := by
  intro s t hs
  rcases step_cases hs with ⟨-, hm⟩ | ⟨e, rest, ha, hm⟩
  · have h := hm.sameOperands nofun nofun
    exact ⟨h.platform, fun _ _ => ⟨h.ctrl, h.cmd, h.srcAddr, h.srcLen, h.dstAddr, h.dstLen, h.param0, h.param1⟩⟩
  · refine ⟨hm.platform, fun hw hr => ?_⟩
    rw [ha] at hw hr
    have h := hm.sameOperands (fun o w v he => hw o w v (congrArg some he)) fun he => hr (congrArg some he)
    exact ⟨h.ctrl, h.cmd, h.srcAddr, h.srcLen, h.dstAddr, h.dstLen, h.param0, h.param1⟩

/-! ## What disturbs a command -/

theorem State.hostWriteByte_status (s : State) (a : Nat) (v : Byte) : (s.hostWriteByte a v).status = s.status :=
  State.touch_status _ _ _

/-- A bus master's write stores its byte; every other byte outside the recorded output buffers stays. -/
theorem State.read_hostWriteByte (s : State) (a : Nat) (v : Byte) {b : Nat}
    (hb : ∀ w ∈ s.windows, w.output.has b = false) :
    (s.hostWriteByte a v).mem.read b = if b = a then v else s.mem.read b :=
  (State.read_touch { s with mem := s.mem.write a v } .write a hb).trans (Memory.read_write _ _ _ _)

/-- A write to a byte of no recorded buffer changes that byte alone. -/
theorem State.hostWriteByte_unwatched {s : State} {a : Nat} (v : Byte)
    (h : ∀ w ∈ s.windows, w.input.has a = false ∧ w.output.has a = false) :
    s.hostWriteByte a v = { s with mem := s.mem.write a v } := by
  refine State.touch_unbroken _ _ _ fun w hw => ?_
  obtain ⟨hi, ho⟩ := h w hw
  simp [Window.brokenBy, hi, ho]

/-- A read of memory returns one byte and leaves STATUS. -/
theorem State.hostReadByte_returns (s : State) (a : Nat) :
    (s.hostReadByte a).status = s.status ∧ (s.hostReadByte a).readData.toNat < 256 := by
  have hbyte : ∀ b : Byte, (b.setWidth 32 : Word).toNat < 256 := fun b => by
    rw [BitVec.toNat_setWidth]
    omega
  cases ho : s.outputHidden a with
  | false =>
    rw [State.hostReadByte_unhidden ho]
    exact ⟨rfl, hbyte _⟩
  | true =>
    rw [State.hostReadByte_hidden ho, State.touch_status, State.touch_readData]
    exact ⟨rfl, hbyte _⟩

/-- The head of the record decides whether the running command is disturbed. -/
theorem State.disturbed_iff {s : State} {i : Instr} {w : Window} {ws : List Window} (hi : i.usesBuffers = true)
    (hw : s.windows = w :: ws) : s.disturbed i = true ↔ w.disturbed = true := by
  simp [State.disturbed, State.windowDisturbed, hi, hw]

/-- While a command runs, a touch disturbs it exactly if it breaks its window. -/
theorem State.touch_disturbs {s : State} {i : Instr} {w : Window} {ws : List Window} (d : Direction) (a : Nat)
    (hb : s.status.busy = true) (hi : i.usesBuffers = true) (hw : s.windows = w :: ws) :
    (s.touch d a).disturbed i = true ↔ s.disturbed i = true ∨ w.brokenBy d a = true := by
  obtain ⟨m, n, he⟩ := State.touch_busy d a hb
  have ht : (s.touch d a).windows = w.touched d a :: ws := by
    rw [he, hw]
    rfl
  rw [State.disturbed_iff hi ht, State.disturbed_iff hi hw]
  simp [Window.touched]

/-- In a state with the invariant the running command's own buffers head the record. -/
theorem State.Inv.window {s : State} {i : Instr} (h : s.Inv) (hb : s.status.busy = true) (hc : decode s.cmd = .ok i)
    (hi : i.usesBuffers = true) :
    ∃ w ws, s.windows = w :: ws ∧ w.input = s.env.input ∧ w.output = s.env.output := by
  obtain ⟨w, ws, hw, hinput, houtput⟩ := h.watched hb
  rw [State.windowFor, hc] at hinput houtput
  simp only [hi, if_true] at hinput houtput
  exact ⟨w, ws, hw, hinput, houtput⟩

theorem State.Inv.hostWriteByte_disturbs {s : State} {i : Instr} (h : s.Inv) (hb : s.status.busy = true)
    (hc : decode s.cmd = .ok i) (hi : i.usesBuffers = true) (a : Nat) (v : Byte) :
    (s.hostWriteByte a v).disturbed i = true
      ↔ s.disturbed i = true ∨ s.env.input.has a = true ∨ s.env.output.has a = true := by
  obtain ⟨w, ws, hw, hinput, houtput⟩ := h.window hb hc hi
  have ht := State.touch_disturbs (s := { s with mem := s.mem.write a v }) .write a hb hi hw
  rw [Window.brokenBy_write, hinput, houtput] at ht
  exact ht

theorem State.Inv.hostReadByte_disturbs {s : State} {i : Instr} (h : s.Inv) (hb : s.status.busy = true)
    (hc : decode s.cmd = .ok i) (hi : i.usesBuffers = true) (a : Nat) :
    (s.hostReadByte a).disturbed i = true ↔ s.disturbed i = true ∨ s.env.output.has a = true := by
  obtain ⟨w, ws, hw, -, houtput⟩ := h.window hb hc hi
  cases ho : s.outputHidden a with
  | false =>
    have hout : s.env.output.has a = false :=
      houtput ▸ State.outputHidden_eq_false.mp ho w (hw ▸ List.mem_cons_self)
    rw [State.hostReadByte_unhidden ho, hout]
    exact (or_iff_left Bool.false_ne_true).symm
  | true =>
    have ht := State.touch_disturbs
      (s := { s with readData := (Config.freeByte s.draws a).setWidth 32, draws := s.draws + 1 }) .read a hb hi hw
    rw [Window.brokenBy_read, houtput] at ht
    rw [State.hostReadByte_hidden ho]
    exact ht

theorem State.input_has (s : State) (a : Nat) :
    s.env.input.has a = true ↔ s.srcAddr.toNat ≤ a ∧ a < s.srcAddr.toNat + s.srcLen.toNat :=
  Buffer.has_iff _ _

theorem State.output_has (s : State) (a : Nat) :
    s.env.output.has a = true ↔ s.dstAddr.toNat ≤ a ∧ a < s.dstAddr.toNat + s.dstLen.toNat :=
  Buffer.has_iff _ _

theorem State.output_has_outside {s : State} {b : Nat}
    (h : b < s.dstAddr.toNat ∨ s.dstAddr.toNat + s.dstLen.toNat ≤ b) : s.env.output.has b = false := by
  rw [← Bool.not_eq_true, State.output_has]
  omega

/-- Settles O8: the accesses from `State.hostWriteByte` and `State.hostReadByte`, what disturbs from the invariant, and the
end from `engineStep_ended`, which holds of every command. -/
theorem disturbedCommandEnds : Obligations.DisturbedCommandEnds := by
  refine ⟨fun s a ha => ⟨fun v hw => ?_, fun v => ?_, step_memRead_unhidden ha, ?_⟩,
    fun s i a h hb hc hi => ⟨fun v t hs => ?_, fun t hs => ?_⟩, fun s i hb _ ha _ => ?_⟩
  · rw [step_cons_agenda, playEvent_memWrite_outside v ha, State.hostWriteByte_unwatched v hw]
  · exact ⟨_, (step_cons_agenda s _).trans (playEvent_memWrite_outside v ha), s.hostWriteByte_status _ v,
      fun b hb => s.read_hostWriteByte _ v hb⟩
  · exact ⟨_, (step_cons_agenda s _).trans (playEvent_memRead_outside ha), s.hostReadByte_returns _⟩
  · rw [step_cons_agenda] at hs
    cases moved_of_playEvent hs
    rw [h.hostWriteByte_disturbs hb hc hi, State.input_has, State.output_has]
  · rw [step_cons_agenda] at hs
    cases moved_of_playEvent hs
    rw [h.hostReadByte_disturbs hb hc hi, State.output_has]
  · obtain ⟨t, he, ht⟩ := engineStep_ended s
    refine ⟨t, ?_, ht.same, ht.busy, ht.done, ht.wbusy, ht.error, fun b hb => ht.outside b (State.output_has_outside hb)⟩
    rw [step_of_agenda_nil ha, hb]
    exact he

end Sys2Proof.Machine
end

section
/-! PROOFS. The register block as the host reads and writes it (10_state.md R20 to R29), and the commands it starts. -/
namespace Sys2Proof.Machine

open Sys2Proof.Reference

/-! ## The command word -/

/-- The bits of a command word, by the layout of 30_encoding.md R80. -/
theorem commandWord_getLsbD (op : BitVec 8) (fmt swz : BitVec 4) (pad : Bool) (k : Nat) :
    (commandWord op fmt swz pad).getLsbD k
      = if k < 8 then op.getLsbD k else if k < 12 then fmt.getLsbD (k - 8) else if k < 16 then swz.getLsbD (k - 12)
        else if k = 16 then pad else false := by
  show (0#15 ++ BitVec.ofBool pad ++ swz ++ fmt ++ op : BitVec (15 + 1 + 4 + 4 + 8)).getLsbD k = _
  simp only [BitVec.getLsbD_append, BitVec.getLsbD_ofBool, BitVec.getLsbD_zero]
  grind

theorem opField_commandWord (op : BitVec 8) (fmt swz : BitVec 4) (pad : Bool) :
    opField (commandWord op fmt swz pad) = op := by
  ext k hk
  simp [opField, commandWord_getLsbD, hk]

theorem fmtField_commandWord (op : BitVec 8) (fmt swz : BitVec 4) (pad : Bool) :
    fmtField (commandWord op fmt swz pad) = fmt := by
  ext k hk
  simp [fmtField, commandWord_getLsbD, hk, show 8 + k < 12 by omega]

theorem swzField_commandWord (op : BitVec 8) (fmt swz : BitVec 4) (pad : Bool) :
    swzField (commandWord op fmt swz pad) = swz := by
  ext k hk
  simp [swzField, commandWord_getLsbD, hk, show ¬ 12 + k < 8 by omega, show 12 + k < 16 by omega]

theorem padField_commandWord (op : BitVec 8) (fmt swz : BitVec 4) (pad : Bool) :
    padField (commandWord op fmt swz pad) = pad :=
  commandWord_getLsbD op fmt swz pad 16

theorem reservedField_commandWord (op : BitVec 8) (fmt swz : BitVec 4) (pad : Bool) :
    reservedField (commandWord op fmt swz pad) = 0 := by
  ext k hk
  simp [reservedField, commandWord_getLsbD, show ¬ 17 + k < 8 by omega, show ¬ 17 + k < 12 by omega,
    show ¬ 17 + k < 16 by omega, show 17 + k ≠ 16 by omega]

/-- A command's word decodes to it (30_encoding.md R80, R83). -/
@[simp] theorem decode_encode (i : Instr) : decode (encode i) = .ok i := by
  cases i <;>
    simp [encode, decode, takesNone, takesFmt, takesSwz, takesSwzPad, opField_commandWord, fmtField_commandWord,
      swzField_commandWord, padField_commandWord, reservedField_commandWord]

/-! ## Starting and running a command -/

/-- A command that has just started is undisturbed. -/
theorem State.startCommand_disturbed (s : State) (w : Word) (i : Instr) : (s.startCommand w).disturbed i = false := by
  have hw : (s.windowFor w).disturbed = false := by
    unfold State.windowFor
    split
    · split <;> rfl
    · rfl
  rw [State.disturbed, State.windowDisturbed, State.startCommand_windows]
  simp [hw]

/-- No command runs on a device where the platform has none. -/
theorem State.runsOnDevice_of_ram {s : State} (i : Instr) (h : s.platform.devices = []) : s.runsOnDevice i = false := by
  simp [State.runsOnDevice, State.onDevice, h]

/-- Whether a command accesses any byte does not depend on the moves to come. -/
theorem State.accessless_agenda (s : State) (i : Instr) (rest : List Event) :
    ({ s with agenda := rest } : State).accessless i = s.accessless i := by
  obtain ⟨t, he, hr⟩ := exec_agenda i { s with platform := s.platform.rejecting everyAccess } rest
  simp only [State.accessless, he, hr]

theorem State.runsOnDevice_agenda (s : State) (i : Instr) (rest : List Event) :
    ({ s with agenda := rest } : State).runsOnDevice i = s.runsOnDevice i := by
  rw [State.runsOnDevice, State.accessless_agenda]
  rfl

/-- Settles O5: `engineStep_undisturbed`, at either form of the engine's turn. -/
theorem stepRunsCommand : Obligations.StepRunsCommand := by
  intro s i hb hc hd hv
  refine ⟨fun ha => ?_, fun rest ha => ?_⟩
  · rw [step_of_agenda_nil ha, hb]
    exact engineStep_undisturbed hc hd hv
  · rw [step_of_agenda_cons ha]
    refine (if_pos hb).trans (engineStep_undisturbed hc hd ?_)
    rw [State.runsOnDevice_agenda, hv]

/-- Where memory is plain RAM a started command's engine step is its `exec`. -/
theorem engineStep_startCommand {s : State} {w : Word} {i : Instr} (hc : decode w = .ok i)
    (h : s.platform.devices = []) : engineStep (s.startCommand w) = exec i (s.startCommand w) :=
  engineStep_undisturbed hc (s.startCommand_disturbed w i) (State.runsOnDevice_of_ram i h)

/-- `State.withFetchWord` is the started state with the engine's turn next. -/
theorem step_withFetchWord (s : State) (w : Word) : step (s.withFetchWord 32 w.toNat) = engineStep (s.startCommand w) := by
  have hw : BitVec.ofNat 32 (w.toNat % 2 ^ 32) = w := by
    rw [Nat.mod_eq_of_lt w.isLt, BitVec.ofNat_toNat, BitVec.setWidth_eq]
  rw [State.withFetchWord, hw]
  cases ha : s.agenda with
  | nil =>
    rw [step_of_agenda_nil rfl, engineFirst, ← ha]
    rfl
  | cons e rest =>
    rw [step_of_agenda_cons rfl, ← ha]
    rfl

theorem hostWrite_cmd_idle {s : State} (w : Word) (h : s.status.busy = false) :
    hostWrite s 0x0C w = .next (s.startCommand w) :=
  (hostWrite_regOffset s .cmd w).trans (by rw [State.writeReg, State.guarded_idle _ h])

/-- Settles O4. -/
theorem writtenCommandRuns : Obligations.WrittenCommandRuns := by
  intro s i hb hdev
  have hrun := engineStep_startCommand (decode_encode i) hdev
  refine ⟨hostWrite_cmd_idle _ hb, fun ha => ?_, (step_withFetchWord s _).trans hrun⟩
  exact (step_of_agenda_nil (s := s.startCommand (encode i)) ha).trans hrun

/-- Settles O20. A word that names no command starts like any other, and its engine step is `State.endIllegal`. -/
theorem commandWrite : Obligations.CommandWrite := by
  intro s v
  refine ⟨fun hb => ⟨_, hostWrite_cmd_idle v hb⟩, fun hb => ?_, ?_, fun e he hb ha => ?_⟩
  · exact (hostWrite_regOffset s .cmd v).trans (by rw [State.writeReg, State.guarded_busy _ hb]; rfl)
  · obtain ⟨t, ht, hv, -⟩ := hostRead_register s .cmd
    exact ⟨t, ht, hv⟩
  · refine ⟨_, _, hostWrite_cmd_idle v hb, ?_, State.endIllegal_failed _⟩
    exact (step_of_agenda_nil (s := s.startCommand v) ha).trans (engineStep_of_error he)

/-! ## The other registers -/

/-- Settles O21. -/
theorem operandWrites : Obligations.OperandWrites := by
  intro s v hb p hp
  have operand : ∀ (r : Reg) (t : State), s.writeReg r v = s.guarded t → t.readReg r = v →
      hostWrite s (regOffset r) v = .next t ∧ ∃ u, hostRead t (regOffset r) = .next u ∧ u.readData = v := by
    intro r t hw hr
    obtain ⟨u, hu, hv, -⟩ := hostRead_register t r
    exact ⟨by rw [hostWrite_regOffset, hw, State.guarded_idle _ hb], u, hu, hv.trans hr⟩
  simp only [List.mem_cons, List.not_mem_nil, or_false] at hp
  rcases hp with rfl | rfl | rfl | rfl | rfl | rfl
  · exact operand .srcAddr _ rfl rfl
  · exact operand .srcLen _ rfl rfl
  · exact operand .dstAddr _ rfl rfl
  · exact operand .dstLen _ rfl rfl
  · exact operand .param0 _ rfl rfl
  · exact operand .param1 _ rfl rfl

/-- Settles O16. -/
theorem identificationIsFixed : Obligations.IdentificationIsFixed := by
  intro s v
  obtain ⟨t, ht, hv, -⟩ := hostRead_register s .id
  exact ⟨⟨t, ht, hv⟩, hostWrite_regOffset s .id v⟩

/-- CTRL written with a word reads as the word's bit 0 alone (10_state.md R22). -/
theorem Ctrl.toWord_irqEn (v : Word) : ({ irqEn := v.getLsbD 0 } : Ctrl).toWord = v &&& 1#32 := by
  ext k hk
  show (0#31 ++ BitVec.ofBool (v.getLsbD 0) : BitVec (31 + 1)).getLsbD k = (v &&& 1#32).getLsbD k
  rw [BitVec.getLsbD_append, BitVec.getLsbD_and, BitVec.getLsbD_one]
  cases k <;> simp

/-- Settles O17. -/
theorem controlWrite : Obligations.ControlWrite := by
  intro s v hv
  obtain ⟨t, ht, hd, -⟩ := hostRead_register { s with ctrl := { irqEn := v.getLsbD 0 } } .ctrl
  refine ⟨(hostWrite_regOffset s .ctrl v).trans ?_, t, ht, hd.trans (Ctrl.toWord_irqEn v)⟩
  rw [State.writeReg, State.writeCtrl_enable s hv]

/-- Settles O23: the named offsets by their registers, the reserved ones by `regAt_reserved`. -/
theorem readOnlyOffsets : Obligations.ReadOnlyOffsets := by
  intro s o v ho
  refine ⟨fun h => ?_, fun h => ⟨_, hostRead_aligned s ho, ?_, s.hostReadReg_same o⟩, fun p hp => ?_⟩
  · rcases h with rfl | rfl | rfl | rfl | h
    · exact hostWrite_regOffset s .id v
    · exact hostWrite_regOffset s .result0 v
    · exact hostWrite_regOffset s .result1 v
    · exact hostWrite_regOffset s .errInfo v
    · rw [hostWrite_aligned s v ho, State.writeOffset, regAt_reserved h]
  · rw [State.hostReadReg_readData, State.readOffset, regAt_reserved h]
  · simp only [List.mem_cons, List.not_mem_nil, or_false] at hp
    rcases hp with rfl | rfl | rfl
    · exact hostRead_register s .result0
    · exact hostRead_register s .result1
    · exact hostRead_register s .errInfo

/-! ## STATUS -/

/-- The bits of STATUS, by the places of its fields (10_state.md R23). -/
theorem Status.toWord_getLsbD (st : Status) (k : Nat) :
    st.toWord.getLsbD k
      = if k = 0 then st.busy else if k = 1 then st.done else if k = 2 then st.error else if k = 3 then st.wbusy
        else decide (8 ≤ k) && (errCodeField st.errCode).getLsbD (k - 8) := by
  show (0#20 ++ errCodeField st.errCode ++ 0#4 ++ BitVec.ofBool st.wbusy ++ BitVec.ofBool st.error
    ++ BitVec.ofBool st.done ++ BitVec.ofBool st.busy : BitVec (20 + 4 + 4 + 1 + 1 + 1 + 1)).getLsbD k = _
  have hcode : ∀ j, 4 ≤ j → (errCodeField st.errCode).getLsbD j = false := fun j hj => BitVec.getLsbD_of_ge _ _ hj
  simp only [BitVec.getLsbD_append, BitVec.getLsbD_ofBool, BitVec.getLsbD_zero]
  grind

theorem Status.toWord_errCode (st : Status) : st.toWord.extractLsb' 8 4 = errCodeField st.errCode := by
  ext k hk
  simp [Status.toWord_getLsbD, show 8 + k ≠ 1 by omega, show 8 + k ≠ 2 by omega, show 8 + k ≠ 3 by omega, hk]

theorem Status.toWord_reserved_low (st : Status) : st.toWord.extractLsb' 4 4 = 0 := by
  ext k hk
  simp [Status.toWord_getLsbD, show 4 + k ≠ 1 by omega, show 4 + k ≠ 2 by omega, show 4 + k ≠ 3 by omega,
    show ¬ 8 ≤ 4 + k by omega]

theorem Status.toWord_reserved_high (st : Status) : st.toWord.extractLsb' 12 20 = 0 := by
  ext k hk
  have hcode : (errCodeField st.errCode).getLsbD (12 + k - 8) = false := BitVec.getLsbD_of_ge _ _ (by omega)
  simp [Status.toWord_getLsbD, show 12 + k ≠ 1 by omega, show 12 + k ≠ 2 by omega, show 12 + k ≠ 3 by omega, hcode]

/-- Settles O19. -/
theorem statusAcknowledge : Obligations.StatusAcknowledge := by
  intro s v
  have hand : ∀ b c : Bool, (if c then false else b) = (b && !c) := by decide
  rw [hand, hand, hand]
  exact hostWrite_regOffset s .status v

/-- After the host has seen the end, a read returns what memory holds. -/
theorem step_memRead_afterEnd {s t : State} (hsame : SameRegistersAndMemory s t) (hw : t.windows = []) {a : Word}
    (ha : a.toNat < s.regBase ∨ s.regBase + 256 ≤ a.toNat) :
    step { t with agenda := .memRead a :: t.agenda } = .next { t with readData := (s.mem.read a.toNat).setWidth 32 } := by
  rw [State.regBase, ← hsame.platform, ← State.regBase] at ha
  rw [step_memRead_unhidden ha (by simp [hw]), hsame.mem]

/-- Settles O18: the field places from `Status.toWord_getLsbD`, the windows from the two ways of seeing an end. -/
theorem statusReads : Obligations.StatusReads := by
  refine ⟨fun s => ?_, fun s t => ⟨fun hr => ?_, fun hi => ?_, fun hseen a ha => ?_⟩⟩
  · obtain ⟨t, ht, hd, hsame⟩ := hostRead_register s .status
    refine ⟨t, ht, hsame, ?_⟩
    rw [hd]
    refine ⟨Status.toWord_getLsbD _ 0, Status.toWord_getLsbD _ 1, Status.toWord_getLsbD _ 2, Status.toWord_getLsbD _ 3,
      Status.toWord_reserved_low _, Status.toWord_reserved_high _, ?_⟩
    rw [State.readReg, Status.toWord_errCode]
    cases s.status.errCode with
    | none => rfl
    | some e => cases e <;> rfl
  · cases (hostRead_regOffset s .status).symm.trans hr
    exact s.hostReadReg_status_windows
  · cases (step_cons_agenda s .takeInterrupt).symm.trans hi
    exact s.takeInterrupt_same
  · rcases hseen with ⟨hdone, hr⟩ | ⟨hirq, hi⟩
    · cases (hostRead_regOffset s .status).symm.trans hr
      exact step_memRead_afterEnd (s.hostReadReg_same _) (by rw [State.hostReadReg_status_windows, hdone]; rfl) ha
    · cases (step_cons_agenda s .takeInterrupt).symm.trans hi
      obtain ⟨hsame, -, hw⟩ := s.takeInterrupt_same
      exact step_memRead_afterEnd hsame (by rw [hw, hirq]; rfl) ha

end Sys2Proof.Machine
end

section
/-! PROOFS. The memory port (20_memory.md R61, R62): the value of a MemRead, the bytes of a MemWrite, and the first byte
that the platform rejects (R69). -/
namespace Sys2Proof.Machine

/-- A little-endian number is the sum of its shifted bytes (20_memory.md R61). -/
theorem Memory.little_eq_sum (m : Memory) (a n : Nat) :
    m.little a n = ∑ j ∈ Finset.range n, (m.read (a + j)).toNat <<< (8 * j) := by
  induction n generalizing a with
  | zero => rfl
  | succ n ih =>
    rw [Memory.little, ih, Finset.sum_range_succ', Finset.mul_sum, Nat.add_comm]
    congr 1
    refine Finset.sum_congr rfl fun j _ => ?_
    rw [show a + (j + 1) = a + 1 + j by omega, Nat.shiftLeft_eq, Nat.shiftLeft_eq, Nat.mul_add, Nat.pow_add]
    ring

/-- Settles O36: `memRead_ok`, with the little-endian value written as a sum. -/
theorem memReadLittleEndian : Obligations.MemReadLittleEndian := by
  intro env a n w h
  rw [memRead_ok h, Memory.little_eq_sum]

/-- Byte `j` of the bytes of a number is its bits 8j+7 to 8j (20_memory.md R62). -/
theorem littleBytes_getD {n j : Nat} (v : Nat) (h : j < n) :
    (littleBytes n v).getD j 0 = BitVec.ofNat 8 (v >>> (8 * j)) := by
  induction n generalizing v j with
  | zero => omega
  | succ n ih =>
    cases j with
    | zero => simp [littleBytes]
    | succ j =>
      rw [littleBytes, List.getD_cons_succ, ih _ (by omega), Nat.mul_succ, Nat.add_comm, Nat.shiftRight_add]
      simp [Nat.shiftRight_eq_div_pow]

/-- The same byte, taken from the low `n` bytes of the number. -/
theorem byte_of_lowBytes {n j : Nat} (v : Nat) (h : j < n) :
    (BitVec.ofNat (8 * n) v).extractLsb' (8 * j) 8 = BitVec.ofNat 8 (v >>> (8 * j)) := by
  ext k hk
  rw [BitVec.getElem_extractLsb', ← BitVec.getLsbD_eq_getElem, BitVec.getLsbD_ofNat, BitVec.getLsbD_ofNat,
    Nat.testBit_shiftRight, decide_eq_true hk, decide_eq_true (by omega : 8 * j + k < 8 * n)]

/-- `MemWrite` of `k` of the `n` bytes of a value: they are in memory, and no other byte has changed. -/
theorem Work.put_littleBytes (w : Work) (a v : Nat) {k n : Nat} (h : k ≤ n) :
    (∀ j < k, (w.put a (littleBytes k v)).mem.read (a + j) = (BitVec.ofNat (8 * n) v).extractLsb' (8 * j) 8)
      ∧ ∀ b, b < a ∨ a + k ≤ b → (w.put a (littleBytes k v)).mem.read b = w.mem.read b := by
  refine ⟨fun j hj => ?_, fun b hb => ?_⟩
  · rw [Work.put_mem, Memory.read_store_inside (by rwa [littleBytes_length]), littleBytes_getD v hj,
      byte_of_lowBytes v (by omega)]
  · rw [Work.put_mem, Memory.read_store_outside (by rwa [littleBytes_length])]

/-- Settles O37: `memWrite_ok` and `Work.put_littleBytes`. -/
theorem memWriteLittleEndian : Obligations.MemWriteLittleEndian := by
  intro env a n v w h
  exact ⟨_, memWrite_ok h, rfl, w.put_littleBytes a v (Nat.le_refl n)⟩

/-- There is one first rejected byte. -/
theorem firstRejected_unique {p : Nat → Bool} {j k : Nat} (hj : p j = true) (hjb : ∀ i < j, p i = false)
    (hk : p k = true) (hkb : ∀ i < k, p i = false) : j = k := by
  rcases Nat.lt_trichotomy j k with hlt | heq | hlt
  · exact absurd (hkb j hlt) (by simp [hj])
  · exact heq
  · exact absurd (hjb k hlt) (by simp [hk])

/-- `MemRead` raises BusFault at its first rejected byte. -/
theorem memRead_rejected {env : Env} {a n k : Nat} (w : Work) (hk : k < n)
    (hb : ∀ j < k, env.platform.rejects (a + j) .read = false) (hr : env.platform.rejects (a + k) .read = true) :
    memRead env a n w = (.error { err := .busFault, info := a + k }, w) := by
  rcases memRead_cases env a n w with ⟨hall, -⟩ | ⟨j, -, hj, hbefore, hrun⟩
  · exact absurd (hall k hk) (by simp [hr])
  · rw [hrun, firstRejected_unique hj hbefore hr hb]

/-- `MemWrite` stores the bytes before its first rejected one, and raises BusFault there. -/
theorem memWrite_rejected {env : Env} {a n k v : Nat} (w : Work) (hk : k < n)
    (hb : ∀ j < k, env.platform.rejects (a + j) .write = false) (hr : env.platform.rejects (a + k) .write = true) :
    memWrite env a n v w = (.error { err := .busFault, info := a + k }, w.put a (littleBytes k v)) := by
  rcases memWrite_cases env a n v w with ⟨hall, -⟩ | ⟨j, -, hj, hbefore, hrun⟩
  · exact absurd (hall k hk) (by simp [hr])
  · rw [hrun, firstRejected_unique hj hbefore hr hb]

end Sys2Proof.Machine
end

section
/-! PROOFS. The accesses of a command. `Traced` says of a piece of a command which memory accesses it makes where the
platform rejects none, and that on every other platform it makes the same accesses up to the first rejected one, which
it raises BusFault for (20_memory.md R69; 60_exceptions.md R325, R326). One rule for each way of building a piece. -/
namespace Sys2Proof.Machine

/-! ## Traces -/

/-- One access of CORE to a byte of memory. -/
structure Access where
  addr : Nat
  dir : Direction

/-- Accesses, the earliest first. -/
abbrev Trace := List Access

/-- Does BUS_FAULT hold of the access (20_memory.md R69)? -/
def Access.rejectedBy (a : Access) (busFault : List Rejection) : Bool :=
  busFault.any fun r => decide (r.dir = a.dir) && decide (r.lo ≤ a.addr) && decide (a.addr ≤ r.hi)

/-- Reads of the addresses. -/
def Trace.ofReads (as : List Nat) : Trace := as.map fun a => ⟨a, .read⟩

/-- Writes to the addresses. -/
def Trace.ofWrites (as : List Nat) : Trace := as.map fun a => ⟨a, .write⟩

/-- The addresses written, the earliest first. -/
def Trace.writes : Trace → List Nat
  | [] => []
  | ⟨_, .read⟩ :: tr => Trace.writes tr
  | ⟨a, .write⟩ :: tr => a :: Trace.writes tr

/-- The addresses read, each with the number of bytes written before it, `k` of them before the trace. -/
def Trace.readLog : (k : Nat) → Trace → List (Nat × Nat)
  | _, [] => []
  | k, ⟨a, .read⟩ :: tr => (a, k) :: Trace.readLog k tr
  | k, ⟨_, .write⟩ :: tr => Trace.readLog (k + 1) tr

@[simp] theorem Trace.writes_nil : Trace.writes [] = [] := rfl

@[simp] theorem Trace.writes_append (t u : Trace) : Trace.writes (t ++ u) = Trace.writes t ++ Trace.writes u := by
  induction t with
  | nil => rfl
  | cons a t ih =>
    obtain ⟨a, d⟩ := a
    cases d <;> simp [Trace.writes, ih]

@[simp] theorem Trace.writes_ofReads (as : List Nat) : (Trace.ofReads as).writes = [] := by
  induction as with
  | nil => rfl
  | cons a as ih => exact ih

@[simp] theorem Trace.writes_ofWrites (as : List Nat) : (Trace.ofWrites as).writes = as := by
  induction as with
  | nil => rfl
  | cons a as ih => exact congrArg (a :: ·) ih

@[simp] theorem Trace.readLog_append (k : Nat) (t u : Trace) :
    Trace.readLog k (t ++ u) = Trace.readLog k t ++ Trace.readLog (k + t.writes.length) u := by
  induction t generalizing k with
  | nil => rfl
  | cons a t ih =>
    obtain ⟨a, d⟩ := a
    cases d
    · simp [Trace.readLog, Trace.writes, ih]
    · simp [Trace.readLog, Trace.writes, ih, Nat.add_assoc, Nat.add_comm 1]

@[simp] theorem Trace.readLog_ofReads (k : Nat) (as : List Nat) :
    Trace.readLog k (Trace.ofReads as) = as.map fun a => (a, k) := by
  induction as with
  | nil => rfl
  | cons a as ih => exact congrArg ((a, k) :: ·) ih

@[simp] theorem Trace.readLog_ofWrites (k : Nat) (as : List Nat) : Trace.readLog k (Trace.ofWrites as) = [] := by
  induction as generalizing k with
  | nil => rfl
  | cons a as ih => exact ih (k + 1)

theorem Trace.mem_writes {tr : Trace} {a : Nat} : a ∈ tr.writes ↔ ⟨a, .write⟩ ∈ tr := by
  induction tr with
  | nil => simp
  | cons b tr ih =>
    obtain ⟨b, d⟩ := b
    cases d <;> simp [Trace.writes, ih]

/-- A trace has its first rejected access, or none is rejected. -/
theorem Trace.split_rejected (tr : Trace) (bf : List Rejection) :
    (∀ a ∈ tr, a.rejectedBy bf = false)
      ∨ ∃ pre a post, tr = pre ++ a :: post ∧ (∀ b ∈ pre, b.rejectedBy bf = false) ∧ a.rejectedBy bf = true := by
  induction tr with
  | nil => exact .inl (by simp)
  | cons a tr ih =>
    by_cases ha : a.rejectedBy bf = true
    · exact .inr ⟨[], a, tr, rfl, by simp, ha⟩
    · have ha' : a.rejectedBy bf = false := by simpa using ha
      rcases ih with hall | ⟨pre, b, post, rfl, hpre, hb⟩
      · exact .inl (by simpa [ha'] using hall)
      · exact .inr ⟨a :: pre, b, post, rfl, by simpa [ha'] using hpre, hb⟩

/-! ## Platforms that differ in what they reject -/

/-- The same command on a platform with another BUS_FAULT. -/
def Env.rejecting (env : Env) (busFault : List Rejection) : Env :=
  { env with platform := env.platform.rejecting busFault }

theorem Env.rejecting_rejects (env : Env) (bf : List Rejection) (a : Nat) (d : Direction) :
    (env.rejecting bf).platform.rejects a d = Access.rejectedBy ⟨a, d⟩ bf := rfl

variable {α β : Type} {env : Env}

/-- From `w`, `x` makes the accesses `tr` and ends with `r` in `w'`, where none of them is rejected. Otherwise it raises
BusFault at the first rejected one, having written what stands before that one in `tr`. -/
structure Traced (env : Env) (x : Env → Eng α) (w : Work) (tr : Trace) (r : Except Raise α) (w' : Work) : Prop where
  accepted : ∀ bf, (∀ a ∈ tr, a.rejectedBy bf = false) → x (env.rejecting bf) w = (r, w')
  rejected : ∀ bf pre a post, tr = pre ++ a :: post → (∀ b ∈ pre, b.rejectedBy bf = false) → a.rejectedBy bf = true →
    ∃ v, x (env.rejecting bf) w = (.error { err := .busFault, info := a.addr }, v)
      ∧ v.stored = w.stored + (Trace.writes pre).length
      ∧ (∀ b, b ∉ Trace.writes pre → v.mem.read b = w.mem.read b)
      ∧ ∀ b, b ∉ Trace.writes (a :: post) → v.mem.read b = w'.mem.read b
  stored : w'.stored = w.stored + tr.writes.length
  frame : ∀ b, b ∉ tr.writes → w'.mem.read b = w.mem.read b

/-! ## Rules -/

/-- A piece without accesses. -/
theorem Traced.silent {x : Env → Eng α} {w w' : Work} {r : Except Raise α}
    (h : ∀ bf, x (env.rejecting bf) w = (r, w')) (hs : w'.stored = w.stored) (hm : w'.mem = w.mem) :
    Traced env x w [] r w' :=
  ⟨fun bf _ => h bf, fun _ pre _ _ he => absurd he (by simp), by simpa using hs, fun b _ => by rw [hm]⟩

theorem Traced.pure (v : α) (w : Work) : Traced env (fun _ => pure v) w [] (.ok v) w := .silent (fun _ => rfl) rfl rfl

theorem Traced.raise (e : Err) (info : Nat) (w : Work) :
    Traced env (fun _ => (raise e info : Eng α)) w [] (.error { err := e, info := info }) w :=
  .silent (fun _ => rfl) rfl rfl

/-- A piece that makes one access. -/
theorem Traced.single {x : Env → Eng α} {w w' : Work} {v : α} (a : Access)
    (hx : ∀ bf, x (env.rejecting bf) w
      = if a.rejectedBy bf then (.error { err := .busFault, info := a.addr }, w) else (.ok v, w'))
    (hs : w'.stored = w.stored + (Trace.writes [a]).length)
    (hm : ∀ b, b ∉ Trace.writes [a] → w'.mem.read b = w.mem.read b) : Traced env x w [a] (.ok v) w' := by
  refine ⟨fun bf hall => ?_, fun bf pre c post he hpre hc => ?_, hs, hm⟩
  · rw [hx, hall a (by simp)]
    rfl
  · obtain ⟨rfl, rfl, rfl⟩ : pre = [] ∧ c = a ∧ post = [] := by
      cases pre with
      | nil => simpa [eq_comm] using he
      | cons b pre => simp at he
    refine ⟨w, ?_, rfl, fun b _ => rfl, fun b hb => (hm b hb).symm⟩
    rw [hx, hc]
    rfl

theorem readByte_traced (a : Nat) (w : Work) :
    Traced env (readByte · a) w [⟨a, .read⟩] (.ok (w.mem.read a).toNat) w :=
  .single _ (fun bf => readByte_run (env.rejecting bf) a w) rfl fun _ _ => rfl

theorem storeByte_traced (a v : Nat) (w : Work) :
    Traced env (storeByte · a v) w [⟨a, .write⟩] (.ok ()) (w.put a [BitVec.ofNat 8 v]) := by
  refine .single _ (fun bf => storeByte_run (env.rejecting bf) a v w) rfl fun b hb => ?_
  have hne : b ≠ a := by simpa [Trace.writes] using hb
  exact Memory.read_write_other _ _ hne

theorem Traced.bind {x : Env → Eng α} {f : Env → α → Eng β} {w w1 w2 : Work} {t u : Trace} {v : α}
    {r : Except Raise β} (hx : Traced env x w t (.ok v) w1) (hf : Traced env (fun e => f e v) w1 u r w2) :
    Traced env (fun e => x e >>= f e) w (t ++ u) r w2 := by
  refine ⟨fun bf hall => ?_, fun bf pre a post he hpre ha => ?_, ?_, fun b hb => ?_⟩
  · rw [run_bind_ok (hx.accepted bf fun a h => hall a (by simp [h]))]
    exact hf.accepted bf fun a h => hall a (by simp [h])
  · rcases List.append_eq_append_iff.mp he with ⟨mid, rfl, rfl⟩ | ⟨mid, rfl, hmid⟩
    · obtain ⟨y, hy, hs, hb, hl⟩ := hf.rejected bf mid a post rfl (fun b h => hpre b (by simp [h])) ha
      refine ⟨y, ?_, ?_, fun b h => ?_, hl⟩
      · rw [run_bind_ok (hx.accepted bf fun a h => hpre a (by simp [h]))]
        exact hy
      · rw [hs, hx.stored, Trace.writes_append, List.length_append, Nat.add_assoc]
      · rw [Trace.writes_append, List.mem_append, not_or] at h
        rw [hb b h.2, hx.frame b h.1]
    · cases mid with
      | nil =>
        obtain ⟨y, hy, hs, hb, hl⟩ := hf.rejected bf [] a post (by simpa using hmid.symm) (by simp) ha
        refine ⟨y, ?_, ?_, fun b h => ?_, hl⟩
        · rw [run_bind_ok (hx.accepted bf fun a h => hpre a (by simpa using h))]
          exact hy
        · rw [hs, hx.stored]
          simp
        · rw [hb b (by simp), hx.frame b (by simpa using h)]
      | cons c mid =>
        obtain ⟨rfl, rfl⟩ : a = c ∧ post = mid ++ u := by simpa using hmid
        obtain ⟨y, hy, hs, hb, hl⟩ := hx.rejected bf pre a mid rfl hpre ha
        refine ⟨y, run_bind_error hy, hs, hb, fun b h => ?_⟩
        rw [← List.cons_append, Trace.writes_append, List.mem_append, not_or] at h
        rw [hl b h.1, hf.frame b h.2]
  · rw [hf.stored, hx.stored, Trace.writes_append, List.length_append, Nat.add_assoc]
  · rw [Trace.writes_append, List.mem_append, not_or] at hb
    rw [hf.frame b hb.2, hx.frame b hb.1]

theorem Traced.bind_error {x : Env → Eng α} {f : Env → α → Eng β} {w w' : Work} {t : Trace} {e : Raise}
    (hx : Traced env x w t (.error e) w') : Traced env (fun e => x e >>= f e) w t (.error e) w' := by
  refine ⟨fun bf hall => run_bind_error (hx.accepted bf hall), fun bf pre a post he hpre ha => ?_, hx.stored, hx.frame⟩
  obtain ⟨y, hy, h⟩ := hx.rejected bf pre a post he hpre ha
  exact ⟨y, run_bind_error hy, h⟩

/-- A piece whose run in `w` is that of another. -/
theorem Traced.congr {x y : Env → Eng α} {w w' : Work} {tr : Trace} {r : Except Raise α}
    (h : Traced env x w tr r w') (he : ∀ bf, y (env.rejecting bf) w = x (env.rejecting bf) w) :
    Traced env y w tr r w' := by
  refine ⟨fun bf hall => (he bf).trans (h.accepted bf hall), fun bf pre a post hs hpre ha => ?_, h.stored, h.frame⟩
  rw [he]
  exact h.rejected bf pre a post hs hpre ha

/-! ## The memory port -/

theorem memRead_traced (a n : Nat) (w : Work) :
    Traced env (memRead · a n) w (Trace.ofReads (List.range' a n)) (.ok (w.mem.little a n)) w := by
  induction n generalizing a with
  | zero => exact .pure _ _
  | succ n ih =>
    have h := (readByte_traced (env := env) a w).bind
      (f := fun e low => memRead e (a + 1) n >>= fun high => pure (low + 256 * high))
      ((ih (a + 1)).bind (f := fun _ high => pure ((w.mem.read a).toNat + 256 * high)) (.pure _ _))
    rw [List.append_nil] at h
    rw [List.range'_succ]
    exact h

theorem memWrite_traced (a n v : Nat) (w : Work) :
    Traced env (memWrite · a n v) w (Trace.ofWrites (List.range' a n)) (.ok ()) (w.put a (littleBytes n v)) := by
  induction n generalizing a v w with
  | zero => exact .pure _ _
  | succ n ih =>
    have h := (storeByte_traced (env := env) a (v % 256) w).bind
      (f := fun e _ => memWrite e (a + 1) n (v / 256)) (ih (a + 1) (v / 256) _)
    rw [ofNat_mod_byte, show a + 1 = a + [BitVec.ofNat 8 v].length from rfl, Work.put_put] at h
    exact h

end Sys2Proof.Machine
end

section
/-! PROOFS. The accesses of the six commands that read no stream. Past its checks such a command always goes on to the
end where the platform rejects nothing, and its accesses depend on its operands alone: `Succeeds`. -/
namespace Sys2Proof.Machine

open Sys2Proof.Reference

variable {α β : Type} {env : Env}

/-- From `w`, `x` makes the accesses `tr` and yields a `good` value, where none of them is rejected. -/
def Succeeds (env : Env) (x : Env → Eng α) (w : Work) (tr : Trace) (good : α → Prop) : Prop :=
  ∃ v w', Traced env x w tr (.ok v) w' ∧ good v

/-! ## Rules -/

theorem Traced.succeeds {x : Env → Eng α} {w w' : Work} {tr : Trace} {v : α} (h : Traced env x w tr (.ok v) w') :
    Succeeds env x w tr fun _ => True :=
  ⟨v, w', h, trivial⟩

theorem Succeeds.pure {w : Work} {v : α} {good : α → Prop} (h : good v) : Succeeds env (fun _ => pure v) w [] good :=
  ⟨v, w, .pure v w, h⟩

theorem Succeeds.bind {x : Env → Eng α} {f : Env → α → Eng β} {w : Work} {t u : Trace} {good : α → Prop}
    {good' : β → Prop} (hx : Succeeds env x w t good)
    (hf : ∀ v w', good v → w'.stored = w.stored + t.writes.length → Succeeds env (fun e => f e v) w' u good') :
    Succeeds env (fun e => x e >>= f e) w (t ++ u) good' := by
  obtain ⟨v, w1, hx, hv⟩ := hx
  obtain ⟨v2, w2, hf, hv2⟩ := hf v w1 hv hx.stored
  exact ⟨v2, w2, hx.bind hf, hv2⟩

theorem Succeeds.congr {x y : Env → Eng α} {w : Work} {tr : Trace} {good : α → Prop}
    (h : Succeeds env x w tr good) (he : ∀ bf, y (env.rejecting bf) w = x (env.rejecting bf) w) :
    Succeeds env y w tr good := by
  obtain ⟨v, w', hx, hv⟩ := h
  exact ⟨v, w', hx.congr he, hv⟩

theorem Succeeds.trace_eq {x : Env → Eng α} {w : Work} {t u : Trace} {good : α → Prop}
    (h : Succeeds env x w t good) (he : t = u) : Succeeds env x w u good := he ▸ h

/-- The rounds of a loop, the accesses of round `j` being `T j`. -/
theorem Succeeds.forFrom {body : Env → Nat → Eng Unit} {T : Nat → Trace} {n k : Nat} {w : Work}
    (h : ∀ j w, k ≤ j → j < k + n → w.stored = w.stored → Succeeds env (fun e => body e j) w (T j) fun _ => True) :
    Succeeds env (fun e => forFrom (body e) n k) w ((List.range' k n).flatMap T) fun _ => True := by
  induction n generalizing k w with
  | zero => exact .pure trivial
  | succ n ih =>
    rw [List.range'_succ, List.flatMap_cons]
    exact Succeeds.bind (h k w (Nat.le_refl k) (by omega) rfl) fun _ _ _ _ => ih fun j w h1 h2 => h j w (by omega)
      (by omega)

/-- The rounds of a loop that only reads. -/
theorem Succeeds.collectFrom {body : Env → Nat → Eng α} {R : Nat → List Nat} {n k : Nat} {w : Work}
    (h : ∀ j w, Succeeds env (fun e => body e j) w (Trace.ofReads (R j)) fun _ => True) :
    Succeeds env (fun e => collectFrom (body e) n k) w (Trace.ofReads ((List.range' k n).flatMap R))
      fun vs => vs.length = n := by
  induction n generalizing k w with
  | zero => exact .pure rfl
  | succ n ih =>
    rw [List.range'_succ, List.flatMap_cons, Trace.ofReads, List.map_append]
    refine Succeeds.bind (h k w) fun v _ _ _ => ?_
    refine Succeeds.trace_eq (Succeeds.bind ih fun vs _ hvs _ => ?_) (List.append_nil _)
    exact .pure (congrArg (· + 1) hvs)

/-! ## Bytes, records and texels -/

theorem memRead_succeeds (a n : Nat) (w : Work) :
    Succeeds env (memRead · a n) w (Trace.ofReads (List.range' a n)) fun _ => True :=
  (memRead_traced a n w).succeeds

theorem memWrite_succeeds (a n v : Nat) (w : Work) :
    Succeeds env (memWrite · a n v) w (Trace.ofWrites (List.range' a n)) fun _ => True :=
  (memWrite_traced a n v w).succeeds

theorem Traced.bind_outLen {f : Env → Nat → Eng α} {w w' : Work} {tr : Trace} {r : Except Raise α}
    (h : Traced env (fun e => f e w.stored) w tr r w') : Traced env (fun e => outLen >>= f e) w tr r w' :=
  h.congr fun _ => outLen_bind _ _

theorem append_traced (v : Nat) (w : Work) :
    Traced env (append · v) w (Trace.ofWrites [env.dst + w.stored]) (.ok ())
      (w.put (env.dst + w.stored) (littleBytes 1 v)) :=
  (memWrite_traced (env.dst + w.stored) 1 v w).congr fun _ => outLen_bind _ _

theorem append_succeeds (v : Nat) (w : Work) :
    Succeeds env (append · v) w (Trace.ofWrites (List.range' (env.dst + w.stored) 1)) fun _ => True :=
  (append_traced v w).succeeds

/-- Traces of writes to consecutive addresses. -/
theorem Trace.ofWrites_range' (a m n : Nat) :
    Trace.ofWrites (List.range' a m) ++ Trace.ofWrites (List.range' (a + m) n)
      = Trace.ofWrites (List.range' a (m + n)) := by
  rw [Trace.ofWrites, Trace.ofWrites, ← List.map_append, List.range'_append_1]
  rfl

/-- A piece that appends `m` bytes, and one that appends `n` after it. -/
theorem Succeeds.bind_appends {x : Env → Eng α} {f : Env → α → Eng β} {w : Work} {m n : Nat} {good : α → Prop}
    {good' : β → Prop} (hx : Succeeds env x w (Trace.ofWrites (List.range' (env.dst + w.stored) m)) good)
    (hf : ∀ v w', good v →
      Succeeds env (fun e => f e v) w' (Trace.ofWrites (List.range' (env.dst + w'.stored) n)) good') :
    Succeeds env (fun e => x e >>= f e) w (Trace.ofWrites (List.range' (env.dst + w.stored) (n + m))) good' := by
  rw [Nat.add_comm n m, ← Trace.ofWrites_range']
  refine hx.bind fun v w' hv hs => ?_
  have h := hf v w' hv
  rwa [hs, Trace.writes_ofWrites, List.length_range', ← Nat.add_assoc] at h

theorem appendBytes_succeeds (v n : Nat) (w : Work) :
    Succeeds env (appendBytes · v n) w (Trace.ofWrites (List.range' (env.dst + w.stored) n)) fun _ => True := by
  induction n generalizing v w with
  | zero => exact .pure trivial
  | succ n ih =>
    exact Succeeds.bind_appends (append_succeeds (v % 256) w) fun _ w' _ => ih _ w'

theorem readPixel_succeeds (a n : Nat) (w : Work) :
    Succeeds env (readPixel · a n) w (Trace.ofReads (List.range' (a + 4 * n) 4)) fun _ => True :=
  Succeeds.bind (memRead_succeeds _ 1 w) fun _ w _ _ => Succeeds.bind (memRead_succeeds _ 1 w) fun _ w _ _ =>
    Succeeds.bind (memRead_succeeds _ 1 w) fun _ w _ _ =>
      Succeeds.bind (u := []) (memRead_succeeds _ 1 w) fun _ _ _ _ => .pure trivial

theorem writePixel_succeeds (a n : Nat) (c : Pixel) (w : Work) :
    Succeeds env (writePixel · a n c) w (Trace.ofWrites (List.range' (a + 4 * n) 4)) fun _ => True :=
  Succeeds.bind (memWrite_succeeds _ 1 _ w) fun _ w _ _ => Succeeds.bind (memWrite_succeeds _ 1 _ w) fun _ w _ _ =>
    Succeeds.bind (memWrite_succeeds _ 1 _ w) fun _ w _ _ => memWrite_succeeds _ 1 _ w

theorem writePixels_succeeds (a n : Nat) (cs : List Pixel) (w : Work) :
    Succeeds env (writePixels · a cs n) w (Trace.ofWrites (List.range' (a + 4 * n) (4 * cs.length))) fun _ => True := by
  induction cs generalizing n w with
  | nil => exact .pure trivial
  | cons c cs ih =>
    rw [List.length_cons, Nat.mul_succ, Nat.add_comm _ 4, ← Trace.ofWrites_range']
    exact Succeeds.bind (writePixel_succeeds a n c w) fun _ w _ _ => ih (n + 1) w

/-- The addresses that a block is read from: its colour word before its alpha plane (43_etc1.md R238). -/
theorem readBlock_succeeds (a : Nat) (alpha : Bool) (w : Work) :
    Succeeds env (readBlock · a alpha) w
      (Trace.ofReads (if alpha then List.range' (a + 8) 8 ++ List.range' a 8 else List.range' a 8))
      fun p => p.length = 16 := by
  have hlen : ∀ w aw, (decodeBlock w aw).length = 16 := fun w aw => by simp [decodeBlock]
  cases alpha with
  | true =>
    exact Succeeds.bind (memRead_succeeds (a + 8) 8 w) fun _ w _ _ =>
      Succeeds.bind (u := []) (memRead_succeeds a 8 w) fun _ _ _ _ => .pure (hlen _ _)
  | false => exact Succeeds.bind (u := []) (memRead_succeeds a 8 w) fun _ _ _ _ => .pure (hlen _ _)

/-- A pixel of a texel buffer is read from the bytes that `texelReads` names. -/
theorem pixDecode_succeeds (f : PixelFormat) (a j : Nat) (w : Work) :
    Succeeds env (pixDecode · f a j) w (Trace.ofReads ((texelReads f j).map (a + ·))) fun _ => True := by
  have shift : ∀ k n, (List.range' k n).map (a + ·) = List.range' (a + k) n := fun k n => List.map_add_range' ..
  unfold pixDecode texelReads
  cases texelLayout f with
  | bytes size decode encode =>
    simp only [shift]
    exact Succeeds.trace_eq (Succeeds.bind (memRead_succeeds _ size w) fun _ _ _ _ => .pure trivial) (List.append_nil _)
  | nibbles decode encode =>
    exact Succeeds.trace_eq (Succeeds.bind (memRead_succeeds _ 1 w) fun _ _ _ _ => .pure trivial) (List.append_nil _)
  | blocks alpha =>
    refine Succeeds.trace_eq (Succeeds.bind (readBlock_succeeds _ alpha w) fun _ _ _ _ => .pure trivial) ?_
    cases alpha <;> simp [shift, blockBytes, Nat.add_assoc]

theorem etc1Encode_succeeds (pixels : List Pixel) (alpha : Bool) (w : Work) :
    Succeeds env (etc1Encode · pixels alpha) w
      (Trace.ofWrites (List.range' (env.dst + w.stored) (blockBytes alpha))) fun _ => True := by
  cases alpha with
  | true =>
    exact Succeeds.bind_appends (m := 8) (n := 8) (appendBytes_succeeds _ 8 w) fun _ w _ =>
      Succeeds.bind (u := []) (appendBytes_succeeds _ 8 w) fun _ _ _ _ => .pure trivial
  | false =>
    exact Succeeds.bind (u := []) (appendBytes_succeeds _ 8 w) fun _ _ _ _ => .pure trivial

theorem encodeByteTexels_succeeds (size : Nat) (encode : Pixel → Nat) (cs : List Pixel) (w : Work) :
    Succeeds env (encodeByteTexels · size encode cs) w
      (Trace.ofWrites (List.range' (env.dst + w.stored) (cs.length * size))) fun _ => True := by
  induction cs generalizing w with
  | nil =>
    rw [List.length_nil, Nat.zero_mul]
    exact .pure trivial
  | cons c cs ih =>
    rw [List.length_cons, Nat.succ_mul]
    exact Succeeds.bind_appends (appendBytes_succeeds _ size w) fun _ w _ => ih w

theorem encodeNibbleTexels_succeeds (encode : Pixel → Nat) (cs : List Pixel) (pend : Option Nat) (w : Work) :
    Succeeds env (encodeNibbleTexels · encode cs pend) w
      (Trace.ofWrites (List.range' (env.dst + w.stored) ((cs.length + pend.toList.length + 1) / 2)))
      fun _ => True := by
  induction cs generalizing pend w with
  | nil =>
    cases pend with
    | none => exact .pure trivial
    | some low => simpa [encodeNibbleTexels] using append_succeeds (env := env) low w
  | cons c cs ih =>
    cases pend with
    | none => exact ih (some (encode c)) w
    | some low =>
      rw [show ((c :: cs).length + (some low).toList.length + 1) / 2 = (cs.length + 0 + 1) / 2 + 1 by simp; omega]
      exact Succeeds.bind_appends (append_succeeds _ w) fun _ w _ => ih none w

theorem encodeBlockTexels_succeeds (alpha : Bool) (n : Nat) (cs : List Pixel) (w : Work) :
    Succeeds env (encodeBlockTexels · alpha n cs) w
      (Trace.ofWrites (List.range' (env.dst + w.stored) (n * blockBytes alpha))) fun _ => True := by
  induction n generalizing cs w with
  | zero =>
    rw [Nat.zero_mul]
    exact .pure trivial
  | succ n ih =>
    rw [Nat.succ_mul]
    exact Succeeds.bind_appends (etc1Encode_succeeds _ alpha w) fun _ w _ => ih _ w

/-- Encoding pixels appends their encoded size (42_pixel_format.md R183). -/
theorem pixEncode_succeeds (f : PixelFormat) (cs : List Pixel) (w : Work) :
    Succeeds env (pixEncode · f cs) w
      (Trace.ofWrites (List.range' (env.dst + w.stored) (encodedSize f cs.length))) fun _ => True := by
  unfold pixEncode encodedSize
  have hlen : (cs.map (zeroAlpha env.platform)).length = cs.length := List.length_map _
  cases texelLayout f with
  | bytes size decode encode =>
    have h := encodeByteTexels_succeeds (env := env) size encode (cs.map (zeroAlpha env.platform)) w
    rw [hlen] at h
    exact h.congr fun _ => rfl
  | nibbles decode encode =>
    have h := encodeNibbleTexels_succeeds (env := env) encode (cs.map (zeroAlpha env.platform)) none w
    rw [hlen] at h
    exact h.congr fun _ => rfl
  | blocks alpha =>
    have h := encodeBlockTexels_succeeds (env := env) alpha (cs.length / 16) (cs.map (zeroAlpha env.platform)) w
    refine h.congr fun bf => ?_
    rw [← hlen]
    rfl

end Sys2Proof.Machine
end

section
/-! PROOFS. The accesses of the stream decompressors: `Streams` says that a piece appends its bytes in rising order, counts
them, raises nothing but CorruptStream where no access is rejected, and never stores more than the declared length. -/
namespace Sys2Proof.Machine

variable {α β : Type} {env : Env} {n : Nat}

/-- With a count of output bytes in `pre`, where no access is rejected, `x` appends bytes one after the other and either
yields a value with a count in `post`, or raises CorruptStream with at most `n` bytes stored. -/
def Streams (env : Env) (n : Nat) (pre : Nat → Prop) (x : Env → Eng α) (post : α → Nat → Prop) : Prop :=
  ∀ w, pre w.stored → ∃ tr r w', Traced env x w tr r w'
    ∧ tr.writes = List.range' (env.dst + w.stored) tr.writes.length
    ∧ match r with
      | .ok v => post v w'.stored
      | .error e => e.err = .corruptStream ∧ w'.stored ≤ n

/-! ## Rules -/

section Rules
variable {before : Nat → Prop} {after : α → Nat → Prop}

theorem Streams.pure {v : α} (h : ∀ k, before k → after v k) : Streams env n before (fun _ => pure v) after :=
  fun w hw => ⟨[], .ok v, w, .pure v w, rfl, h _ hw⟩

/-- CorruptStream at the cursor. -/
theorem Streams.raiseAtCursor (h : ∀ k, before k → k ≤ n) :
    Streams env n before (fun _ => inPos >>= fun pos => raise .corruptStream pos) after :=
  fun w hw => ⟨[], _, w, .silent (fun _ => rfl) rfl rfl, rfl, rfl, h _ hw⟩

theorem Streams.bind {x : Env → Eng α} {f : Env → α → Eng β} {mid : α → Nat → Prop} {after : β → Nat → Prop}
    (hx : Streams env n before x mid) (hf : ∀ v, Streams env n (mid v) (fun e => f e v) after) :
    Streams env n before (fun e => x e >>= f e) after := by
  intro w hw
  obtain ⟨t, r, w1, ht, hwrites, hr⟩ := hx w hw
  cases r with
  | error e => exact ⟨t, _, w1, ht.bind_error, hwrites, hr⟩
  | ok v =>
    obtain ⟨u, r', w2, hu, hwrites', hr'⟩ := hf v w1 hr
    refine ⟨t ++ u, r', w2, ht.bind hu, ?_, hr'⟩
    rw [ht.stored, ← Nat.add_assoc] at hwrites'
    rw [Trace.writes_append, List.length_append, ← List.range'_append_1, ← hwrites, ← hwrites']

theorem Streams.ite {c : Prop} [Decidable c] {x y : Env → Eng α} (hx : c → Streams env n before x after)
    (hy : ¬ c → Streams env n before y after) : Streams env n before (fun e => if c then x e else y e) after := by
  by_cases h : c
  · simpa only [if_pos h] using hx h
  · simpa only [if_neg h] using hy h

theorem Streams.weaken {x : Env → Eng α} {before' : Nat → Prop} {after' : α → Nat → Prop}
    (h : Streams env n before x after)
    (hbefore : ∀ k, before' k → before k) (hafter : ∀ v k, after v k → after' v k) :
    Streams env n before' x after' := by
  intro w hw
  obtain ⟨t, r, w1, ht, hwrites, hr⟩ := h w (hbefore _ hw)
  refine ⟨t, r, w1, ht, hwrites, ?_⟩
  cases r with
  | error e => exact hr
  | ok v => exact hafter v _ hr

theorem Streams.pre {x : Env → Eng α} {before' : Nat → Prop} (h : Streams env n before x after)
    (hbefore : ∀ k, before' k → before k) :
    Streams env n before' x after :=
  h.weaken hbefore fun _ _ h => h

theorem Streams.post {x : Env → Eng α} {after' : α → Nat → Prop} (h : Streams env n before x after)
    (hafter : ∀ v k, after v k → after' v k) : Streams env n before x after' :=
  h.weaken (fun _ h => h) hafter

theorem Streams.congr {x y : Env → Eng α} (h : Streams env n before x after)
    (he : ∀ bf w, y (env.rejecting bf) w = x (env.rejecting bf) w) : Streams env n before y after := by
  intro w hw
  obtain ⟨t, r, w1, ht, h⟩ := h w hw
  exact ⟨t, r, w1, ht.congr fun bf => he bf w, h⟩

/-- A fact that does not depend on the count may be assumed. -/
theorem Streams.assume {c : Prop} {x : Env → Eng α} (h : c → Streams env n before x after) :
    Streams env n (fun k => c ∧ before k) x after :=
  fun w hw => h hw.1 w hw.2

/-- The count of output bytes, read before the rest. -/
theorem Streams.outLen_bind {f : Env → Nat → Eng α} (h : ∀ k, before k → Streams env n (· = k) (fun e => f e k) after) :
    Streams env n before (fun e => outLen >>= f e) after := by
  intro w hw
  obtain ⟨t, r, w1, ht, h⟩ := h w.stored hw w rfl
  exact ⟨t, r, w1, ht.bind_outLen, h⟩

/-- `m` rounds of one byte each, where there is room for them. -/
theorem Streams.repeatTimes {body : Env → Eng Unit} {m k : Nat} (hroom : k + m ≤ n)
    (h : ∀ j < n, Streams env n (· = j) body fun _ c => c = j + 1) :
    Streams env n (· = k) (fun e => repeatTimes (body e) m) fun _ c => c = k + m ∧ c ≤ n := by
  induction m generalizing k with
  | zero => exact .pure fun _ h => by omega
  | succ m ih =>
    refine Streams.bind (h k (by omega)) fun _ => ?_
    have hrest := ih (k := k + 1) (by omega)
    rwa [show k + 1 + m = k + (m + 1) by omega] at hrest

theorem Streams.collectFrom {body : Env → Nat → Eng α} {m k : Nat}
    (h : ∀ j, Streams env n before (fun e => body e j) fun _ => before) :
    Streams env n before (fun e => collectFrom (body e) m k) fun _ => before := by
  induction m generalizing k with
  | zero => exact .pure fun _ h => h
  | succ m ih => exact Streams.bind (h k) fun _ => Streams.bind ih fun _ => .pure fun _ h => h

end Rules

/-! ## Bytes -/

section Bytes
variable {before : Nat → Prop}

theorem inByte_traced {w : Work} (h : w.inPos < env.srcLen) :
    Traced env inByte w [⟨env.src + w.inPos, .read⟩] (.ok (w.mem.read (env.src + w.inPos)).toNat) (w.advance 1) := by
  refine .single _ (fun bf => ?_) rfl fun _ _ => rfl
  rcases inByte_cases (env.rejecting bf) w with ⟨-, hr, hrun⟩ | ⟨hle, -⟩ | ⟨-, hr, hrun⟩
  · rw [hrun]
    exact (if_neg (ne_true_of_eq_false hr)).symm
  · exact absurd h (Nat.not_lt.mpr hle)
  · rw [hrun]
    exact (if_pos hr).symm

theorem inByte_traced_end {w : Work} (h : env.srcLen ≤ w.inPos) :
    Traced env inByte w [] (.error { err := .corruptStream, info := w.inPos }) w :=
  .silent (fun _ => inByte_end h) rfl rfl

theorem inByte_streams (h : ∀ k, before k → k ≤ n) : Streams env n before inByte fun _ => before := by
  intro w hw
  by_cases hp : w.inPos < env.srcLen
  · exact ⟨_, _, _, inByte_traced hp, rfl, hw⟩
  · exact ⟨_, _, _, inByte_traced_end (Nat.not_lt.mp hp), rfl, rfl, h _ hw⟩

theorem inBytes_streams {m : Nat} (h : ∀ k, before k → k ≤ n) :
    Streams env n before (fun e => inBytes e m) fun _ => before := by
  induction m with
  | zero => exact .pure fun _ h => h
  | succ m ih => exact Streams.bind (inByte_streams h) fun _ => Streams.bind ih fun _ => .pure fun _ h => h

/-- One more byte, where fewer than `n` are stored. -/
theorem append_streams {after : Unit → Nat → Prop} {v : Nat} (h : ∀ k, before k → k < n ∧ after () (k + 1)) :
    Streams env n before (append · v) after :=
  fun w hw => ⟨_, _, _, append_traced v w, rfl, (h _ hw).2⟩

theorem outByte_streams {at_ disp : Nat} : Streams env n before (fun e => outByte e (at_ - disp)) fun _ => before :=
  fun w hw =>
    ⟨_, _, _, (memRead_traced (env.dst + (at_ - disp)) 1 w).congr fun _ => rfl, by rw [Trace.writes_ofReads]; rfl, hw⟩

end Bytes

/-! ## LZ10 and LZ11 -/

theorem copyback_streams {disp len k : Nat} (hk : k ≤ n) :
    Streams env n (· = k) (fun e => copyback e disp len n) fun _ j => j = k + len ∧ j ≤ n := by
  refine Streams.outLen_bind fun out hout => ?_
  subst hout
  refine Streams.ite (fun _ => .raiseAtCursor fun _ h => h ▸ hk) fun _ => ?_
  refine Streams.ite (fun _ => .raiseAtCursor fun _ h => h ▸ hk) fun hroom => ?_
  refine Streams.repeatTimes (Nat.not_lt.mp hroom) fun j hj => Streams.outLen_bind fun c hc => ?_
  exact Streams.bind outByte_streams fun _ => append_streams fun _ hd => by omega

/-- A reference reader reads input bytes alone, and yields a length of at least 1. -/
def ReadsReference (env : Env) (n : Nat) (reference : Env → Eng (Nat × Nat)) : Prop :=
  ∀ k ≤ n, Streams env n (· = k) reference fun dl j => 1 ≤ dl.2 ∧ j = k

theorem lz10Reference_streams : ReadsReference env n lz10Reference := by
  intro k hk
  have hle : ∀ j, j = k → j ≤ n := fun j hj => hj ▸ hk
  exact Streams.bind (inByte_streams hle) fun _ => Streams.bind (inByte_streams hle) fun _ =>
    .pure fun _ hj => ⟨Nat.le_add_left .., hj⟩

theorem lz11Reference_streams : ReadsReference env n lz11Reference := by
  intro k hk
  have hle : ∀ j, j = k → j ≤ n := fun j hj => hj ▸ hk
  refine Streams.bind (inByte_streams hle) fun b1 => ?_
  split
  · exact Streams.bind (inByte_streams hle) fun _ => Streams.bind (inByte_streams hle) fun _ =>
      .pure fun _ hj => ⟨Nat.le_add_left .., hj⟩
  · exact Streams.bind (inByte_streams hle) fun _ => Streams.bind (inByte_streams hle) fun _ =>
      Streams.bind (inByte_streams hle) fun _ => .pure fun _ hj => ⟨Nat.le_add_left .., hj⟩
  · exact Streams.bind (inByte_streams hle) fun _ => .pure fun _ hj => ⟨Nat.le_add_left .., hj⟩

variable {reference : Env → Eng (Nat × Nat)}

theorem lzToken_streams (href : ReadsReference env n reference) {flag k : Nat} (hk : k < n) :
    Streams env n (· = k) (fun e => lzToken e (reference e) n flag) fun _ j => k < j ∧ j ≤ n := by
  refine Streams.ite (fun _ => ?_) fun _ => ?_
  · exact Streams.bind (inByte_streams (by omega)) fun _ => append_streams (by omega)
  · exact Streams.bind (href k (by omega)) fun dl => Streams.assume fun hlen =>
      (copyback_streams (by omega)).post fun _ _ hj => by omega

theorem lzGroup_streams (href : ReadsReference env n reference) (flags i k : Nat) :
    Streams env n (fun j => k ≤ j ∧ j ≤ n) (fun e => lzGroup e (reference e) n flags i) fun _ j => k ≤ j ∧ j ≤ n := by
  induction i with
  | zero => exact .pure fun _ h => h
  | succ i ih =>
    refine Streams.outLen_bind fun j hj => Streams.ite (fun _ => .pure fun _ h => by omega) fun hne => ?_
    refine Streams.bind (lzToken_streams href (by omega)) fun _ => ih.pre fun _ h => by omega

/-- The tokens of a flag byte append at least one byte where there is room. -/
theorem lzGroup_streams_grows (href : ReadsReference env n reference) (flags i : Nat) {k : Nat} (hk : k < n) :
    Streams env n (· = k) (fun e => lzGroup e (reference e) n flags (i + 1)) fun _ j => k + 1 ≤ j ∧ j ≤ n := by
  refine Streams.outLen_bind fun j hj => Streams.ite (fun _ => .pure fun _ h => by omega) fun _ => ?_
  exact Streams.bind (lzToken_streams href (by omega)) fun _ =>
    (lzGroup_streams href flags i (k + 1)).pre fun _ h => by omega

theorem lzBody_streams (href : ReadsReference env n reference) (bound : Nat) :
    Streams env n (fun k => k ≤ n ∧ n ≤ k + bound) (fun e => lzBody e (reference e) n bound) fun _ k => k = n := by
  induction bound with
  | zero => exact .pure fun _ h => by omega
  | succ bound ih =>
    refine Streams.outLen_bind fun k hk => Streams.ite (fun hlt => ?_) fun _ => .pure fun _ h => by omega
    refine Streams.bind (inByte_streams (by omega)) fun flags => ?_
    exact Streams.bind (lzGroup_streams_grows href flags 7 hlt) fun _ => ih.pre fun _ h => by omega

/-! ## RLE and verbatim bodies -/

theorem rleGroup_streams {k : Nat} (hk : k < n) :
    Streams env n (· = k) (fun e => rleGroup e n) fun _ j => k + 1 ≤ j ∧ j ≤ n := by
  refine Streams.bind (inByte_streams (by omega)) fun f => Streams.ite (fun _ => ?_) fun _ => ?_
  · refine Streams.bind (inByte_streams (by omega)) fun v => Streams.outLen_bind fun out hout => ?_
    refine Streams.ite (fun _ => .raiseAtCursor (by omega)) fun hroom => ?_
    exact (Streams.repeatTimes (Nat.not_lt.mp hroom) fun j hj => append_streams (by omega)).post
      fun _ _ hc => by omega
  · refine Streams.outLen_bind fun out hout => ?_
    refine Streams.ite (fun _ => .raiseAtCursor (by omega)) fun hroom => ?_
    exact (Streams.repeatTimes (Nat.not_lt.mp hroom) fun j hj =>
      Streams.bind (inByte_streams (by omega)) fun _ => append_streams (by omega)).post fun _ _ hc => by omega

theorem rleLoop_streams (bound : Nat) :
    Streams env n (fun k => k ≤ n ∧ n ≤ k + bound) (fun e => rleLoop e n bound) fun _ k => k = n := by
  induction bound with
  | zero => exact .pure fun _ h => by omega
  | succ bound ih =>
    refine Streams.outLen_bind fun k hk => Streams.ite (fun hlt => ?_) fun _ => .pure fun _ h => by omega
    exact Streams.bind (rleGroup_streams hlt) fun _ => ih.pre fun _ h => by omega

theorem verbatimBody_streams : Streams env n (· = 0) (fun e => verbatimBody e n) fun _ k => k = n :=
  (Streams.repeatTimes (Nat.zero_add n).le fun j hj =>
    Streams.bind (inByte_streams (by omega)) fun _ => append_streams (by omega)).post fun _ _ hc => by omega

/-! ## Huffman -/

theorem huffRefill_streams {k : Nat} (hk : k ≤ n) (h : HuffState) :
    Streams env n (· = k) (fun e => huffRefill e h) fun h' j => (h'.syms = h.syms ∧ h'.pend = h.pend) ∧ j = k := by
  refine Streams.ite (fun _ => ?_) fun _ => .pure fun _ hj => ⟨⟨rfl, rfl⟩, hj⟩
  exact Streams.bind (inBytes_streams (by omega)) fun _ => .pure fun _ hj => ⟨⟨rfl, rfl⟩, hj⟩

/-- The decoder's state after a symbol has been emitted: one more symbol, stored or pending. -/
theorem huffEmit_streams {wide : Bool} {leaf : Nat} {h : HuffState} (hp : huffPending wide h)
    (hs : huffStored wide h < n) :
    Streams env n (· = huffStored wide h) (fun e => huffEmit e wide leaf h.pend) fun p j =>
      huffPending wide { h with pend := p, syms := h.syms + 1 }
        ∧ j = huffStored wide { h with pend := p, syms := h.syms + 1 } := by
  cases wide with
  | true =>
    simp only [huffStored, if_true] at hs ⊢
    exact Streams.bind (append_streams (after := fun _ j => j = h.syms + 1) (by omega)) fun _ =>
      .pure fun _ hj => ⟨by simp [huffPending], hj⟩
  | false =>
    simp only [huffStored, Bool.false_eq_true, if_false, huffPending] at hs hp ⊢
    unfold huffEmit
    cases hpend : h.pend with
    | none =>
      have heven : ¬ h.syms % 2 = 1 := fun ho => by rw [hpend] at hp; simpa using hp.mpr ho
      exact .pure fun _ hj => ⟨by simp; omega, by omega⟩
    | some low =>
      have hodd : h.syms % 2 = 1 := hp.mp (by rw [hpend]; rfl)
      exact Streams.bind (append_streams (after := fun _ j => j = h.syms / 2 + 1) (by omega)) fun _ =>
        .pure fun _ hj => ⟨by simp; omega, by omega⟩

theorem huffStep_streams {wide : Bool} {tree : List Nat} {h : HuffState} (hp : huffPending wide h)
    (hs : huffStored wide h < n) :
    Streams env n (· = huffStored wide h) (fun e => huffStep e wide tree h) fun h' j =>
      (huffPending wide h' ∧ (h'.syms = h.syms ∨ h'.syms = h.syms + 1)) ∧ j = huffStored wide h' := by
  refine Streams.bind (huffRefill_streams (by omega) h) fun h1 => Streams.assume fun hh => ?_
  obtain ⟨hsyms, hpend⟩ := hh
  have hp1 : huffPending wide h1 := by simpa [huffPending, hsyms, hpend] using hp
  have hs1 : huffStored wide h1 = huffStored wide h := by simp [huffStored, hsyms]
  rw [← hs1] at hs ⊢
  refine Streams.ite (fun _ => .raiseAtCursor (by omega)) fun _ => ?_
  refine Streams.ite (fun _ => ?_) fun _ => .pure fun _ hj => ⟨⟨hp1, .inl hsyms⟩, hj⟩
  exact Streams.bind (huffEmit_streams hp1 hs) fun p => .pure fun _ hj => ⟨⟨hj.1, .inr (by simp [hsyms])⟩, hj.2⟩

/-- The number of symbols of `n` bytes. -/
def huffSymbols (wide : Bool) (n : Nat) : Nat := if wide then n else 2 * n

theorem huffStored_lt {wide : Bool} {h : HuffState} (hlt : h.syms < huffSymbols wide n) : huffStored wide h < n := by
  cases wide <;> simp [huffStored, huffSymbols] at * <;> omega

theorem huffStored_eq {wide : Bool} {h : HuffState} (he : h.syms = huffSymbols wide n) : huffStored wide h = n := by
  cases wide <;> simp [huffStored, huffSymbols, he]

theorem huffStored_le {wide : Bool} {h : HuffState} (hle : h.syms ≤ huffSymbols wide n) : huffStored wide h ≤ n := by
  cases wide <;> simp [huffStored, huffSymbols] at * <;> omega

theorem huffWalk_streams {wide : Bool} {tree : List Nat} (bound : Nat) (h : HuffState) (hp : huffPending wide h)
    (hle : h.syms ≤ huffSymbols wide n) :
    Streams env n (· = huffStored wide h) (fun e => huffWalk e wide tree (huffSymbols wide n) bound h)
      fun _ k => k = n := by
  have stop : ¬ h.syms < huffSymbols wide n →
      Streams env n (· = huffStored wide h) (fun _ => Pure.pure ()) fun _ k => k = n := fun hge =>
    .pure fun k hk => hk.trans (huffStored_eq (by omega))
  induction bound generalizing h with
  | zero => exact Streams.ite (fun _ => .raiseAtCursor fun k hk => hk ▸ huffStored_le hle) stop
  | succ bound ih =>
    refine Streams.ite (fun hlt => ?_) stop
    refine Streams.bind (huffStep_streams hp (huffStored_lt hlt)) fun h' => Streams.assume fun hh => ?_
    exact ih h' hh.1 (by omega) fun hge => .pure fun k hk => hk.trans (huffStored_eq (by omega))

theorem huffTree_streams {pre : Nat → Prop} (h : ∀ k, pre k → k ≤ n) : Streams env n pre huffTree fun _ => pre :=
  Streams.bind (inByte_streams h) fun _ =>
    Streams.bind (.collectFrom (body := fun e _ => inByte e) fun _ => inByte_streams h) fun _ => .pure fun _ h => h

theorem huffBody_streams (wide : Bool) : Streams env n (· = 0) (fun e => huffBody e n wide) fun _ k => k = n := by
  refine Streams.ite (fun hn => .pure fun k hk => by omega) fun _ => ?_
  refine Streams.bind (huffTree_streams (by omega)) fun tree => ?_
  have hp : huffPending wide huffStart := by cases wide <;> simp [huffPending, huffStart]
  have hs : huffStored wide huffStart = 0 := by cases wide <;> simp [huffStored, huffStart]
  have h := huffWalk_streams (env := env) (n := n) (tree := tree) (8 * env.srcLen + 1) huffStart hp (Nat.zero_le _)
  rw [hs] at h
  exact h.congr fun _ _ => rfl

/-! ## Containers -/

theorem containerBody_streams (m : Nat) : Streams env n (· = 0) (fun e => containerBody e m n) fun _ k => k = n := by
  have start : ∀ k, k = 0 → k ≤ n ∧ n ≤ k + n := by omega
  unfold containerBody
  split
  · exact verbatimBody_streams
  · exact (lzBody_streams lz10Reference_streams n).pre start
  · exact huffBody_streams false
  · exact huffBody_streams true
  · exact (rleLoop_streams n).pre start

end Sys2Proof.Machine
end

section
/-! PROOFS. The places of TEX.DEC's output (44_swizzle.md R291 to R294, R299, R300): the texels of the padded texture fill
its rectangle, each place once, so those in the image fill the raster, each record once. -/
namespace Sys2Proof.Machine

open Sys2Proof.Reference

/-! ## Padded dimensions -/

theorem powerOfTwoAbove_spec {p : Nat} (hp : 8 ≤ p) : p ≤ powerOfTwoAbove p ∧ 8 ∣ powerOfTwoAbove p := by
  have hlog : 3 ≤ p.log2 := (Nat.le_log2 (by omega)).mpr hp
  have hlt : p < 2 ^ (p.log2 + 1) := Nat.lt_log2_self
  unfold powerOfTwoAbove
  split
  · next h => exact ⟨le_rfl, (Nat.pow_dvd_pow 2 hlog).trans (dvd_of_eq h)⟩
  · exact ⟨hlt.le, Nat.pow_dvd_pow 2 (by omega : 3 ≤ p.log2 + 1)⟩

/-- The padded size is a multiple of 8 that is not below the size (44_swizzle.md R291). -/
theorem padDim_spec {d : Nat} (pad : Bool) (hd : 0 < d) : d ≤ padDim d pad ∧ 8 ∣ padDim d pad := by
  have hp : d ≤ 8 * ((d + 7) / 8) := by omega
  cases pad with
  | false => exact ⟨hp, Nat.dvd_mul_right 8 _⟩
  | true =>
    obtain ⟨hle, hdvd⟩ := powerOfTwoAbove_spec (p := 8 * ((d + 7) / 8)) (by omega)
    exact ⟨hp.trans hle, hdvd⟩

/-! ## Addresses in the padded texture -/

/-- Tile and in-tile coordinates are below the number of tiles and below 8. -/
theorem inTile_lt (n : Nat) : (inTile n).1 < 8 ∧ (inTile n).2 < 8 := by
  simp only [inTile, bitAt]
  omega

/-- The six low bits of an index. -/
theorem mod_64_eq_bits (n : Nat) :
    n % 64 = n % 2 + 2 * (n / 2 % 2) + 4 * (n / 4 % 2) + 8 * (n / 8 % 2) + 16 * (n / 16 % 2) + 32 * (n / 32 % 2) := by
  omega

theorem inTile_eq (n : Nat) :
    inTile n = (4 * (n / 16 % 2) + 2 * (n / 4 % 2) + n % 2, 4 * (n / 32 % 2) + 2 * (n / 8 % 2) + n / 2 % 2) := by
  simp [inTile, bitAt, Nat.shiftRight_eq_div_pow]

/-- Three binary digits are those of their number. -/
theorem threeBits_injective {a b c a' b' c' : Nat} (h : 4 * a + 2 * (b % 2) + c % 2 = 4 * a' + 2 * (b' % 2) + c' % 2) :
    a = a' ∧ b % 2 = b' % 2 ∧ c % 2 = c' % 2 := by
  omega

/-- The in-tile coordinates hold the six low bits of the index (44_swizzle.md R293). -/
theorem inTile_injective {m n : Nat} (h : inTile m = inTile n) : m % 64 = n % 64 := by
  rw [inTile_eq, inTile_eq, Prod.mk.injEq] at h
  obtain ⟨h16, h4, h1⟩ := threeBits_injective h.1
  obtain ⟨h32, h8, h2⟩ := threeBits_injective h.2
  rw [mod_64_eq_bits m, mod_64_eq_bits n, h1, h2, h4, h8, h16, h32]

theorem tileOf_eq (n stride : Nat) : tileOf n stride = (n / 64 % (stride / 8), n / 64 / (stride / 8)) := by
  simp [tileOf, Nat.shiftRight_eq_div_pow]

/-- The texels of the padded texture lie in its rectangle. -/
theorem addressOf_lt {n pw ph : Nat} (mode : SwizzleMode) (hw : 8 ∣ pw) (hh : 8 ∣ ph) (hn : n < pw * ph) :
    (addressOf n (strideOf pw ph mode) mode).1 < pw ∧ (addressOf n (strideOf pw ph mode) mode).2 < ph := by
  obtain ⟨a, rfl⟩ := hw
  obtain ⟨b, rfl⟩ := hh
  have ha : 0 < a := Nat.pos_of_ne_zero (by rintro rfl; simp at hn)
  have hb : 0 < b := Nat.pos_of_ne_zero (by rintro rfl; simp at hn)
  have htile : n / 64 < a * b := Nat.div_lt_of_lt_mul (by nlinarith)
  have hxa : n / 64 % a < a := Nat.mod_lt _ ha
  have hxb : n / 64 % b < b := Nat.mod_lt _ hb
  have hya : n / 64 / a < b := Nat.div_lt_of_lt_mul htile
  have hyb : n / 64 / b < a := Nat.div_lt_of_lt_mul (by rwa [Nat.mul_comm])
  obtain ⟨hx, hy⟩ := inTile_lt n
  cases mode <;> simp only [addressOf, strideOf, tileOf_eq, Nat.mul_div_cancel_left _ (by omega : 0 < 8)] <;> omega

/-- No two texels of the padded texture have one place. -/
theorem addressOf_injective {m n pw ph : Nat} (mode : SwizzleMode) (hw : 8 ∣ pw) (hh : 8 ∣ ph) (hm : m < pw * ph)
    (hn : n < pw * ph)
    (h : addressOf m (strideOf pw ph mode) mode = addressOf n (strideOf pw ph mode) mode) : m = n := by
  obtain ⟨a, rfl⟩ := hw
  obtain ⟨b, rfl⟩ := hh
  have ha : 0 < a := Nat.pos_of_ne_zero (by rintro rfl; simp at hn)
  have hb : 0 < b := Nat.pos_of_ne_zero (by rintro rfl; simp at hn)
  obtain ⟨hxm, hym⟩ := inTile_lt m
  obtain ⟨hxn, hyn⟩ := inTile_lt n
  have same : ∀ c, 0 < c → m / 64 % c = n / 64 % c → m / 64 / c = n / 64 / c → inTile m = inTile n → m = n := by
    intro c _ hmod hdiv hin
    have htile : m / 64 = n / 64 := by rw [← Nat.div_add_mod (m / 64) c, ← Nat.div_add_mod (n / 64) c, hmod, hdiv]
    have := inTile_injective hin
    omega
  have hlt : ∀ k, k % b < b := fun k => Nat.mod_lt k hb
  have hm' := hlt (m / 64)
  have hn' := hlt (n / 64)
  cases mode <;>
    simp only [addressOf, strideOf, tileOf_eq, Nat.mul_div_cancel_left _ (by omega : 0 < 8), Prod.mk.injEq] at h
  case default => exact same a ha (by omega) (by omega) (Prod.ext (by omega) (by omega))
  case transposeTile => exact same a ha (by omega) (by omega) (Prod.ext (by omega) (by omega))
  case rotate90 => exact same b hb (by omega) (by omega) (Prod.ext (by omega) (by omega))
  case transpose => exact same b hb (by omega) (by omega) (Prod.ext (by omega) (by omega))

/-! ## The order of TEX.DEC's records -/

/-- The texels of the padded texture. -/
def texelPlaces (mode : SwizzleMode) (pw ph : Nat) : List (Nat × Nat) :=
  (List.range (pw * ph)).map fun n => addressOf n (strideOf pw ph mode) mode

theorem texelPlaces_nodup (mode : SwizzleMode) {pw ph : Nat} (hw : 8 ∣ pw) (hh : 8 ∣ ph) :
    (texelPlaces mode pw ph).Nodup :=
  List.Nodup.map_on (fun _ hm _ hn h => addressOf_injective mode hw hh (List.mem_range.mp hm) (List.mem_range.mp hn) h)
    List.nodup_range

/-- The texels fill the padded rectangle: there are as many of them as it has places. -/
theorem texelPlaces_toFinset (mode : SwizzleMode) {pw ph : Nat} (hw : 8 ∣ pw) (hh : 8 ∣ ph) :
    (texelPlaces mode pw ph).toFinset = Finset.range pw ×ˢ Finset.range ph := by
  refine Finset.eq_of_subset_of_card_le (fun p hp => ?_) ?_
  · simp only [texelPlaces, List.mem_toFinset, List.mem_map, List.mem_range] at hp
    obtain ⟨n, hn, rfl⟩ := hp
    simpa using addressOf_lt mode hw hh hn
  · rw [List.toFinset_card_of_nodup (texelPlaces_nodup mode hw hh)]
    simp [texelPlaces]

theorem texelOrder_eq (mode : SwizzleMode) (w h pw ph : Nat) :
    texelOrder mode w h pw ph = (texelPlaces mode pw ph).filter fun p => decide (p.1 < w) && decide (p.2 < h) := rfl

theorem texelOrder_nodup (mode : SwizzleMode) {w h pw ph : Nat} (hw : 8 ∣ pw) (hh : 8 ∣ ph) :
    (texelOrder mode w h pw ph).Nodup :=
  (texelPlaces_nodup mode hw hh).filter _

theorem texelOrder_inside {mode : SwizzleMode} {w h pw ph : Nat} {p : Nat × Nat} (hp : p ∈ texelOrder mode w h pw ph) :
    p.1 < w ∧ p.2 < h := by
  simpa using (List.mem_filter.mp hp).2

/-- TEX.DEC writes one record for each pixel of the image (44_swizzle.md R300). -/
theorem texelOrder_length (mode : SwizzleMode) {w h pw ph : Nat} (hw : 8 ∣ pw) (hh : 8 ∣ ph) (hwp : w ≤ pw)
    (hhp : h ≤ ph) : (texelOrder mode w h pw ph).length = w * h := by
  rw [← List.toFinset_card_of_nodup (texelOrder_nodup mode hw hh), texelOrder_eq, List.toFinset_filter,
    texelPlaces_toFinset mode hw hh]
  have hfill : (Finset.range pw ×ˢ Finset.range ph).filter (fun p => (decide (p.1 < w) && decide (p.2 < h)) = true)
      = Finset.range w ×ˢ Finset.range h := by
    ext p
    simp only [Finset.mem_filter, Finset.mem_product, Finset.mem_range, Bool.and_eq_true, decide_eq_true_eq]
    omega
  rw [hfill, Finset.card_product, Finset.card_range, Finset.card_range]

/-! ## Records as bytes -/

/-- The offsets of the four bytes of the record of (x, y) in a raster of width `w` (44_swizzle.md R299). -/
def recordPlaces (w : Nat) (p : Nat × Nat) : List Nat := List.range' (4 * (p.2 * w + p.1)) 4

/-- The bytes of the records in order, by their number: byte `k` is byte `k % 4` of record `k / 4`. -/
theorem flatMap_recordPlaces (w : Nat) (ps : List (Nat × Nat)) :
    ps.flatMap (recordPlaces w)
      = (List.range (4 * ps.length)).map fun k =>
          4 * ((ps.getD (k / 4) (0, 0)).2 * w + (ps.getD (k / 4) (0, 0)).1) + k % 4 := by
  induction ps with
  | nil => rfl
  | cons p ps ih =>
    have htail : (List.range (4 * ps.length)).map ((fun k =>
          4 * (((p :: ps).getD (k / 4) (0, 0)).2 * w + ((p :: ps).getD (k / 4) (0, 0)).1) + k % 4) ∘ (4 + ·))
        = ps.flatMap (recordPlaces w) := by
      rw [ih]
      refine List.map_congr_left fun k _ => ?_
      simp only [Function.comp_apply, show (4 + k) / 4 = k / 4 + 1 by omega, List.getD_cons_succ]
      omega
    rw [List.length_cons, Nat.mul_succ, Nat.add_comm, List.range_add, List.map_append, List.map_map, htail]
    rfl

/-- The records of distinct pixels of the image share no byte. -/
theorem flatMap_recordPlaces_nodup {w : Nat} {ps : List (Nat × Nat)} (hps : ps.Nodup) (hin : ∀ p ∈ ps, p.1 < w) :
    (ps.flatMap (recordPlaces w)).Nodup := by
  refine List.nodup_flatMap.mpr ⟨fun p _ => List.nodup_range', hps.imp_of_mem fun {p q} hp hq hne => ?_⟩
  intro a hap haq
  simp only [recordPlaces, List.mem_range'_1] at hap haq
  have hrow : p.2 * w + p.1 = q.2 * w + q.1 := by omega
  have hpw := hin p hp
  have hqw := hin q hq
  have hdiv : ∀ r : Nat × Nat, r.1 < w → (r.2 * w + r.1) / w = r.2 := fun r hr => by
    rw [Nat.add_comm, Nat.add_mul_div_right _ _ (by omega), Nat.div_eq_of_lt hr, Nat.zero_add]
  have h2 : p.2 = q.2 := by rw [← hdiv p hpw, hrow, hdiv q hqw]
  exact hne (Prod.ext (by rw [h2] at hrow; omega) h2)

end Sys2Proof.Machine
end

section
/-! PROOFS. The checks that come before a command's first access (30_encoding.md R85; 20_memory.md R65), and what its
accesses are once they are passed: `CheckFails` and `Works`, of which one holds of every command. -/
namespace Sys2Proof.Machine

open Sys2Proof.Reference

variable {α β : Type} {env : Env}

/-! ## The operands -/

@[simp] theorem State.env_src (s : State) : s.env.src = s.srcAddr.toNat := rfl
@[simp] theorem State.env_srcLen (s : State) : s.env.srcLen = s.srcLen.toNat := rfl
@[simp] theorem State.env_dst (s : State) : s.env.dst = s.dstAddr.toNat := rfl
@[simp] theorem State.env_dstLen (s : State) : s.env.dstLen = s.dstLen.toNat := rfl
@[simp] theorem State.env_param0 (s : State) : s.env.param0 = s.param0.toNat := rfl
theorem State.env_width (s : State) : s.env.width = s.param0.toNat % 65536 := by simp [Env.width, bits]

theorem State.env_height (s : State) : s.env.height = s.param0.toNat / 65536 := by
  have := s.param0.isLt
  simp only [Env.height, bits, State.env_param0, Nat.shiftRight_eq_div_pow]
  norm_num
  omega

/-! ## Checks -/

/-- A piece that accesses nothing and yields a `good` value, or raises InvalidParameter(0), or UnsupportedFormat(0) of an
ill-formed command. -/
def Checks (env : Env) (ill : Prop) (g : Env → Eng α) (good : α → Prop) : Prop :=
  ∀ w, (∃ v, Traced env g w [] (.ok v) w ∧ good v)
    ∨ ∃ e, Traced env g w [] (.error e) w
        ∧ (e = { err := .invalidParameter, info := 0 } ∨ (ill ∧ e = { err := .unsupportedFormat, info := 0 }))

section Rules
variable {ill : Prop}

theorem require_checks {ok : Env → Bool} (h : ∀ bf, ok (env.rejecting bf) = ok env) :
    Checks env ill (fun e => require (ok e)) fun _ => ok env = true := by
  intro w
  have hrun := fun bf => (congrArg (require · w) (h bf)).trans (require_run (ok env) w)
  cases hok : ok env with
  | true => exact .inl ⟨(), .silent (fun bf => by rw [hrun, hok]; rfl) rfl rfl, rfl⟩
  | false => exact .inr ⟨_, .silent (fun bf => by rw [hrun, hok]; rfl) rfl rfl, .inl rfl⟩

theorem checkBuffers_checks : Checks env ill checkBuffers fun _ => env.buffersLegal = true :=
  require_checks fun _ => rfl

theorem Checks.bind {g : Env → Eng α} {f : Env → α → Eng β} {good : α → Prop} {good' : β → Prop}
    (hg : Checks env ill g good) (hf : ∀ v, good v → Checks env ill (fun e => f e v) good') :
    Checks env ill (fun e => g e >>= f e) good' := by
  intro w
  rcases hg w with ⟨v, hv, hgood⟩ | ⟨e, he, hwhy⟩
  · rcases hf v hgood w with ⟨v', hv', hgood'⟩ | ⟨e, he, hwhy⟩
    · exact .inl ⟨v', hv.bind hv', hgood'⟩
    · exact .inr ⟨e, hv.bind he, hwhy⟩
  · exact .inr ⟨e, he.bind_error, hwhy⟩

theorem Checks.pure {v : α} {good : α → Prop} (h : good v) : Checks env ill (fun _ => pure v) good :=
  fun w => .inl ⟨v, .pure v w, h⟩

theorem Checks.unsupported {good : α → Prop} (h : ill) : Checks env ill (fun _ => raise .unsupportedFormat 0) good :=
  fun w => .inr ⟨_, .raise _ _ w, .inr ⟨h, rfl⟩⟩

theorem namesFormat_of_none : ∀ {fmt : BitVec 4}, pixelFormatOf fmt = none → namesFormat fmt = false := by decide

theorem namesMode_of_none : ∀ {swz : BitVec 4}, swizzleModeOf swz = none → namesMode swz = false := by decide

theorem takeFormat_checks {fmt : BitVec 4} (h : namesFormat fmt = false → ill) :
    Checks env ill (fun _ => takeFormat fmt) fun f => pixelFormatOf fmt = some f := by
  cases hf : pixelFormatOf fmt with
  | some f => rw [takeFormat_some hf]; exact .pure rfl
  | none => rw [takeFormat_none hf]; exact .unsupported (h (namesFormat_of_none hf))

theorem takeMode_checks {swz : BitVec 4} (h : namesMode swz = false → ill) :
    Checks env ill (fun _ => takeMode swz) fun mode => swizzleModeOf swz = some mode := by
  cases hm : swizzleModeOf swz with
  | some m => rw [takeMode_some hm]; exact .pure rfl
  | none => rw [takeMode_none hm]; exact .unsupported (h (namesMode_of_none hm))

/-- The two block formats are those of the codes 12 and 13 (30_encoding.md R81). -/
theorem blockFormat_code : ∀ {fmt : BitVec 4} {f : PixelFormat}, pixelFormatOf fmt = some f →
    (f = .etc1 ∧ fmt = 12) ∨ (f = .etc1a4 ∧ fmt = 13) ∨ (f ≠ .etc1 ∧ f ≠ .etc1a4 ∧ namesBlockFormat fmt = false) := by
  intro fmt f
  revert fmt
  cases f <;> decide

theorem namesBlockFormat_of_not_namesFormat : ∀ {fmt : BitVec 4}, namesFormat fmt = false →
    namesBlockFormat fmt = false := by decide

/-- The block format, with the code that names it. -/
theorem takeBlockFormat_checks {fmt : BitVec 4} (h : namesBlockFormat fmt = false → ill) :
    Checks env ill (fun _ => takeBlockFormat fmt) fun alpha => fmt = if alpha then 13 else 12 := by
  refine Checks.bind (takeFormat_checks fun hn => h (namesBlockFormat_of_not_namesFormat hn)) fun f hf => ?_
  rcases blockFormat_code hf with ⟨rfl, hc⟩ | ⟨rfl, hc⟩ | ⟨h1, h2, hn⟩
  · exact .pure (by simpa using hc)
  · exact .pure (by simpa using hc)
  · cases f
    case etc1 => exact absurd rfl h1
    case etc1a4 => exact absurd rfl h2
    all_goals exact .unsupported (h hn)

/-- The texture of PARAM0 for a mode. -/
def Env.texture (env : Env) (mode : SwizzleMode) (pad : Bool) : Texture :=
  { w := env.width, h := env.height, pw := padDim env.width pad, ph := padDim env.height pad
    stride := strideOf (padDim env.width pad) (padDim env.height pad) mode }

theorem takeTexture_checks {mode : SwizzleMode} {pad : Bool} :
    Checks env ill (fun e => takeTexture e mode pad) fun t =>
      env.dimensionsLegal = true ∧ t = env.texture mode pad := by
  refine Checks.bind (require_checks fun _ => rfl) fun _ hd => ?_
  exact fun w => .inl ⟨env.texture mode pad, .silent (fun _ => rfl) rfl rfl, hd, rfl⟩

end Rules

/-! ## What a command does -/

/-- The command fails a check before its first access. -/
structure CheckFails (i : Instr) (s : State) (tr : Trace) (r : Except Raise (Nat × Nat)) (w : Work) : Prop where
  trace : tr = []
  work : w = Work.start s.mem
  raises : r = .error { err := .invalidParameter, info := 0 }
    ∨ (i.wellFormed = false ∧ r = .error { err := .unsupportedFormat, info := 0 })

/-- An error that the header of a stream shows, raised at the cursor behind it (40_decompressors.md R117, R121, R127). -/
def HeaderError (e : Raise) : Prop :=
  (e.err = .unsupportedFormat ∨ e.err = .invalidParameter) ∧ 0 < e.info ∧ e.info ≤ 4

/-- The command's checks are passed, and its accesses where none is rejected are `tr`: it writes the bytes of its output
once each in the order of `storedPlace`, RESULT0 counts them, and one that reads no stream reads what `inputReads`
says. -/
structure Works (i : Instr) (s : State) (tr : Trace) (r : Except Raise (Nat × Nat)) (w : Work) : Prop where
  legal : i.usesBuffers = true → s.env.buffersLegal = true
  places : tr.writes = (List.range w.stored).map fun k => s.dstAddr.toNat + storedPlace i s k
  distinct : tr.writes.Nodup
  room : w.stored ≤ s.dstLen.toNat
  most : w.stored ≤ mostStored i s
  counted : ∀ v, r = .ok v → i.usesBuffers = true → v.1 = w.stored
  reads : ∀ v, r = .ok v → decompresses i = false →
    tr.readLog 0 = (inputReads i s).map fun p => (s.srcAddr.toNat + p.1, p.2)
  raises : ∀ e, r = .error e → e.err = .corruptStream ∨ HeaderError e
  quiet : i.usesBuffers = false → tr = [] ∧ w.mem = s.mem

/-- What is known of the body of the command `i` in `s`. -/
def BodyTraced (i : Instr) (s : State) (x : Env → Eng (Nat × Nat)) : Prop :=
  ∃ tr r w, Traced s.env x (Work.start s.mem) tr r w ∧ (CheckFails i s tr r w ∨ Works i s tr r w)

variable {i : Instr} {s : State}

theorem BodyTraced.check {g : Env → Eng α} {f : Env → α → Eng (Nat × Nat)} {good : α → Prop}
    (hg : Checks s.env (i.wellFormed = false) g good) (hf : ∀ v, good v → BodyTraced i s fun e => f e v) :
    BodyTraced i s fun e => g e >>= f e := by
  rcases hg (Work.start s.mem) with ⟨v, hv, hgood⟩ | ⟨e, he, hwhy⟩
  · obtain ⟨tr, r, w, ht, h⟩ := hf v hgood
    exact ⟨tr, r, w, hv.bind ht, h⟩
  · refine ⟨[], _, _, he.bind_error, .inl ⟨rfl, rfl, ?_⟩⟩
    rcases hwhy with rfl | ⟨hill, rfl⟩
    · exact .inl rfl
    · exact .inr ⟨hill, rfl⟩

/-- Only TEX.DEC's bytes have other places than their numbers. -/
theorem storedPlace_eq {i : Instr} (h : ∀ fmt swz pad, i ≠ .texDec fmt swz pad) (s : State) (k : Nat) :
    storedPlace i s k = k := by
  cases i
  case texDec fmt swz pad => exact absurd rfl (h fmt swz pad)
  all_goals rfl

/-- Bytes in rising order from DST_ADDR on are in the order of `storedPlace`. -/
theorem places_of_rising {i : Instr} (h : ∀ fmt swz pad, i ≠ .texDec fmt swz pad) (s : State) (n : Nat) :
    List.range' s.dstAddr.toNat n = (List.range n).map fun k => s.dstAddr.toNat + storedPlace i s k := by
  rw [List.range'_eq_map_range]
  exact List.map_congr_left fun k _ => by rw [storedPlace_eq h]

/-- A command that goes on to its end with the accesses `tr`. -/
theorem Succeeds.bodyTraced {x : Env → Eng (Nat × Nat)} {tr : Trace} {n : Nat}
    (h : Succeeds s.env x (Work.start s.mem) tr fun v => v.1 = n)
    (hi : i.usesBuffers = true) (legal : s.env.buffersLegal = true)
    (places : tr.writes = (List.range n).map fun k => s.dstAddr.toNat + storedPlace i s k)
    (distinct : tr.writes.Nodup) (room : n ≤ s.dstLen.toNat) (most : n ≤ mostStored i s)
    (reads : tr.readLog 0 = (inputReads i s).map fun p => (s.srcAddr.toNat + p.1, p.2)) : BodyTraced i s x := by
  obtain ⟨v, w, ht, hv⟩ := h
  have hn : w.stored = n := by
    have := ht.stored
    rw [places, List.length_map, List.length_range] at this
    simpa using this
  refine ⟨tr, .ok v, w, ht, .inr ⟨fun _ => legal, by rwa [hn], distinct, by rwa [hn], by rwa [hn], ?_,
    fun _ _ _ => reads,
    nofun, fun hq => Bool.noConfusion (hi.symm.trans hq)⟩⟩
  rintro _ ⟨⟩ -
  rw [hn, hv]

/-- A command that reads the input bytes at the offsets `offsets`, then writes `n` bytes in rising order. -/
theorem Succeeds.bodyTraced_rising {x : Env → Eng (Nat × Nat)} {offsets : List Nat} {n : Nat}
    (h : Succeeds s.env x (Work.start s.mem)
      (Trace.ofReads (offsets.map (s.srcAddr.toNat + ·)) ++ Trace.ofWrites (List.range' s.dstAddr.toNat n))
      fun v => v.1 = n)
    (htex : ∀ fmt swz pad, i ≠ .texDec fmt swz pad) (hi : i.usesBuffers = true) (legal : s.env.buffersLegal = true)
    (room : n ≤ s.dstLen.toNat) (most : n ≤ mostStored i s)
    (reads : inputReads i s = offsets.map fun a => (a, 0)) : BodyTraced i s x := by
  refine h.bodyTraced hi legal ?_ ?_ room most ?_
  · simpa using places_of_rising htex s n
  · simpa using List.nodup_range'
  · rw [reads]
    simp [Function.comp_def]

/-- Reads at offsets, of many records. -/
theorem flatMap_shift (a : Nat) (R : Nat → List Nat) (ns : List Nat) :
    ns.flatMap (fun n => (R n).map (a + ·)) = (ns.flatMap R).map (a + ·) := by
  rw [List.map_flatMap]

theorem readPixel_reads (a n : Nat) : List.range' (a + 4 * n) 4 = (recordReads n).map (a + ·) := by
  rw [recordReads, List.map_add_range']

/-- Reading records one after the other. -/
theorem readPixels_succeeds {R : Nat → Nat} (n : Nat) (w : Work) :
    Succeeds env (fun e => collectFrom (fun k => readPixel e e.src (R k)) n 0) w
      (Trace.ofReads (((List.range n).flatMap fun k => recordReads (R k)).map (env.src + ·)))
      fun cs => cs.length = n := by
  rw [← flatMap_shift, List.range_eq_range']
  refine Succeeds.congr (x := fun e => collectFrom (fun k => readPixel e env.src (R k)) n 0) ?_ fun _ => rfl
  refine Succeeds.collectFrom fun j w => ?_
  rw [← readPixel_reads]
  exact readPixel_succeeds _ _ w

end Sys2Proof.Machine
end

section
/-! PROOFS. What each command that reads no stream does: its checks, and `Works` once they are passed. -/
namespace Sys2Proof.Machine

open Sys2Proof.Reference

variable {α : Type} {env : Env}

/-- `exec i` runs a body of which `BodyTraced` holds. -/
def RunsTraced (i : Instr) : Prop := ∃ body, (∀ s, exec i s = runCommand s body) ∧ ∀ s, BodyTraced i s body

/-- A result that does not depend on what the platform rejects. -/
theorem Succeeds.result {v : Env → α} {w : Work} {good : α → Prop} (hv : ∀ bf, v (env.rejecting bf) = v env)
    (h : good (v env)) : Succeeds env (fun e => Pure.pure (v e)) w [] good :=
  (Succeeds.pure (w := w) h).congr fun bf => by rw [hv]

/-- Bytes appended where none is stored yet, and the command's results. -/
theorem Succeeds.appends_result {x : Env → Eng α} {v : Env → α → Nat × Nat} {w : Work} {n : Nat}
    {good : Nat × Nat → Prop}
    (h : Succeeds env x w (Trace.ofWrites (List.range' (env.dst + w.stored) n)) fun _ => True) (hw : w.stored = 0)
    (hv : ∀ bf y, v (env.rejecting bf) y = v env y) (hgood : ∀ y, good (v env y)) :
    Succeeds env (fun e => x e >>= fun y => Pure.pure (v e y)) w (Trace.ofWrites (List.range' env.dst n)) good := by
  rw [hw, Nat.add_zero] at h
  exact Succeeds.trace_eq (h.bind fun y _ _ _ => .result (fun bf => hv bf y) (hgood y)) (List.append_nil _)

/-! ## Commands without buffers -/

/-- A command that makes no access and stores nothing. -/
theorem BodyTraced.idle {i : Instr} {s : State} {v : Env → Nat × Nat} (hi : i.usesBuffers = false)
    (hv : ∀ bf, v (s.env.rejecting bf) = v s.env) (hr : inputReads i s = []) : BodyTraced i s fun e => pure (v e) := by
  have no : i.usesBuffers ≠ true := ne_true_of_eq_false hi
  refine ⟨[], .ok (v s.env), Work.start s.mem, .silent (fun bf => ?_) rfl rfl,
    .inr ⟨fun h => absurd h no, rfl, List.nodup_nil,
    Nat.zero_le _, Nat.zero_le _, fun _ _ h => absurd h no, fun _ _ _ => by rw [hr]; rfl, nofun, fun _ => ⟨rfl, rfl⟩⟩⟩
  rw [hv]
  rfl

theorem nop_traced : RunsTraced .nop :=
  ⟨_, fun _ => rfl, fun _ => .idle (v := fun _ => (0, 0)) rfl (fun _ => rfl) rfl⟩

theorem swzAddr_traced (swz : BitVec 4) : RunsTraced (.swzAddr swz) := by
  refine ⟨_, fun _ => rfl, fun s => ?_⟩
  refine .check (takeMode_checks id) fun mode _ => ?_
  refine .check (require_checks fun _ => rfl) fun _ _ => ?_
  exact .idle rfl (fun _ => rfl) rfl

theorem texDim_traced (swz : BitVec 4) (pad : Bool) : RunsTraced (.texDim swz pad) := by
  refine ⟨_, fun _ => rfl, fun s => ?_⟩
  refine .check (takeMode_checks id) fun mode _ => ?_
  refine .check takeTexture_checks fun t _ => ?_
  exact .idle (v := fun _ => _) rfl (fun _ => rfl) rfl

/-! ## Blocks -/

theorem etc1Dec_traced (fmt : BitVec 4) : RunsTraced (.etc1Dec fmt) := by
  refine ⟨_, fun _ => rfl, fun s => ?_⟩
  refine .check (takeBlockFormat_checks id) fun alpha hfmt => ?_
  refine .check (require_checks fun _ => rfl) fun _ _ => ?_
  refine .check (require_checks fun _ => rfl) fun _ hroom => ?_
  refine .check checkBuffers_checks fun _ hl => ?_
  have hread := (readBlock_succeeds (env := s.env) s.env.src alpha (Work.start s.mem)).congr
    (y := fun e => readBlock e e.src alpha) fun _ => rfl
  have h : Succeeds s.env (fun e => readBlock e e.src alpha >>= fun p => writePixels e e.dst p 0 >>= fun _ =>
      pure (64, 0))
      (Work.start s.mem) _ fun v => v.1 = 64 :=
    hread.bind (u := Trace.ofWrites (List.range' s.env.dst 64)) fun p w hp _ => by
      have hwrite := (writePixels_succeeds (env := s.env) s.env.dst 0 p w).congr
        (y := fun e => writePixels e e.dst p 0) fun _ => rfl
      rw [hp] at hwrite
      exact Succeeds.trace_eq (hwrite.bind fun _ _ _ _ => .pure rfl) (List.append_nil _)
  refine Succeeds.bodyTraced_rising (offsets := texelReads (if alpha then .etc1a4 else .etc1) 0)
    (h.trace_eq ?_) nofun rfl hl (of_decide_eq_true hroom) (Nat.le_refl _) ?_
  · cases alpha <;> simp [texelReads, texelLayout, List.map_add_range']
  · subst hfmt
    cases alpha <;> rfl

theorem etc1Enc_traced (fmt : BitVec 4) : RunsTraced (.etc1Enc fmt) := by
  refine ⟨_, fun _ => rfl, fun s => ?_⟩
  refine .check (takeBlockFormat_checks id) fun alpha hfmt => ?_
  refine .check (require_checks fun _ => rfl) fun _ _ => ?_
  refine .check (require_checks fun _ => rfl) fun _ hroom => ?_
  refine .check checkBuffers_checks fun _ hl => ?_
  refine Succeeds.bodyTraced_rising (offsets := (List.range 16).flatMap recordReads) (n := blockBytes alpha)
    ((readPixels_succeeds (R := fun k => k) 16 _).bind fun c w _ hs => ?_) nofun rfl hl (of_decide_eq_true hroom) ?_ rfl
  · exact (etc1Encode_succeeds c alpha w).appends_result (by simpa using hs) (fun _ _ => rfl) fun _ => rfl
  · subst hfmt
    cases alpha <;> simp [mostStored, blockBytes]

/-! ## Pixels -/

theorem pixEnc_traced (fmt : BitVec 4) : RunsTraced (.pixEnc fmt) := by
  refine ⟨_, fun _ => rfl, fun s => ?_⟩
  refine .check (takeFormat_checks id) fun f hf => ?_
  refine .check (require_checks fun _ => rfl) fun _ _ => ?_
  refine .check (require_checks fun _ => rfl) fun _ _ => ?_
  refine .check (require_checks fun _ => rfl) fun _ hroom => ?_
  refine .check checkBuffers_checks fun _ hl => ?_
  have hread := (readPixels_succeeds (env := s.env) (R := fun k => k) s.env.param0 (Work.start s.mem)).congr
    (y := fun e => collectFrom (readPixel e e.src) e.param0 0) fun _ => rfl
  refine Succeeds.bodyTraced_rising (offsets := (List.range s.env.param0).flatMap recordReads)
    (n := encodedSize f s.env.param0) (hread.bind fun c w hc hs => ?_) nofun rfl hl (of_decide_eq_true hroom) ?_ rfl
  · rw [← hc]
    exact (pixEncode_succeeds f c w).appends_result (by simpa using hs) (fun _ _ => rfl) fun _ => by rw [hc]
  · simp [mostStored, hf]

/-- The accesses of a loop: round `j` reads `R j`, then writes `W j`. -/
def loopTrace (R W : Nat → List Nat) (n : Nat) : Trace :=
  (List.range n).flatMap fun j => Trace.ofReads (R j) ++ Trace.ofWrites (W j)

theorem loopTrace_succ (R W : Nat → List Nat) (n : Nat) :
    loopTrace R W (n + 1) = loopTrace R W n ++ (Trace.ofReads (R n) ++ Trace.ofWrites (W n)) := by
  simp [loopTrace, List.range_succ]

theorem loopTrace_writes (R W : Nat → List Nat) (n : Nat) : (loopTrace R W n).writes = (List.range n).flatMap W := by
  induction n with
  | zero => rfl
  | succ n ih => simp [loopTrace_succ, List.range_succ, ih]

theorem loopTrace_readLog (R W : Nat → List Nat) (n : Nat) :
    (loopTrace R W n).readLog 0
      = (List.range n).flatMap fun j => (R j).map fun a => (a, ((List.range j).flatMap W).length) := by
  induction n with
  | zero => rfl
  | succ n ih =>
    rw [loopTrace_succ, Trace.readLog_append, ih, List.range_succ, List.flatMap_append, Trace.readLog_append,
      Trace.readLog_ofReads, Trace.readLog_ofWrites, loopTrace_writes]
    simp

/-- Records in rising order. -/
theorem flatMap_records (a n : Nat) :
    (List.range n).flatMap (fun j => List.range' (a + 4 * j) 4) = List.range' a (4 * n) := by
  induction n with
  | zero => rfl
  | succ n ih => rw [List.range_succ, List.flatMap_append, ih, Nat.mul_succ, ← List.range'_append_1]; simp

theorem pixDec_traced (fmt : BitVec 4) : RunsTraced (.pixDec fmt) := by
  refine ⟨_, fun _ => rfl, fun s => ?_⟩
  refine .check (takeFormat_checks id) fun f hf => ?_
  refine .check (require_checks fun _ => rfl) fun _ hroom => ?_
  refine .check checkBuffers_checks fun _ hl => ?_
  have hloop : Succeeds s.env (fun e => forFrom (fun j => pixDecode e f s.env.src j >>= fun c =>
      writePixel e s.env.dst j c)
      (pixelCount f s.env.srcLen) 0) (Work.start s.mem)
      (loopTrace (fun j => (texelReads f j).map (s.env.src + ·)) (fun j => List.range' (s.env.dst + 4 * j) 4)
        (pixelCount f s.env.srcLen)) fun _ => True := by
    rw [loopTrace, List.range_eq_range']
    exact Succeeds.forFrom fun j w _ _ _ => (pixDecode_succeeds f _ j w).bind fun c w _ _ => writePixel_succeeds _ j c w
  have hwrites := loopTrace_writes (fun j => (texelReads f j).map (s.env.src + ·))
    (fun j => List.range' (s.env.dst + 4 * j) 4) (pixelCount f s.env.srcLen)
  rw [flatMap_records] at hwrites
  refine Succeeds.bodyTraced (n := 4 * pixelCount f s.env.srcLen)
    (((hloop.congr (y := fun e => forFrom (fun j => pixDecode e f e.src j >>= fun c => writePixel e e.dst j c)
      (pixelCount f e.srcLen) 0) fun _ => rfl).bind fun _ _ _ _ => .result (fun _ => rfl) rfl).trace_eq
        (List.append_nil _)) rfl hl ?_ ?_ (of_decide_eq_true hroom) ?_ ?_
  · rw [hwrites]
    exact places_of_rising (i := .pixDec fmt) nofun s _
  · rw [hwrites]
    exact List.nodup_range'
  · simp [mostStored, hf]
  · rw [loopTrace_readLog]
    simp [inputReads, hf, flatMap_records, List.map_flatMap, Function.comp_def]

/-! ## Textures -/

theorem Env.dimensionsLegal_pos {env : Env} (h : env.dimensionsLegal = true) : 0 < env.width ∧ 0 < env.height := by
  simp only [Env.dimensionsLegal, Bool.not_eq_true', Bool.or_eq_false_iff, decide_eq_false_iff_not] at h
  omega

theorem texEnc_traced (fmt swz : BitVec 4) (pad : Bool) : RunsTraced (.texEnc fmt swz pad) := by
  refine ⟨_, fun _ => rfl, fun s => ?_⟩
  refine .check (takeFormat_checks fun h => by simp [Instr.wellFormed, h]) fun f hf => ?_
  refine .check (takeMode_checks fun h => by simp [Instr.wellFormed, h]) fun mode hmode => ?_
  refine .check takeTexture_checks fun t ht => ?_
  refine .check (require_checks fun _ => rfl) fun _ _ => ?_
  refine .check (require_checks fun _ => rfl) fun _ hroom => ?_
  refine .check checkBuffers_checks fun _ hl => ?_
  obtain ⟨-, rfl⟩ := ht
  have hread := (readPixels_succeeds (env := s.env) (R := fun n =>
      min (addressOf n (s.env.texture mode pad).stride mode).2 ((s.env.texture mode pad).h - 1)
        * (s.env.texture mode pad).w
        + min (addressOf n (s.env.texture mode pad).stride mode).1 ((s.env.texture mode pad).w - 1))
      (s.env.texture mode pad).texels (Work.start s.mem)).congr
    (y := fun e => collectFrom (gatherPixel e mode (s.env.texture mode pad)) (s.env.texture mode pad).texels 0)
    fun _ => rfl
  refine Succeeds.bodyTraced_rising (n := encodedSize f (s.env.texture mode pad).texels)
    (hread.bind fun c w hc hs => ?_) nofun rfl hl (of_decide_eq_true hroom) ?_ ?_
  · rw [← hc]
    exact (pixEncode_succeeds f c w).appends_result (by simpa using hs) (fun _ _ => rfl) fun _ => rfl
  · simp [mostStored, hf, Env.texture, Texture.texels, State.env_width, State.env_height]
  · simp [inputReads, hmode, Env.texture, Texture.texels, State.env_width, State.env_height]

/-- A padded texture: each size is a multiple of 8 that holds the image, and the stride is the mode's (44_swizzle.md
R291). -/
structure Texture.IsPadded (t : Texture) (mode : SwizzleMode) : Prop where
  w_le : t.w ≤ t.pw
  h_le : t.h ≤ t.ph
  w_dvd : 8 ∣ t.pw
  h_dvd : 8 ∣ t.ph
  stride : t.stride = strideOf t.pw t.ph mode

theorem Env.texture_isPadded {env : Env} (mode : SwizzleMode) (pad : Bool) (h : env.dimensionsLegal = true) :
    (env.texture mode pad).IsPadded mode := by
  obtain ⟨hw, hh⟩ := Env.dimensionsLegal_pos h
  obtain ⟨hwle, hwdvd⟩ := padDim_spec pad hw
  obtain ⟨hhle, hhdvd⟩ := padDim_spec pad hh
  exact ⟨hwle, hhle, hwdvd, hhdvd, rfl⟩

/-- Does texel `n` lie in the image (44_swizzle.md R300)? -/
def Texture.inImage (t : Texture) (mode : SwizzleMode) (n : Nat) : Bool :=
  decide ((addressOf n t.stride mode).1 < t.w) && decide ((addressOf n t.stride mode).2 < t.h)

theorem Texture.inImage_eq (t : Texture) (mode : SwizzleMode) :
    t.inImage mode
      = fun n => decide ((addressOf n t.stride mode).1 < t.w) && decide ((addressOf n t.stride mode).2 < t.h) := rfl

/-- The offsets that texel `n` of TEX.DEC is written to: its record, or none in the padding (44_swizzle.md R300). -/
def Texture.writesOf (t : Texture) (mode : SwizzleMode) (n : Nat) : List Nat :=
  if t.inImage mode n then recordPlaces t.w (addressOf n t.stride mode) else []

/-- The records that TEX.DEC writes, in its order. -/
def Texture.records (t : Texture) (mode : SwizzleMode) : List (Nat × Nat) := texelOrder mode t.w t.h t.pw t.ph

/-- Choosing elements of a list and expanding them, in one pass. -/
theorem flatMap_filter_map {β γ δ : Type} (g : β → γ) (p : γ → Bool) (h : γ → List δ) (l : List β) :
    (l.flatMap fun b => if p (g b) then h (g b) else []) = ((l.map g).filter p).flatMap h := by
  induction l with
  | nil => rfl
  | cons b l ih =>
    rw [List.flatMap_cons, ih, List.map_cons, List.filter_cons]
    split <;> rfl

/-- What TEX.DEC writes, texel by texel, is the records of the image in its order. -/
theorem Texture.IsPadded.writes {t : Texture} {mode : SwizzleMode} (h : t.IsPadded mode) :
    (List.range t.texels).flatMap (t.writesOf mode) = (t.records mode).flatMap (recordPlaces t.w) := by
  rw [Texture.records, texelOrder, ← h.stride]
  exact flatMap_filter_map (fun n => addressOf n t.stride mode)
    (fun p : Nat × Nat => decide (p.1 < t.w) && decide (p.2 < t.h)) (recordPlaces t.w) (List.range t.texels)

theorem Texture.IsPadded.records_length {t : Texture} {mode : SwizzleMode} (h : t.IsPadded mode) :
    (t.records mode).length = t.w * t.h :=
  texelOrder_length mode h.w_dvd h.h_dvd h.w_le h.h_le

/-- No byte of the raster is written twice. -/
theorem Texture.IsPadded.writes_nodup {t : Texture} {mode : SwizzleMode} (h : t.IsPadded mode) :
    ((t.records mode).flatMap (recordPlaces t.w)).Nodup :=
  flatMap_recordPlaces_nodup (texelOrder_nodup mode h.w_dvd h.h_dvd) fun _ hp => (texelOrder_inside hp).1

/-- The bytes that the texels before texel `n` write: four for each of them in the image. -/
theorem Texture.length_writes (t : Texture) (mode : SwizzleMode) (n : Nat) :
    ((List.range n).flatMap (t.writesOf mode)).length = 4 * (List.range n).countP (t.inImage mode) := by
  induction n with
  | zero => rfl
  | succ n ih =>
    rw [List.range_succ, List.flatMap_append, List.length_append, ih, List.countP_append, List.flatMap_singleton,
      Texture.writesOf]
    cases h : t.inImage mode n <;> simp [h, Nat.mul_add, recordPlaces]

/-- Reading a texel, and writing its record if it lies in the image. -/
theorem placeTexel_succeeds (f : PixelFormat) (mode : SwizzleMode) (t : Texture) (n : Nat) (w : Work) :
    Succeeds env (fun e => placeTexel e f mode t n) w
      (Trace.ofReads ((texelReads f n).map (env.src + ·)) ++ Trace.ofWrites ((t.writesOf mode n).map (env.dst + ·)))
      fun _ => True := by
  refine Succeeds.congr (x := fun e => pixDecode e f env.src n >>= fun c =>
    if (addressOf n t.stride mode).1 < t.w ∧ (addressOf n t.stride mode).2 < t.h then
      writePixel e env.dst ((addressOf n t.stride mode).2 * t.w + (addressOf n t.stride mode).1) c
    else Pure.pure ()) ?_ fun _ => rfl
  refine (pixDecode_succeeds f _ n w).bind fun c w _ _ => ?_
  by_cases h : (addressOf n t.stride mode).1 < t.w ∧ (addressOf n t.stride mode).2 < t.h
  · have hin : t.inImage mode n = true := by simpa [Texture.inImage] using h
    simp only [if_pos h, Texture.writesOf, hin, recordPlaces, List.map_add_range', if_true]
    exact writePixel_succeeds _ _ c w
  · have hout : t.inImage mode n = false := by simpa [Texture.inImage] using h
    simp only [if_neg h, Texture.writesOf, hout]
    exact .pure trivial

theorem texDec_traced (fmt swz : BitVec 4) (pad : Bool) : RunsTraced (.texDec fmt swz pad) := by
  refine ⟨_, fun _ => rfl, fun s => ?_⟩
  refine .check (takeFormat_checks fun h => by simp [Instr.wellFormed, h]) fun f hf => ?_
  refine .check (takeMode_checks fun h => by simp [Instr.wellFormed, h]) fun mode hmode => ?_
  refine .check takeTexture_checks fun t ht => ?_
  refine .check (require_checks fun _ => rfl) fun _ _ => ?_
  refine .check (require_checks fun _ => rfl) fun _ hroom => ?_
  refine .check checkBuffers_checks fun _ hl => ?_
  obtain ⟨hdim, ht⟩ := ht
  have hpadded : t.IsPadded mode := ht ▸ Env.texture_isPadded mode pad hdim
  have hloop : Succeeds s.env (fun e => forFrom (placeTexel e f mode t) t.texels 0) (Work.start s.mem)
      (loopTrace (fun n => (texelReads f n).map (s.env.src + ·)) (fun n => (t.writesOf mode n).map (s.env.dst + ·))
        t.texels) fun _ => True := by
    rw [loopTrace, List.range_eq_range']
    exact Succeeds.forFrom fun n w _ _ _ => placeTexel_succeeds f mode t n w
  have hwrites := loopTrace_writes (fun n => (texelReads f n).map (s.env.src + ·))
    (fun n => (t.writesOf mode n).map (s.env.dst + ·)) t.texels
  rw [← List.map_flatMap, hpadded.writes] at hwrites
  refine Succeeds.bodyTraced (n := 4 * t.w * t.h)
    ((hloop.bind fun _ _ _ _ => .pure (good := fun v : Nat × Nat => v.1 = 4 * t.w * t.h) rfl).trace_eq
      (List.append_nil _))
    rfl hl ?_ ?_
    (of_decide_eq_true hroom) ?_ ?_
  · rw [hwrites, flatMap_recordPlaces, hpadded.records_length, List.map_map, Nat.mul_assoc]
    refine List.map_congr_left fun k _ => ?_
    simp [storedPlace, hmode, ht, Texture.records, Env.texture, State.env_width, State.env_height]
  · rw [hwrites]
    exact hpadded.writes_nodup.map fun _ _ h => Nat.add_left_cancel h
  · simp [mostStored, ht, Env.texture, State.env_width, State.env_height]
  · rw [loopTrace_readLog]
    simp only [← List.map_flatMap, List.length_map, Texture.length_writes]
    simp [inputReads, hf, hmode, ht, Texture.inImage_eq, Texture.texels, Env.texture, State.env_width, State.env_height,
      List.map_flatMap, Function.comp_def]

end Sys2Proof.Machine
end

section
/-! PROOFS. What each decompressor does: its checks, its header, and `Works` of its body by `Streams`. -/
namespace Sys2Proof.Machine

open Sys2Proof.Reference

variable {α : Type} {env : Env} {i : Instr} {s : State}

/-- A decompressor past its buffer checks: `Works` from the working state `w` on. -/
def DecoderTraced (i : Instr) (s : State) (x : Env → Eng (Nat × Nat)) (w : Work) : Prop :=
  ∃ tr r w', Traced s.env x w tr r w' ∧ Works i s tr r w'

theorem DecoderTraced.bodyTraced {x : Env → Eng (Nat × Nat)} (h : DecoderTraced i s x (Work.start s.mem)) :
    BodyTraced i s x := by
  obtain ⟨tr, r, w, ht, hw⟩ := h
  exact ⟨tr, r, w, ht, .inr hw⟩

theorem DecoderTraced.congr {x y : Env → Eng (Nat × Nat)} {w : Work} (h : DecoderTraced i s x w)
    (he : ∀ bf, y (s.env.rejecting bf) w = x (s.env.rejecting bf) w) : DecoderTraced i s y w := by
  obtain ⟨tr, r, w', ht, hw⟩ := h
  exact ⟨tr, r, w', ht.congr he, hw⟩

theorem usesBuffers_of_decompresses (hd : decompresses i = true) : i.usesBuffers = true := by
  revert hd
  cases i <;> simp [decompresses, Instr.usesBuffers]

/-- A decompressor's bytes are in rising order, and `inputReads` does not speak of it. -/
theorem Works.of_rising {tr : Trace} {r : Except Raise (Nat × Nat)} {w : Work} (hd : decompresses i = true)
    (hl : s.env.buffersLegal = true) (hw : tr.writes = List.range' s.dstAddr.toNat w.stored)
    (room : w.stored ≤ s.dstLen.toNat) (most : w.stored ≤ mostStored i s) (counted : ∀ v, r = .ok v → v.1 = w.stored)
    (raises : ∀ e, r = .error e → e.err = .corruptStream ∨ HeaderError e) : Works i s tr r w := by
  have htex : ∀ fmt swz pad, i ≠ .texDec fmt swz pad := fun fmt swz pad h => by
    subst h
    exact absurd hd Bool.false_ne_true
  refine ⟨fun _ => hl, hw.trans (places_of_rising htex s _), ?_, room, most, fun v hv _ => counted v hv, ?_, raises, ?_⟩
  · rw [hw]
    exact List.nodup_range'
  · exact fun _ _ hn => Bool.noConfusion (hd.symm.trans hn)
  · exact fun hn => Bool.noConfusion (hn.symm.trans (usesBuffers_of_decompresses hd))

/-- Input bytes read before the rest. -/
theorem DecoderTraced.reads_bind (hd : decompresses i = true) {g : Env → Eng α} {f : Env → α → Eng (Nat × Nat)}
    {as : List Nat} {v : α} {w w1 : Work} (hg : Traced s.env g w (Trace.ofReads as) (.ok v) w1)
    (hf : DecoderTraced i s (fun e => f e v) w1) : DecoderTraced i s (fun e => g e >>= f e) w := by
  obtain ⟨tr, r, w', ht, hw⟩ := hf
  refine ⟨_, r, w', hg.bind ht, hw.legal, ?_, ?_, hw.room, hw.most, hw.counted, ?_, hw.raises, ?_⟩
  · simpa using hw.places
  · simpa using hw.distinct
  · exact fun _ _ hn => Bool.noConfusion (hd.symm.trans hn)
  · exact fun hn => Bool.noConfusion (hn.symm.trans (usesBuffers_of_decompresses hd))

/-- An error in the header, which is read before anything is stored. -/
theorem DecoderTraced.fails (hd : decompresses i = true) (hl : s.env.buffersLegal = true) {x : Env → Eng (Nat × Nat)}
    {as : List Nat} {e : Raise} {w w1 : Work} (hx : Traced s.env x w (Trace.ofReads as) (.error e) w1)
    (hw : w1.stored = 0) (he : e.err = .corruptStream ∨ HeaderError e) : DecoderTraced i s x w := by
  refine ⟨_, _, w1, hx, Works.of_rising hd hl ?_ ?_ ?_ (fun _ h => by cases h) fun _ h => by cases h; exact he⟩ <;>
    rw [hw]
  · simp
  · exact Nat.zero_le _
  · exact Nat.zero_le _

/-- The body of a stream of declared length `n`. -/
theorem Streams.decoderTraced (hd : decompresses i = true) (hl : s.env.buffersLegal = true) {x : Env → Eng Unit}
    {n m : Nat} {w : Work} (h : Streams s.env n (· = 0) x fun _ k => k = n) (hn : n ≤ s.dstLen.toNat)
    (hm : n ≤ mostStored i s) (hw : w.stored = 0) :
    DecoderTraced i s (fun e => x e >>= fun _ => Pure.pure (n, m)) w := by
  obtain ⟨tr, r, w', ht, hwrites, hr⟩ := h w hw
  have hstored : tr.writes.length = w'.stored := by rw [ht.stored, hw, Nat.zero_add]
  rw [hw, Nat.add_zero, hstored] at hwrites
  cases r with
  | ok v =>
    have hr : w'.stored = n := hr
    refine ⟨_, _, w', ht.bind (.pure _ _), Works.of_rising hd hl ?_ ?_ ?_ ?_ fun _ h => by cases h⟩
    · simpa using hwrites
    · rwa [hr]
    · rwa [hr]
    · rintro _ ⟨⟩
      exact hr.symm
  | error e =>
    obtain ⟨he, hle⟩ := hr
    refine ⟨_, _, w', ht.bind_error, Works.of_rising hd hl hwrites (hle.trans hn) (hle.trans hm)
      (fun _ h => by cases h) ?_⟩
    rintro _ ⟨⟩
    exact .inl he

/-! ## Headers -/

/-- `in.bytes(m)` reads its bytes, or those up to the end of the input. -/
theorem inBytes_traced (m : Nat) (w : Work) :
    Traced env (fun e => inBytes e m) w (Trace.ofReads (List.range' (env.src + w.inPos) m))
        (.ok (w.mem.little (env.src + w.inPos) m)) (w.advance m)
      ∨ ∃ as e w', Traced env (fun e => inBytes e m) w (Trace.ofReads as) (.error e) w' ∧ e.err = .corruptStream
          ∧ w'.stored = w.stored := by
  induction m generalizing w with
  | zero => exact .inl (.pure 0 w)
  | succ m ih =>
    by_cases hp : w.inPos < env.srcLen
    · have hfirst := inByte_traced hp
      rcases ih (w.advance 1) with hrest | ⟨as, e, w', hrest, he, hs⟩
      · left
        have h := hfirst.bind (f := fun e low => inBytes e m >>= fun high => pure (low + 256 * high))
          (hrest.bind (f := fun _ high => pure (_ + 256 * high)) (.pure _ _))
        rw [List.append_nil, Work.advance_advance, Nat.add_comm 1 m] at h
        exact h
      · exact .inr ⟨(env.src + w.inPos) :: as, e, w', hfirst.bind hrest.bind_error, he, hs⟩
    · exact .inr ⟨[], _, w, (inByte_traced_end (Nat.not_lt.mp hp)).bind_error, rfl, rfl⟩

/-- A header of `m` bytes, then the rest. -/
theorem DecoderTraced.inBytes_bind (hd : decompresses i = true) (hl : s.env.buffersLegal = true) {m : Nat}
    {f : Env → Nat → Eng (Nat × Nat)} {w : Work} (hw : w.stored = 0)
    (hf : DecoderTraced i s (fun e => f e (w.mem.little (s.srcAddr.toNat + w.inPos) m)) (w.advance m)) :
    DecoderTraced i s (fun e => inBytes e m >>= f e) w := by
  rcases inBytes_traced (env := s.env) m w with h | ⟨as, e, w', h, he, hs⟩
  · exact .reads_bind hd h hf
  · exact .fails hd hl h.bind_error (hs.trans hw) (.inl he)

/-- The check of a declared length. -/
theorem DecoderTraced.declared_bind (hd : decompresses i = true) (hl : s.env.buffersLegal = true) {n : Nat}
    {f : Env → Unit → Eng (Nat × Nat)} {w : Work} (hw : w.stored = 0) (hp : 0 < w.inPos ∧ w.inPos ≤ 4)
    (hf : n ≤ s.dstLen.toNat → DecoderTraced i s (fun e => f e ()) w) :
    DecoderTraced i s (fun e => checkDeclared e n >>= f e) w := by
  by_cases hn : s.env.dstLen < n
  · have h : Traced s.env (fun e => checkDeclared e n) w (Trace.ofReads [])
        (.error { err := .invalidParameter, info := w.inPos }) w :=
      .silent (fun bf => by
        rw [checkDeclared, if_pos (show (s.env.rejecting bf).dstLen < n from hn)]
        rfl) rfl rfl
    exact .fails hd hl h.bind_error hw (.inr ⟨.inr rfl, hp⟩)
  · have h : Traced s.env (fun e => checkDeclared e n) w (Trace.ofReads []) (.ok ()) w :=
      .silent (fun bf => by
        rw [checkDeclared, if_neg (show ¬ (s.env.rejecting bf).dstLen < n from hn)]
        rfl) rfl rfl
    exact .reads_bind hd h (hf (Nat.not_lt.mp hn))

/-- An error at the cursor, inside the header. -/
theorem DecoderTraced.raiseAtCursor (hd : decompresses i = true) (hl : s.env.buffersLegal = true) {err : Err} {w : Work}
    (he : err = .unsupportedFormat) (hw : w.stored = 0) (hp : 0 < w.inPos ∧ w.inPos ≤ 4) :
    DecoderTraced i s (fun _ => inPos >>= fun pos => raise err pos) w :=
  .fails hd hl (as := []) (.silent (fun _ => rfl) rfl rfl) hw (.inr ⟨.inl he, hp⟩)

/-! ## The commands -/

theorem DecoderTraced.ite {c : Prop} [Decidable c] {x y : Env → Eng (Nat × Nat)} {w : Work}
    (hx : c → DecoderTraced i s x w) (hy : ¬ c → DecoderTraced i s y w) :
    DecoderTraced i s (fun e => if c then x e else y e) w := by
  by_cases h : c
  · simpa only [if_pos h] using hx h
  · simpa only [if_neg h] using hy h

/-- The declared length of LZ10 and LZ11: the three bytes after the tag (40_decompressors.md R117, R121). -/
theorem Memory.little_tagged (m : Memory) (a : Nat) : bits (m.little a 4) 31 8 = m.little (a + 1) 3 := by
  have hlt := m.little_lt (a + 1) 3
  have htag := (m.read a).isLt
  rw [bits, Memory.little, Nat.shiftRight_eq_div_pow]
  omega

/-- The declared length of a container: the bits above the method (40_decompressors.md R127). -/
theorem Memory.little_container (m : Memory) (a : Nat) : bits (m.little a 4) 31 3 = m.little a 4 / 8 := by
  have hlt := m.little_lt a 4
  rw [bits, Nat.shiftRight_eq_div_pow]
  omega

/-- A declared length that fits the output buffer bounds what is stored, wherever the header lies. -/
theorem declared_le_most {n : Nat} (hn : n ≤ s.dstLen.toNat) :
    n ≤ if headerOnDevice s then s.dstLen.toNat else n := by
  split
  · exact hn
  · exact Nat.le_refl n

/-- What LZ10.DEC runs (40_decompressors.md R117). -/
def lz10Command (env : Env) : Eng (Nat × Nat) := do
  checkBuffers env
  let tag ← inByte env
  if tag ≠ 0x10 then raise .unsupportedFormat (← inPos)
  else
    let n ← inBytes env 3
    checkDeclared env n
    lz10Body env n
    return (n, 0)

/-- What LZ11.DEC runs (40_decompressors.md R121). -/
def lz11Command (env : Env) : Eng (Nat × Nat) := do
  checkBuffers env
  let v ← inBytes env 4
  checkDeclared env (bits v 31 8)
  lz11Body env (bits v 31 8)
  return (bits v 31 8, 0)

/-- What CONT.DEC runs (40_decompressors.md R127). -/
def contCommand (env : Env) : Eng (Nat × Nat) := do
  checkBuffers env
  let v ← inBytes env 4
  if 5 ≤ bits v 2 0 then raise .unsupportedFormat (← inPos)
  else
    checkDeclared env (bits v 31 3)
    containerBody env (bits v 2 0) (bits v 31 3)
    return (bits v 31 3, bits v 2 0)

/-- What RLE.DEC and the two Huffman decoders run: a body of the length in PARAM0 (40_decompressors.md R124; 41_huffman.md
R168, R169). -/
def sizedCommand (body : Env → Nat → Eng Unit) (env : Env) : Eng (Nat × Nat) := do
  require (decide (env.param0 ≤ env.dstLen))
  checkBuffers env
  body env env.param0
  return (env.param0, 0)

theorem exec_lz10Dec (s : State) : exec .lz10Dec s = runCommand s lz10Command := rfl

theorem exec_lz11Dec (s : State) : exec .lz11Dec s = runCommand s lz11Command := rfl

theorem exec_contDec (s : State) : exec .contDec s = runCommand s contCommand := rfl

theorem exec_rleDec (s : State) : exec .rleDec s = runCommand s (sizedCommand rleBody) := rfl

theorem exec_huff4Dec (s : State) : exec .huff4Dec s =
    runCommand s (sizedCommand fun env n => huffBody env n false) := rfl

theorem exec_huff8Dec (s : State) : exec .huff8Dec s =
    runCommand s (sizedCommand fun env n => huffBody env n true) := rfl

theorem lz10Command_traced (s : State) : BodyTraced .lz10Dec s lz10Command := by
  refine .check checkBuffers_checks fun _ hl => DecoderTraced.bodyTraced ?_
  by_cases hp : (Work.start s.mem).inPos < s.env.srcLen
  · refine .reads_bind rfl (as := [s.env.src + 0]) (inByte_traced hp) (.ite (fun _ => ?_) fun _ => ?_)
    · exact .raiseAtCursor rfl hl rfl rfl ⟨Nat.one_pos, Nat.le_add_left 1 3⟩
    · refine .inBytes_bind rfl hl rfl (.declared_bind rfl hl rfl ⟨Nat.succ_pos _, Nat.le_refl 4⟩ fun hn => ?_)
      exact Streams.decoderTraced rfl hl ((lzBody_streams lz10Reference_streams _).pre (by omega)) hn
        (declared_le_most hn) rfl
  · exact .fails rfl hl (as := []) (inByte_traced_end (Nat.not_lt.mp hp)).bind_error rfl (.inl rfl)

theorem lz11Command_traced (s : State) : BodyTraced .lz11Dec s lz11Command := by
  refine .check checkBuffers_checks fun _ hl => DecoderTraced.bodyTraced (.inBytes_bind rfl hl rfl ?_)
  refine .declared_bind rfl hl rfl ⟨Nat.succ_pos _, Nat.le_refl 4⟩ fun hn => ?_
  refine Streams.decoderTraced rfl hl ((lzBody_streams lz11Reference_streams _).pre (by omega)) hn ?_ rfl
  rw [Memory.little_tagged] at hn ⊢
  exact declared_le_most hn

theorem contCommand_traced (s : State) : BodyTraced .contDec s contCommand := by
  refine .check checkBuffers_checks fun _ hl => DecoderTraced.bodyTraced (.inBytes_bind rfl hl rfl ?_)
  refine .ite (fun _ => .raiseAtCursor rfl hl rfl rfl ⟨Nat.succ_pos _, Nat.le_refl 4⟩) fun _ => ?_
  refine .declared_bind rfl hl rfl ⟨Nat.succ_pos _, Nat.le_refl 4⟩ fun hn => ?_
  refine Streams.decoderTraced rfl hl (containerBody_streams _) hn ?_ rfl
  rw [Memory.little_container] at hn ⊢
  exact declared_le_most hn

theorem sizedCommand_traced {body : Env → Nat → Eng Unit} (hd : decompresses i = true)
    (hm : mostStored i s = s.param0.toNat)
    (hbody : ∀ n, Streams s.env n (· = 0) (fun e => body e n) fun _ k => k = n) :
    BodyTraced i s (sizedCommand body) := by
  refine .check (require_checks fun _ => rfl) fun _ hn => ?_
  refine .check checkBuffers_checks fun _ hl => DecoderTraced.bodyTraced ?_
  exact ((hbody s.env.param0).decoderTraced hd hl (of_decide_eq_true hn) hm.ge rfl).congr fun _ => rfl

theorem rleCommand_traced (s : State) : BodyTraced .rleDec s (sizedCommand rleBody) :=
  sizedCommand_traced rfl rfl fun n => (rleLoop_streams n).pre (by omega)

theorem huffCommand_traced (wide : Bool) (s : State) (hd : decompresses i = true)
    (hm : mostStored i s = s.param0.toNat) :
    BodyTraced i s (sizedCommand fun env n => huffBody env n wide) :=
  sizedCommand_traced hd hm fun _ => huffBody_streams wide

/-- What is known of the body of every command. -/
theorem command_traced (i : Instr) : RunsTraced i := by
  cases i with
  | nop => exact nop_traced
  | etc1Dec fmt => exact etc1Dec_traced fmt
  | etc1Enc fmt => exact etc1Enc_traced fmt
  | swzAddr swz => exact swzAddr_traced swz
  | texDim swz pad => exact texDim_traced swz pad
  | lz10Dec => exact ⟨_, exec_lz10Dec, lz10Command_traced⟩
  | lz11Dec => exact ⟨_, exec_lz11Dec, lz11Command_traced⟩
  | rleDec => exact ⟨_, exec_rleDec, rleCommand_traced⟩
  | contDec => exact ⟨_, exec_contDec, contCommand_traced⟩
  | huff4Dec => exact ⟨_, exec_huff4Dec, fun s => huffCommand_traced false s rfl rfl⟩
  | huff8Dec => exact ⟨_, exec_huff8Dec, fun s => huffCommand_traced true s rfl rfl⟩
  | pixDec fmt => exact pixDec_traced fmt
  | pixEnc fmt => exact pixEnc_traced fmt
  | texDec fmt swz pad => exact texDec_traced fmt swz pad
  | texEnc fmt swz pad => exact texEnc_traced fmt swz pad

end Sys2Proof.Machine
end

section
/-! PROOFS. How a command ends on every platform, from its accesses where none is rejected (`Performs`), and the statements
about its ends that follow: buffers that fail their checks, what a command leaves unchanged, BusFault. -/
namespace Sys2Proof.Machine

open Sys2Proof.Reference

/-! ## Ends -/

/-- The same state on a platform with another BUS_FAULT. -/
def State.rejecting (s : State) (busFault : List Rejection) : State :=
  { s with platform := s.platform.rejecting busFault }

theorem State.rejecting_self (s : State) : s.rejecting s.platform.busFault = s := rfl

theorem Access.rejectedBy_nil (a : Access) : a.rejectedBy [] = false := rfl

/-- The end of a command whose body, with no access rejected, ended with `r` in `w`. -/
def State.endWith (s : State) (r : Except Raise (Nat × Nat)) (w : Work) : State :=
  match r with
  | .ok v => s.endWithSuccess w.mem v.1 v.2
  | .error e => s.endWithError w.mem w.stored e

/-- Does a body's result name BusFault? -/
def RaisesBusFault (r : Except Raise (Nat × Nat)) : Prop := ∃ e, r = .error e ∧ e.err = .busFault

@[simp] theorem State.endWith_mem (s : State) (r : Except Raise (Nat × Nat)) (w : Work) :
    (s.endWith r w).mem = w.mem := by
  cases r <;> rfl

theorem State.endWith_errCode (s : State) (r : Except Raise (Nat × Nat)) (w : Work) :
    (s.endWith r w).status.errCode = match r with | .ok _ => none | .error e => some e.err := by
  cases r <;> rfl

theorem State.endWith_errCode_ne {s : State} {r : Except Raise (Nat × Nat)} {w : Work} (h : ¬ RaisesBusFault r) :
    (s.endWith r w).status.errCode ≠ some .busFault := by
  cases r with
  | ok v => simp [State.endWith]
  | error e => exact fun he => h ⟨e, rfl, Option.some.inj he⟩

/-- The command `i` in `s` makes the accesses `tr`, and its body ends with `r` in `w`, where none of them is rejected;
otherwise it ends with BusFault at the first rejected one. -/
structure Performs (i : Instr) (s : State) (tr : Trace) (r : Except Raise (Nat × Nat)) (w : Work) : Prop where
  accepted : ∀ bf, (∀ a ∈ tr, a.rejectedBy bf = false) → exec i (s.rejecting bf) = .next ((s.rejecting bf).endWith r w)
  rejected : ∀ bf pre a post, tr = pre ++ a :: post → (∀ b ∈ pre, b.rejectedBy bf = false) → a.rejectedBy bf = true →
    ∃ v, exec i (s.rejecting bf)
        = .next ((s.rejecting bf).endWithBusFault v { err := .busFault, info := a.addr } w.mem)
      ∧ v.stored = (Trace.writes pre).length
      ∧ (∀ b, b ∉ Trace.writes pre → v.mem.read b = s.mem.read b)
      ∧ ∀ b, b ∉ Trace.writes (a :: post) → v.mem.read b = w.mem.read b
  stored : w.stored = tr.writes.length

variable {i : Instr} {s t u : State} {tr : Trace} {r : Except Raise (Nat × Nat)} {w : Work}

theorem CheckFails.not_busFault (h : CheckFails i s tr r w) : ¬ RaisesBusFault r := by
  rintro ⟨e, rfl, he⟩
  rcases h.raises with h | ⟨-, h⟩ <;> cases h <;> cases he

theorem Works.not_busFault (h : Works i s tr r w) : ¬ RaisesBusFault r := by
  rintro ⟨e, rfl, he⟩
  rcases h.raises e rfl with h | ⟨h | h, -⟩ <;> rw [he] at h <;> cases h

theorem Traced.performs {body : Env → Eng (Nat × Nat)} (hexec : ∀ s, exec i s = runCommand s body)
    (ht : Traced s.env body (Work.start s.mem) tr r w) (hr : ¬ RaisesBusFault r) : Performs i s tr r w := by
  refine ⟨fun bf hall => ?_, fun bf pre a post he hpre ha => ?_, by simpa using ht.stored⟩
  · have hrun := ht.accepted bf hall
    rw [hexec, runCommand]
    cases r with
    | ok v => rw [afterCommand_of_ok (s := s.rejecting bf) hrun, State.endWith]
    | error e => rw [afterCommand_of_error (s := s.rejecting bf) hrun fun hb => hr ⟨e, rfl, hb⟩, State.endWith]
  · obtain ⟨v, hrun, hstored, hframe, hdone⟩ := ht.rejected bf pre a post he hpre ha
    have hideal : (body (s.rejecting bf).env.withoutBusFaults (Work.start s.mem)).2.mem = w.mem := by
      rw [show body (s.rejecting bf).env.withoutBusFaults (Work.start s.mem) = (r, w) from
        ht.accepted [] fun a _ => a.rejectedBy_nil]
    refine ⟨v, ?_, by simpa using hstored, hframe, hdone⟩
    rw [hexec, runCommand, afterCommand_of_busFault (s := s.rejecting bf) hrun rfl]
    exact congrArg _ (congrArg _ hideal)

/-- Every command is of this form, and fails a check or works. -/
theorem command_performs (i : Instr) (s : State) :
    ∃ tr r w, Performs i s tr r w ∧ (CheckFails i s tr r w ∨ Works i s tr r w) := by
  obtain ⟨body, hexec, hbody⟩ := command_traced i
  obtain ⟨tr, r, w, ht, h⟩ := hbody s
  refine ⟨tr, r, w, ht.performs hexec ?_, h⟩
  rcases h with h | h
  · exact h.not_busFault
  · exact h.not_busFault

/-- A failed check ends the command on every platform, and leaves memory as it was. -/
theorem Performs.checkFails_end (hp : Performs i s tr r w) (h : CheckFails i s tr r w) (bf : List Rejection) :
    exec i (s.rejecting bf) = .next ((s.rejecting bf).endWith r w) :=
  hp.accepted bf (by simp [h.trace])

/-! ## Buffers that fail their checks -/

/-- Settles O28: a command that works has passed the buffer checks, and a failed check of a well-formed command is
InvalidParameter(0). -/
theorem bufferChecksEnd : Obligations.BufferChecksEnd := by
  intro i s hi hu hn
  obtain ⟨tr, r, w, hp, h | h⟩ := command_performs i s
  · have hend := hp.checkFails_end h s.platform.busFault
    rcases h.raises with rfl | ⟨hill, -⟩
    · obtain rfl := h.work
      exact ⟨_, hend, endWithError_failed s s.mem 0 _, rfl, rfl⟩
    · exact Bool.noConfusion (hi.symm.trans hill)
  · exact absurd ((buffersLegal_iff s).mp (h.legal hu)) hn

/-! ## What a command leaves unchanged -/

/-- No command writes outside its output buffer, with any end. -/
theorem exec_outside (he : exec i s = .next t) {b : Nat}
    (hb : b < s.dstAddr.toNat ∨ s.dstAddr.toNat + s.dstLen.toNat ≤ b) : t.mem.read b = s.mem.read b := by
  obtain ⟨u, hu, hended⟩ := exec_ended i s
  obtain rfl := Host.Outcome.next.inj (he.symm.trans hu)
  exact hended.outside b (State.output_has_outside hb)

/-- A command that has no buffers, or whose buffers fail their checks, stores nothing. -/
theorem exec_mem_of_idle (he : exec i s = .next t) (h : i.usesBuffers = false ∨ ¬ s.BuffersUsable) : t.mem = s.mem := by
  have idle : ∀ {tr r w}, Performs i s tr r w → tr = [] → w.mem = s.mem → t.mem = s.mem := by
    intro tr r w hp htr hm
    have hend := hp.accepted s.platform.busFault (by simp [htr])
    rw [s.rejecting_self, he] at hend
    obtain rfl := Host.Outcome.next.inj hend
    rw [State.endWith_mem, hm]
  obtain ⟨tr, r, w, hp, hc | hw⟩ := command_performs i s
  · exact idle hp hc.trace (by rw [hc.work]; rfl)
  · have hu : i.usesBuffers = false := h.elim id fun hn =>
      Bool.eq_false_iff.mpr fun hu => hn ((buffersLegal_iff s).mp (hw.legal hu))
    exact idle hp (hw.quiet hu).1 (hw.quiet hu).2

/-- ERR_INFO of an error that a stream's header shows is a position behind the header. -/
theorem HeaderError.errInfo_ne {e : Raise} (h : HeaderError e) : BitVec.ofNat 32 e.info ≠ 0 := by
  obtain ⟨-, hpos, hle⟩ := h
  intro h0
  have := congrArg BitVec.toNat h0
  rw [BitVec.toNat_ofNat] at this
  simp only [BitVec.ofNat_eq_ofNat, BitVec.toNat_ofNat] at this
  omega

/-- UnsupportedFormat and InvalidParameter with ERR_INFO 0 are the errors before the first access. -/
theorem Works.silent_of_early (hw : Works i s tr r w) (hp : Performs i s tr r w) (he : exec i s = .next t)
    (hc : t.status.errCode = some .unsupportedFormat ∨ t.status.errCode = some .invalidParameter) (h0 : t.errInfo = 0) :
    tr = [] := by
  rcases tr.split_rejected s.platform.busFault with hall | ⟨pre, a, post, hsplit, hpre, ha⟩
  · have hend := hp.accepted _ hall
    rw [s.rejecting_self, he] at hend
    obtain rfl := Host.Outcome.next.inj hend
    cases r with
    | ok v => simp [State.endWith] at hc
    | error e =>
      rcases hw.raises e rfl with h | h
      · simp [State.endWith_errCode, h] at hc
      · exact absurd h0 h.errInfo_ne
  · obtain ⟨v, hend, -⟩ := hp.rejected _ pre a post hsplit hpre ha
    rw [s.rejecting_self, he] at hend
    obtain rfl := Host.Outcome.next.inj hend
    simp at hc

/-- Such an error ends the command where every access is rejected as well. -/
theorem accessless_of_early (he : exec i s = .next t)
    (hc : t.status.errCode = some .unsupportedFormat ∨ t.status.errCode = some .invalidParameter) (h0 : t.errInfo = 0) :
    s.accessless i = true := by
  obtain ⟨tr, r, w, hp, h⟩ := command_performs i s
  have hsilent : tr = [] := h.elim (fun hc => hc.trace) fun hw => hw.silent_of_early hp he hc h0
  have hr : ¬ RaisesBusFault r := h.elim (fun hc => hc.not_busFault) fun hw => hw.not_busFault
  have hend : exec i { s with platform := s.platform.rejecting everyAccess }
      = .next ((s.rejecting everyAccess).endWith r w) := hp.accepted everyAccess (by simp [hsilent])
  rw [State.accessless, hend]
  simpa using State.endWith_errCode_ne hr

/-! ## Devices -/

theorem State.withDeviceInput_rejecting (s : State) : s.withDeviceInput.rejecting [] = s.withDeviceInput := rfl

/-- A byte on no device answers with what memory holds. -/
theorem State.withDeviceInput_read (s : State) {a : Nat} (h : s.platform.devices.any (Buffer.has · a) = false) :
    s.withDeviceInput.mem.read a = s.mem.read a := by
  rw [State.withDeviceInput, Memory.read_fill, h]
  simp

theorem not_onDevice_of_header {s : State} (h : headerOnDevice s = false) {j : Nat} (hj : j < 4) :
    s.platform.devices.any (Buffer.has · (s.srcAddr.toNat + j)) = false := by
  rw [List.any_eq_false]
  intro d hd
  have := List.any_eq_false.mp h d hd
  simp only [List.any_eq_true, List.mem_range, not_exists, not_and] at this
  exact this j hj

/-- What devices answer with does not change the bound: a header that bounds is on no device. -/
theorem mostStored_withDeviceInput (i : Instr) (s : State) : mostStored i s.withDeviceInput = mostStored i s := by
  have header : ∀ {k n : Nat}, k + n ≤ 4 → headerOnDevice s = false →
      s.withDeviceInput.mem.little (s.srcAddr.toNat + k) n = s.mem.little (s.srcAddr.toNat + k) n := by
    intro k n hk h
    refine Memory.little_congr fun j hj => s.withDeviceInput_read ?_
    rw [Nat.add_assoc]
    exact not_onDevice_of_header h (by omega)
  have ite : ∀ {x y z : Nat}, (headerOnDevice s = false → x = y) →
      (if headerOnDevice s then z else x) = if headerOnDevice s then z else y := by
    intro x y z h
    cases hd : headerOnDevice s with
    | true => rfl
    | false => exact h hd
  cases i
  case lz10Dec => exact ite (header (k := 1) (n := 3) (by omega))
  case lz11Dec => exact ite (header (k := 1) (n := 3) (by omega))
  case contDec => exact ite fun h => congrArg (· / 8) (header (k := 0) (n := 4) (by omega) h)
  all_goals rfl

/-- RESULT0 of a command with buffers, where no access is rejected, counts the bytes it has written. -/
theorem Works.result0 (hw : Works i s tr r w) (hu : i.usesBuffers = true) :
    ((s.rejecting []).endWith r w).result0 = BitVec.ofNat 32 w.stored := by
  cases r with
  | ok v => rw [State.endWith, State.endWithSuccess_result0, hw.counted v rfl hu]
  | error e => rfl

theorem CheckFails.result0 (h : CheckFails i s tr r w) : ((s.rejecting []).endWith r w).result0 = 0 := by
  obtain rfl := h.work
  rcases h.raises with rfl | ⟨-, rfl⟩ <;> rfl

theorem deviceOutput_le_most (hu : i.usesBuffers = true) : s.deviceOutput i ≤ mostStored i s := by
  rw [← mostStored_withDeviceInput]
  obtain ⟨tr, r, w, hp, h⟩ := command_performs i s.withDeviceInput
  have hend := hp.accepted [] fun a _ => a.rejectedBy_nil
  rw [s.withDeviceInput_rejecting] at hend
  rw [State.deviceOutput, hend]
  rcases h with h | h
  · exact (congrArg BitVec.toNat h.result0).trans_le (Nat.zero_le _)
  · refine (congrArg BitVec.toNat (h.result0 hu)).trans_le (le_trans ?_ h.most)
    rw [BitVec.toNat_ofNat]
    exact Nat.mod_le _ _

/-- Settles O9: the confinement from `exec_ended` and `exec_mem_of_idle`; on a device, an early error makes no access, and
the bytes that may change are at most `mostStored`. -/
theorem outputConfinement : Obligations.OutputConfinement := by
  refine ⟨fun i s t he => ⟨fun b hb => ?_, fun hu => exec_mem_of_idle he (.inl hu),
    fun hn => exec_mem_of_idle he (.inr hn)⟩,
    fun s t i hb hc ha hd hs => ?_⟩
  · exact exec_outside he hb
  · obtain ⟨u, hu, -⟩ := exec_ended i s
    rw [step_of_agenda_nil ha, hb, if_pos rfl, engineStep_of_ok hc, hu, settle] at hs
    obtain rfl := Host.Outcome.next.inj hs
    refine ⟨fun u' hu' hcode h0 => ?_, fun hrun b hb => ?_⟩
    · obtain rfl := Host.Outcome.next.inj (hu.symm.trans hu')
      have hquiet : s.runsOnDevice i = false := by simp [State.runsOnDevice, accessless_of_early hu hcode h0]
      simp [State.settled, hd, hquiet]
    · have husesBuffers : i.usesBuffers = true := by
        simp only [State.runsOnDevice, Bool.and_eq_true] at hrun
        exact hrun.1.1
      have hmost := deviceOutput_le_most (s := s) husesBuffers
      have hsettled : s.settled i u = s.endOnDevice i u := by simp [State.settled, hd, hrun]
      rw [hsettled]
      refine s.endOnDevice_read i u (Bool.eq_false_iff.mpr fun hfirst => ?_)
      have hlt : b < s.dstAddr.toNat + s.deviceOutput i := (Buffer.first_has.mp hfirst).2
      omega

end Sys2Proof.Machine
end

section
/-! PROOFS. BusFault (20_memory.md R69; 60_exceptions.md R325, R326): where it is raised, what it leaves, and which rejected
access raises it. -/
namespace Sys2Proof.Machine

open Sys2Proof.Reference

variable {i : Instr} {s t u : State} {tr pre post : Trace} {a : Access} {r : Except Raise (Nat × Nat)} {w : Work}

/-! ## The address -/

theorem State.rejects_has_lt {s : State} (hl : s.env.buffersLegal = true) {a : Nat}
    (h : s.env.input.has a = true ∨ s.env.output.has a = true) : a < 2 ^ 32 := by
  have hb := (buffersLegal_iff s).mp hl
  have hi := hb.inputFits
  have ho := hb.outputFits
  rw [State.input_has, State.output_has] at h
  omega

/-- BusFault names a rejected access of the command's buffers. -/
theorem exec_busFault_address (he : exec i s = .next t) (hc : t.status.errCode = some .busFault) :
    (s.platform.rejects t.errInfo.toNat .read = true
        ∧ (s.env.input.has t.errInfo.toNat = true ∨ s.env.output.has t.errInfo.toNat = true))
      ∨ (s.platform.rejects t.errInfo.toNat .write = true ∧ s.env.output.has t.errInfo.toNat = true) := by
  obtain ⟨body, hexec, hkeeps⟩ := exec_eq_afterCommand i
  obtain rfl := Host.Outcome.next.inj (he.symm.trans (hexec s))
  rcases afterCommand_cases s body with ⟨r0, r1, w, -, h⟩ | ⟨r, w, -, hr, h⟩ | ⟨r, w, hrun, hr, h⟩ <;> rw [h] at hc ⊢
  · simp at hc
  · exact absurd (Option.some.inj hc) hr
  · have hraised := hkeeps s.env s.mem _ (Untouched.start s.env s.mem)
    rw [hrun] at hraised
    obtain ⟨hl, hwhere⟩ := hraised.busFault hr
    have hlt : r.info < 2 ^ 32 := s.rejects_has_lt hl (hwhere.elim (fun h => h.2) fun h => .inr h.2)
    rw [State.endWithBusFault_errInfo, BitVec.toNat_ofNat, Nat.mod_eq_of_lt hlt]
    exact hwhere

/-! ## What it leaves -/

/-- A byte after BusFault is one that the body left, or one of the body that no access stops. -/
theorem State.endWithBusFault_read (s : State) (v : Work) (e : Raise) (ideal : Memory) (b : Nat) :
    (s.endWithBusFault v e ideal).mem.read b = v.mem.read b
      ∨ (s.endWithBusFault v e ideal).mem.read b = ideal.read b := by
  rw [State.endWithBusFault_mem, Memory.read_mix]
  split
  · exact .inr rfl
  · exact .inl rfl

/-- The bytes written before an access are not written again. -/
theorem Works.written_once (hw : Works i s tr r w) (ht : tr = pre ++ a :: post) {b : Nat} (hb : b ∈ Trace.writes pre) :
    b ∉ Trace.writes (a :: post) := by
  have hnodup := hw.distinct
  rw [ht, Trace.writes_append] at hnodup
  exact fun h => List.disjoint_of_nodup_append hnodup hb h

/-- The place of the byte written as number `k`. -/
theorem Works.place_mem (hw : Works i s tr r w) {k : Nat} (hk : k < w.stored) :
    s.dstAddr.toNat + storedPlace i s k ∈ tr.writes := by
  rw [hw.places]
  exact List.mem_map.mpr ⟨k, List.mem_range.mpr hk, rfl⟩

theorem Works.writes_before (hw : Works i s tr r w) (ht : tr = pre ++ a :: post) :
    Trace.writes pre = (List.range (Trace.writes pre).length).map fun k => s.dstAddr.toNat + storedPlace i s k := by
  have hplaces := hw.places
  have hle : (Trace.writes pre).length ≤ w.stored := by
    have := congrArg List.length hplaces
    simp only [ht, Trace.writes_append, List.length_append, List.length_map, List.length_range] at this
    omega
  rw [ht, Trace.writes_append] at hplaces
  have htake := congrArg (List.take (Trace.writes pre).length) hplaces
  rw [List.take_left, ← List.map_take, List.take_range, Nat.min_eq_left hle] at htake
  exact htake

theorem Works.place_mem_before (hw : Works i s tr r w) (ht : tr = pre ++ a :: post) {k : Nat}
    (hk : k < (Trace.writes pre).length) : s.dstAddr.toNat + storedPlace i s k ∈ Trace.writes pre := by
  rw [hw.writes_before ht]
  exact List.mem_map.mpr ⟨k, List.mem_range.mpr (by simpa using hk), rfl⟩

/-- The write that follows `pre` is the one numbered by the writes in `pre`. -/
theorem Works.place_next (hw : Works i s tr r w) {b : Nat} (ht : tr = pre ++ ⟨b, .write⟩ :: post) :
    b = s.dstAddr.toNat + storedPlace i s (Trace.writes pre).length := by
  have hplaces := hw.places
  rw [ht, Trace.writes_append, Trace.writes] at hplaces
  have hget := congrArg (fun l => l[(Trace.writes pre).length]?) hplaces
  have hle := congrArg List.length hplaces
  simp only [List.length_append, List.length_cons, List.length_map, List.length_range] at hle
  simpa [List.getElem?_range (show (Trace.writes pre).length < w.stored by omega)] using hget

theorem Works.before_le (hw : Works i s tr r w) (hp : Performs i s tr r w) (ht : tr = pre ++ a :: post) :
    (Trace.writes pre).length ≤ s.dstLen.toNat := by
  have hstored := hp.stored
  rw [ht, Trace.writes_append, List.length_append] at hstored
  have := hw.room
  omega

/-- A command that ends with BusFault has met its first rejected access. -/
theorem exec_busFault_rejected (hp : Performs i s tr r w) (hr : ¬ RaisesBusFault r) (he : exec i s = .next t)
    (hc : t.status.errCode = some .busFault) :
    ∃ pre a post v, tr = pre ++ a :: post ∧ t = s.endWithBusFault v { err := .busFault, info := a.addr } w.mem
      ∧ v.stored = (Trace.writes pre).length ∧ (∀ b, b ∉ Trace.writes pre → v.mem.read b = s.mem.read b)
      ∧ ∀ b, b ∉ Trace.writes (a :: post) → v.mem.read b = w.mem.read b := by
  rcases tr.split_rejected s.platform.busFault with hall | ⟨pre, a, post, hsplit, hpre, ha⟩
  · have hend := hp.accepted _ hall
    rw [s.rejecting_self, he] at hend
    obtain rfl := Host.Outcome.next.inj hend
    exact absurd hc (State.endWith_errCode_ne hr)
  · obtain ⟨v, hend, h⟩ := hp.rejected _ pre a post hsplit hpre ha
    rw [s.rejecting_self, he] at hend
    exact ⟨pre, a, post, v, hsplit, Host.Outcome.next.inj hend, h⟩

/-- The first part of O34. -/
theorem exec_busFault_leaves (he : exec i s = .next t) (hc : t.status.errCode = some .busFault)
    (hu : exec i (s.rejecting []) = .next u) :
    u.status.errCode ≠ some .busFault
      ∧ (∀ b, t.mem.read b = s.mem.read b ∨ t.mem.read b = u.mem.read b)
      ∧ t.result0.toNat ≤ s.dstLen.toNat
      ∧ ∀ k < t.result0.toNat,
          t.mem.read (s.dstAddr.toNat + storedPlace i s k) = u.mem.read (s.dstAddr.toNat + storedPlace i s k) := by
  obtain ⟨tr, r, w, hp, h⟩ := command_performs i s
  have hr : ¬ RaisesBusFault r := h.elim (fun hc => hc.not_busFault) fun hw => hw.not_busFault
  obtain ⟨pre, a, post, v, hsplit, rfl, hstored, hframe, hdone⟩ := exec_busFault_rejected hp hr he hc
  obtain rfl := Host.Outcome.next.inj (hu.symm.trans (hp.accepted [] fun a _ => a.rejectedBy_nil))
  rcases h with hcheck | hw
  · simp [hcheck.trace] at hsplit
  have hroom := hw.before_le hp hsplit
  have hresult : (BitVec.ofNat 32 v.stored).toNat = (Trace.writes pre).length := by
    rw [hstored, BitVec.toNat_ofNat, Nat.mod_eq_of_lt (hroom.trans_lt s.dstLen.isLt)]
  have hwritten : ∀ b ∈ Trace.writes pre,
      (s.endWithBusFault v { err := .busFault, info := a.addr } w.mem).mem.read b = w.mem.read b := by
    intro b hb
    rcases s.endWithBusFault_read v { err := .busFault, info := a.addr } w.mem b with h | h
    · rw [h, hdone b (hw.written_once hsplit hb)]
    · exact h
  rw [State.endWithBusFault_result0, hresult, State.endWith_mem]
  refine ⟨State.endWith_errCode_ne hr, fun b => ?_, hroom, fun k hk => hwritten _ (hw.place_mem_before hsplit hk)⟩
  by_cases hb : b ∈ Trace.writes pre
  · exact .inr (hwritten b hb)
  · rcases s.endWithBusFault_read v { err := .busFault, info := a.addr } w.mem b with h | h
    · exact .inl (h.trans (hframe b hb))
    · exact .inr h

/-! ## Which access raises it -/

theorem Access.rejectedBy_only {a b : Access} : b.rejectedBy [⟨a.addr, a.addr, a.dir⟩] = true ↔ b = a := by
  obtain ⟨x, d⟩ := a
  obtain ⟨y, e⟩ := b
  simp only [Access.rejectedBy, List.any_cons, List.any_nil, Bool.or_false, Bool.and_eq_true, decide_eq_true_eq,
    Access.mk.injEq]
  constructor
  · rintro ⟨⟨rfl, h1⟩, h2⟩
    exact ⟨Nat.le_antisymm h2 h1, rfl⟩
  · rintro ⟨rfl, rfl⟩
    exact ⟨⟨rfl, Nat.le_refl _⟩, Nat.le_refl _⟩

/-- Every access is one to the command's buffers: it is so where that access alone is rejected. -/
theorem Performs.access_in_buffers (hp : Performs i s tr r w) (ha : a ∈ tr) :
    s.env.input.has a.addr = true ∨ s.env.output.has a.addr = true := by
  rcases tr.split_rejected [⟨a.addr, a.addr, a.dir⟩] with hall | ⟨pre, b, post, hsplit, hpre, hb⟩
  · exact Bool.noConfusion ((hall a ha).symm.trans (Access.rejectedBy_only.mpr rfl))
  · obtain rfl := Access.rejectedBy_only.mp hb
    obtain ⟨v, hend, -⟩ := hp.rejected _ pre b post hsplit hpre hb
    have hwhere := exec_busFault_address hend rfl
    have haddr : (BitVec.ofNat 32 b.addr).toNat = b.addr := by
      rcases hwhere with ⟨h, -⟩ | ⟨h, -⟩
      · exact congrArg Access.addr (Access.rejectedBy_only (b := ⟨_, .read⟩).mp h)
      · exact congrArg Access.addr (Access.rejectedBy_only (b := ⟨_, .write⟩).mp h)
    rw [State.endWithBusFault_errInfo, haddr] at hwhere
    exact hwhere.elim (fun h => h.2) fun h => .inr h.2

/-- A rejected output byte raises BusFault, where every byte before it and every read is accepted. -/
theorem exec_rejected_write (hi : i.usesBuffers = true) (hu : exec i (s.rejecting []) = .next u) {k : Nat}
    (hk : k < u.result0.toNat)
    (hread : ∀ a, s.env.input.has a = true ∨ s.env.output.has a = true → s.platform.rejects a .read = false)
    (hbefore : ∀ j < k, s.platform.rejects (s.dstAddr.toNat + storedPlace i s j) .write = false)
    (hrejected : s.platform.rejects (s.dstAddr.toNat + storedPlace i s k) .write = true) :
    ∃ t, exec i s = .next t ∧ s.Failed t .busFault k (s.dstAddr.toNat + storedPlace i s k) := by
  obtain ⟨tr, r, w, hp, h⟩ := command_performs i s
  obtain rfl := Host.Outcome.next.inj (hu.symm.trans (hp.accepted [] fun a _ => a.rejectedBy_nil))
  rcases h with hcheck | hw
  · simp [hcheck.result0] at hk
  rw [hw.result0 hi, BitVec.toNat_ofNat] at hk
  have hk : k < w.stored := hk.trans_le (Nat.mod_le _ _)
  rcases tr.split_rejected s.platform.busFault with hall | ⟨pre, ⟨b, d⟩, post, hsplit, hpre, hb⟩
  · exact Bool.noConfusion ((hall _ (Trace.mem_writes.mp (hw.place_mem hk))).symm.trans hrejected)
  obtain ⟨v, hend, hstored, -⟩ := hp.rejected _ pre _ post hsplit hpre hb
  cases d with
  | read => exact Bool.noConfusion ((hread b (hp.access_in_buffers (a := ⟨b, .read⟩) (by simp [hsplit]))).symm.trans hb)
  | write =>
    have hnumber : (Trace.writes pre).length = k := by
      obtain rfl := hw.place_next hsplit
      rcases Nat.lt_trichotomy (Trace.writes pre).length k with hlt | heq | hgt
      · exact Bool.noConfusion ((hbefore _ hlt).symm.trans hb)
      · exact heq
      · exact Bool.noConfusion ((hpre _ (Trace.mem_writes.mp (hw.place_mem_before hsplit hgt))).symm.trans hrejected)
    have hfailed := endWithBusFault_failed s v { err := .busFault, info := b } w.mem
    rw [hstored, hnumber, hw.place_next hsplit, hnumber] at hfailed
    exact ⟨_, hend, by rwa [hw.place_next hsplit, hnumber]⟩

/-- Settles O34: where BusFault is raised, what it leaves and which rejected write raises it, from the accesses of every
command (`Performs`, `Works`). -/
theorem busFaultNamesRejectedAccess : Obligations.BusFaultNamesRejectedAccess := by
  refine ⟨fun i s t u ht hc hu => ⟨exec_busFault_address ht hc, exec_busFault_leaves ht hc hu⟩,
    fun i s u k hi hu hk hinput houtput hbefore hrejected =>
      exec_rejected_write hi hu hk (fun a ha => ?_) hbefore hrejected⟩
  rcases ha with ha | ha
  · obtain ⟨hle, hlt⟩ := (s.input_has a).mp ha
    simpa [Nat.add_sub_cancel' hle] using hinput (a - s.srcAddr.toNat) (by omega)
  · obtain ⟨hle, hlt⟩ := (s.output_has a).mp ha
    simpa [Nat.add_sub_cancel' hle] using houtput (a - s.dstAddr.toNat) (by omega)

end Sys2Proof.Machine
end

section
/-! PROOFS. The first rejected read of a command that reads no stream: its place in the order of the accesses
(20_memory.md R69; 60_exceptions.md R325, R327). -/
namespace Sys2Proof.Machine

open Sys2Proof.Reference

variable {i : Instr} {s t u : State} {tr pre post : Trace} {r : Except Raise (Nat × Nat)} {w : Work}

/-- A read of the log is an access of the trace, with its reads and its writes before it. -/
theorem Trace.split_readLog {k a m : Nat} {l l' : List (Nat × Nat)} (h : Trace.readLog k tr = l ++ (a, m) :: l') :
    ∃ pre post, tr = pre ++ ⟨a, .read⟩ :: post ∧ Trace.readLog k pre = l ∧ k + (Trace.writes pre).length = m := by
  induction tr generalizing k l with
  | nil => simp [Trace.readLog] at h
  | cons x tr ih =>
    obtain ⟨b, d⟩ := x
    cases d with
    | write =>
      obtain ⟨pre, post, rfl, hl, hm⟩ := ih h
      exact ⟨⟨b, .write⟩ :: pre, post, rfl, hl, by rw [Trace.writes, List.length_cons]; omega⟩
    | read =>
      cases l with
      | nil =>
        obtain ⟨⟨rfl, rfl⟩, -⟩ := by simpa [Trace.readLog] using h
        exact ⟨[], tr, rfl, rfl, rfl⟩
      | cons p l =>
        obtain ⟨rfl, hrest⟩ : (b, k) = p ∧ Trace.readLog k tr = l ++ (a, m) :: l' := by simpa [Trace.readLog] using h
        obtain ⟨pre, post, rfl, rfl, hm⟩ := ih hrest
        exact ⟨⟨b, .read⟩ :: pre, post, rfl, rfl, hm⟩

/-- A read of the trace is in its log. -/
theorem Trace.mem_readLog {k a : Nat} (h : ⟨a, .read⟩ ∈ tr) : ∃ m, (a, m) ∈ Trace.readLog k tr := by
  induction tr generalizing k with
  | nil => simp at h
  | cons x tr ih =>
    obtain ⟨b, d⟩ := x
    cases d with
    | write => exact ih (by simpa using h)
    | read =>
      rcases List.mem_cons.mp h with heq | h
      · obtain rfl : a = b := congrArg Access.addr heq
        exact ⟨k, List.mem_cons_self⟩
      · obtain ⟨m, hm⟩ := ih (k := k) h
        exact ⟨m, List.mem_cons_of_mem _ hm⟩

theorem inputReads_of_decompresses (h : decompresses i = true) : inputReads i s = [] := by
  revert h
  cases i <;> simp [decompresses, inputReads]

/-- The first rejected read of a command that reads no stream raises BusFault. -/
theorem exec_rejected_read {before after : List (Nat × Nat)} {offset stored : Nat}
    (hu : exec i (s.rejecting []) = .next u) (hc : u.status.errCode = none)
    (hreads : inputReads i s = before ++ (offset, stored) :: after)
    (hbefore : ∀ p ∈ before, s.platform.rejects (s.srcAddr.toNat + p.1) .read = false)
    (hrejected : s.platform.rejects (s.srcAddr.toNat + offset) .read = true)
    (hwrites : ∀ k < stored, s.platform.rejects (s.dstAddr.toNat + storedPlace i s k) .write = false) :
    ∃ t, exec i s = .next t ∧ s.Failed t .busFault stored (s.srcAddr.toNat + offset) := by
  obtain ⟨tr, r, w, hp, h⟩ := command_performs i s
  obtain rfl := Host.Outcome.next.inj (hu.symm.trans (hp.accepted [] fun a _ => a.rejectedBy_nil))
  have hstream : decompresses i = false := by
    refine Bool.eq_false_iff.mpr fun hd => ?_
    simp [inputReads_of_decompresses hd] at hreads
  obtain ⟨v, rfl⟩ : ∃ v, r = .ok v := by
    cases r with
    | ok v => exact ⟨v, rfl⟩
    | error e => simp [State.endWith_errCode] at hc
  rcases h with hcheck | hw
  · rcases hcheck.raises with h | ⟨-, h⟩ <;> cases h
  have hlog := hw.reads v rfl hstream
  rw [hreads, List.map_append, List.map_cons] at hlog
  obtain ⟨pre, post, hsplit, hpre, hnumber⟩ := Trace.split_readLog hlog
  rw [Nat.zero_add] at hnumber
  have haccepted : ∀ b ∈ pre, b.rejectedBy s.platform.busFault = false := by
    rintro ⟨b, d⟩ hb
    cases d with
    | read =>
      obtain ⟨m, hm⟩ := Trace.mem_readLog (k := 0) hb
      rw [hpre] at hm
      obtain ⟨p, hp, heq⟩ := List.mem_map.mp hm
      obtain ⟨rfl, -⟩ := Prod.mk.inj heq
      exact hbefore p hp
    | write =>
      have hb' := Trace.mem_writes.mpr hb
      rw [hw.writes_before hsplit] at hb'
      obtain ⟨k, hk, rfl⟩ := List.mem_map.mp hb'
      exact hwrites k (by rwa [hnumber, List.mem_range] at hk)
  obtain ⟨v, hend, hstored, -⟩ := hp.rejected _ pre _ post hsplit haccepted hrejected
  have hfailed := endWithBusFault_failed s v { err := .busFault, info := s.srcAddr.toNat + offset } w.mem
  rw [hstored, hnumber] at hfailed
  exact ⟨_, hend, hfailed⟩

end Sys2Proof.Machine
end

section
/-! PROOFS. Running the pieces of a decompressor forward on a known input: `Runs` says what a piece does with the bytes it
reads, `Stops` where it ends for want of the next byte, which is behind the input's end or rejected (20_memory.md R66,
R69), and `Decodes` both, for a piece that only reads. -/
namespace Sys2Proof.Machine

variable {α β : Type} {env : Env} {stop : Raise}

/-- Every byte of the output buffer can be written and read back, and is no input byte (20_memory.md R65, R69). -/
structure Env.Serves (env : Env) : Prop where
  apart : ∀ j < env.srcLen, ∀ k < env.dstLen, env.src + j ≠ env.dst + k
  writes : ∀ k < env.dstLen, env.platform.rejects (env.dst + k) .write = false
  reads : ∀ k < env.dstLen, env.platform.rejects (env.dst + k) .read = false

/-- What ends a command that needs the input byte at `pos`: the input is at its end there, or the byte is rejected. -/
def Env.NoByte (env : Env) (stop : Raise) (pos : Nat) : Prop :=
  (env.srcLen = pos ∧ stop = { err := .corruptStream, info := pos })
    ∨ (pos < env.srcLen ∧ env.platform.rejects (env.src + pos) .read = true
      ∧ stop = { err := .busFault, info := env.src + pos })

/-- The command has appended `out` and can still read `rest`; needing a byte more ends it with `stop`. -/
structure Feeds (env : Env) (stop : Raise) (out rest : List Byte) (w : Work) : Prop where
  stored : w.stored = out.length
  output : w.mem.Holds env.dst out
  input : w.mem.Holds (env.src + w.inPos) rest
  room : w.inPos + rest.length ≤ env.srcLen
  accepted : ∀ j < rest.length, env.platform.rejects (env.src + w.inPos + j) .read = false
  stops : env.NoByte stop (w.inPos + rest.length)

/-- After the output `out`, `x` reads `bytes`, yields `v` and leaves the output `out'`. -/
def Runs (env : Env) (stop : Raise) (x : Eng α) (out bytes : List Byte) (v : α) (out' : List Byte) : Prop :=
  ∀ rest w, Feeds env stop out (bytes ++ rest) w → ∃ w', x w = (.ok v, w') ∧ Feeds env stop out' rest w'

/-- After the output `out` and with `rest` to read, `x` needs a byte more, and leaves the output `out'`. -/
def Stops (env : Env) (stop : Raise) (x : Eng α) (out rest out' : List Byte) : Prop :=
  ∀ w, Feeds env stop out rest w → ∃ w', x w = (.error stop, w') ∧ w'.stored = out'.length ∧ w'.mem.Holds env.dst out'

/-- `x` reads `bytes` for the value `v`, writes nothing, and stops where they are cut short. -/
structure Decodes (env : Env) (stop : Raise) (x : Eng α) (bytes : List Byte) (v : α) : Prop where
  runs : ∀ out, Runs env stop x out bytes v out
  cut : ∀ out part, part <+: bytes → part.length < bytes.length → Stops env stop x out part out

/-! ## Rules -/

theorem Runs.pure (v : α) (out : List Byte) : Runs env stop (pure v) out [] v out := fun _ w h => ⟨w, rfl, h⟩

theorem Runs.bind {x : Eng α} {f : α → Eng β} {out out1 out2 b1 b2 : List Byte} {v : α} {u : β}
    (hx : Runs env stop x out b1 v out1) (hf : Runs env stop (f v) out1 b2 u out2) :
    Runs env stop (x >>= f) out (b1 ++ b2) u out2 := by
  intro rest w h
  rw [List.append_assoc] at h
  obtain ⟨w1, hrun1, h1⟩ := hx _ w h
  obtain ⟨w2, hrun2, h2⟩ := hf _ w1 h1
  exact ⟨w2, (run_bind_ok hrun1).trans hrun2, h2⟩

/-- A piece that reads nothing, then another. -/
theorem Runs.bind_nil {x : Eng α} {f : α → Eng β} {out out1 out2 bytes : List Byte} {v : α} {u : β}
    (hx : Runs env stop x out [] v out1) (hf : Runs env stop (f v) out1 bytes u out2) :
    Runs env stop (x >>= f) out bytes u out2 := hx.bind hf

/-- A piece that reads, then one that does not. -/
theorem Runs.nil_bind {x : Eng α} {f : α → Eng β} {out out1 out2 bytes : List Byte} {v : α} {u : β}
    (hx : Runs env stop x out bytes v out1) (hf : Runs env stop (f v) out1 [] u out2) :
    Runs env stop (x >>= f) out bytes u out2 := by
  have h := hx.bind hf
  rwa [List.append_nil] at h

theorem Runs.stops {x : Eng α} {f : α → Eng β} {out out1 out2 bytes rest : List Byte} {v : α}
    (hx : Runs env stop x out bytes v out1) (hf : Stops env stop (f v) out1 rest out2) :
    Stops env stop (x >>= f) out (bytes ++ rest) out2 := by
  intro w h
  obtain ⟨w1, hrun1, h1⟩ := hx _ w h
  obtain ⟨w2, hrun2, h2⟩ := hf w1 h1
  exact ⟨w2, (run_bind_ok hrun1).trans hrun2, h2⟩

theorem Runs.stops_nil {x : Eng α} {f : α → Eng β} {out out1 out2 rest : List Byte} {v : α}
    (hx : Runs env stop x out [] v out1) (hf : Stops env stop (f v) out1 rest out2) :
    Stops env stop (x >>= f) out rest out2 := Runs.stops hx hf

theorem Stops.bind {x : Eng α} {f : α → Eng β} {out rest out' : List Byte} (hx : Stops env stop x out rest out') :
    Stops env stop (x >>= f) out rest out' := by
  intro w h
  obtain ⟨w', hrun, h'⟩ := hx w h
  exact ⟨w', run_bind_error hrun, h'⟩

theorem Decodes.pure (v : α) : Decodes env stop (pure v) [] v :=
  ⟨fun _ => .pure v _, fun _ _ _ h => absurd h (Nat.not_lt_zero _)⟩

/-- A list that begins as two lists do, and is as long as the first, goes on in the second. -/
theorem prefix_append_of_length_le {γ : Type} {a b c : List γ} (h : c <+: a ++ b) (hl : a.length ≤ c.length) :
    ∃ d, c = a ++ d ∧ d <+: b := by
  obtain ⟨d, rfl⟩ := List.prefix_of_prefix_length_le (List.prefix_append a b) h hl
  exact ⟨d, rfl, (List.prefix_append_right_inj a).mp h⟩

theorem Decodes.value {x : Eng α} {bytes : List Byte} {v u : α} (h : Decodes env stop x bytes v) (hv : v = u) :
    Decodes env stop x bytes u := hv ▸ h

theorem Decodes.bind {x : Eng α} {f : α → Eng β} {b1 b2 : List Byte} {v : α} {u : β} (hx : Decodes env stop x b1 v)
    (hf : Decodes env stop (f v) b2 u) : Decodes env stop (x >>= f) (b1 ++ b2) u := by
  refine ⟨fun out => (hx.runs out).bind (hf.runs out), fun out part hpre hlt => ?_⟩
  rcases Nat.lt_or_ge part.length b1.length with hshort | hlong
  · exact (hx.cut out part (List.prefix_of_prefix_length_le hpre (List.prefix_append b1 b2) hshort.le) hshort).bind
  · obtain ⟨c, rfl, hc⟩ := prefix_append_of_length_le hpre hlong
    refine (hx.runs out).stops (hf.cut out c hc ?_)
    simpa using hlt

theorem Decodes.map {x : Eng α} {g : α → β} {bytes : List Byte} {v : α} (hx : Decodes env stop x bytes v) :
    Decodes env stop (x >>= fun y => Pure.pure (g y)) bytes (g v) := by
  have h := hx.bind (f := fun y => Pure.pure (g y)) (.pure (g v))
  rwa [List.append_nil] at h

/-- A piece that decodes, then the rest, where the bytes are cut short. -/
theorem Decodes.stops {x : Eng α} {f : α → Eng β} {out part bytes : List Byte} {v : α} (hx : Decodes env stop x bytes v)
    (hpre : part <+: bytes) (hlt : part.length < bytes.length) : Stops env stop (x >>= f) out part out :=
  (hx.cut out part hpre hlt).bind

/-! ## The input cursor and the output -/

theorem Feeds.advance {out rest : List Byte} {b : Byte} {w : Work} (h : Feeds env stop out (b :: rest) w) :
    Feeds env stop out rest (w.advance 1) := by
  refine ⟨h.stored, h.output, ?_, ?_, fun j hj => ?_, ?_⟩
  · exact (Memory.holds_cons.mp h.input).2
  · have := h.room
    simp only [List.length_cons] at this
    simp only [Work.advance_inPos]
    omega
  · have := h.accepted (j + 1) (by simpa using hj)
    rwa [Work.advance_inPos, show env.src + (w.inPos + 1) + j = env.src + w.inPos + (j + 1) by omega]
  · have := h.stops
    rwa [List.length_cons, Nat.add_comm rest.length, ← Nat.add_assoc] at this

theorem inByte_decodes (b : Byte) : Decodes env stop (inByte env) [b] b.toNat := by
  refine ⟨fun out rest w h => ?_, fun out part _ hlt w h => ?_⟩
  · have hroom := h.room
    rw [List.length_append, List.length_singleton] at hroom
    have hb : w.mem.read (env.src + w.inPos) = b := (Memory.holds_cons.mp h.input).1
    have hok : env.platform.rejects (env.src + w.inPos) .read = false := h.accepted 0 (by simp)
    exact ⟨w.advance 1, by rw [inByte_ok (by omega) hok, hb], h.advance⟩
  · obtain rfl : part = [] := List.length_eq_zero_iff.mp (by simpa using hlt)
    refine ⟨w, ?_, h.stored, h.output⟩
    rcases h.stops with ⟨hend, rfl⟩ | ⟨hlt, hrej, rfl⟩
    · exact inByte_end hend.le
    · rcases inByte_cases env w with ⟨-, hacc, -⟩ | ⟨hend, -⟩ | ⟨-, -, hrun⟩
      · exact Bool.noConfusion (hacc.symm.trans hrej)
      · exact absurd hlt (Nat.not_lt.mpr hend)
      · exact hrun

/-- Needing a byte where none is left. -/
theorem inByte_stops (out : List Byte) : Stops env stop (inByte env) out [] out :=
  (inByte_decodes 0).cut out [] List.nil_prefix Nat.one_pos

theorem outLen_runs (out : List Byte) : Runs env stop outLen out [] out.length out :=
  fun _ w h => ⟨w, by rw [outLen_run, h.stored], h⟩

theorem append_runs (he : env.Serves) {out : List Byte} (hroom : out.length < env.dstLen) (v : Nat) :
    Runs env stop (append env v) out [] () (out ++ [BitVec.ofNat 8 v]) := by
  intro rest w h
  have hacc : env.platform.rejects (env.dst + w.stored) .write = false := by
    rw [h.stored]
    exact he.writes _ hroom
  refine ⟨_, append_ok hacc, ?_, ?_, fun j hj => ?_, h.room, h.accepted, h.stops⟩
  · simp [h.stored]
  · refine Memory.holds_append.mpr ⟨fun j hj => ?_, ?_⟩
    · rw [Work.put_mem, Memory.read_store_outside (by rw [h.stored]; omega)]
      exact h.output j hj
    · rw [Work.put_mem, h.stored]
      exact Memory.holds_store _ _ _
  · have hin : w.inPos + rest.length ≤ env.srcLen := h.room
    have hne := he.apart (w.inPos + j) (by omega) w.stored (by rw [h.stored]; exact hroom)
    rw [Work.put_mem, Work.put_inPos, Memory.read_store_outside (by rw [List.length_singleton]; omega)]
    exact h.input j hj

theorem outByte_runs (he : env.Serves) {out : List Byte} (hroom : out.length ≤ env.dstLen) {j : Nat}
    (hj : j < out.length) : Runs env stop (outByte env j) out [] (out.getD j 0).toNat out :=
  fun _ w h => ⟨w, by rw [outByte_ok (he.reads j (by omega)), h.output j hj], h⟩

/-! ## Several bytes -/

/-- `v[i]` (00_scope.md R8) is the bit that Lean tests. -/
theorem bitAt_eq_testBit (v i : Nat) : bitAt v i = (v.testBit i).toNat := by
  rw [Nat.toNat_testBit, bitAt, Nat.shiftRight_eq_div_pow]

/-- The bytes of a number, low byte first (20_memory.md R63). -/
theorem inBytes_decodes (n v : Nat) (hv : v < 256 ^ n) : Decodes env stop (inBytes env n) (littleBytes n v) v := by
  induction n generalizing v with
  | zero =>
    obtain rfl : v = 0 := by simpa using hv
    exact .pure 0
  | succ n ih =>
    have hdiv : v / 256 < 256 ^ n := by
      rw [Nat.pow_succ] at hv
      omega
    have h := (inByte_decodes (env := env) (stop := stop) (BitVec.ofNat 8 v)).bind
      (f := fun low => inBytes env n >>= fun high => Pure.pure (low + 256 * high)) (ih (v / 256) hdiv).map
    rwa [BitVec.toNat_ofNat, show v % 2 ^ 8 + 256 * (v / 256) = v by omega] at h

/-- Bytes read one by one. -/
theorem collectBytes_decodes (bytes : List Byte) (k : Nat) :
    Decodes env stop (collectFrom (fun _ => inByte env) bytes.length k) bytes (bytes.map BitVec.toNat) := by
  induction bytes generalizing k with
  | nil => exact .pure []
  | cons b bytes ih => exact (inByte_decodes b).bind (ih (k + 1)).map

/-- Too few bytes for `in.bytes(n)`. -/
theorem inBytes_stops {n : Nat} {part : List Byte} (h : part.length < n) (out : List Byte) :
    Stops env stop (inBytes env n) out part out := by
  induction n generalizing part with
  | zero => exact absurd h (Nat.not_lt_zero _)
  | succ n ih =>
    cases part with
    | nil => exact (inByte_stops out).bind
    | cons b part => exact ((inByte_decodes b).runs out).stops (ih (Nat.lt_of_succ_lt_succ h)).bind

/-- Too few bytes to read `n` one by one. -/
theorem collectBytes_stops {n : Nat} {part : List Byte} (h : part.length < n) (k : Nat) (out : List Byte) :
    Stops env stop (collectFrom (fun _ => inByte env) n k) out part out := by
  induction n generalizing part k with
  | zero => exact absurd h (Nat.not_lt_zero _)
  | succ n ih =>
    cases part with
    | nil => exact (inByte_stops out).bind
    | cons b part => exact ((inByte_decodes b).runs out).stops (ih (Nat.lt_of_succ_lt_succ h) (k + 1)).bind

end Sys2Proof.Machine
end

section
/-! PROOFS. The LZ10 and LZ11 bodies run forward (40_decompressors.md R112, R114 to R116, R119, R120): a token, a group, a
body, and where an input that ends too soon stops them. -/
namespace Sys2Proof.Machine

open Sys2Proof.Reference

variable {env : Env} {stop : Raise} {n : Nat}

/-! ## Back-references -/

theorem nibblePair_toNat (hi lo : Nat) : (nibblePair hi lo).toNat = 16 * (hi % 16) + lo % 16 := by
  rw [nibblePair, BitVec.toNat_append, BitVec.toNat_ofNat, BitVec.toNat_ofNat,
    ← Nat.shiftLeft_add_eq_or_of_lt (Nat.mod_lt _ (by simp)),
    Nat.shiftLeft_eq]
  omega

theorem nibblePair_high (hi lo : Nat) : bits (nibblePair hi lo).toNat 7 4 = hi % 16 := by
  rw [bits, nibblePair_toNat, Nat.shiftRight_eq_div_pow]
  omega

theorem nibblePair_low (hi lo : Nat) : bits (nibblePair hi lo).toNat 3 0 = lo % 16 := by
  rw [bits, nibblePair_toNat, Nat.shiftRight_eq_div_pow]
  omega

/-- A form of LZ stream: how its back-references are read, and what its tokens' bytes are. -/
structure LzForm (env : Env) (stop : Raise) (ok : LzToken → Bool) (enc : LzToken → List Byte)
    (reference : Eng (Nat × Nat)) : Prop where
  literal : ∀ v, enc (.literal v) = [v]
  back : ∀ disp len, ok (.back disp len) = true → Decodes env stop reference (enc (.back disp len)) (disp, len)
  ranges : ∀ disp len, ok (.back disp len) = true → 1 ≤ disp ∧ 1 ≤ len

theorem lz10_form : LzForm env stop LzToken.legal10 LzToken.bytes10 (lz10Reference env) := by
  have ranges : ∀ {disp len}, LzToken.legal10 (.back disp len) = true →
      1 ≤ disp ∧ disp ≤ 4096 ∧ 3 ≤ len ∧ len ≤ 18 := by
    intro disp len h
    simpa [LzToken.legal10, and_assoc] using h
  refine ⟨fun _ => rfl, fun disp len h => ?_, fun disp len h => ?_⟩ <;> obtain ⟨h1, h2, h3, h4⟩ := ranges h
  · have hread := (inByte_decodes (env := env) (stop := stop) (nibblePair (len - 3) ((disp - 1) / 256))).bind
      (f := fun b1 => inByte env >>= fun b2 => pure (256 * bits b1 3 0 + b2 + 1, bits b1 7 4 + 3))
      (inByte_decodes (BitVec.ofNat 8 (disp - 1))).map
    rw [nibblePair_high, nibblePair_low, BitVec.toNat_ofNat] at hread
    exact hread.value (Prod.ext (by dsimp only; omega) (by dsimp only; omega))
  · exact ⟨h1, by omega⟩

/-- The three forms of an LZ11 back-reference (40_decompressors.md R119). -/
theorem lz11Reference_decodes {disp len : Nat} (h1 : 1 ≤ disp) (h2 : disp ≤ 4096) (h3 : 3 ≤ len) (h4 : len ≤ 65808) :
    Decodes env stop (lz11Reference env) (LzToken.bytes11 (.back disp len)) (disp, len) := by
  rw [LzToken.bytes11]
  by_cases hcompact : len ≤ 16
  · rw [if_pos hcompact]
    refine (inByte_decodes (nibblePair (len - 1) ((disp - 1) / 256))).bind ?_
    obtain ⟨k, hk⟩ : ∃ k, (len - 1) % 16 = k + 2 := ⟨(len - 1) % 16 - 2, by omega⟩
    rw [nibblePair_high, nibblePair_low, hk]
    have hread := (inByte_decodes (env := env) (stop := stop) (BitVec.ofNat 8 (disp - 1))).map
      (g := fun b2 => (256 * ((disp - 1) / 256 % 16) + b2 + 1, k + 2 + 1))
    rw [BitVec.toNat_ofNat] at hread
    exact hread.value (Prod.ext (by dsimp only; omega) (by dsimp only; omega))
  · rw [if_neg hcompact]
    by_cases hmedium : len ≤ 272
    · rw [if_pos hmedium]
      refine (inByte_decodes (nibblePair 0 ((len - 17) / 16))).bind ?_
      rw [nibblePair_high, nibblePair_low]
      have hread := (inByte_decodes (env := env) (stop := stop) (nibblePair (len - 17) ((disp - 1) / 256))).bind
        (f := fun b2 => inByte env >>= fun b3 =>
          pure (256 * bits b2 3 0 + b3 + 1, 16 * ((len - 17) / 16 % 16) + bits b2 7 4 + 17))
        (inByte_decodes (BitVec.ofNat 8 (disp - 1))).map
      rw [nibblePair_high, nibblePair_low, BitVec.toNat_ofNat] at hread
      exact hread.value (Prod.ext (by dsimp only; omega) (by dsimp only; omega))
    · rw [if_neg hmedium]
      refine (inByte_decodes (nibblePair 1 ((len - 273) / 4096))).bind ?_
      rw [nibblePair_high, nibblePair_low]
      have hread := (inByte_decodes (env := env) (stop := stop) (BitVec.ofNat 8 ((len - 273) / 16))).bind
        (f := fun b2 => inByte env >>= fun b3 => inByte env >>= fun b4 =>
          pure (256 * bits b3 3 0 + b4 + 1, 4096 * ((len - 273) / 4096 % 16) + 16 * b2 + bits b3 7 4 + 273))
        ((inByte_decodes (nibblePair (len - 273) ((disp - 1) / 256))).bind
          (inByte_decodes (BitVec.ofNat 8 (disp - 1))).map)
      rw [nibblePair_high, nibblePair_low, BitVec.toNat_ofNat, BitVec.toNat_ofNat] at hread
      exact hread.value (Prod.ext (by dsimp only; omega) (by dsimp only; omega))

theorem lz11_form : LzForm env stop LzToken.legal11 LzToken.bytes11 (lz11Reference env) := by
  have ranges : ∀ {disp len}, LzToken.legal11 (.back disp len) = true →
      1 ≤ disp ∧ disp ≤ 4096 ∧ 3 ≤ len ∧ len ≤ 65808 := by
    intro disp len h
    simpa [LzToken.legal11, and_assoc] using h
  refine ⟨fun _ => rfl, fun disp len h => ?_, fun disp len h => ?_⟩ <;> obtain ⟨h1, h2, h3, h4⟩ := ranges h
  · exact lz11Reference_decodes h1 h2 h3 h4
  · exact ⟨h1, by omega⟩

theorem copyBehind_length (disp len : Nat) (out : List Byte) : (copyBehind disp len out).length = out.length + len := by
  induction len generalizing out with
  | zero => rfl
  | succ len ih =>
    rw [copyBehind, ih, List.length_append, List.length_singleton]
    omega

/-- Bytes copied from behind the output's end, one at a time. -/
theorem copy_runs (he : env.Serves) {disp : Nat} (hdisp : 1 ≤ disp) (len : Nat) {out : List Byte}
    (hout : disp ≤ out.length)
    (hroom : out.length + len ≤ env.dstLen) :
    Runs env stop (repeatTimes (outLen >>= fun at_ => outByte env (at_ - disp) >>= fun v => append env v) len) out [] ()
      (copyBehind disp len out) := by
  induction len generalizing out with
  | zero => exact .pure () out
  | succ len ih =>
    have hbyte := outByte_runs (stop := stop) he (out := out) (j := out.length - disp) (by omega) (by omega)
    have happend := append_runs (stop := stop) he (out := out) (by omega) (out.getD (out.length - disp) 0).toNat
    rw [BitVec.ofNat_toNat, BitVec.setWidth_eq] at happend
    refine Runs.bind_nil ((outLen_runs out).bind_nil (hbyte.bind_nil happend)) (ih ?_ ?_) <;>
      rw [List.length_append, List.length_singleton] <;> omega

theorem copyback_runs (he : env.Serves) {disp len : Nat} {out : List Byte} (hdisp : 1 ≤ disp) (hout : disp ≤ out.length)
    (hlen : out.length + len ≤ n) (hn : n ≤ env.dstLen) :
    Runs env stop (copyback env disp len n) out [] () (copyBehind disp len out) := by
  refine (outLen_runs out).bind_nil ?_
  rw [if_neg (Nat.not_lt.mpr hout), if_neg (Nat.not_lt.mpr hlen)]
  exact copy_runs he hdisp len hout (hlen.trans hn)

/-! ## Tokens -/

section Form
variable {ok : LzToken → Bool} {enc : LzToken → List Byte} {reference : Eng (Nat × Nat)} {token : LzToken}
  {tokens : List LzToken} {out out' : List Byte}

theorem LzForm.apply_grows (hf : LzForm env stop ok enc reference) (hok : ok token = true)
    (ha : token.apply out = some out') : out.length < out'.length := by
  cases token with
  | literal v =>
    obtain rfl := Option.some.inj ha
    simp
  | back disp len =>
    by_cases hd : disp ≤ out.length
    · rw [LzToken.apply, if_pos hd] at ha
      obtain rfl := Option.some.inj ha
      have := (hf.ranges disp len hok).2
      rw [copyBehind_length]
      omega
    · simp [LzToken.apply, hd] at ha

theorem LzForm.token_runs (hf : LzForm env stop ok enc reference) (he : env.Serves) (hn : n ≤ env.dstLen)
    (hok : ok token = true) (ha : token.apply out = some out') (hle : out'.length ≤ n) :
    Runs env stop (lzToken env reference n token.flag.toNat) out (enc token) () out' := by
  cases token with
  | literal v =>
    obtain rfl := Option.some.inj ha
    have happend := append_runs (stop := stop) he (out := out) (by simp at hle; omega) v.toNat
    rw [BitVec.ofNat_toNat, BitVec.setWidth_eq] at happend
    rw [hf.literal]
    exact ((inByte_decodes v).runs out).nil_bind happend
  | back disp len =>
    by_cases hd : disp ≤ out.length
    · rw [LzToken.apply, if_pos hd] at ha
      obtain rfl := Option.some.inj ha
      rw [copyBehind_length] at hle
      exact ((hf.back disp len hok).runs out).nil_bind (copyback_runs he (hf.ranges disp len hok).1 hd hle hn)
    · simp [LzToken.apply, hd] at ha

theorem LzForm.token_stops (hf : LzForm env stop ok enc reference) (hok : ok token = true) {part : List Byte}
    (hpre : part <+: enc token) (hlt : part.length < (enc token).length) :
    Stops env stop (lzToken env reference n token.flag.toNat) out part out := by
  cases token with
  | literal v =>
    rw [hf.literal] at hpre hlt
    exact (inByte_decodes v).stops hpre hlt
  | back disp len => exact (hf.back disp len hok).stops hpre hlt

/-! ## Groups -/

/-- The flag bits from bit `k - 1` down are those of the tokens (40_decompressors.md R114). -/
def flagsTell (flags k : Nat) (tokens : List LzToken) : Prop :=
  ∀ i (h : i < tokens.length), bitAt flags (k - 1 - i) = tokens[i].flag.toNat

theorem flagsTell_cons {flags k : Nat} (h : flagsTell flags (k + 1) (token :: tokens)) :
    bitAt flags k = token.flag.toNat ∧ flagsTell flags k tokens := by
  refine ⟨h 0 (Nat.succ_pos _), fun i hi => ?_⟩
  have := h (i + 1) (by simpa using hi)
  rwa [show k + 1 - 1 - (i + 1) = k - 1 - i by omega, List.getElem_cons_succ] at this

theorem expandTokens_cons {ts : List LzToken} (h : expandTokens out (token :: ts) = some out') :
    ∃ mid, token.apply out = some mid ∧ expandTokens mid ts = some out' :=
  Option.bind_eq_some_iff.mp h

theorem expandTokens_append {ts us : List LzToken} (h : expandTokens out (ts ++ us) = some out') :
    ∃ mid, expandTokens out ts = some mid ∧ expandTokens mid us = some out' := by
  induction ts generalizing out with
  | nil => exact ⟨out, rfl, h⟩
  | cons t ts ih =>
    obtain ⟨mid, ha, hrest⟩ := expandTokens_cons h
    obtain ⟨mid', h1, h2⟩ := ih hrest
    exact ⟨mid', by rw [expandTokens, ha]; exact h1, h2⟩

theorem LzForm.expand_le (hf : LzForm env stop ok enc reference) (hok : ∀ t ∈ tokens, ok t = true)
    (ha : expandTokens out tokens = some out') : out.length + tokens.length ≤ out'.length := by
  induction tokens generalizing out with
  | nil =>
    obtain rfl := Option.some.inj ha
    exact Nat.le_refl _
  | cons t ts ih =>
    obtain ⟨mid, h1, h2⟩ := expandTokens_cons ha
    have hgrow := hf.apply_grows (hok t List.mem_cons_self) h1
    have hrest := ih (fun t ht => hok t (List.mem_cons_of_mem _ ht)) h2
    rw [List.length_cons]
    omega

/-- Tokens of a group, then the rest of the group. -/
theorem LzForm.group_stops (hf : LzForm env stop ok enc reference) (he : env.Serves) (hn : n ≤ env.dstLen)
    {flags k : Nat}
    (hok : ∀ t ∈ tokens, ok t = true) (ha : expandTokens out tokens = some out') (hlt : out'.length < n)
    (htell : flagsTell flags (k + tokens.length) tokens) {rest out'' : List Byte}
    (hrest : Stops env stop (lzGroup env reference n flags k) out' rest out'') :
    Stops env stop (lzGroup env reference n flags (k + tokens.length)) out (tokens.flatMap enc ++ rest) out'' := by
  induction tokens generalizing out with
  | nil =>
    obtain rfl := Option.some.inj ha
    exact hrest
  | cons t ts ih =>
    obtain ⟨mid, h1, h2⟩ := expandTokens_cons ha
    have hgrow := hf.apply_grows (hok t List.mem_cons_self) h1
    have hle := hf.expand_le (fun t ht => hok t (List.mem_cons_of_mem _ ht)) h2
    obtain ⟨hbit, htell⟩ := flagsTell_cons htell
    rw [List.flatMap_cons, List.append_assoc]
    refine Runs.stops_nil (outLen_runs out) ?_
    rw [if_neg (by omega), hbit]
    exact (hf.token_runs he hn (hok t List.mem_cons_self) h1 (by omega)).stops
      (ih (fun t ht => hok t (List.mem_cons_of_mem _ ht)) h2 htell)

theorem LzForm.group_runs (hf : LzForm env stop ok enc reference) (he : env.Serves) (hn : n ≤ env.dstLen) {flags : Nat}
    (hok : ∀ t ∈ tokens, ok t = true) (ha : expandTokens out tokens = some out') (hle' : out'.length ≤ n)
    (htell : flagsTell flags tokens.length tokens) :
    Runs env stop (lzGroup env reference n flags tokens.length) out (tokens.flatMap enc) () out' := by
  induction tokens generalizing out with
  | nil =>
    obtain rfl := Option.some.inj ha
    exact .pure () _
  | cons t ts ih =>
    obtain ⟨mid, h1, h2⟩ := expandTokens_cons ha
    have hgrow := hf.apply_grows (hok t List.mem_cons_self) h1
    have hle := hf.expand_le (fun t ht => hok t (List.mem_cons_of_mem _ ht)) h2
    obtain ⟨hbit, htell⟩ := flagsTell_cons htell
    rw [List.flatMap_cons]
    refine Runs.bind_nil (outLen_runs out) ?_
    rw [if_neg (by omega), hbit]
    exact (hf.token_runs he hn (hok t List.mem_cons_self) h1 (by omega)).bind
      (ih (fun t ht => hok t (List.mem_cons_of_mem _ ht)) h2 htell)

/-- A legal group has one to eight tokens in range, which its flags tell. -/
theorem LzGroup.legal_iff {g : LzGroup} (h : g.legal ok = true) :
    1 ≤ g.tokens.length ∧ g.tokens.length ≤ 8 ∧ (∀ t ∈ g.tokens, ok t = true) ∧ flagsTell g.flags.toNat 8 g.tokens := by
  simp only [LzGroup.legal, Bool.and_eq_true, decide_eq_true_eq, List.all_eq_true, List.mem_range, beq_iff_eq] at h
  obtain ⟨⟨⟨h1, h2⟩, h3⟩, h4⟩ := h
  refine ⟨h1, h2, h3, fun i hi => ?_⟩
  have hbit := h4 i hi
  rw [List.getD_eq_getElem _ _ (by simpa using hi), List.getElem_map] at hbit
  rw [← hbit, bitAt_eq_testBit, BitVec.getLsbD, show 8 - 1 - i = 7 - i by omega]

/-! ## Bodies -/

theorem groupsFull_append {groups : List LzGroup} {last : LzGroup} (h : groupsFull (groups ++ [last]) = true) :
    ∀ g ∈ groups, g.tokens.length = 8 := by
  induction groups with
  | nil => simp
  | cons g gs ih =>
    have hboth : g.tokens.length = 8 ∧ groupsFull (gs ++ [last]) = true := by
      cases gs <;> simpa [groupsFull] using h
    simpa [hboth.1] using ih hboth.2

/-- Full groups, then the rest of the body. -/
theorem LzForm.body_stops (hf : LzForm env stop ok enc reference) (he : env.Serves) (hn : n ≤ env.dstLen)
    {groups : List LzGroup} (hok : ∀ g ∈ groups, g.legal ok = true ∧ g.tokens.length = 8)
    (ha : expandTokens out (groups.flatMap LzGroup.tokens) = some out') (hlt : out'.length < n) {rest out'' : List Byte}
    (hrest : ∀ bound, n ≤ out'.length + bound → Stops env stop (lzBody env reference n bound) out' rest out'')
    {bound : Nat} (hbound : n ≤ out.length + bound) :
    Stops env stop (lzBody env reference n bound) out (groups.flatMap (LzGroup.bytes enc) ++ rest) out'' := by
  induction groups generalizing out bound with
  | nil =>
    obtain rfl := Option.some.inj ha
    exact hrest bound hbound
  | cons g gs ih =>
    obtain ⟨hlegal, hfull⟩ := hok g List.mem_cons_self
    have hoks := fun g hg => hok g (List.mem_cons_of_mem _ hg)
    obtain ⟨-, -, htokens, htell⟩ := LzGroup.legal_iff hlegal
    rw [List.flatMap_cons] at ha
    obtain ⟨mid, h1, h2⟩ := expandTokens_append ha
    have hmid := hf.expand_le htokens h1
    have hend := hf.expand_le (tokens := gs.flatMap LzGroup.tokens) (fun t ht => by
      obtain ⟨g', hg', ht⟩ := List.mem_flatMap.mp ht
      exact (LzGroup.legal_iff (hoks g' hg').1).2.2.1 t ht) h2
    obtain ⟨bound, rfl⟩ : ∃ b, bound = b + 1 := ⟨bound - 1, by omega⟩
    have hgroup := hf.group_runs he hn htokens h1 (by omega) (flags := g.flags.toNat) (by rwa [hfull])
    rw [hfull] at hgroup
    rw [List.flatMap_cons, LzGroup.bytes, List.append_assoc]
    refine Runs.stops_nil (outLen_runs out) ?_
    rw [if_pos (by omega)]
    exact ((inByte_decodes g.flags).runs out).stops (hgroup.stops (ih hoks h2 (by omega)))

/-- An LZ body cut short: full groups, then nothing of the last group, which has one token, or its flags, whole tokens and
a part of its last token. -/
theorem lzStuck_split {input : List Byte} (h : LzStuck ok enc n true input out) :
    ∃ (groups : List LzGroup) (flags : Byte) (ts : List LzToken) (token : LzToken) (rest : List Byte),
      (∀ g ∈ groups, g.legal ok = true ∧ g.tokens.length = 8)
        ∧ (ts ++ [token]).length ≤ 8 ∧ (∀ t ∈ ts ++ [token], ok t = true) ∧ flagsTell flags.toNat 8 (ts ++ [token])
        ∧ expandTokens [] (groups.flatMap LzGroup.tokens ++ ts) = some out ∧ out.length < n
        ∧ input = groups.flatMap (LzGroup.bytes enc) ++ rest
        ∧ (rest = [] ∧ ts = [] ∨ ∃ part, rest = flags :: (ts.flatMap enc ++ part) ∧ part <+: enc token
            ∧ part.length < (enc token).length) := by
  obtain ⟨groups, last, tokens, token, hlegal, hfull, htokens, hexpand, hlt, hpre, hshort, hlong⟩ := h
  obtain ⟨hpos, height, hoks, htell⟩ := LzGroup.legal_iff (hlegal last (by simp))
  obtain ⟨ts, token', hlast⟩ : ∃ ts t, last.tokens = ts ++ [t] := by
    rcases List.eq_nil_or_concat last.tokens with h0 | ⟨ts, t, h⟩
    · simp [h0] at hpos
    · exact ⟨ts, t, by simpa using h⟩
  obtain ⟨rfl, rfl⟩ : groups.flatMap LzGroup.tokens ++ ts = tokens ∧ token' = token := by
    have heq : (groups.flatMap LzGroup.tokens ++ ts) ++ [token'] = tokens ++ [token] := by
      rw [← htokens, List.flatMap_append, List.flatMap_singleton, hlast, List.append_assoc]
    exact ⟨List.append_inj_left' heq rfl, by simpa using List.append_inj_right' heq rfl⟩
  have hbytes : (groups ++ [last]).flatMap (LzGroup.bytes enc)
      = groups.flatMap (LzGroup.bytes enc) ++ (last.flags :: (ts.flatMap enc ++ enc token')) := by
    rw [List.flatMap_append, List.flatMap_singleton, LzGroup.bytes, hlast, List.flatMap_append, List.flatMap_singleton]
  rw [hlast] at height hoks htell hlong
  rw [hbytes] at hpre hshort hlong
  simp only [List.length_append, List.length_cons, List.length_nil, Nat.zero_add] at hshort hlong
  have hone : (if ts.length + 1 = 1 then 1 else 0) ≤ 1 := by split <;> omega
  obtain ⟨rest, rfl, hrest⟩ := prefix_append_of_length_le hpre (by omega)
  rw [List.length_append] at hshort hlong
  refine ⟨groups, last.flags, ts, token', rest, fun g hg => ⟨hlegal g (by simp [hg]), groupsFull_append hfull g hg⟩,
    height, hoks, htell, hexpand, hlt, rfl, ?_⟩
  cases rest with
  | nil =>
    refine .inl ⟨rfl, List.length_eq_zero_iff.mp ?_⟩
    by_contra hne
    rw [if_neg (by omega), List.length_nil] at hlong
    omega
  | cons b rest =>
    obtain ⟨rfl, htail⟩ := List.cons_prefix_cons.mp hrest
    rw [List.length_cons] at hshort hlong
    obtain ⟨part, rfl, hcut⟩ := prefix_append_of_length_le htail (by
      cases ts with
      | nil => exact Nat.zero_le _
      | cons t ts => rw [if_neg (by simp)] at hlong; omega)
    rw [List.length_append] at hshort
    exact .inr ⟨part, rfl, hcut, by omega⟩

/-- The last group of a body cut short. -/
theorem LzForm.last_stops (hf : LzForm env stop ok enc reference) (he : env.Serves) (hn : n ≤ env.dstLen) {flags : Nat}
    (hlen : (tokens ++ [token]).length ≤ 8) (hok : ∀ t ∈ tokens ++ [token], ok t = true)
    (htell : flagsTell flags 8 (tokens ++ [token])) (ha : expandTokens out tokens = some out') (hlt : out'.length < n)
    {part : List Byte} (hpre : part <+: enc token) (hpart : part.length < (enc token).length) :
    Stops env stop (lzGroup env reference n flags 8) out (tokens.flatMap enc ++ part) out' := by
  obtain ⟨j, hj⟩ : ∃ j, 8 = j + 1 + tokens.length := ⟨7 - tokens.length, by simp at hlen; omega⟩
  have htoken : Stops env stop (lzGroup env reference n flags (j + 1)) out' part out' := by
    refine Runs.stops_nil (outLen_runs out') ?_
    have hbit := htell tokens.length (by simp)
    rw [show 8 - 1 - tokens.length = j by omega, List.getElem_concat_length rfl] at hbit
    rw [if_neg (by omega), hbit]
    exact (hf.token_stops (hok _ (by simp)) hpre hpart).bind
  rw [hj]
  refine hf.group_stops he hn (fun t ht => hok t (List.mem_append_left _ ht)) ha hlt (fun i hi => ?_) htoken
  have hbit := htell i (by simp; omega)
  rwa [List.getElem_append_left hi, show 8 - 1 - i = j + 1 + tokens.length - 1 - i by omega] at hbit

/-- Where an LZ body is cut short, the command needs one byte more (40_decompressors.md R116). -/
theorem LzForm.stuck_stops (hf : LzForm env stop ok enc reference) (he : env.Serves) (hn : n ≤ env.dstLen)
    {input : List Byte} (h : LzStuck ok enc n true input out) :
    Stops env stop (lzBody env reference n n) [] input out := by
  obtain ⟨groups, flags, ts, token, rest, hgroups, hlen, hoks, htell, hexpand, hlt, rfl, hrest⟩ := lzStuck_split h
  obtain ⟨mid, h1, h2⟩ := expandTokens_append hexpand
  have hmid := hf.expand_le (fun t ht => hoks t (List.mem_append_left _ ht)) h2
  refine hf.body_stops he hn hgroups h1 (by omega) (fun bound hbound => ?_) (by simp)
  obtain ⟨bound, rfl⟩ : ∃ b, bound = b + 1 := ⟨bound - 1, by omega⟩
  refine Runs.stops_nil (outLen_runs mid) ?_
  rw [if_pos (by omega)]
  rcases hrest with ⟨rfl, rfl⟩ | ⟨part, rfl, hpre, hpart⟩
  · obtain rfl := Option.some.inj h2
    exact (inByte_stops mid).bind
  · exact ((inByte_decodes flags).runs mid).stops (hf.last_stops he hn hlen hoks htell h2 hlt hpre hpart).bind

end Form
end Sys2Proof.Machine
end

section
/-! PROOFS. The RLE body and the verbatim body run forward (40_decompressors.md R122, R123, R127), and where an input that
ends too soon stops them. -/
namespace Sys2Proof.Machine

open Sys2Proof.Reference

variable {env : Env} {stop : Raise} {n : Nat} {out : List Byte} {g : RleGroup}

/-! ## Copies -/

theorem appendByte_runs (he : env.Serves) (hroom : out.length < env.dstLen) (v : Byte) :
    Runs env stop (append env v.toNat) out [] () (out ++ [v]) := by
  have h := append_runs (stop := stop) he hroom v.toNat
  rwa [BitVec.ofNat_toNat, BitVec.setWidth_eq] at h

theorem repeatAppend_runs (he : env.Serves) (v : Byte) (k : Nat) {out : List Byte}
    (hroom : out.length + k ≤ env.dstLen) :
    Runs env stop (repeatTimes (append env v.toNat) k) out [] () (out ++ List.replicate k v) := by
  induction k generalizing out with
  | zero =>
    rw [List.replicate_zero, List.append_nil]
    exact .pure () out
  | succ k ih =>
    have h := (appendByte_runs (stop := stop) he (by omega) v).bind_nil
      (f := fun _ => repeatTimes (append env v.toNat) k) (ih (out := out ++ [v]) (by simp; omega))
    rwa [List.append_assoc, List.singleton_append, ← List.replicate_succ] at h

/-- Bytes copied from the input. -/
theorem copyInput_runs (he : env.Serves) (vs : List Byte) {out : List Byte}
    (hroom : out.length + vs.length ≤ env.dstLen) :
    Runs env stop (repeatTimes (inByte env >>= fun v => append env v) vs.length) out vs () (out ++ vs) := by
  induction vs generalizing out with
  | nil =>
    rw [List.append_nil]
    exact .pure () out
  | cons v vs ih =>
    rw [List.length_cons] at hroom
    have hfirst := ((inByte_decodes (env := env) (stop := stop) v).runs out).nil_bind
      (f := fun v => append env v) (appendByte_runs he (by omega) v)
    have h := hfirst.bind (f := fun _ => repeatTimes (inByte env >>= fun v => append env v) vs.length)
      (ih (out := out ++ [v]) (by simp; omega))
    rwa [List.append_assoc] at h

/-- Bytes copied until the input ends. -/
theorem copyInput_stops (he : env.Serves) {part : List Byte} {k : Nat} (hk : part.length < k) {out : List Byte}
    (hroom : out.length + part.length ≤ env.dstLen) :
    Stops env stop (repeatTimes (inByte env >>= fun v => append env v) k) out part (out ++ part) := by
  induction part generalizing out k with
  | nil =>
    obtain ⟨k, rfl⟩ : ∃ j, k = j + 1 := ⟨k - 1, by simp at hk; omega⟩
    rw [List.append_nil]
    exact (inByte_stops out).bind.bind
  | cons v part ih =>
    rw [List.length_cons] at hk hroom
    obtain ⟨k, rfl⟩ : ∃ j, k = j + 1 := ⟨k - 1, by omega⟩
    have hfirst := ((inByte_decodes (env := env) (stop := stop) v).runs out).nil_bind
      (f := fun v => append env v) (appendByte_runs he (by omega) v)
    have h := hfirst.stops (f := fun _ => repeatTimes (inByte env >>= fun v => append env v) k)
      (ih (k := k) (out := out ++ [v]) (by omega) (by simp; omega))
    rwa [List.append_assoc] at h

/-! ## Groups -/

/-- The flag byte of a run (40_decompressors.md R122). -/
theorem runFlag_bits {count : Nat} (h : 3 ≤ count) (h' : count ≤ 130) :
    bitAt (BitVec.ofNat 8 (128 + (count - 3))).toNat 7 = 1
      ∧ bits (BitVec.ofNat 8 (128 + (count - 3))).toNat 6 0 + 3 = count := by
  simp only [bitAt, bits, BitVec.toNat_ofNat, Nat.shiftRight_eq_div_pow]
  omega

/-- The flag byte of literals (40_decompressors.md R122). -/
theorem literalFlag_bits {k : Nat} (h : 1 ≤ k) (h' : k ≤ 128) :
    bitAt (BitVec.ofNat 8 (k - 1)).toNat 7 ≠ 1 ∧ bits (BitVec.ofNat 8 (k - 1)).toNat 6 0 + 1 = k := by
  simp only [bitAt, bits, BitVec.toNat_ofNat, Nat.shiftRight_eq_div_pow]
  omega

theorem RleGroup.legal_run {count : Nat} {v : Byte} (h : (RleGroup.run count v).legal = true) :
    3 ≤ count ∧ count ≤ 130 := by
  simpa [RleGroup.legal] using h

theorem RleGroup.legal_literals {vs : List Byte} (h : (RleGroup.literals vs).legal = true) :
    1 ≤ vs.length ∧ vs.length ≤ 128 := by
  simpa only [RleGroup.legal, Bool.and_eq_true, decide_eq_true_eq] using h

theorem RleGroup.expand_pos (h : g.legal = true) : 0 < g.expand.length := by
  cases g with
  | run count v =>
    rw [RleGroup.expand, List.length_replicate]
    exact Nat.lt_of_lt_of_le (by simp) (RleGroup.legal_run h).1
  | literals vs => exact (RleGroup.legal_literals h).1

theorem rleGroup_runs (he : env.Serves) (hn : n ≤ env.dstLen) (h : g.legal = true)
    (hroom : out.length + g.expand.length ≤ n) : Runs env stop (rleGroup env n) out g.bytes () (out ++ g.expand) := by
  cases g with
  | run count v =>
    obtain ⟨h1, h2⟩ := RleGroup.legal_run h
    obtain ⟨hbit, hcount⟩ := runFlag_bits h1 h2
    rw [RleGroup.expand, List.length_replicate] at hroom
    refine ((inByte_decodes (BitVec.ofNat 8 (128 + (count - 3)))).runs out).bind (b2 := [v]) ?_
    rw [if_pos hbit, hcount]
    refine ((inByte_decodes v).runs out).nil_bind ((outLen_runs out).bind_nil ?_)
    rw [if_neg (Nat.not_lt.mpr hroom)]
    exact repeatAppend_runs he v count (hroom.trans hn)
  | literals vs =>
    obtain ⟨h1, h2⟩ := RleGroup.legal_literals h
    obtain ⟨hbit, hcount⟩ := literalFlag_bits h1 h2
    replace hroom : out.length + vs.length ≤ n := hroom
    refine ((inByte_decodes (BitVec.ofNat 8 (vs.length - 1))).runs out).bind (b2 := vs) ?_
    rw [if_neg hbit, hcount]
    refine (outLen_runs out).bind_nil ?_
    rw [if_neg (Nat.not_lt.mpr hroom)]
    exact copyInput_runs he vs (hroom.trans hn)

/-- A group cut short gives the literals that are there. -/
theorem rleGroup_stops (he : env.Serves) (hn : n ≤ env.dstLen) (h : g.legal = true) {part : List Byte}
    (hpre : part <+: g.bytes) (hlt : part.length < g.bytes.length)
    (hroom : ∀ vs, g = .literals vs → out.length + vs.length ≤ n) :
    Stops env stop (rleGroup env n) out part (out ++ g.cut part) := by
  cases g with
  | run count v =>
    obtain ⟨h1, h2⟩ := RleGroup.legal_run h
    obtain ⟨hbit, -⟩ := runFlag_bits h1 h2
    rw [RleGroup.cut, List.append_nil]
    cases part with
    | nil => exact (inByte_stops out).bind
    | cons f part =>
      obtain ⟨rfl, htail⟩ := List.cons_prefix_cons.mp hpre
      refine ((inByte_decodes _).runs out).stops ?_
      rw [if_pos hbit]
      exact (inByte_decodes v).stops htail (Nat.lt_of_succ_lt_succ hlt)
  | literals vs =>
    obtain ⟨h1, h2⟩ := RleGroup.legal_literals h
    obtain ⟨hbit, hcount⟩ := literalFlag_bits h1 h2
    have hroom := hroom vs rfl
    cases part with
    | nil =>
      rw [RleGroup.cut, List.drop_nil, List.append_nil]
      exact (inByte_stops out).bind
    | cons f part =>
      obtain ⟨rfl, -⟩ := List.cons_prefix_cons.mp hpre
      have hpart : part.length < vs.length := Nat.lt_of_succ_lt_succ hlt
      refine ((inByte_decodes _).runs out).stops ?_
      rw [if_neg hbit, hcount]
      refine Runs.stops_nil (outLen_runs out) ?_
      rw [if_neg (Nat.not_lt.mpr hroom)]
      exact copyInput_stops he hpart (by omega)

/-! ## Bodies -/

/-- Whole groups, then the rest of the body. -/
theorem rleLoop_stops (he : env.Serves) (hn : n ≤ env.dstLen) {groups : List RleGroup}
    (hlegal : ∀ g ∈ groups, g.legal = true)
    {rest out' : List Byte} (hlt : (out ++ groups.flatMap RleGroup.expand).length < n)
    (hrest : Stops env stop (rleGroup env n) (out ++ groups.flatMap RleGroup.expand) rest out') {bound : Nat}
    (hbound : n ≤ out.length + bound) :
    Stops env stop (rleLoop env n bound) out (groups.flatMap RleGroup.bytes ++ rest) out' := by
  induction groups generalizing out bound with
  | nil =>
    rw [List.flatMap_nil, List.append_nil] at hlt hrest
    obtain ⟨bound, rfl⟩ : ∃ b, bound = b + 1 := ⟨bound - 1, by omega⟩
    refine Runs.stops_nil (outLen_runs out) ?_
    rw [if_pos hlt]
    exact hrest.bind
  | cons g gs ih =>
    have hpos := RleGroup.expand_pos (hlegal g List.mem_cons_self)
    rw [List.flatMap_cons, ← List.append_assoc] at hlt hrest
    have hlen := hlt
    simp only [List.length_append] at hlen
    obtain ⟨bound, rfl⟩ : ∃ b, bound = b + 1 := ⟨bound - 1, by omega⟩
    rw [List.flatMap_cons, List.append_assoc]
    refine Runs.stops_nil (outLen_runs out) ?_
    rw [if_pos (by omega)]
    exact (rleGroup_runs he hn (hlegal g List.mem_cons_self) (by omega)).stops
      (ih (fun g hg => hlegal g (List.mem_cons_of_mem _ hg)) hlt hrest (by rw [List.length_append]; omega))

/-- Where an RLE body is cut short, the command needs one byte more (40_decompressors.md R123). -/
theorem rleStuck_stops (he : env.Serves) (hn : n ≤ env.dstLen) {input : List Byte} (h : RleStuck n true input out) :
    Stops env stop (rleBody env n) [] input out := by
  obtain ⟨groups, last, tail, hlegal, rfl, hlt, hpre, hshort, rfl, hroom⟩ := h
  exact rleLoop_stops he hn (fun g hg => hlegal g (List.mem_append_left _ hg)) hlt
    (rleGroup_stops he hn (hlegal last (by simp)) hpre hshort hroom) (by simp)

/-- Where a verbatim body ends too soon, the command needs one byte more (40_decompressors.md R127). -/
theorem verbatim_stops (he : env.Serves) (hn : n ≤ env.dstLen) {input : List Byte} (h : input.length < n) :
    Stops env stop (verbatimBody env n) [] input input :=
  copyInput_stops (out := []) he h (by simp; omega)

end Sys2Proof.Machine
end

section
/-! PROOFS. The Huffman body run forward (41_huffman.md R160 to R166): one bit, the bits of the words, and where an input
that ends too soon stops the walk. -/
namespace Sys2Proof.Machine

open Sys2Proof.Reference

variable {env : Env} {stop : Raise} {n : Nat} {wide : Bool} {tree : List Byte}

/-! ## The walk over the tree -/

/-- The place in the tree and the symbols decoded, after one more bit; none outside the tree (41_huffman.md R161, R162). -/
def bitStep (tree : List Byte) (p : Nat × List Byte) (b : Bool) : Option (Nat × List Byte) :=
  if tree.length ≤ childAddress tree p.1 b then none
  else if childLeaf tree p.1 b then some (1, p.2 ++ [tree.getD (childAddress tree p.1 b) 0])
  else some (childAddress tree p.1 b, p.2)

/-- The same after more bits. -/
def bitWalk (tree : List Byte) (p : Nat × List Byte) (bits : List Bool) : Option (Nat × List Byte) :=
  bits.foldlM (bitStep tree) p

theorem bitWalk_append (p : Nat × List Byte) (bs cs : List Bool) :
    bitWalk tree p (bs ++ cs) = (bitWalk tree p bs).bind fun q => bitWalk tree q cs :=
  List.foldlM_append

theorem bitWalk_cons {p q : Nat × List Byte} {b : Bool} {bs : List Bool} (h : bitWalk tree p (b :: bs) = some q) :
    ∃ p', bitStep tree p b = some p' ∧ bitWalk tree p' bs = some q :=
  Option.bind_eq_some_iff.mp h

theorem bitStep_le {p q : Nat × List Byte} {b : Bool} (h : bitStep tree p b = some q) : p.2.length ≤ q.2.length := by
  unfold bitStep at h
  split at h
  · cases h
  · split at h <;> obtain rfl := Option.some.inj h <;> simp

theorem bitWalk_le {p q : Nat × List Byte} {bs : List Bool} (h : bitWalk tree p bs = some q) :
    p.2.length ≤ q.2.length := by
  induction bs generalizing p with
  | nil =>
    obtain rfl := Option.some.inj h
    exact Nat.le_refl _
  | cons b bs ih =>
    obtain ⟨p', h1, h2⟩ := bitWalk_cons h
    exact (bitStep_le h1).trans (ih h2)

/-- The path to a leaf decodes its symbol. -/
theorem bitWalk_of_leafOf {a : Nat} {path : List Bool} {sym : Byte} (syms : List Byte)
    (h : leafOf tree a path = some sym) :
    bitWalk tree (a, syms) path = some (1, syms ++ [sym]) := by
  induction path generalizing a with
  | nil => cases h
  | cons b path ih =>
    rw [leafOf] at h
    rw [bitWalk, List.foldlM_cons, bitStep]
    by_cases hout : tree.length ≤ childAddress tree a b
    · simp [hout] at h
    rw [if_neg hout] at h ⊢
    by_cases hleaf : childLeaf tree a b = true
    · rw [if_pos hleaf] at h ⊢
      cases path with
      | nil =>
        obtain rfl := Option.some.inj h
        rfl
      | cons c path => simp at h
    · rw [if_neg hleaf] at h ⊢
      exact ih h

/-- The path to an internal node decodes nothing. -/
theorem bitWalk_of_nodeAt {a node : Nat} {path : List Bool} (syms : List Byte) (h : nodeAt tree a path = some node) :
    bitWalk tree (a, syms) path = some (node, syms) := by
  induction path generalizing a with
  | nil =>
    obtain rfl := Option.some.inj h
    rfl
  | cons b path ih =>
    rw [nodeAt] at h
    by_cases hout : tree.length ≤ childAddress tree a b
    · simp [hout] at h
    by_cases hleaf : childLeaf tree a b = true
    · simp [hleaf] at h
    rw [if_neg (by simp [hout, hleaf])] at h
    rw [bitWalk, List.foldlM_cons, bitStep, if_neg hout, if_neg hleaf]
    exact ih h

theorem bitWalk_of_paths {paths : List (List Bool)} {symbols : List Byte} (syms : List Byte)
    (h : paths.map (leafOf tree 1) = symbols.map some) :
    bitWalk tree (1, syms) paths.flatten = some (1, syms ++ symbols) := by
  induction paths generalizing symbols syms with
  | nil =>
    obtain rfl : symbols = [] := List.map_eq_nil_iff.mp h.symm
    rw [List.append_nil]
    rfl
  | cons path paths ih =>
    cases symbols with
    | nil => cases h
    | cons sym symbols =>
      obtain ⟨hpath, hrest⟩ := List.cons.inj h
      rw [List.flatten_cons, bitWalk_append, bitWalk_of_leafOf syms hpath, Option.bind_some, ih _ hrest,
        List.append_assoc]
      rfl

/-! ## Nodes -/

theorem tree_getD (tree : List Byte) (a : Nat) : (tree.map BitVec.toNat).getD a 0 = (tree.getD a 0).toNat :=
  List.getD_map tree 0 BitVec.toNat

theorem huffChild_eq (tree : List Byte) (a : Nat) (b : Bool) :
    huffChild a (tree.getD a 0).toNat b.toNat = childAddress tree a b := by
  rw [huffChild, childAddress, bits, BitVec.extractLsb'_toNat]
  omega

theorem huffChildIsLeaf_eq (tree : List Byte) (a : Nat) (b : Bool) :
    huffChildIsLeaf (tree.getD a 0).toNat b.toNat = childLeaf tree a b := by
  have hbit : ∀ (v : Byte) (i : Nat), decide (bitAt v.toNat i = 1) = v.getLsbD i := fun v i => by
    rw [bitAt_eq_testBit, BitVec.getLsbD]
    cases v.toNat.testBit i <;> rfl
  cases b <;> exact hbit _ _

/-! ## Symbols -/

/-- The output bytes of the symbols decoded (41_huffman.md R163). -/
def huffOut (wide : Bool) (syms : List Byte) : List Byte := if wide then syms else packNibbles syms

/-- The nibble that waits for its second half. -/
def huffPend (wide : Bool) (syms : List Byte) : Option Nat :=
  if wide = false ∧ syms.length % 2 = 1 then some ((syms.getLastD 0).toNat % 16) else none

theorem packNibbles_append {xs : List Byte} (h : xs.length % 2 = 0) (ys : List Byte) :
    packNibbles (xs ++ ys) = packNibbles xs ++ packNibbles ys := by
  induction xs using packNibbles.induct with
  | case1 lo hi rest ih =>
    rw [List.cons_append, List.cons_append, packNibbles, packNibbles, ih (by simp at h; omega), List.cons_append]
  | case2 xs hxs =>
    cases xs with
    | nil => rfl
    | cons x xs =>
      cases xs with
      | nil => simp at h
      | cons y xs => exact absurd rfl (hxs x y xs)

theorem packNibbles_length (xs : List Byte) : (packNibbles xs).length = xs.length / 2 := by
  induction xs using packNibbles.induct with
  | case1 lo hi rest ih =>
    rw [packNibbles, List.length_cons, ih, List.length_cons, List.length_cons]
    omega
  | case2 xs hxs =>
    cases xs with
    | nil => rfl
    | cons x xs =>
      cases xs with
      | nil => simp [packNibbles]
      | cons y xs => exact absurd rfl (hxs x y xs)

theorem huffOut_lt {syms : List Byte} (h : syms.length < huffSymbols wide n) : (huffOut wide syms).length < n := by
  cases wide with
  | true => exact h
  | false =>
    rw [huffOut, if_neg Bool.false_ne_true, packNibbles_length]
    rw [huffSymbols, if_neg Bool.false_ne_true] at h
    omega

/-- Two nibbles in a byte, the first in the low half. -/
theorem nibbles_byte (lo hi : Byte) :
    BitVec.ofNat 8 (16 * (hi.toNat % 16) + lo.toNat % 16) = hi.extractLsb' 0 4 ++ lo.extractLsb' 0 4 := by
  apply BitVec.eq_of_toNat_eq
  rw [BitVec.toNat_append, BitVec.extractLsb'_toNat, BitVec.extractLsb'_toNat, BitVec.toNat_ofNat, Nat.shiftRight_zero,
    Nat.shiftRight_zero, ← Nat.shiftLeft_add_eq_or_of_lt (Nat.mod_lt _ (by simp)), Nat.shiftLeft_eq]
  omega

theorem huffEmit_runs (he : env.Serves) (hn : n ≤ env.dstLen) {syms : List Byte} (leaf : Byte)
    (hroom : syms.length < huffSymbols wide n) :
    Runs env stop (huffEmit env wide leaf.toNat (huffPend wide syms)) (huffOut wide syms) []
      (huffPend wide (syms ++ [leaf]))
      (huffOut wide (syms ++ [leaf])) := by
  have hout : (huffOut wide syms).length < env.dstLen := Nat.lt_of_lt_of_le (huffOut_lt hroom) hn
  cases wide with
  | true => exact (appendByte_runs he hout leaf).bind_nil (.pure _ _)
  | false =>
    rcases Nat.mod_two_eq_zero_or_one syms.length with heven | hodd
    · have hbefore : huffPend false syms = none := by simp [huffPend, heven]
      have hafter : huffPend false (syms ++ [leaf]) = some (leaf.toNat % 16) := by
        simp [huffPend, List.length_append]
        omega
      have hsame : huffOut false (syms ++ [leaf]) = huffOut false syms := by
        simp [huffOut, packNibbles_append heven, packNibbles]
      rw [hbefore, hafter, hsame]
      exact .pure _ _
    · obtain ⟨first, low, rfl⟩ : ∃ first low, syms = first ++ [low] := by
        rcases List.eq_nil_or_concat syms with rfl | ⟨f, l, h⟩
        · simp at hodd
        · exact ⟨f, l, by simpa using h⟩
      have heven : first.length % 2 = 0 := by
        simp at hodd
        omega
      have hbefore : huffPend false (first ++ [low]) = some (low.toNat % 16) := by
        rw [huffPend, if_pos ⟨rfl, hodd⟩, List.getLastD_concat]
      have hafter : huffPend false (first ++ [low] ++ [leaf]) = none := by
        simp [huffPend]
        omega
      have hpack : huffOut false (first ++ [low] ++ [leaf])
          = huffOut false (first ++ [low]) ++ [BitVec.ofNat 8 (16 * (leaf.toNat % 16) + low.toNat % 16)] := by
        simp [huffOut, packNibbles_append heven, packNibbles, nibbles_byte]
      rw [hbefore, hafter, hpack]
      exact (append_runs he hout _).bind_nil (.pure _ _)

/-! ## Words -/

/-- The decoder stands at `node` with the symbols `syms` decoded, and has the bits `bs` of the current word left. -/
structure HuffAt (wide : Bool) (h : HuffState) (node : Nat) (syms : List Byte) (bs : List Bool) : Prop where
  node : h.node = node
  pend : h.pend = huffPend wide syms
  syms : h.syms = syms.length
  left : h.left = bs.length
  bits : ∀ i (hi : i < bs.length), h.word.testBit (31 - i) = bs[i]
  word : bs.length ≤ 32

theorem huffStart_at (wide : Bool) : HuffAt wide huffStart 1 [] [] := by
  refine ⟨rfl, ?_, rfl, rfl, fun i hi => absurd hi (Nat.not_lt_zero i), Nat.zero_le _⟩
  simp [huffStart, huffPend]

theorem wordBits_length (w : Word) : (wordBits w).length = 32 := by simp [wordBits]

/-- A new word, where no bit is left. -/
theorem huffRefill_word {h : HuffState} {node : Nat} {syms out : List Byte} (hh : HuffAt wide h node syms [])
    (w : Word) :
    ∃ h', Runs env stop (huffRefill env h) out (littleBytes 4 w.toNat) h' out
      ∧ HuffAt wide h' node syms (wordBits w) := by
  refine ⟨{ h with word := w.toNat, left := 32 }, ?_, hh.node, hh.pend, hh.syms, (wordBits_length w).symm,
    fun i hi => ?_,    (wordBits_length w).le⟩
  · rw [huffRefill, if_pos (by exact hh.left)]
    exact (inBytes_decodes 4 w.toNat w.isLt).map.runs out
  · simp [wordBits, BitVec.getLsbD]

/-- No new word, where a bit is left. -/
theorem huffRefill_bit {h : HuffState} {node : Nat} {syms out : List Byte} {b : Bool} {bs : List Bool}
    (hh : HuffAt wide h node syms (b :: bs)) : Runs env stop (huffRefill env h) out [] h out := by
  rw [huffRefill, if_neg (by simp [hh.left])]
  exact .pure h out

/-- The next bit is the word's bit 31, and the rest moves up. -/
theorem HuffAt.next {h : HuffState} {node : Nat} {syms : List Byte} {b : Bool} {bs : List Bool}
    (hh : HuffAt wide h node syms (b :: bs)) :
    bitAt h.word 31 = b.toNat ∧ ∀ i (hi : i < bs.length), ((h.word <<< 1) % 2 ^ 32).testBit (31 - i) = bs[i] := by
  have hlen := hh.word
  rw [List.length_cons] at hlen
  refine ⟨?_, fun i hi => ?_⟩
  · have h0 := hh.bits 0 (by simp)
    rw [List.getElem_cons_zero, Nat.sub_zero] at h0
    rw [← h0, bitAt_eq_testBit]
  · have hi' := hh.bits (i + 1) (by simpa using hi)
    rw [List.getElem_cons_succ] at hi'
    rw [← hi', Nat.testBit_mod_two_pow, Nat.testBit_shiftLeft, show 31 - i - 1 = 31 - (i + 1) by omega,
      decide_eq_true (show 31 - i < 32 by omega), decide_eq_true (show 31 - i ≥ 1 by omega), Bool.true_and,
      Bool.true_and]

/-- One bit of the walk, inside the tree. -/
theorem huffStep_runs (he : env.Serves) (hn : n ≤ env.dstLen) {h h1 : HuffState} {node node' : Nat}
    {syms syms' bytes : List Byte} {b : Bool} {bs : List Bool}
    (hstep : bitStep tree (node, syms) b = some (node', syms'))
    (hroom : syms.length < huffSymbols wide n)
    (hrefill : Runs env stop (huffRefill env h) (huffOut wide syms) bytes h1 (huffOut wide syms))
    (hh : HuffAt wide h1 node syms (b :: bs)) :
    ∃ h', Runs env stop (huffStep env wide (tree.map BitVec.toNat) h) (huffOut wide syms) bytes h' (huffOut wide syms')
      ∧ HuffAt wide h' node' syms' bs := by
  obtain ⟨hbit, hbits⟩ := hh.next
  have hchild : huffChild h1.node ((tree.map BitVec.toNat).getD h1.node 0) (bitAt h1.word 31)
      = childAddress tree node b := by
    rw [hbit, hh.node, tree_getD, huffChild_eq]
  have hleaf : huffChildIsLeaf ((tree.map BitVec.toNat).getD h1.node 0) (bitAt h1.word 31) = childLeaf tree node b := by
    rw [hbit, hh.node, tree_getD, huffChildIsLeaf_eq]
  have hlen := hh.word
  have hleft := hh.left
  rw [List.length_cons] at hlen hleft
  unfold bitStep at hstep
  by_cases hout : tree.length ≤ childAddress tree node b
  · simp [hout] at hstep
  have hinside : ¬ (tree.map BitVec.toNat).length
      ≤ huffChild h1.node ((tree.map BitVec.toNat).getD h1.node 0) (bitAt h1.word 31) := by
    rwa [hchild, List.length_map]
  rw [if_neg hout] at hstep
  by_cases hl : childLeaf tree node b = true
  · rw [if_pos hl] at hstep
    obtain ⟨rfl, rfl⟩ := Prod.mk.inj (Option.some.inj hstep)
    refine ⟨{ node := 1, word := (h1.word <<< 1) % 2 ^ 32, left := h1.left - 1
              pend := huffPend wide (syms ++ [tree.getD (childAddress tree node b) 0]), syms := h1.syms + 1 },
      hrefill.nil_bind ?_, rfl, rfl, by simp [hh.syms], by simp [hleft], hbits, by omega⟩
    rw [if_neg hinside, if_pos (hleaf.trans hl), hchild, tree_getD, hh.pend]
    exact (huffEmit_runs he hn (tree.getD (childAddress tree node b) 0) hroom).bind_nil (.pure _ _)
  · rw [if_neg hl] at hstep
    obtain ⟨rfl, rfl⟩ := Prod.mk.inj (Option.some.inj hstep)
    refine ⟨{ h1 with node := childAddress tree node b, word := (h1.word <<< 1) % 2 ^ 32, left := h1.left - 1 },
      hrefill.nil_bind ?_, rfl, hh.pend, hh.syms, by simp [hleft], hbits, by omega⟩
    rw [if_neg hinside, if_neg (hleaf ▸ hl), hchild]
    exact .pure _ _

/-- A word cut short, where a bit is needed and none is left. -/
theorem huffStep_stops {h : HuffState} {node : Nat} {syms part : List Byte} (out : List Byte)
    (hh : HuffAt wide h node syms [])
    (hpart : part.length < 4) : Stops env stop (huffStep env wide (tree.map BitVec.toNat) h) out part out := by
  refine Stops.bind ?_
  rw [huffRefill, if_pos (by exact hh.left)]
  exact (inBytes_stops hpart out).bind

/-- The bytes of the words (41_huffman.md R165). -/
def wordBytes (words : List Word) : List Byte := words.flatMap fun w => littleBytes 4 w.toNat

theorem wordBytes_length (words : List Word) : (wordBytes words).length = 4 * words.length := by
  induction words with
  | nil => rfl
  | cons w words ih =>
    rw [wordBytes, List.flatMap_cons, List.length_append, littleBytes_length, ← wordBytes, ih, List.length_cons]
    omega

theorem flatMap_wordBits_length (words : List Word) : (words.flatMap wordBits).length = 32 * words.length := by
  induction words with
  | nil => rfl
  | cons w words ih =>
    rw [List.flatMap_cons, List.length_append, wordBits_length, ih, List.length_cons]
    omega

/-- One round of the walk, then the others. -/
theorem huffWalk_round {h h' : HuffState} {nsym bound : Nat} {out bytes rest out' out'' : List Byte}
    (hlt : h.syms < nsym)
    (hstep : Runs env stop (huffStep env wide (tree.map BitVec.toNat) h) out bytes h' out')
    (hrest : Stops env stop (huffWalk env wide (tree.map BitVec.toNat) nsym bound h') out' rest out'') :
    Stops env stop (huffWalk env wide (tree.map BitVec.toNat) nsym (bound + 1) h) out (bytes ++ rest) out'' := by
  rw [huffWalk, if_pos hlt]
  exact hstep.stops hrest

/-- The walk uses up all bits, then needs a byte more. -/
theorem huffWalk_stops (he : env.Serves) (hn : n ≤ env.dstLen) {part : List Byte} (hpart : part.length < 4)
    (all : List Bool)
    {words : List Word} {h : HuffState} {node node' bound : Nat} {syms syms' : List Byte} {bs : List Bool}
    (hh : HuffAt wide h node syms bs) (hall : bs ++ words.flatMap wordBits = all)
    (hwalk : bitWalk tree (node, syms) all = some (node', syms')) (hlt : syms'.length < huffSymbols wide n)
    (hbound : all.length < bound) :
    Stops env stop (huffWalk env wide (tree.map BitVec.toNat) (huffSymbols wide n) bound h) (huffOut wide syms)
      (wordBytes words ++ part) (huffOut wide syms') := by
  obtain ⟨bound, rfl⟩ : ∃ k, bound = k + 1 := ⟨bound - 1, by omega⟩
  induction all generalizing words h node syms bs bound with
  | nil =>
    obtain ⟨rfl, hwords⟩ := List.append_eq_nil_iff.mp hall
    obtain rfl : words = [] := by
      have := flatMap_wordBits_length words
      rw [hwords, List.length_nil] at this
      exact List.length_eq_zero_iff.mp (by omega)
    obtain ⟨rfl, rfl⟩ := Prod.mk.inj (Option.some.inj hwalk)
    rw [huffWalk, if_pos (by rw [hh.syms]; exact hlt)]
    exact (huffStep_stops _ hh hpart).bind
  | cons b all ih =>
    obtain ⟨⟨node1, syms1⟩, hstep, hrest⟩ := bitWalk_cons hwalk
    have hle := bitStep_le hstep
    have hle' := bitWalk_le hrest
    have hsyms : syms.length < huffSymbols wide n := by
      simp only at hle hle'
      omega
    have hlength : all.length < bound := by simpa using hbound
    obtain ⟨k, rfl⟩ : ∃ k, bound = k + 1 := ⟨bound - 1, by omega⟩
    cases bs with
    | cons c bs =>
      obtain ⟨rfl, htail⟩ := List.cons.inj hall
      obtain ⟨h', hrun, hat⟩ := huffStep_runs he hn hstep hsyms (huffRefill_bit hh) hh
      exact huffWalk_round (bytes := []) (by rw [hh.syms]; exact hsyms) hrun (ih hat htail hrest k hlength)
    | nil =>
      cases words with
      | nil => cases hall
      | cons w words =>
        obtain ⟨h1, hrefill, hat1⟩ := huffRefill_word (env := env) (stop := stop) (out := huffOut wide syms) hh w
        rw [List.nil_append, List.flatMap_cons] at hall
        obtain ⟨c, cs, hbits⟩ : ∃ c cs, wordBits w = c :: cs :=
          List.exists_cons_of_length_pos (by rw [wordBits_length]; exact Nat.succ_pos _)
        rw [hbits] at hall hat1
        obtain ⟨rfl, htail⟩ := List.cons.inj hall
        obtain ⟨h', hrun, hat⟩ := huffStep_runs he hn hstep hsyms hrefill hat1
        rw [wordBytes, List.flatMap_cons, List.append_assoc, ← wordBytes]
        exact huffWalk_round (by rw [hh.syms]; exact hsyms) hrun (ih hat htail hrest k hlength)

/-! ## Bodies -/

theorem huffTree_decodes (hlen : tree.length = 2 * ((tree.getD 0 0).toNat + 1)) :
    Decodes env stop (huffTree env) tree (tree.map BitVec.toNat) := by
  cases tree with
  | nil => cases hlen
  | cons size rest =>
    have hrest : 2 * (size.toNat + 1) - 1 = rest.length := by
      rw [List.length_cons, List.getD_cons_zero] at hlen
      omega
    refine (inByte_decodes size).bind ?_
    rw [hrest]
    exact (collectBytes_decodes rest 1).map

/-- A tree cut short. -/
theorem huffTree_stops {input : List Byte} (h : input = [] ∨ input.length < 2 * ((input.getD 0 0).toNat + 1))
    (out : List Byte) : Stops env stop (huffTree env) out input out := by
  cases input with
  | nil => exact (inByte_stops out).bind
  | cons size rest =>
    have hrest : rest.length < 2 * (size.toNat + 1) - 1 := by
      have h := h.resolve_left (List.cons_ne_nil _ _)
      rw [List.length_cons, List.getD_cons_zero] at h
      omega
    exact ((inByte_decodes size).runs out).stops (collectBytes_stops hrest 1 out).bind

/-- Where a Huffman body is cut short, the command needs one byte more (41_huffman.md R160, R165). -/
theorem huffStuck_stops (he : env.Serves) (hn : n ≤ env.dstLen) {input out : List Byte}
    (h : HuffStuck wide n true input out) : Stops env stop (huffBody env n wide) [] input out := by
  obtain ⟨hpos, ⟨-, rfl, hcut⟩ | ⟨tree, words, part, paths, symbols, rest, node, hlen, rfl, hpaths, hnode, hlt, rfl,
    hpart,
    hbits⟩⟩ := h
  · rw [huffBody, if_neg (by omega)]
    exact (huffTree_stops hcut []).bind
  · have hwalk : bitWalk tree (1, []) (words.flatMap wordBits) = some (node, symbols) := by
      rw [hbits, bitWalk_append, bitWalk_of_paths [] hpaths, Option.bind_some, List.nil_append]
      exact bitWalk_of_nodeAt symbols hnode
    rw [huffBody, if_neg (by omega)]
    intro w hw
    have hroom := hw.room
    have hbound : (words.flatMap wordBits).length < 8 * env.srcLen + 1 := by
      rw [← wordBytes, List.length_append, List.length_append, wordBytes_length] at hroom
      rw [flatMap_wordBits_length]
      omega
    have hstop := huffWalk_stops (stop := stop) he hn hpart _ (huffStart_at wide) (List.nil_append _) hwalk hlt hbound
    have hempty : huffOut wide [] = [] := by cases wide <;> rfl
    rw [hempty] at hstop
    rw [List.append_assoc] at hw
    exact ((huffTree_decodes hlen).runs []).stops hstop w hw

end Sys2Proof.Machine
end

section
/-! PROOFS. The first rejected input byte of a decompressor (20_memory.md R66, R69): its body run forward to that byte gives
the number of bytes written, and what its accesses are gives that those bytes stand. -/
namespace Sys2Proof.Machine

open Sys2Proof.Reference

variable {env : Env} {stop : Raise} {i : Instr} {s : State} {n : Nat} {out part : List Byte}

/-! ## From a body that stops to a command that ends -/

/-- Where a body ends with BusFault, the bytes written are those that it writes where nothing is rejected. -/
theorem Traced.written_eq {body : Env → Eng (Nat × Nat)} {tr : Trace} {r : Except Raise (Nat × Nat)} {w v : Work}
    {a : Nat} (ht : Traced s.env body (Work.start s.mem) tr r w) (hw : Works i s tr r w)
    (hrun : body s.env (Work.start s.mem) = (.error { err := .busFault, info := a }, v)) {k : Nat} (hk : k < v.stored) :
    v.mem.read (s.dstAddr.toNat + storedPlace i s k) = w.mem.read (s.dstAddr.toNat + storedPlace i s k) := by
  rcases tr.split_rejected s.platform.busFault with hall | ⟨pre, b, post, hsplit, hpre, hb⟩
  · have h := (ht.accepted _ hall).symm.trans hrun
    exact absurd ⟨_, (Prod.mk.inj h).1, rfl⟩ hw.not_busFault
  · obtain ⟨v', hrun', hstored, -, hdone⟩ := ht.rejected _ pre b post hsplit hpre hb
    obtain rfl : v' = v := (Prod.mk.inj (hrun'.symm.trans hrun)).2
    refine hdone _ (hw.written_once hsplit (hw.place_mem_before hsplit ?_))
    simpa [hstored] using hk

/-- A decompressor whose body needs the input byte that is the first rejected one ends with BusFault there. -/
theorem endsBusFault_of_stops {body : Env → Eng (Nat × Nat)} (hd : decompresses i = true)
    (hexec : ∀ s, exec i s = runCommand s body) (hbody : BodyTraced i s body) {input : List Byte}
    (hinput : s.mem.Holds s.srcAddr.toNat input) (hlt : input.length < s.srcLen.toNat)
    (haccepted : ∀ j < input.length, s.platform.rejects (s.srcAddr.toNat + j) .read = false)
    (hrejected : s.platform.rejects (s.srcAddr.toNat + input.length) .read = true)
    (hstops : ∀ stop, Stops s.env stop (body s.env) [] input out) :
    EndsBusFault i s (s.srcAddr.toNat + input.length) out := by
  have hfeeds : Feeds s.env { err := .busFault, info := s.srcAddr.toNat + input.length } [] input (Work.start s.mem) :=
    ⟨rfl, Memory.holds_nil _ _, hinput, by simpa using hlt.le, haccepted,
      .inr (by simpa using ⟨hlt, hrejected⟩)⟩
  obtain ⟨v, hrun, hstored, hholds⟩ := hstops _ _ hfeeds
  obtain ⟨tr, r, w, ht, h⟩ := hbody
  have hideal : (body s.env.withoutBusFaults (Work.start s.mem)).2.mem = w.mem := by
    rw [show body s.env.withoutBusFaults (Work.start s.mem) = (r, w) from ht.accepted [] fun a _ => a.rejectedBy_nil]
  have hend : exec i s = .next
      (s.endWithBusFault v { err := .busFault, info := s.srcAddr.toNat + input.length } w.mem) := by
    rw [hexec, runCommand, afterCommand_of_busFault hrun rfl, hideal]
  have hfailed := endWithBusFault_failed s v { err := .busFault, info := s.srcAddr.toNat + input.length } w.mem
  rw [hstored] at hfailed
  refine ⟨_, hend, hfailed, fun j hj => ?_, fun b hb => exec_outside hend hb⟩
  have hplace : storedPlace i s j = j := storedPlace_eq (fun fmt swz pad h => by subst h; cases hd) s j
  rcases s.endWithBusFault_read v { err := .busFault, info := s.srcAddr.toNat + input.length } w.mem
    (s.dstAddr.toNat + j) with hv | hv
  · exact hv.trans (hholds j hj)
  · rcases h with hcheck | hw
    · have h := (ht.accepted s.platform.busFault (by simp [hcheck.trace])).symm.trans hrun
      exact absurd ⟨_, (Prod.mk.inj h).1, rfl⟩ hcheck.not_busFault
    · have heq := ht.written_eq hw hrun (k := j) (by rw [hstored]; exact hj)
      rw [hplace] at heq
      rw [hv, ← heq]
      exact hholds j hj

/-- The same on every input at which the body is stuck for want of a byte. -/
theorem faultOn_of_stops {body : Env → Eng (Nat × Nat)} {header : List Byte}
    {stuck : Bool → List Byte → List Byte → Prop}
    (hd : decompresses i = true) (hexec : ∀ s, exec i s = runCommand s body) (hbody : BodyTraced i s body)
    (hstops : ∀ stop input out, stuck true input out → Stops s.env stop (body s.env) [] (header ++ input) out) :
    FaultOn i s header stuck := by
  intro input out hstuck hholds hlt haccepted hrejected
  rw [← List.length_append] at hlt haccepted hrejected ⊢
  exact endsBusFault_of_stops hd hexec hbody hholds hlt haccepted hrejected fun stop => hstops stop input out hstuck

/-! ## Checks -/

theorem require_runs {ok : Bool} (h : ok = true) (out : List Byte) : Runs env stop (require ok) out [] () out :=
  fun _ w hw => ⟨w, by rw [require_run, h]; rfl, hw⟩

theorem checkBuffers_runs (hl : env.buffersLegal = true) (out : List Byte) :
    Runs env stop (checkBuffers env) out [] () out := require_runs hl out

theorem checkDeclared_runs (hn : n ≤ env.dstLen) (out : List Byte) :
    Runs env stop (checkDeclared env n) out [] () out := by
  rw [checkDeclared, if_neg (Nat.not_lt.mpr hn)]
  exact .pure () out

theorem State.BuffersUsable.serves (hu : s.BuffersUsable)
    (hout : ∀ j < s.dstLen.toNat, s.platform.rejects (s.dstAddr.toNat + j) .write = false
      ∧ s.platform.rejects (s.dstAddr.toNat + j) .read = false) : s.env.Serves := by
  refine ⟨fun j hj k hk heq => ?_, fun k hk => (hout k hk).1, fun k hk => (hout k hk).2⟩
  have := hu.disjoint
  simp only [State.env_src, State.env_srcLen, State.env_dst, State.env_dstLen] at hj hk heq
  omega

/-! ## Bodies cut short -/

theorem lz10Command_stops (hl : env.buffersLegal = true) (hn : n < 2 ^ 24) (hroom : n ≤ env.dstLen)
    (h : Stops env stop (lz10Body env n) [] part out) :
    Stops env stop (lz10Command env) [] (0x10#8 :: littleBytes 3 n ++ part) out := by
  refine Runs.stops_nil (checkBuffers_runs hl []) ?_
  refine ((inByte_decodes 0x10#8).runs []).stops ?_
  rw [if_neg (by simp)]
  refine ((inBytes_decodes 3 n hn).runs []).stops ?_
  exact Runs.stops_nil (checkDeclared_runs hroom []) h.bind

theorem lz11Command_stops (hl : env.buffersLegal = true) (tag : Byte) (hn : n < 2 ^ 24)
    (hroom : n ≤ env.dstLen) (h : Stops env stop (lz11Body env n) [] part out) :
    Stops env stop (lz11Command env) [] (tag :: littleBytes 3 n ++ part) out := by
  have htag := tag.isLt
  have hlength : bits (tag.toNat + 256 * n) 31 8 = n := by
    rw [bits, Nat.shiftRight_eq_div_pow]
    omega
  have hheader : tag :: littleBytes 3 n = littleBytes 4 (tag.toNat + 256 * n) := by
    change _ = BitVec.ofNat 8 (tag.toNat + 256 * n) :: littleBytes 3 ((tag.toNat + 256 * n) / 256)
    rw [show (tag.toNat + 256 * n) / 256 = n by omega]
    congr 1
    apply BitVec.eq_of_toNat_eq
    rw [BitVec.toNat_ofNat]
    omega
  refine Runs.stops_nil (checkBuffers_runs hl []) ?_
  rw [hheader]
  refine ((inBytes_decodes 4 (tag.toNat + 256 * n) (by omega)).runs []).stops ?_
  rw [hlength]
  exact Runs.stops_nil (checkDeclared_runs hroom []) h.bind

theorem contCommand_stops (hl : env.buffersLegal = true) {m : Nat} (hm : m < 5) (hn : n < 2 ^ 29)
    (hroom : n ≤ env.dstLen) (h : Stops env stop (containerBody env m n) [] part out) :
    Stops env stop (contCommand env) [] (littleBytes 4 (8 * n + m) ++ part) out := by
  have hmethod : bits (8 * n + m) 2 0 = m := by
    rw [bits, Nat.shiftRight_zero]
    omega
  have hlength : bits (8 * n + m) 31 3 = n := by
    rw [bits, Nat.shiftRight_eq_div_pow]
    omega
  refine Runs.stops_nil (checkBuffers_runs hl []) ?_
  refine ((inBytes_decodes 4 (8 * n + m) (by omega)).runs []).stops ?_
  rw [hmethod, hlength, if_neg (Nat.not_le.mpr hm)]
  exact Runs.stops_nil (checkDeclared_runs hroom []) h.bind

theorem sizedCommand_stops {body : Env → Nat → Eng Unit} (hl : env.buffersLegal = true) (hn : env.param0 ≤ env.dstLen)
    (h : Stops env stop (body env env.param0) [] part out) : Stops env stop (sizedCommand body env) [] part out := by
  refine Runs.stops_nil (require_runs (decide_eq_true hn) []) ?_
  exact Runs.stops_nil (checkBuffers_runs hl []) h.bind

/-- Where a container's body is cut short, the command needs one byte more (40_decompressors.md R127). -/
theorem containerStuck_stops (he : env.Serves) (hn : n ≤ env.dstLen) {m : Nat} (h : ContainerStuck m n true part out) :
    m < 5 ∧ Stops env stop (containerBody env m n) [] part out := by
  match m, h with
  | 0, h =>
    obtain ⟨-, rfl, hlt⟩ := h
    exact ⟨by simp, verbatim_stops he hn hlt⟩
  | 1, h => exact ⟨by simp, lz10_form.stuck_stops he hn h⟩
  | 2, h => exact ⟨by simp, huffStuck_stops he hn h⟩
  | 3, h => exact ⟨by simp, huffStuck_stops he hn h⟩
  | 4, h => exact ⟨by simp, rleStuck_stops he hn h⟩

/-- A body's first rejected byte (the second part of O35). -/
theorem body_rejected_read (hu : s.BuffersUsable)
    (hout : ∀ j < s.dstLen.toNat, s.platform.rejects (s.dstAddr.toNat + j) .write = false
      ∧ s.platform.rejects (s.dstAddr.toNat + j) .read = false) :
    (∀ n, n < 2 ^ 24 → n ≤ s.dstLen.toNat →
      FaultOn .lz10Dec s (0x10#8 :: littleBytes 3 n) (LzStuck LzToken.legal10 LzToken.bytes10 n)
        ∧ ∀ tag : Byte, FaultOn .lz11Dec s (tag :: littleBytes 3 n) (LzStuck LzToken.legal11 LzToken.bytes11 n))
    ∧ (s.param0.toNat ≤ s.dstLen.toNat →
        FaultOn .rleDec s [] (RleStuck s.param0.toNat) ∧ FaultOn .huff4Dec s [] (HuffStuck false s.param0.toNat)
          ∧ FaultOn .huff8Dec s [] (HuffStuck true s.param0.toNat))
    ∧ ∀ m n, n < 2 ^ 29 → n ≤ s.dstLen.toNat → FaultOn .contDec s (littleBytes 4 (8 * n + m)) (ContainerStuck m n) := by
  have he := hu.serves hout
  have hl := (buffersLegal_iff s).mpr hu
  refine ⟨fun n hn hroom => ⟨?_, fun tag => ?_⟩, fun hroom => ⟨?_, ?_, ?_⟩, fun m n hn hroom => ?_⟩
  · exact faultOn_of_stops rfl exec_lz10Dec (lz10Command_traced s) fun stop input out h =>
      lz10Command_stops hl hn hroom (lz10_form.stuck_stops he hroom h)
  · exact faultOn_of_stops rfl exec_lz11Dec (lz11Command_traced s) fun stop input out h =>
      lz11Command_stops hl tag hn hroom (lz11_form.stuck_stops he hroom h)
  · exact faultOn_of_stops rfl exec_rleDec (rleCommand_traced s) fun stop input out h =>
      sizedCommand_stops hl hroom (rleStuck_stops he hroom h)
  · exact faultOn_of_stops rfl exec_huff4Dec (huffCommand_traced false s rfl rfl) fun stop input out h =>
      sizedCommand_stops hl hroom (huffStuck_stops he hroom h)
  · exact faultOn_of_stops rfl exec_huff8Dec (huffCommand_traced true s rfl rfl) fun stop input out h =>
      sizedCommand_stops hl hroom (huffStuck_stops he hroom h)
  · refine faultOn_of_stops rfl exec_contDec (contCommand_traced s) fun stop input out h => ?_
    obtain ⟨hm, hstop⟩ := containerStuck_stops (stop := stop) he hroom h
    exact contCommand_stops hl hm hn hroom hstop

/-! ## Heads cut short -/

/-- The `n` bytes of memory from `a` on. -/
def Memory.bytes (m : Memory) (a n : Nat) : List Byte := (List.range n).map fun j => m.read (a + j)

@[simp] theorem Memory.bytes_length (m : Memory) (a n : Nat) : (m.bytes a n).length = n := by simp [Memory.bytes]

theorem Memory.holds_bytes (m : Memory) (a n : Nat) : m.Holds a (m.bytes a n) := by
  intro j hj
  rw [Memory.bytes_length] at hj
  simp [Memory.bytes, hj]

theorem Memory.bytes_succ (m : Memory) (a n : Nat) : m.bytes a (n + 1) = m.read a :: m.bytes (a + 1) n := by
  simp [Memory.bytes, List.range_succ_eq_map, Function.comp_def, Nat.add_assoc, Nat.add_comm 1]

theorem lz10Head_stops (hl : env.buffersLegal = true)
    (h : part = [] ∨ ∃ rest, part = 0x10#8 :: rest ∧ rest.length < 3) :
    Stops env stop (lz10Command env) [] part [] := by
  refine Runs.stops_nil (checkBuffers_runs hl []) ?_
  rcases h with rfl | ⟨rest, rfl, hrest⟩
  · exact (inByte_stops []).bind
  · refine ((inByte_decodes 0x10#8).runs []).stops ?_
    rw [if_neg (by simp)]
    exact (inBytes_stops hrest []).bind

theorem rleHead_stops (hn : 0 < n) (h : part = [] ∨ ∃ f : Byte, f.getLsbD 7 = true ∧ part = [f]) :
    Stops env stop (rleBody env n) [] part [] := by
  obtain ⟨k, rfl⟩ : ∃ k, n = k + 1 := ⟨n - 1, by omega⟩
  refine Runs.stops_nil (outLen_runs []) ?_
  rw [if_pos (by exact hn)]
  rcases h with rfl | ⟨f, hf, rfl⟩
  · exact (inByte_stops []).bind.bind
  · refine Stops.bind (((inByte_decodes f).runs []).stops ?_)
    rw [if_pos (by rw [bitAt_eq_testBit]; exact congrArg Bool.toNat hf)]
    exact (inByte_stops []).bind

theorem huffHead_stops {wide : Bool} (hn : 0 < n) (h : part = [] ∨ part.length < 2 * ((part.getD 0 0).toNat + 1)) :
    Stops env stop (huffBody env n wide) [] part [] := by
  rw [huffBody, if_neg (by omega)]
  exact (huffTree_stops h []).bind

theorem huffHead_of_bytes {m : Memory} {a k : Nat} (h : k < 2 * ((m.read a).toNat + 1)) :
    m.bytes a k = [] ∨ (m.bytes a k).length < 2 * (((m.bytes a k).getD 0 0).toNat + 1) := by
  cases k with
  | zero => exact .inl rfl
  | succ k =>
    right
    rw [Memory.bytes_length, Memory.bytes_succ, List.getD_cons_zero]
    exact h

/-- A decompressor's first rejected byte, in its head (the first part of O35). -/
theorem head_rejected_read {k : Nat} (hi : i ∈ [.lz10Dec, .lz11Dec, .rleDec, .contDec, .huff4Dec, .huff8Dec])
    (hsized : i ∈ [.rleDec, .huff4Dec, .huff8Dec] → s.param0.toNat ≤ s.dstLen.toNat) (hu : s.BuffersUsable)
    (hhead : k < headLength i s) (hk : k < s.srcLen.toNat)
    (haccepted : ∀ j < k, s.platform.rejects (s.srcAddr.toNat + j) .read = false)
    (hrejected : s.platform.rejects (s.srcAddr.toNat + k) .read = true) :
    EndsBusFault i s (s.srcAddr.toNat + k) [] := by
  have hl := (buffersLegal_iff s).mpr hu
  have hends : ∀ {body : Env → Eng (Nat × Nat)}, decompresses i = true → (∀ s, exec i s = runCommand s body) →
      BodyTraced i s body → (∀ stop, Stops s.env stop (body s.env) [] (s.mem.bytes s.srcAddr.toNat k) []) →
      EndsBusFault i s (s.srcAddr.toNat + k) [] := by
    intro body hd hexec hbody hstops
    have h := endsBusFault_of_stops hd hexec hbody (s.mem.holds_bytes s.srcAddr.toNat k) (by simpa using hk)
      (by simpa using haccepted) (by simpa using hrejected) hstops
    rwa [Memory.bytes_length] at h
  have hpos : ∀ {j}, k < (if s.param0 = 0 then 0 else j) → 0 < s.param0.toNat ∧ k < j := by
    intro j h
    split at h
    · exact absurd h (Nat.not_lt_zero k)
    · next h0 => exact ⟨Nat.pos_of_ne_zero fun hz => h0 (BitVec.eq_of_toNat_eq hz), h⟩
  simp only [List.mem_cons, List.not_mem_nil, or_false] at hi
  rcases hi with rfl | rfl | rfl | rfl | rfl | rfl
  · refine hends rfl exec_lz10Dec (lz10Command_traced s) fun stop => lz10Head_stops hl ?_
    replace hhead : k < if s.mem.read s.srcAddr.toNat = 0x10#8 then 4 else 1 := hhead
    cases k with
    | zero => exact .inl rfl
    | succ k =>
      have htag : s.mem.read s.srcAddr.toNat = 0x10#8 := by
        by_contra h
        rw [if_neg h] at hhead
        omega
      rw [if_pos htag] at hhead
      exact .inr ⟨_, by rw [Memory.bytes_succ, htag], by rw [Memory.bytes_length]; omega⟩
  · exact hends rfl exec_lz11Dec (lz11Command_traced s) fun stop =>
      Runs.stops_nil (checkBuffers_runs hl []) (inBytes_stops (by rw [Memory.bytes_length]; exact hhead) []).bind
  · obtain ⟨hn, hhead⟩ := hpos (j := if (s.mem.read s.srcAddr.toNat).getLsbD 7 then 2 else 1) hhead
    refine hends rfl exec_rleDec (rleCommand_traced s) fun stop =>
      sizedCommand_stops hl (hsized (by simp)) (rleHead_stops hn ?_)
    cases k with
    | zero => exact .inl rfl
    | succ k =>
      have hrun : (s.mem.read s.srcAddr.toNat).getLsbD 7 = true := by
        by_contra h
        rw [if_neg h] at hhead
        omega
      rw [if_pos hrun] at hhead
      obtain rfl : k = 0 := by omega
      exact .inr ⟨_, hrun, by rw [Memory.bytes_succ]; rfl⟩
  · exact hends rfl exec_contDec (contCommand_traced s) fun stop =>
      Runs.stops_nil (checkBuffers_runs hl []) (inBytes_stops (by rw [Memory.bytes_length]; exact hhead) []).bind
  · obtain ⟨hn, hhead⟩ := hpos (j := 2 * ((s.mem.read s.srcAddr.toNat).toNat + 1)) hhead
    exact hends rfl exec_huff4Dec (huffCommand_traced false s rfl rfl) fun stop =>
      sizedCommand_stops hl (hsized (by simp)) (huffHead_stops hn (huffHead_of_bytes hhead))
  · obtain ⟨hn, hhead⟩ := hpos (j := 2 * ((s.mem.read s.srcAddr.toNat).toNat + 1)) hhead
    exact hends rfl exec_huff8Dec (huffCommand_traced true s rfl rfl) fun stop =>
      sizedCommand_stops hl (hsized (by simp)) (huffHead_stops hn (huffHead_of_bytes hhead))

/-- Settles O35: the head and the body of a decompressor run forward to the rejected byte, the reads of the other commands
found in the order of their accesses, and `MemRead` and `MemWrite` by `memRead_rejected` and `memWrite_rejected`. -/
theorem firstReadRejected : Obligations.FirstReadRejected := by
  refine ⟨fun i s k hi hsized hu hhead hk hacc hrej => ?_, fun s hu hout => body_rejected_read hu hout,
    fun i s u before offset stored after hu hc hreads hbefore hrej hwrites => ?_,
    fun env a n k w hk hb hr => memRead_rejected w hk hb hr, fun env a n k v w hk hb hr => ?_⟩
  · obtain ⟨t, ht, hfailed, -, houtside⟩ := head_rejected_read hi hsized hu hhead hk hacc hrej
    exact ⟨t, ht, hfailed, houtside⟩
  · obtain ⟨t, ht, hfailed⟩ := exec_rejected_read hu hc hreads hbefore hrej hwrites
    exact ⟨t, ht, hfailed, fun b hb => exec_outside ht hb⟩
  · exact ⟨_, memWrite_rejected w hk hb hr, rfl, by rw [Work.put_stored, littleBytes_length],
      w.put_littleBytes a v hk.le⟩

end Sys2Proof.Machine
end

section
/-! PROOFS. The command word (30_encoding.md R80, R83, R85): a word is the command word of its own fields, so a word
that decodes is the encoding of its command, and which words decode is read off from their fields. -/
namespace Sys2Proof.Machine

variable {w : Word}

/-! ## The word of its fields -/

/-- A word whose reserved bits are 0 is made of its OP, FMT, SWZ and PAD (30_encoding.md R80). -/
theorem commandWord_fields (hr : reservedField w = 0) :
    commandWord (opField w) (fmtField w) (swzField w) (padField w) = w := by
  have hpad : BitVec.ofBool (padField w) = w.extractLsb' 16 1 := by
    ext k hk
    obtain rfl : k = 0 := by omega
    simp [padField]
  have hres : 0#15 = w.extractLsb' 17 15 := hr.symm
  rw [commandWord, hpad, hres]
  simp only [opField, fmtField, swzField, BitVec.extractLsb'_append_extractLsb'_eq_extractLsb']
  exact BitVec.extractLsb'_eq_self

theorem eq_commandWord {op : BitVec 8} {fmt swz : BitVec 4} {pad : Bool} (hr : reservedField w = 0)
    (ho : (opField w).toNat = op.toNat) (hf : fmtField w = fmt) (hs : swzField w = swz) (hp : padField w = pad) :
    w = commandWord op fmt swz pad := by
  rw [← BitVec.eq_of_toNat_eq ho, ← hf, ← hs, ← hp, commandWord_fields hr]

/-! ## Fields that an OP does not use -/

theorem takesNone_eq_ok {i j : Instr} :
    takesNone w i = .ok j ↔ fmtField w = 0 ∧ swzField w = 0 ∧ padField w = false ∧ i = j := by
  unfold takesNone
  split_ifs <;> simp_all

theorem takesFmt_eq_ok {f : BitVec 4 → Instr} {j : Instr} :
    takesFmt w f = .ok j ↔ swzField w = 0 ∧ padField w = false ∧ f (fmtField w) = j := by
  unfold takesFmt
  split_ifs <;> simp_all

theorem takesSwz_eq_ok {f : BitVec 4 → Instr} {j : Instr} :
    takesSwz w f = .ok j ↔ fmtField w = 0 ∧ padField w = false ∧ f (swzField w) = j := by
  unfold takesSwz
  split_ifs <;> simp_all

theorem takesSwzPad_eq_ok {f : BitVec 4 → Bool → Instr} {j : Instr} :
    takesSwzPad w f = .ok j ↔ fmtField w = 0 ∧ f (swzField w) (padField w) = j := by
  unfold takesSwzPad
  split_ifs <;> simp_all

/-! ## The decoder -/

/-- A word that decodes to a command is its encoding: the OP is that of the branch taken, and the fields it does not use
have been found 0. -/
theorem eq_encode_of_decode {i : Instr} (h : decode w = .ok i) : w = encode i := by
  unfold decode at h
  split at h
  · cases h
  next hr =>
    replace hr := not_not.mp hr
    split at h
    case h_1 ho | h_6 ho | h_7 ho | h_8 ho | h_9 ho | h_10 ho | h_11 ho =>
      obtain ⟨hf, hs, hp, rfl⟩ := takesNone_eq_ok.mp h
      exact eq_commandWord hr ho hf hs hp
    case h_2 ho | h_3 ho | h_12 ho | h_13 ho =>
      obtain ⟨hs, hp, rfl⟩ := takesFmt_eq_ok.mp h
      exact eq_commandWord hr ho rfl hs hp
    case h_4 ho =>
      obtain ⟨hf, hp, rfl⟩ := takesSwz_eq_ok.mp h
      exact eq_commandWord hr ho hf rfl hp
    case h_5 ho =>
      obtain ⟨hf, rfl⟩ := takesSwzPad_eq_ok.mp h
      exact eq_commandWord hr ho hf rfl rfl
    case h_14 ho | h_15 ho =>
      cases h
      exact eq_commandWord hr ho rfl rfl rfl
    case h_16 => cases h

/-- Settles O1: `decode_encode` one way, `eq_encode_of_decode` the other. -/
theorem decodeEncode : Obligations.DecodeEncode :=
  fun _ i => ⟨eq_encode_of_decode, fun h => h ▸ decode_encode i⟩

/-- The words that decode, by their fields: a command's word has these, and a word that has them passes every check of
the branch its OP takes. -/
theorem decodes_iff_fields (w : Word) : (∃ i, decode w = .ok i) ↔
    reservedField w = 0
      ∧ (opField w).toNat
          ∈ [0x00, 0x01, 0x02, 0x08, 0x09, 0x10, 0x11, 0x12, 0x13, 0x14, 0x15, 0x20, 0x21, 0x30, 0x31]
      ∧ ((opField w).toNat ∈ [0x01, 0x02, 0x20, 0x21, 0x30, 0x31] ∨ fmtField w = 0)
      ∧ ((opField w).toNat ∈ [0x08, 0x09, 0x30, 0x31] ∨ swzField w = 0)
      ∧ ((opField w).toNat ∈ [0x09, 0x30, 0x31] ∨ padField w = false) := by
  constructor
  · rintro ⟨i, h⟩
    rw [eq_encode_of_decode h]
    cases i <;>
      simp [encode, opField_commandWord, fmtField_commandWord, swzField_commandWord, padField_commandWord,
        reservedField_commandWord]
  · rintro ⟨hr, hop, hf, hs, hp⟩
    unfold decode
    rw [if_neg (not_not.mpr hr)]
    split
    case h_1 ho | h_6 ho | h_7 ho | h_8 ho | h_9 ho | h_10 ho | h_11 ho =>
      rw [ho] at hf hs hp
      exact ⟨_, takesNone_eq_ok.mpr
        ⟨hf.resolve_left (by decide), hs.resolve_left (by decide), hp.resolve_left (by decide), rfl⟩⟩
    case h_2 ho | h_3 ho | h_12 ho | h_13 ho =>
      rw [ho] at hs hp
      exact ⟨_, takesFmt_eq_ok.mpr ⟨hs.resolve_left (by decide), hp.resolve_left (by decide), rfl⟩⟩
    case h_4 ho =>
      rw [ho] at hf hp
      exact ⟨_, takesSwz_eq_ok.mpr ⟨hf.resolve_left (by decide), hp.resolve_left (by decide), rfl⟩⟩
    case h_5 ho =>
      rw [ho] at hf
      exact ⟨_, takesSwzPad_eq_ok.mpr ⟨hf.resolve_left (by decide), rfl⟩⟩
    case h_14 | h_15 => exact ⟨_, rfl⟩
    case h_16 => simp_all

/-- Settles O2. -/
theorem legalWords : Obligations.LegalWords := decodes_iff_fields

/-- Settles O3: the commands by `decode_encode`, since each word is its command's encoding. -/
theorem sampleWordsDecode : Obligations.SampleWordsDecode :=
  ⟨decode_encode .nop, decode_encode (.etc1Dec 12), decode_encode (.swzAddr 2), decode_encode (.texDim 3 true),
    decode_encode .contDec, decode_encode .huff8Dec, decode_encode (.pixEnc 7), decode_encode (.texDec 10 1 true),
    by decide, by decide⟩

end Sys2Proof.Machine
end

section
/-! PROOFS. Commands that are not well formed (30_encoding.md R85 checks 2 and 3; 43_etc1.md R245, R275): the check of
FMT or SWZ raises UnsupportedFormat before the command does anything else. -/
namespace Sys2Proof.Machine

open Sys2Proof.Reference

variable {fmt swz : BitVec 4} {s : State}

theorem pixelFormatOf_eq_none : ∀ {fmt : BitVec 4}, namesFormat fmt = false → pixelFormatOf fmt = none := by decide

theorem swizzleModeOf_eq_none : ∀ {swz : BitVec 4}, namesMode swz = false → swizzleModeOf swz = none := by decide

/-- FMT names no format, or one without blocks. -/
theorem takeBlockFormat_unsupported (h : namesBlockFormat fmt = false) (w : Work) :
    takeBlockFormat fmt w = (.error { err := .unsupportedFormat, info := 0 }, w) := by
  cases hf : pixelFormatOf fmt with
  | none => rw [takeBlockFormat, takeFormat_none hf, run_raise_bind]
  | some f =>
    rw [takeBlockFormat, takeFormat_bind hf]
    rcases blockFormat_code hf with ⟨-, rfl⟩ | ⟨-, rfl⟩ | ⟨h1, h2, -⟩
    · cases h
    · cases h
    · cases f
      case etc1 => exact absurd rfl h1
      case etc1a4 => exact absurd rfl h2
      all_goals rfl

/-- A body that raises an error of its own at its start ends its command before any work. -/
theorem endsBeforeWork_of_raise {i : Instr} {body : Env → Eng (Nat × Nat)} {e : Err} {info : Nat}
    (hexec : exec i s = runCommand s body) (he : e ≠ .busFault)
    (h : body s.env (Work.start s.mem) = (.error { err := e, info := info }, Work.start s.mem)) :
    EndsBeforeWork i s e info := by
  refine ⟨_, hexec, ?_⟩
  rw [afterCommand_of_error h he]
  exact ⟨endWithError_failed s s.mem 0 _, rfl, rfl⟩

/-- A body whose first check finds an unsupported code. -/
theorem unsupported_of_first {i : Instr} {α : Type} {check : Eng α} {rest : Env → α → Eng (Nat × Nat)}
    (hexec : exec i s = runCommand s fun env => check >>= rest env)
    (h : check (Work.start s.mem) = (.error { err := .unsupportedFormat, info := 0 }, Work.start s.mem)) :
    EndsBeforeWork i s .unsupportedFormat 0 :=
  endsBeforeWork_of_raise hexec (by decide) (run_bind_error h)

theorem unsupported_of_blockFormat {i : Instr} {rest : Env → Bool → Eng (Nat × Nat)}
    (hexec : exec i s = runCommand s fun env => takeBlockFormat fmt >>= rest env) (h : namesBlockFormat fmt = false) :
    EndsBeforeWork i s .unsupportedFormat 0 :=
  unsupported_of_first hexec (takeBlockFormat_unsupported h _)

theorem unsupported_of_format {i : Instr} {rest : Env → PixelFormat → Eng (Nat × Nat)}
    (hexec : exec i s = runCommand s fun env => takeFormat fmt >>= rest env) (h : namesFormat fmt = false) :
    EndsBeforeWork i s .unsupportedFormat 0 :=
  unsupported_of_first hexec (by rw [takeFormat_none (pixelFormatOf_eq_none h), run_raise])

theorem unsupported_of_mode {i : Instr} {rest : Env → SwizzleMode → Eng (Nat × Nat)}
    (hexec : exec i s = runCommand s fun env => takeMode swz >>= rest env) (h : namesMode swz = false) :
    EndsBeforeWork i s .unsupportedFormat 0 :=
  unsupported_of_first hexec (by rw [takeMode_none (swizzleModeOf_eq_none h), run_raise])

/-- The texture commands take the format, then the mode (30_encoding.md R85). -/
theorem unsupported_of_texture {i : Instr} {rest : Env → PixelFormat → SwizzleMode → Eng (Nat × Nat)}
    (hexec : exec i s = runCommand s fun env => takeFormat fmt >>= fun f => takeMode swz >>= rest env f)
    (h : (namesFormat fmt && namesMode swz) = false) : EndsBeforeWork i s .unsupportedFormat 0 := by
  rcases Bool.and_eq_false_iff.mp h with hf | hm
  · exact unsupported_of_format hexec hf
  · cases hf : pixelFormatOf fmt with
    | none => exact unsupported_of_format hexec (namesFormat_of_none hf)
    | some f =>
      refine endsBeforeWork_of_raise hexec (by decide) ?_
      rw [takeFormat_bind hf, takeMode_none (swizzleModeOf_eq_none hm), run_raise_bind]

/-- Settles O27: each command that can be ill-formed begins with the check that fails. -/
theorem unsupportedFieldsEnd : Obligations.UnsupportedFieldsEnd := by
  intro i s h
  cases i with
  | nop | lz10Dec | lz11Dec | rleDec | contDec | huff4Dec | huff8Dec => cases h
  | etc1Dec fmt => exact unsupported_of_blockFormat rfl h
  | etc1Enc fmt => exact unsupported_of_blockFormat rfl h
  | swzAddr swz => exact unsupported_of_mode rfl h
  | texDim swz pad => exact unsupported_of_mode rfl h
  | pixDec fmt => exact unsupported_of_format rfl h
  | pixEnc fmt => exact unsupported_of_format rfl h
  | texDec fmt swz pad => exact unsupported_of_texture rfl h
  | texEnc fmt swz pad => exact unsupported_of_texture rfl h

end Sys2Proof.Machine
end

section
/-! PROOFS. The texel layouts (42_pixel_format.md R181 to R197): a bit field of fields side by side is one of them,
expanding a field to 8 bits repeats its bits, and a sum of shifted fields is the fields side by side. -/
namespace Sys2Proof.Machine

variable {m n : Nat}

/-! ## Bit fields of fields side by side (00_scope.md R8) -/

theorem bits_append_high (x : BitVec m) (y : BitVec n) {hi lo : Nat} (h : n ≤ lo) (h' : lo ≤ hi) :
    bits (x ++ y).toNat hi lo = bits x.toNat (hi - n) (lo - n) := by
  have hfield := congrArg BitVec.toNat
    (BitVec.extractLsb'_append_eq_of_le (xhi := x) (xlo := y) (len := hi + 1 - lo) h)
  rw [BitVec.extractLsb'_toNat, BitVec.extractLsb'_toNat] at hfield
  rw [bits, bits, hfield, show hi - n + 1 - (lo - n) = hi + 1 - lo by omega]

theorem bits_append_low (x : BitVec m) (y : BitVec n) {hi lo : Nat} (h : hi < n) (h' : lo ≤ hi) :
    bits (x ++ y).toNat hi lo = bits y.toNat hi lo := by
  have hfield := congrArg BitVec.toNat
    (BitVec.extractLsb'_append_eq_of_add_le (xhi := x) (xlo := y) (show lo + (hi + 1 - lo) ≤ n by omega))
  rwa [BitVec.extractLsb'_toNat, BitVec.extractLsb'_toNat] at hfield

theorem bits_toNat_whole (x : BitVec n) {hi lo : Nat} (h : hi + 1 = n) (h' : lo = 0) :
    bits x.toNat hi lo = x.toNat := by
  rw [bits, h', Nat.sub_zero, h, Nat.shiftRight_zero, Nat.mod_eq_of_lt x.isLt]

theorem bitAt_zero_eq_bits (v : Nat) : bitAt v 0 = bits v 0 0 := rfl

/-! ## Channels expanded to 8 bits (00_scope.md R11) -/

theorem ofNat_x4 : ∀ v : BitVec 4, BitVec.ofNat 8 (x4 v.toNat) = v ++ v := by decide

theorem ofNat_x5 : ∀ v : BitVec 5, BitVec.ofNat 8 (x5 v.toNat) = v ++ v.extractLsb' 2 3 := by decide

theorem ofNat_x6 : ∀ v : BitVec 6, BitVec.ofNat 8 (x6 v.toNat) = v ++ v.extractLsb' 4 2 := by decide

theorem ofNat_255_mul : ∀ v : BitVec 1, BitVec.ofNat 8 (255 * v.toNat) = v.signExtend 8 := by decide

/-! ## Decoding a texel of given fields -/

theorem decodeRgba8888_append (r g b a : Byte) : decodeRgba8888 (r ++ g ++ b ++ a).toNat = ⟨r, g, b, a⟩ := by
  simp (disch := omega) only [decodeRgba8888, Pixel.ofNat, bits_append_high, bits_append_low, bits_toNat_whole,
    BitVec.ofNat_toNat, BitVec.setWidth_eq]

theorem decodeRgb888_append (r g b : Byte) : decodeRgb888 (r ++ g ++ b).toNat = ⟨r, g, b, 255⟩ := by
  simp (disch := omega) only [decodeRgb888, Pixel.ofNat, bits_append_high, bits_append_low, bits_toNat_whole,
    BitVec.ofNat_toNat, BitVec.setWidth_eq, BitVec.ofNat_eq_ofNat]

theorem decodeRgba5551_append (r g b : BitVec 5) (a : BitVec 1) :
    decodeRgba5551 (r ++ g ++ b ++ a).toNat
      = ⟨r ++ r.extractLsb' 2 3, g ++ g.extractLsb' 2 3, b ++ b.extractLsb' 2 3, a.signExtend 8⟩ := by
  simp (disch := omega) only [decodeRgba5551, Pixel.ofNat, bits_append_high, bits_append_low, bits_toNat_whole,
    bitAt_zero_eq_bits, ofNat_x5, ofNat_255_mul]

theorem decodeRgb565_append (r : BitVec 5) (g : BitVec 6) (b : BitVec 5) :
    decodeRgb565 (r ++ g ++ b).toNat
      = ⟨r ++ r.extractLsb' 2 3, g ++ g.extractLsb' 4 2, b ++ b.extractLsb' 2 3, 255⟩ := by
  simp (disch := omega) only [decodeRgb565, Pixel.ofNat, bits_append_high, bits_append_low, bits_toNat_whole,
    ofNat_x5, ofNat_x6, BitVec.ofNat_eq_ofNat]

theorem decodeRgba4444_append (r g b a : BitVec 4) :
    decodeRgba4444 (r ++ g ++ b ++ a).toNat = ⟨r ++ r, g ++ g, b ++ b, a ++ a⟩ := by
  simp (disch := omega) only [decodeRgba4444, Pixel.ofNat, bits_append_high, bits_append_low, bits_toNat_whole,
    ofNat_x4]

theorem decodeLa88_append (l a : Byte) : decodeLa88 (l ++ a).toNat = ⟨l, l, l, a⟩ := by
  simp (disch := omega) only [decodeLa88, Pixel.ofNat, bits_append_high, bits_append_low, bits_toNat_whole,
    BitVec.ofNat_toNat, BitVec.setWidth_eq]

theorem decodeHl88_append (h l : Byte) : decodeHl88 (h ++ l).toNat = ⟨h, l, 255, 255⟩ := by
  simp (disch := omega) only [decodeHl88, Pixel.ofNat, bits_append_high, bits_append_low, bits_toNat_whole,
    BitVec.ofNat_toNat, BitVec.setWidth_eq, BitVec.ofNat_eq_ofNat]

theorem decodeL8_toNat (l : Byte) : decodeL8 l.toNat = ⟨l, l, l, 255⟩ := by
  simp only [decodeL8, Pixel.ofNat, BitVec.ofNat_toNat, BitVec.setWidth_eq, BitVec.ofNat_eq_ofNat]

theorem decodeA8_toNat (a : Byte) : decodeA8 a.toNat = ⟨255, 255, 255, a⟩ := by
  simp only [decodeA8, Pixel.ofNat, BitVec.ofNat_toNat, BitVec.setWidth_eq, BitVec.ofNat_eq_ofNat]

theorem decodeLa44_append (l a : BitVec 4) : decodeLa44 (l ++ a).toNat = ⟨l ++ l, l ++ l, l ++ l, a ++ a⟩ := by
  simp (disch := omega) only [decodeLa44, Pixel.ofNat, bits_append_high, bits_append_low, bits_toNat_whole, ofNat_x4]

theorem decodeL4_toNat (v : BitVec 4) : decodeL4 v.toNat = ⟨v ++ v, v ++ v, v ++ v, 255⟩ := by
  simp only [decodeL4, Pixel.ofNat, ofNat_x4, BitVec.ofNat_eq_ofNat]

theorem decodeA4_toNat (v : BitVec 4) : decodeA4 v.toNat = ⟨255, 255, 255, v ++ v⟩ := by
  simp only [decodeA4, Pixel.ofNat, ofNat_x4, BitVec.ofNat_eq_ofNat]

/-! ## Encoding a pixel into its fields -/

theorem toNat_append_eq_add (x : BitVec m) (y : BitVec n) : (x ++ y).toNat = x.toNat * 2 ^ n + y.toNat := by
  rw [BitVec.toNat_append, ← Nat.shiftLeft_add_eq_or_of_lt y.isLt, Nat.shiftLeft_eq]

/-- Shifting a channel right keeps its top bits. -/
theorem topBits_toNat (c : Byte) (k : Nat) {len : Nat} (h : k + len = 8) :
    (c.extractLsb' k len).toNat = c.toNat >>> k := by
  have hlt : c.toNat >>> k < 2 ^ len := by
    rw [Nat.shiftRight_eq_div_pow]
    exact Nat.div_lt_of_lt_mul (by rw [← pow_add, h]; exact c.isLt)
  rw [BitVec.extractLsb'_toNat, Nat.mod_eq_of_lt hlt]

variable (c : Pixel)

theorem encodeRgba8888_eq : encodeRgba8888 c = (c.r ++ c.g ++ c.b ++ c.a).toNat := by
  simp only [encodeRgba8888, toNat_append_eq_add]
  ring

theorem encodeRgb888_eq : encodeRgb888 c = (c.r ++ c.g ++ c.b).toNat := by
  simp only [encodeRgb888, toNat_append_eq_add]
  ring

theorem encodeRgba5551_eq : encodeRgba5551 c
    = (c.r.extractLsb' 3 5 ++ c.g.extractLsb' 3 5 ++ c.b.extractLsb' 3 5 ++ c.a.extractLsb' 7 1).toNat := by
  simp only [encodeRgba5551, toNat_append_eq_add, topBits_toNat]
  ring

theorem encodeRgb565_eq :
    encodeRgb565 c = (c.r.extractLsb' 3 5 ++ c.g.extractLsb' 2 6 ++ c.b.extractLsb' 3 5).toNat := by
  simp only [encodeRgb565, toNat_append_eq_add, topBits_toNat]
  ring

theorem encodeRgba4444_eq : encodeRgba4444 c
    = (c.r.extractLsb' 4 4 ++ c.g.extractLsb' 4 4 ++ c.b.extractLsb' 4 4 ++ c.a.extractLsb' 4 4).toNat := by
  simp only [encodeRgba4444, toNat_append_eq_add, topBits_toNat]
  ring

theorem encodeLa44_eq : encodeLa44 c = (c.g.extractLsb' 4 4 ++ c.a.extractLsb' 4 4).toNat := by
  simp only [encodeLa44, toNat_append_eq_add, topBits_toNat]

theorem encodeL4_eq : encodeL4 c = (c.g.extractLsb' 4 4).toNat := (topBits_toNat c.g 4 rfl).symm

theorem encodeA4_eq : encodeA4 c = (c.a.extractLsb' 4 4).toNat := (topBits_toNat c.a 4 rfl).symm

/-! ## Sizes (42_pixel_format.md R181) -/

variable {f : PixelFormat} {dec : Nat → Pixel} {enc : Pixel → Nat}

theorem byteFormat_sizes {size : Nat} (h : texelLayout f = .bytes size dec enc) (n : Nat) :
    pixelCount f n = n / size ∧ encodedSize f n = n * size ∧ countLegal f n = true := by
  simp only [pixelCount, encodedSize, countLegal, h, and_self]

theorem nibbleFormat_sizes (h : texelLayout f = .nibbles dec enc) (n : Nat) :
    pixelCount f n = 2 * n ∧ encodedSize f n = (n + 1) / 2 ∧ countLegal f n = true := by
  simp only [pixelCount, encodedSize, countLegal, h, and_self]

theorem blockFormat_sizes {alpha : Bool} (h : texelLayout f = .blocks alpha) (n : Nat) :
    pixelCount f n = 16 * (n / blockBytes alpha) ∧ encodedSize f n = n / 16 * blockBytes alpha
      ∧ (countLegal f n = true ↔ n % 16 = 0) := by
  simp only [pixelCount, encodedSize, countLegal, h, decide_eq_true_eq, and_self]

/-! ## The statement -/

/-- Settles O48: the codes and the layouts by evaluation, the sizes by the kind of the layout, each decode and encode by
the lemma of its format. -/
theorem texelLayouts : Obligations.TexelLayouts := by
  refine ⟨rfl, rfl, rfl, rfl, rfl, rfl, rfl, rfl, rfl, rfl, rfl, rfl, rfl, rfl, rfl, ?_, ?_, ?_, decodeRgba8888_append,
    decodeRgb888_append, decodeRgba5551_append, decodeRgb565_append, decodeRgba4444_append, decodeLa88_append,
    decodeHl88_append, decodeL8_toNat, decodeA8_toNat, decodeLa44_append, fun v => ⟨decodeL4_toNat v, decodeA4_toNat v⟩,
    fun c => ⟨encodeRgba8888_eq c, encodeRgb888_eq c, encodeRgba5551_eq c, encodeRgb565_eq c, encodeRgba4444_eq c,
      (toNat_append_eq_add c.g c.a).symm, (toNat_append_eq_add c.r c.g).symm, rfl, rfl, encodeLa44_eq c, encodeL4_eq c,
      encodeA4_eq c⟩⟩
  · simp only [List.forall_mem_cons, List.not_mem_nil, false_imp_iff, implies_true, and_true]
    exact ⟨byteFormat_sizes rfl, byteFormat_sizes rfl,
      ⟨byteFormat_sizes rfl, byteFormat_sizes rfl, byteFormat_sizes rfl, byteFormat_sizes rfl, byteFormat_sizes rfl⟩,
      byteFormat_sizes rfl, byteFormat_sizes rfl, byteFormat_sizes rfl⟩
  · simp only [List.forall_mem_cons, List.not_mem_nil, false_imp_iff, implies_true, and_true]
    exact ⟨nibbleFormat_sizes rfl, nibbleFormat_sizes rfl⟩
  · simp only [List.forall_mem_cons, List.not_mem_nil, false_imp_iff, implies_true, and_true]
    exact ⟨blockFormat_sizes (alpha := false) rfl, blockFormat_sizes (alpha := true) rfl⟩

end Sys2Proof.Machine
end

section
/-! PROOFS. The ends of a decompressor inside its header (40_decompressors.md R113, R117, R121, R127; 20_memory.md R66):
the header's bytes as memory holds them, and the error that each check of them raises before anything is stored. -/
namespace Sys2Proof.Machine

open Sys2Proof.Reference

variable {α : Type} {i : Instr} {s : State}

/-! ## Reading the header -/

/-- The working state of a command that has read `k` input bytes and stored none. -/
def State.headerWork (s : State) (k : Nat) : Work := (Work.start s.mem).advance k

/-- A body that raises an error of its own before it stores anything ends its command before any work. -/
theorem endsBeforeWork_of_header {body : Env → Eng (Nat × Nat)} {e : Err} {info k : Nat}
    (hexec : exec i s = runCommand s body) (he : e ≠ .busFault)
    (h : body s.env (Work.start s.mem) = (.error { err := e, info := info }, s.headerWork k)) :
    EndsBeforeWork i s e info := by
  refine ⟨_, hexec, ?_⟩
  rw [afterCommand_of_error h he]
  exact ⟨endWithError_failed s s.mem 0 _, rfl, rfl⟩

theorem header_inByte (ha : s.BusAccepts) {k : Nat} (hk : k < s.srcLen.toNat) :
    inByte s.env (s.headerWork k)
      = (.ok (s.mem.read (s.srcAddr.toNat + k)).toNat, s.headerWork (k + 1)) := by
  have hpos : (s.headerWork k).inPos = k := Nat.zero_add k
  rw [inByte_ok (by rw [hpos]; exact hk) (by rw [hpos]; exact ha.input k hk), hpos, State.headerWork,
    Work.advance_advance]
  rfl

theorem header_inBytes (ha : s.BusAccepts) {k n : Nat} (hk : k + n ≤ s.srcLen.toNat) :
    inBytes s.env n (s.headerWork k) = (.ok (s.mem.little (s.srcAddr.toNat + k) n), s.headerWork (k + n)) := by
  have hpos : (s.headerWork k).inPos = k := Nat.zero_add k
  rw [inBytes_ok (by rw [hpos]; exact hk) fun j hj => ?_, hpos, State.headerWork, Work.advance_advance]
  · rfl
  · rw [hpos, Nat.add_assoc]
    exact ha.input (k + j) (by omega)

/-- The input ends inside the header. -/
theorem header_inBytes_short (ha : s.BusAccepts) {k n : Nat} (hk : k ≤ s.srcLen.toNat) (hn : s.srcLen.toNat < k + n) :
    inBytes s.env n (s.headerWork k)
      = (.error { err := .corruptStream, info := s.srcLen.toNat }, s.headerWork s.srcLen.toNat) := by
  induction n generalizing k with
  | zero => omega
  | succ n ih =>
    rcases Nat.lt_or_ge k s.srcLen.toNat with hlt | hge
    · rw [inBytes, run_bind_ok (header_inByte ha hlt), run_bind_error (ih hlt (by omega))]
    · obtain rfl : k = s.srcLen.toNat := Nat.le_antisymm hk hge
      have hpos : (s.headerWork s.srcLen.toNat).inPos = s.srcLen.toNat := Nat.zero_add _
      rw [inBytes, run_bind_error (inByte_end hpos.ge), hpos]

/-- Once the buffers are legal, a decompressor with a header begins to read it. -/
theorem header_start (hu : s.BuffersUsable) (f : Unit → Eng α) :
    (checkBuffers s.env >>= f) (Work.start s.mem) = f () (s.headerWork 0) :=
  checkBuffers_bind_legal ((buffersLegal_iff s).mpr hu) f _

/-- An error at the cursor behind the header. -/
theorem header_raise (e : Err) (k : Nat) :
    (inPos >>= fun pos => (raise e pos : Eng α)) (s.headerWork k)
      = (.error { err := e, info := k }, s.headerWork k) := by
  rw [inPos_bind, run_raise]
  exact congrArg (fun p => (Except.error (Raise.mk e p), s.headerWork k)) (Nat.zero_add k)

/-- A declared length above DST_LEN. -/
theorem header_declared {n k : Nat} (hn : s.dstLen.toNat < n) (f : Unit → Eng α) :
    (checkDeclared s.env n >>= f) (s.headerWork k)
      = (.error { err := .invalidParameter, info := k }, s.headerWork k) := by
  refine run_bind_error ?_
  rw [checkDeclared, if_pos (show s.env.dstLen < n from hn), header_raise]

/-! ## The header's checks -/

theorem lz10Dec_tag (hu : s.BuffersUsable) (ha : s.BusAccepts) (hlen : 1 ≤ s.srcLen.toNat)
    (htag : (s.mem.read s.srcAddr.toNat).toNat ≠ 0x10) : EndsBeforeWork .lz10Dec s .unsupportedFormat 1 := by
  refine endsBeforeWork_of_header (k := 1) (exec_lz10Dec s) (by decide) ?_
  rw [lz10Command, header_start hu, run_bind_ok (header_inByte ha hlen), if_pos (by exact htag), header_raise]

theorem lz10Dec_length (hu : s.BuffersUsable) (ha : s.BusAccepts) (hlen : 4 ≤ s.srcLen.toNat)
    (htag : (s.mem.read s.srcAddr.toNat).toNat = 0x10)
    (hroom : s.dstLen.toNat < s.mem.little (s.srcAddr.toNat + 1) 3) :
    EndsBeforeWork .lz10Dec s .invalidParameter 4 := by
  refine endsBeforeWork_of_header (k := 4) (exec_lz10Dec s) (by decide) ?_
  rw [lz10Command, header_start hu, run_bind_ok (header_inByte ha (by omega)), if_neg (by exact not_not.mpr htag),
    run_bind_ok (header_inBytes ha hlen), header_declared hroom]

theorem lz11Dec_length (hu : s.BuffersUsable) (ha : s.BusAccepts) (hlen : 4 ≤ s.srcLen.toNat)
    (hroom : s.dstLen.toNat < s.mem.little (s.srcAddr.toNat + 1) 3) :
    EndsBeforeWork .lz11Dec s .invalidParameter 4 := by
  refine endsBeforeWork_of_header (k := 4) (exec_lz11Dec s) (by decide) ?_
  rw [lz11Command, header_start hu, run_bind_ok (header_inBytes ha (by omega)), header_declared]
  rwa [Memory.little_tagged]

theorem contDec_method (hu : s.BuffersUsable) (ha : s.BusAccepts) (hlen : 4 ≤ s.srcLen.toNat)
    (hmethod : 5 ≤ bits (s.mem.little s.srcAddr.toNat 4) 2 0) : EndsBeforeWork .contDec s .unsupportedFormat 4 := by
  refine endsBeforeWork_of_header (k := 4) (exec_contDec s) (by decide) ?_
  rw [contCommand, header_start hu, run_bind_ok (header_inBytes ha (by omega)), if_pos (by exact hmethod), header_raise]

theorem contDec_length (hu : s.BuffersUsable) (ha : s.BusAccepts) (hlen : 4 ≤ s.srcLen.toNat)
    (hmethod : bits (s.mem.little s.srcAddr.toNat 4) 2 0 < 5)
    (hroom : s.dstLen.toNat < s.mem.little s.srcAddr.toNat 4 / 8) :
    EndsBeforeWork .contDec s .invalidParameter 4 := by
  refine endsBeforeWork_of_header (k := 4) (exec_contDec s) (by decide) ?_
  rw [contCommand, header_start hu, run_bind_ok (header_inBytes ha (by omega)),
    if_neg (by exact Nat.not_le.mpr hmethod), header_declared]
  rwa [Nat.add_zero, Memory.little_container]

/-- The container method is in the low three bits of the first byte (40_decompressors.md R125). -/
theorem Memory.little_method (m : Memory) (a : Nat) : bits (m.little a 4) 2 0 = (m.read a).toNat % 8 := by
  rw [bits, Memory.little, Nat.shiftRight_zero]
  omega

/-- Settles O31: each header run up to the check that fails. -/
theorem headerChecksEnd : Obligations.HeaderChecksEnd := by
  intro s hu ha b n3 n
  have hn3 : s.mem.little (s.srcAddr.toNat + 1) 3 = n3 := by
    simp only [Memory.little, Nat.add_assoc, Nat.reduceAdd, n3, b]
    omega
  have hn : s.mem.little s.srcAddr.toNat 4 / 8 = n := by rw [Memory.little, hn3]; rfl
  rw [← hn3, ← hn]
  refine ⟨lz10Dec_tag hu ha, lz10Dec_length hu ha, lz11Dec_length hu ha, fun hlen hm => ?_, fun hlen hm => ?_⟩
  · exact contDec_method hu ha hlen (by rwa [Memory.little_method])
  · exact contDec_length hu ha hlen (by rwa [Memory.little_method])

/-! ## Headers cut short -/

theorem lz10Dec_short (hu : s.BuffersUsable) (ha : s.BusAccepts) (hlen : s.srcLen.toNat < 4)
    (htag : s.srcLen.toNat = 0 ∨ s.mem.read s.srcAddr.toNat = 0x10) :
    EndsBeforeWork .lz10Dec s .corruptStream s.srcLen.toNat := by
  refine endsBeforeWork_of_header (k := s.srcLen.toNat) (exec_lz10Dec s) (by decide) ?_
  rw [lz10Command, header_start hu]
  rcases Nat.eq_zero_or_pos s.srcLen.toNat with hzero | hpos
  · rw [hzero]
    exact run_bind_error (inByte_end hzero.le)
  · have htag := htag.resolve_left hpos.ne'
    rw [run_bind_ok (header_inByte ha hpos), if_neg (not_not.mpr (by rw [Nat.add_zero, htag]; rfl)),
      run_bind_error (header_inBytes_short ha hpos (by omega))]

/-- Settles O32: the header read up to the input's end. -/
theorem headerCutShort : Obligations.HeaderCutShort := by
  intro s hu ha hlen
  have hshort := header_inBytes_short ha (k := 0) (n := 4) (Nat.zero_le _) (by omega)
  refine ⟨?_, ?_, lz10Dec_short hu ha hlen⟩
  · refine endsBeforeWork_of_header (k := s.srcLen.toNat) (exec_lz11Dec s) (by decide) ?_
    rw [lz11Command, header_start hu, run_bind_error hshort]
  · refine endsBeforeWork_of_header (k := s.srcLen.toNat) (exec_contDec s) (by decide) ?_
    rw [contCommand, header_start hu, run_bind_error hshort]

end Sys2Proof.Machine
end

section
/-! PROOFS. The bodies of the decompressors run forward to their end (40_decompressors.md R114 to R116, R119, R120,
R122, R123, R127; 41_huffman.md R160 to R166), and the commands that read exactly such a body. -/
namespace Sys2Proof.Machine

open Sys2Proof.Reference

variable {α : Type} {env : Env} {stop : Raise} {i : Instr} {s : State} {n : Nat}

/-! ## From a body that runs to a command that succeeds -/

/-- A run that yields a value meets no rejected access. -/
theorem Traced.eq_of_ok {x : Env → Eng α} {w w' w1 : Work} {tr : Trace} {r : Except Raise α} {v : α}
    (ht : Traced env x w tr r w') (hrun : x env w = (.ok v, w1)) : r = .ok v ∧ w' = w1 := by
  rcases tr.split_rejected env.platform.busFault with hall | ⟨pre, a, post, hsplit, hpre, ha⟩
  · exact Prod.mk.inj ((ht.accepted _ hall).symm.trans hrun)
  · obtain ⟨v', hfault, -⟩ := ht.rejected _ pre a post hsplit hpre ha
    cases (Prod.mk.inj (hfault.symm.trans hrun)).1

theorem Memory.bytes_add (m : Memory) (a j k : Nat) : m.bytes a (j + k) = m.bytes a j ++ m.bytes (a + j) k := by
  simp [Memory.bytes, List.range_add, Function.comp_def, Nat.add_assoc]

theorem Memory.bytes_of_holds {m : Memory} {a : Nat} {bytes : List Byte} (h : m.Holds a bytes) :
    m.bytes a bytes.length = bytes := by
  induction bytes generalizing a with
  | nil => rfl
  | cons b bytes ih =>
    obtain ⟨hb, hrest⟩ := Memory.holds_cons.mp h
    rw [List.length_cons, Memory.bytes_succ, hb, ih hrest]

/-- At its start a command can read its whole input, and ends with CorruptStream behind it. -/
theorem Feeds.start (s : State) (hin : ∀ j < s.srcLen.toNat, s.platform.rejects (s.srcAddr.toNat + j) .read = false) :
    Feeds s.env { err := .corruptStream, info := s.srcLen.toNat } [] (s.mem.bytes s.srcAddr.toNat s.srcLen.toNat)
      (Work.start s.mem) :=
  ⟨rfl, Memory.holds_nil _ _, s.mem.holds_bytes _ _, by simp,
    fun j hj => hin j (by simpa using hj), .inl (by simp)⟩

theorem State.BusAccepts.serves (ha : s.BusAccepts) (hu : s.BuffersUsable) : s.env.Serves :=
  hu.serves fun j hj => ⟨ha.output j hj, ha.readBack j hj⟩

/-- A decompressor whose body runs on the bytes that its input begins with. -/
theorem endsWithBytes_of_runs {body : Env → Eng (Nat × Nat)} (hd : decompresses i = true)
    (hexec : ∀ s, exec i s = runCommand s body) (hbody : BodyTraced i s body) (ha : s.BusAccepts)
    {input out : List Byte} {r0 r1 : Nat} (hinput : s.mem.Holds s.srcAddr.toNat input)
    (hlen : input.length ≤ s.srcLen.toNat) (hruns : ∀ stop, Runs s.env stop (body s.env) [] input (r0, r1) out) :
    EndsWithBytes i s r0 r1 out.length (out.getD · 0) := by
  have hsplit : s.mem.bytes s.srcAddr.toNat s.srcLen.toNat
      = input ++ s.mem.bytes (s.srcAddr.toNat + input.length) (s.srcLen.toNat - input.length) := by
    rw [← Nat.add_sub_cancel' hlen, Memory.bytes_add, Memory.bytes_of_holds hinput, Nat.add_sub_cancel' hlen]
  obtain ⟨w, hrun, hw⟩ := hruns _ _ _ (hsplit ▸ Feeds.start s ha.input)
  obtain ⟨tr, r, w', ht, h⟩ := hbody
  obtain ⟨rfl, rfl⟩ := ht.eq_of_ok hrun
  have hend : exec i s = .next (s.endWithSuccess w'.mem r0 r1) := by rw [hexec, runCommand, afterCommand_of_ok hrun]
  refine ⟨_, hend, endWithSuccess_succeeded s w'.mem r0 r1, hw.output, fun b hb => ht.frame b fun hmem => ?_⟩
  rcases h with hcheck | hworks
  · rcases hcheck.raises with h | ⟨-, h⟩ <;> cases h
  · rw [hworks.places, List.mem_map] at hmem
    obtain ⟨k, hk, rfl⟩ := hmem
    rw [List.mem_range, hw.stored] at hk
    rw [storedPlace_eq (fun fmt swz pad h => by subst h; cases hd)] at hb
    omega

/-! ## LZ10 and LZ11 -/

section Form
variable {ok : LzToken → Bool} {enc : LzToken → List Byte} {reference : Eng (Nat × Nat)} {tokens : List LzToken}
  {out out' : List Byte}

/-- The tokens of a group, which ends with its eighth token or with the declared length (40_decompressors.md R114). -/
theorem LzForm.group_ends (hf : LzForm env stop ok enc reference) (he : env.Serves) (hn : n ≤ env.dstLen)
    {flags k : Nat} (hok : ∀ t ∈ tokens, ok t = true) (ha : expandTokens out tokens = some out') (hle : out'.length ≤ n)
    (htell : flagsTell flags (k + tokens.length) tokens) (hend : k = 0 ∨ out'.length = n) :
    Runs env stop (lzGroup env reference n flags (k + tokens.length)) out (tokens.flatMap enc) () out' := by
  induction tokens generalizing out with
  | nil =>
    obtain rfl := Option.some.inj ha
    cases k with
    | zero => exact .pure () _
    | succ k =>
      refine Runs.bind_nil (outLen_runs out) ?_
      rw [if_pos (hend.resolve_left (Nat.succ_ne_zero k))]
      exact .pure () _
  | cons t ts ih =>
    obtain ⟨mid, h1, h2⟩ := expandTokens_cons ha
    have hts : ∀ t ∈ ts, ok t = true := fun t ht => hok t (List.mem_cons_of_mem _ ht)
    have hgrow := hf.apply_grows (hok t List.mem_cons_self) h1
    have hmid := hf.expand_le hts h2
    obtain ⟨hbit, htell⟩ := flagsTell_cons htell
    rw [List.flatMap_cons]
    refine Runs.bind_nil (outLen_runs out) ?_
    rw [if_neg (by omega), hbit]
    exact (hf.token_runs he hn (hok t List.mem_cons_self) h1 (by omega)).bind (ih hts h2 htell)

theorem groupsFull_cons {g : LzGroup} {gs : List LzGroup} (h : groupsFull (g :: gs) = true) :
    (gs = [] ∨ g.tokens.length = 8) ∧ groupsFull gs = true := by
  cases gs with
  | nil => exact ⟨.inl rfl, rfl⟩
  | cons g' gs => simpa [groupsFull] using h

theorem LzGroup.legal_of_mem_flatMap {groups : List LzGroup} (h : ∀ g ∈ groups, g.legal ok = true) :
    ∀ t ∈ groups.flatMap LzGroup.tokens, ok t = true := by
  intro t ht
  obtain ⟨g, hg, ht⟩ := List.mem_flatMap.mp ht
  obtain ⟨-, -, hok, -⟩ := LzGroup.legal_iff (h g hg)
  exact hok t ht

/-- A whole LZ body (40_decompressors.md R116, R120). -/
theorem LzForm.groups_run (hf : LzForm env stop ok enc reference) (he : env.Serves) (hn : n ≤ env.dstLen)
    {groups : List LzGroup} (hok : ∀ g ∈ groups, g.legal ok = true) (hfull : groupsFull groups = true)
    (ha : expandTokens out (groups.flatMap LzGroup.tokens) = some out') (hlen : out'.length = n) {bound : Nat}
    (hbound : n ≤ out.length + bound) :
    Runs env stop (lzBody env reference n bound) out (groups.flatMap (LzGroup.bytes enc)) () out' := by
  induction groups generalizing out bound with
  | nil =>
    obtain rfl := Option.some.inj ha
    cases bound with
    | zero => exact .pure () _
    | succ bound =>
      refine Runs.bind_nil (outLen_runs out) ?_
      rw [if_neg hlen.not_lt]
      exact .pure () _
  | cons g gs ih =>
    obtain ⟨hlast, hfull⟩ := groupsFull_cons hfull
    obtain ⟨hpos, height, htokens, htell⟩ := LzGroup.legal_iff (hok g List.mem_cons_self)
    have hgs : ∀ g ∈ gs, g.legal ok = true := fun g hg => hok g (List.mem_cons_of_mem _ hg)
    rw [List.flatMap_cons] at ha
    obtain ⟨mid, h1, h2⟩ := expandTokens_append ha
    have hgrow := hf.expand_le htokens h1
    have hrest := hf.expand_le (LzGroup.legal_of_mem_flatMap hgs) h2
    obtain ⟨bound, rfl⟩ : ∃ b, bound = b + 1 := ⟨bound - 1, by omega⟩
    obtain ⟨k, hk⟩ : ∃ k, k + g.tokens.length = 8 := ⟨8 - g.tokens.length, by omega⟩
    have hend : k = 0 ∨ mid.length = n := by
      rcases hlast with rfl | hfull
      · obtain rfl := Option.some.inj h2
        exact .inr hlen
      · exact .inl (by omega)
    have hgroup := hf.group_ends he hn (k := k) htokens h1 (by omega) (by rwa [hk]) hend
    rw [hk] at hgroup
    rw [List.flatMap_cons, LzGroup.bytes]
    refine Runs.bind_nil (outLen_runs out) ?_
    rw [if_pos (by omega)]
    exact ((inByte_decodes g.flags).runs out).bind (hgroup.bind (ih hgs hfull h2 (by omega)))

theorem LzForm.body_runs (hf : LzForm env stop ok enc reference) (he : env.Serves) {input : List Byte}
    (h : LzBody ok enc input out) (hn : out.length ≤ env.dstLen) :
    Runs env stop (lzBody env reference out.length out.length) [] input () out := by
  obtain ⟨groups, hok, hfull, rfl, hexpand⟩ := h
  exact hf.groups_run he hn hok hfull hexpand rfl (by simp)

end Form

/-! ## RLE and verbatim bodies -/

variable {out input : List Byte}

theorem rleLoop_runs (he : env.Serves) (hn : n ≤ env.dstLen) {groups : List RleGroup}
    (hlegal : ∀ g ∈ groups, g.legal = true) (hlen : (out ++ groups.flatMap RleGroup.expand).length = n) {bound : Nat}
    (hbound : n ≤ out.length + bound) :
    Runs env stop (rleLoop env n bound) out (groups.flatMap RleGroup.bytes) ()
      (out ++ groups.flatMap RleGroup.expand) := by
  induction groups generalizing out bound with
  | nil =>
    simp only [List.flatMap_nil, List.append_nil] at hlen ⊢
    cases bound with
    | zero => exact .pure () _
    | succ bound =>
      refine Runs.bind_nil (outLen_runs out) ?_
      rw [if_neg hlen.not_lt]
      exact .pure () _
  | cons g gs ih =>
    have hpos := RleGroup.expand_pos (hlegal g List.mem_cons_self)
    simp only [List.flatMap_cons, ← List.append_assoc] at hlen ⊢
    have hlength := hlen
    simp only [List.length_append] at hlength
    obtain ⟨bound, rfl⟩ : ∃ b, bound = b + 1 := ⟨bound - 1, by omega⟩
    refine Runs.bind_nil (outLen_runs out) ?_
    rw [if_pos (by omega)]
    exact (rleGroup_runs he hn (hlegal g List.mem_cons_self) (by omega)).bind
      (ih (fun g hg => hlegal g (List.mem_cons_of_mem _ hg)) hlen (by rw [List.length_append]; omega))

theorem rleBody_runs (he : env.Serves) (h : RleBody input out) (hn : out.length ≤ env.dstLen) :
    Runs env stop (rleBody env out.length) [] input () out := by
  obtain ⟨groups, hlegal, rfl, rfl⟩ := h
  exact rleLoop_runs (out := []) he hn hlegal rfl (by simp)

theorem verbatimBody_runs (he : env.Serves) (hn : out.length ≤ env.dstLen) :
    Runs env stop (verbatimBody env out.length) [] out () out :=
  copyInput_runs (out := []) he out (by simpa using hn)

/-! ## Huffman -/

section Huffman
variable {wide : Bool} {tree : List Byte}

/-- A path to a leaf that goes on leads through an internal node. -/
theorem nodeAt_of_leafOf {a : Nat} {front rest : List Bool} {b : Bool} {sym : Byte}
    (h : leafOf tree a (front ++ b :: rest) = some sym) : ∃ node, nodeAt tree a front = some node := by
  induction front generalizing a with
  | nil => exact ⟨a, rfl⟩
  | cons c front ih =>
    rw [List.cons_append, leafOf] at h
    by_cases hout : tree.length ≤ childAddress tree a c
    · simp [hout] at h
    by_cases hleaf : childLeaf tree a c = true
    · simp [hout, hleaf] at h
    rw [if_neg hout, if_neg hleaf] at h
    obtain ⟨node, hnode⟩ := ih h
    exact ⟨node, by rw [nodeAt, if_neg (by simp [hout, hleaf]), hnode]⟩

/-- Before the last bit of the symbols' paths the last symbol is not decoded. -/
theorem bitWalk_before_end {paths : List (List Bool)} {symbols syms : List Byte} {front back : List Bool}
    {q : Nat × List Byte} (h : paths.map (leafOf tree 1) = symbols.map some) (hsplit : paths.flatten = front ++ back)
    (hback : back ≠ []) (hq : bitWalk tree (1, syms) front = some q) : q.2.length < syms.length + symbols.length := by
  induction paths generalizing symbols syms front with
  | nil => exact absurd (List.append_eq_nil_iff.mp hsplit.symm).2 hback
  | cons path paths ih =>
    cases symbols with
    | nil => cases h
    | cons sym symbols =>
      obtain ⟨hpath, hrest⟩ := List.cons.inj h
      have later : ∀ mid, front = path ++ mid → paths.flatten = mid ++ back →
          q.2.length < syms.length + (sym :: symbols).length := by
        rintro mid rfl hmid
        rw [bitWalk_append, bitWalk_of_leafOf syms hpath, Option.bind_some] at hq
        have := ih hrest hmid hq
        simp only [List.length_append, List.length_cons, List.length_nil] at this ⊢
        omega
      rw [List.flatten_cons] at hsplit
      rcases List.append_eq_append_iff.mp hsplit with ⟨mid, hfront, hmid⟩ | ⟨mid, hmid, hflat⟩
      · exact later mid hfront hmid
      · cases mid with
        | nil => exact later [] (by rw [hmid, List.append_nil, List.append_nil]) hflat.symm
        | cons b mid =>
          rw [hmid] at hpath
          obtain ⟨node, hnode⟩ := nodeAt_of_leafOf hpath
          obtain rfl := Option.some.inj ((bitWalk_of_nodeAt syms hnode).symm.trans hq)
          simp

/-- The walk uses up the bits of the symbols' paths, and stops inside the last word. -/
theorem huffWalk_runs (he : env.Serves) (hn : n ≤ env.dstLen) (all : List Bool) {extra : List Bool}
    (hextra : extra.length < 32) {words : List Word} {h : HuffState} {node node' bound : Nat} {syms syms' : List Byte}
    {bs : List Bool} (hh : HuffAt wide h node syms bs) (hall : bs ++ words.flatMap wordBits = all ++ extra)
    (hwalk : bitWalk tree (node, syms) all = some (node', syms')) (hlen : syms'.length = huffSymbols wide n)
    (hmore : ∀ front back q, all = front ++ back → back ≠ [] → bitWalk tree (node, syms) front = some q →
      q.2.length < huffSymbols wide n)
    (hbound : all.length ≤ bound) :
    Runs env stop (huffWalk env wide (tree.map BitVec.toNat) (huffSymbols wide n) bound h) (huffOut wide syms)
      (wordBytes words) () (huffOut wide syms') := by
  induction all generalizing words h node syms bs bound with
  | nil =>
    obtain rfl : words = [] := by
      have := congrArg List.length hall
      rw [List.length_append, flatMap_wordBits_length, List.nil_append] at this
      exact List.length_eq_zero_iff.mp (by omega)
    obtain ⟨rfl, rfl⟩ := Prod.mk.inj (Option.some.inj hwalk)
    have hdone : ¬ h.syms < huffSymbols wide n := by rw [hh.syms, hlen]; exact Nat.lt_irrefl _
    cases bound <;> rw [huffWalk, if_neg hdone] <;> exact .pure () _
  | cons b all ih =>
    obtain ⟨⟨node1, syms1⟩, hstep, hrest⟩ := bitWalk_cons hwalk
    have hsyms : syms.length < huffSymbols wide n := hmore [] (b :: all) _ rfl (List.cons_ne_nil _ _) rfl
    obtain ⟨k, rfl⟩ : ∃ k, bound = k + 1 := ⟨bound - 1, by rw [List.length_cons] at hbound; omega⟩
    have hnext : ∀ front back q, all = front ++ back → back ≠ [] → bitWalk tree (node1, syms1) front = some q →
        q.2.length < huffSymbols wide n := fun front back q hsplit hback hq =>
      hmore (b :: front) back q (by rw [hsplit, List.cons_append]) hback
        (by rw [bitWalk, List.foldlM_cons, hstep]; exact hq)
    rw [huffWalk, if_pos (by rw [hh.syms]; exact hsyms)]
    cases bs with
    | cons c bs =>
      obtain ⟨rfl, htail⟩ := List.cons.inj hall
      obtain ⟨h', hrun, hat⟩ := huffStep_runs he hn hstep hsyms (huffRefill_bit hh) hh
      exact hrun.bind_nil (ih hat htail hrest hnext (Nat.le_of_succ_le_succ hbound))
    | nil =>
      cases words with
      | nil => cases hall
      | cons w words =>
        obtain ⟨h1, hrefill, hat1⟩ := huffRefill_word (env := env) (stop := stop) (out := huffOut wide syms) hh w
        rw [List.nil_append, List.flatMap_cons] at hall
        obtain ⟨c, cs, hbits⟩ : ∃ c cs, wordBits w = c :: cs :=
          List.exists_cons_of_length_pos (by rw [wordBits_length]; exact Nat.succ_pos _)
        rw [hbits] at hall hat1
        obtain ⟨rfl, htail⟩ := List.cons.inj hall
        obtain ⟨h', hrun, hat⟩ := huffStep_runs he hn hstep hsyms hrefill hat1
        exact hrun.bind (ih hat htail hrest hnext (Nat.le_of_succ_le_succ hbound))

/-- A whole Huffman body (41_huffman.md R160, R165, R166). -/
theorem huffBody_runs (he : env.Serves) (h : HuffBody wide input out) (hn : out.length ≤ env.dstLen) :
    Runs env stop (huffBody env out.length wide) [] input () out := by
  rcases h with ⟨rfl, rfl⟩ | ⟨tree, words, paths, symbols, htree, hpaths, hpre, hfew, rfl, hne, hout⟩
  · exact .pure () []
  obtain ⟨extra, hextra⟩ := hpre
  have hbits := congrArg List.length hextra
  rw [List.length_append, flatMap_wordBits_length] at hbits
  have hsymbols : symbols.length = huffSymbols wide out.length ∧ out = huffOut wide symbols := by
    cases wide with
    | true => exact ⟨congrArg List.length hout.symm, hout⟩
    | false => exact hout
  have hwalk := bitWalk_of_paths (tree := tree) [] hpaths
  rw [huffBody, if_neg (by simpa using hne)]
  refine ((huffTree_decodes htree).runs []).bind fun rest w hw => ?_
  have hroom := hw.room
  rw [List.length_append, ← wordBytes, wordBytes_length] at hroom
  have hrun := huffWalk_runs (stop := stop) (bound := 8 * env.srcLen + 1) he hn paths.flatten (extra := extra)
    (by omega) (huffStart_at wide) hextra.symm hwalk hsymbols.1
    (fun front back q hsplit hback hq => by
      rw [← hsymbols.1, ← Nat.zero_add symbols.length]
      exact bitWalk_before_end hpaths hsplit hback hq)
    (by omega)
  rw [List.nil_append, ← hsymbols.2, show huffOut wide [] = [] by cases wide <;> rfl] at hrun
  exact hrun rest w hw

end Huffman

/-! ## Containers -/

theorem containerBody_runs (he : env.Serves) {m : Nat} (h : ContainerBody m input out) (hn : out.length ≤ env.dstLen) :
    m < 5 ∧ Runs env stop (containerBody env m out.length) [] input () out := by
  match m, h with
  | 0, h =>
    obtain rfl : input = out := h
    exact ⟨by simp, verbatimBody_runs he hn⟩
  | 1, h => exact ⟨by simp, lz10_form.body_runs he h hn⟩
  | 2, h => exact ⟨by simp, huffBody_runs he h hn⟩
  | 3, h => exact ⟨by simp, huffBody_runs he h hn⟩
  | 4, h => exact ⟨by simp, rleBody_runs he h hn⟩

/-! ## The commands -/

theorem lz10Command_runs (hl : env.buffersLegal = true) (hn : n < 2 ^ 24) (hroom : n ≤ env.dstLen)
    (h : Runs env stop (lz10Body env n) [] input () out) :
    Runs env stop (lz10Command env) [] (0x10#8 :: littleBytes 3 n ++ input) (n, 0) out := by
  refine Runs.bind_nil (checkBuffers_runs hl []) ?_
  refine ((inByte_decodes 0x10#8).runs []).bind (b2 := littleBytes 3 n ++ input) ?_
  rw [if_neg (by simp)]
  refine ((inBytes_decodes 3 n hn).runs []).bind ?_
  exact Runs.bind_nil (checkDeclared_runs hroom []) (h.nil_bind (.pure _ _))

/-- The four bytes of an LZ11 header are the tag and the length (40_decompressors.md R118). -/
theorem littleBytes_tagged (tag : Byte) (n : Nat) : littleBytes 4 (tag.toNat + 256 * n) = tag :: littleBytes 3 n := by
  have htag := tag.isLt
  rw [littleBytes, show (tag.toNat + 256 * n) / 256 = n by omega]
  congr 1
  apply BitVec.eq_of_toNat_eq
  rw [BitVec.toNat_ofNat]
  omega

theorem lz11Command_runs (hl : env.buffersLegal = true) (tag : Byte) (hn : n < 2 ^ 24) (hroom : n ≤ env.dstLen)
    (h : Runs env stop (lz11Body env n) [] input () out) :
    Runs env stop (lz11Command env) [] (tag :: littleBytes 3 n ++ input) (n, 0) out := by
  have htag := tag.isLt
  have hlength : bits (tag.toNat + 256 * n) 31 8 = n := by
    rw [bits, Nat.shiftRight_eq_div_pow]
    omega
  rw [← littleBytes_tagged]
  refine Runs.bind_nil (checkBuffers_runs hl []) ?_
  refine ((inBytes_decodes 4 (tag.toNat + 256 * n) (by omega)).runs []).bind ?_
  rw [hlength]
  exact Runs.bind_nil (checkDeclared_runs hroom []) (h.nil_bind (.pure _ _))

theorem contCommand_runs (hl : env.buffersLegal = true) {m : Nat} (hm : m < 5) (hn : n < 2 ^ 29)
    (hroom : n ≤ env.dstLen) (h : Runs env stop (containerBody env m n) [] input () out) :
    Runs env stop (contCommand env) [] (littleBytes 4 (8 * n + m) ++ input) (n, m) out := by
  have hmethod : bits (8 * n + m) 2 0 = m := by
    rw [bits, Nat.shiftRight_zero]
    omega
  have hlength : bits (8 * n + m) 31 3 = n := by
    rw [bits, Nat.shiftRight_eq_div_pow]
    omega
  refine Runs.bind_nil (checkBuffers_runs hl []) ?_
  refine ((inBytes_decodes 4 (8 * n + m) (by omega)).runs []).bind ?_
  rw [hmethod, hlength, if_neg (Nat.not_le.mpr hm)]
  exact Runs.bind_nil (checkDeclared_runs hroom []) (h.nil_bind (.pure _ _))

theorem sizedCommand_runs {body : Env → Nat → Eng Unit} (hl : env.buffersLegal = true) (hn : env.param0 ≤ env.dstLen)
    (h : Runs env stop (body env env.param0) [] input () out) :
    Runs env stop (sizedCommand body env) [] input (env.param0, 0) out := by
  refine Runs.bind_nil (require_runs (decide_eq_true hn) []) ?_
  exact Runs.bind_nil (checkBuffers_runs hl []) (h.nil_bind (.pure _ _))

/-- Settles O42: the body run forward group by group. -/
theorem rleDecompresses : Obligations.RleDecompresses := by
  intro s input out hbody hu ha hinput hlen hparam hroom
  refine endsWithBytes_of_runs rfl exec_rleDec (rleCommand_traced s) ha hinput hlen fun stop => ?_
  rw [← hparam]
  refine sizedCommand_runs ((buffersLegal_iff s).mpr hu) (hparam.trans_le hroom) ?_
  rw [State.env_param0, hparam]
  exact rleBody_runs (ha.serves hu) hbody hroom

/-- Settles O43: the header, then the body run forward group by group. -/
theorem lz10Decompresses : Obligations.Lz10Decompresses := by
  intro s input out hbody hlt hu ha hinput hlen hroom
  exact endsWithBytes_of_runs rfl exec_lz10Dec (lz10Command_traced s) ha hinput
    (by rw [List.length_append, List.length_cons, littleBytes_length]; exact hlen) fun stop =>
      lz10Command_runs ((buffersLegal_iff s).mpr hu) hlt hroom (lz10_form.body_runs (ha.serves hu) hbody hroom)

/-- Settles O44: as O43, with the three forms of `lz11Reference_decodes` and any tag. -/
theorem lz11Decompresses : Obligations.Lz11Decompresses := by
  intro s tag input out hbody hlt hu ha hinput hlen hroom
  exact endsWithBytes_of_runs rfl exec_lz11Dec (lz11Command_traced s) ha hinput
    (by rw [List.length_append, List.length_cons, littleBytes_length]; exact hlen) fun stop =>
      lz11Command_runs ((buffersLegal_iff s).mpr hu) tag hlt hroom
        (lz11_form.body_runs (ha.serves hu) hbody hroom)

/-- Settles O46: the header, then the body of the method run forward. -/
theorem containerDecompresses : Obligations.ContainerDecompresses := by
  intro s m input out hbody hlt hu ha hinput hlen hroom
  have hserves := ha.serves hu
  refine endsWithBytes_of_runs rfl exec_contDec (contCommand_traced s) ha hinput
    (by rw [List.length_append, littleBytes_length]; exact hlen) fun stop => ?_
  obtain ⟨hm, hruns⟩ := containerBody_runs (stop := stop) hserves hbody hroom
  exact contCommand_runs ((buffersLegal_iff s).mpr hu) hm hlt hroom hruns

end Sys2Proof.Machine
end

section
/-! PROOFS. Two runs of a command on the same operands and the same input bytes, side by side (10_state.md R33;
40_decompressors.md R110). `Coupled` says what the two working states share; `Alike` says of a piece that it ends alike
in both and leaves them coupled. One rule for each way of building a piece. -/
namespace Sys2Proof.Machine

variable {α β : Type} {env : Env} {m m' : Memory} {ordered : Bool}

/-- The working states of two runs that began with the memories `m` and `m'`: they agree on the cursor, the count, the
input, and every byte but those that neither has written. `ordered`: the output is appended, so they agree on all of
it. -/
structure Coupled (env : Env) (m m' : Memory) (ordered : Bool) (w w' : Work) : Prop where
  inPos : w'.inPos = w.inPos
  stored : w'.stored = w.stored
  input : ∀ a, env.input.has a = true → w'.mem.read a = w.mem.read a
  output : ordered = true → ∀ k < w.stored, w'.mem.read (env.dst + k) = w.mem.read (env.dst + k)
  bytes : ∀ b, w'.mem.read b = w.mem.read b ∨ (w.mem.read b = m.read b ∧ w'.mem.read b = m'.read b)

/-- With a count of output bytes in `before`, `x` ends alike in coupled working states and leaves them coupled; where it
yields a value, the count is in `after`. -/
def Alike (env : Env) (m m' : Memory) (ordered : Bool) (before : Nat → Prop) (x : Eng α) (after : α → Nat → Prop) :
    Prop :=
  ∀ w w', Coupled env m m' ordered w w' → before w.stored →
    ∃ r v v', x w = (r, v) ∧ x w' = (r, v') ∧ Coupled env m m' ordered v v' ∧ ∀ a, r = .ok a → after a v.stored

/-- No condition on the count of output bytes. -/
def anyCount (_ : Nat) : Prop := True

theorem Coupled.start (h : ∀ a, env.input.has a = true → m'.read a = m.read a) :
    Coupled env m m' ordered (Work.start m) (Work.start m') :=
  ⟨rfl, rfl, h, fun _ k hk => absurd hk (Nat.not_lt_zero k), fun _ => .inr ⟨rfl, rfl⟩⟩

theorem Coupled.advance {w w' : Work} (h : Coupled env m m' ordered w w') (k : Nat) :
    Coupled env m m' ordered (w.advance k) (w'.advance k) :=
  ⟨congrArg (· + k) h.inPos, h.stored, h.input, h.output, h.bytes⟩

/-- The same bytes stored in both. -/
theorem Coupled.put {w w' : Work} (h : Coupled env m m' ordered w w') {a : Nat} (bytes : List Byte)
    (ha : ordered = true → a = env.dst + w.stored) : Coupled env m m' ordered (w.put a bytes) (w'.put a bytes) := by
  have hread : ∀ b, (w'.mem.store a bytes).read b = (w.mem.store a bytes).read b
      ∨ ((b < a ∨ a + bytes.length ≤ b) ∧ (w.mem.store a bytes).read b = w.mem.read b
        ∧ (w'.mem.store a bytes).read b = w'.mem.read b) := by
    intro b
    by_cases hb : b < a ∨ a + bytes.length ≤ b
    · exact .inr ⟨hb, Memory.read_store_outside hb, Memory.read_store_outside hb⟩
    · obtain ⟨j, rfl⟩ : ∃ j, b = a + j := ⟨b - a, by omega⟩
      rw [Memory.read_store_inside (by omega), Memory.read_store_inside (by omega)]
      exact .inl rfl
  refine ⟨h.inPos, by rw [Work.put_stored, Work.put_stored, h.stored], fun b hb => ?_, fun ho k hk => ?_, fun b => ?_⟩
  · rcases hread b with heq | ⟨-, h1, h2⟩
    · exact heq
    · exact h2.trans ((h.input b hb).trans h1.symm)
  · rw [Work.put_stored] at hk
    rcases hread (env.dst + k) with heq | ⟨hout, h1, h2⟩
    · exact heq
    · have hlt : k < w.stored := by
        have := ha ho
        omega
      exact h2.trans ((h.output ho k hlt).trans h1.symm)
  · rcases hread b with heq | ⟨-, h1, h2⟩
    · exact .inl heq
    · rw [Work.put_mem, Work.put_mem, h1, h2]
      exact h.bytes b

/-! ## Rules -/

section Rules
variable {before : Nat → Prop} {after : α → Nat → Prop}

theorem Alike.pure {v : α} (h : ∀ k, before k → after v k) : Alike env m m' ordered before (pure v) after :=
  fun w w' hw hk => ⟨.ok v, w, w', rfl, rfl, hw, fun _ ha => by cases ha; exact h _ hk⟩

theorem Alike.raise {e : Err} {info : Nat} : Alike env m m' ordered before (raise e info) after :=
  fun w w' hw _ => ⟨_, w, w', rfl, rfl, hw, fun _ ha => by cases ha⟩

theorem Alike.bind {x : Eng α} {mid : α → Nat → Prop} {f : α → Eng β} {after : β → Nat → Prop}
    (hx : Alike env m m' ordered before x mid) (hf : ∀ v, Alike env m m' ordered (mid v) (f v) after) :
    Alike env m m' ordered before (x >>= f) after := by
  intro w w' hw hk
  obtain ⟨r, v, v', hrun, hrun', hv, hmid⟩ := hx w w' hw hk
  cases r with
  | error e => exact ⟨_, v, v', run_bind_error hrun, run_bind_error hrun', hv, fun _ ha => by cases ha⟩
  | ok a =>
    rw [run_bind_ok hrun, run_bind_ok hrun']
    exact hf a v v' hv (hmid a rfl)

theorem Alike.ite {c : Prop} [Decidable c] {x y : Eng α} (hx : c → Alike env m m' ordered before x after)
    (hy : ¬ c → Alike env m m' ordered before y after) :
    Alike env m m' ordered before (if c then x else y) after := by
  split
  · next h => exact hx h
  · next h => exact hy h

/-- A fact that does not depend on the count may be assumed. -/
theorem Alike.assume {c : Prop} {x : Eng α} (h : c → Alike env m m' ordered before x after) :
    Alike env m m' ordered (fun k => c ∧ before k) x after :=
  fun w w' hw hk => h hk.1 w w' hw hk.2

theorem Alike.weaken {before' : Nat → Prop} {x : Eng α} {after' : α → Nat → Prop}
    (h : Alike env m m' ordered before x after)
    (hbefore : ∀ k, before' k → before k) (hafter : ∀ v k, after v k → after' v k) :
    Alike env m m' ordered before' x after' := by
  intro w w' hw hk
  obtain ⟨r, v, v', hrun, hrun', hv, hpost⟩ := h w w' hw (hbefore _ hk)
  exact ⟨r, v, v', hrun, hrun', hv, fun a ha => hafter a _ (hpost a ha)⟩

/-- The cursor, which is the same in both. -/
theorem Alike.inPos_bind {f : Nat → Eng α} (h : ∀ p, Alike env m m' ordered before (f p) after) :
    Alike env m m' ordered before (inPos >>= f) after := by
  intro w w' hw hk
  rw [Machine.inPos_bind, Machine.inPos_bind, hw.inPos]
  exact h _ w w' hw hk

/-- An error at the cursor. -/
theorem Alike.raiseAtCursor {e : Err} :
    Alike env m m' ordered before (inPos >>= fun p => Machine.raise e p) after :=
  .inPos_bind fun _ => .raise

/-- The count of output bytes, which is the same in both. -/
theorem Alike.outLen_bind {f : Nat → Eng α} (h : ∀ k, before k → Alike env m m' ordered (· = k) (f k) after) :
    Alike env m m' ordered before (outLen >>= f) after := by
  intro w w' hw hk
  rw [Machine.outLen_bind, Machine.outLen_bind, hw.stored]
  exact h _ hk w w' hw rfl

theorem Alike.repeatTimes {body : Eng Unit} (h : Alike env m m' ordered before body fun _ => before) (n : Nat) :
    Alike env m m' ordered before (repeatTimes body n) fun _ => before := by
  induction n with
  | zero => exact .pure fun _ h => h
  | succ n ih => exact .bind h fun _ => ih

theorem Alike.forFrom {body : Nat → Eng Unit} {n k : Nat}
    (h : ∀ j, k ≤ j → j < k + n → Alike env m m' ordered before (body j) fun _ => before) :
    Alike env m m' ordered before (forFrom body n k) fun _ => before := by
  induction n generalizing k with
  | zero => exact .pure fun _ h => h
  | succ n ih => exact .bind (h k (Nat.le_refl k) (by omega)) fun _ => ih fun j h1 h2 => h j (by omega) (by omega)

theorem Alike.collectFrom {body : Nat → Eng α} {n k : Nat}
    (h : ∀ j, k ≤ j → j < k + n → Alike env m m' ordered before (body j) fun _ => before) :
    Alike env m m' ordered before (collectFrom body n k) fun _ => before := by
  induction n generalizing k with
  | zero => exact .pure fun _ h => h
  | succ n ih =>
    refine .bind (h k (Nat.le_refl k) (by omega)) fun _ => ?_
    exact .bind (ih fun j h1 h2 => h j (by omega) (by omega)) fun _ => .pure fun _ h => h

end Rules

/-! ## The memory port -/

section Port
variable {before : Nat → Prop} {after : Unit → Nat → Prop}

/-- `MemRead` of bytes that are the same in both. -/
theorem memRead_alike_of {a n : Nat}
    (h : ∀ w w', Coupled env m m' ordered w w' → before w.stored →
      ∀ j < n, w'.mem.read (a + j) = w.mem.read (a + j)) :
    Alike env m m' ordered before (memRead env a n) fun _ => before := by
  intro w w' hw hk
  rcases memRead_cases env a n w with ⟨hall, hrun⟩ | ⟨j, hj, hrej, hbefore, hrun⟩
  · have hsame := Memory.little_congr (h w w' hw hk)
    exact ⟨_, w, w', hrun, by rw [memRead_ok hall, hsame], hw, fun _ _ => hk⟩
  · exact ⟨_, w, w', hrun, memRead_rejected w' hj hbefore hrej, hw, fun _ ha => by cases ha⟩

/-- `MemRead` inside the input buffer. -/
theorem memRead_alike {a n : Nat} (h : ∀ j < n, env.input.has (a + j) = true) :
    Alike env m m' ordered before (memRead env a n) fun _ => before :=
  memRead_alike_of fun _ _ hw _ j hj => hw.input _ (h j hj)

/-- An output byte read back. -/
theorem outByte_alike {j : Nat} (h : ∀ k, before k → j < k) :
    Alike env m m' true before (outByte env j) fun _ => before :=
  memRead_alike_of fun _ _ hw hk i hi => by
    rw [show i = 0 by omega]
    exact hw.output rfl j (h _ hk)

theorem inByte_alike : Alike env m m' ordered before (inByte env) fun _ => before := by
  intro w w' hw hk
  rcases inByte_cases env w with ⟨hlt, hacc, hrun⟩ | ⟨hend, hrun⟩ | ⟨hlt, hrej, hrun⟩
  · refine ⟨_, _, w'.advance 1, hrun, ?_, hw.advance 1, fun _ _ => hk⟩
    rw [← hw.inPos] at hlt hacc
    rw [inByte_ok hlt hacc, hw.input _ (input_has hlt), hw.inPos]
  · refine ⟨_, w, w', hrun, ?_, hw, fun _ ha => by cases ha⟩
    rw [inByte_end (by rwa [hw.inPos]), hw.inPos]
  · refine ⟨_, w, w', hrun, ?_, hw, fun _ ha => by cases ha⟩
    rw [← hw.inPos] at hrej hlt ⊢
    rcases inByte_cases env w' with ⟨-, hacc, -⟩ | ⟨hend, -⟩ | ⟨-, -, hrun'⟩
    · exact Bool.noConfusion (hacc.symm.trans hrej)
    · exact absurd hlt (Nat.not_lt.mpr hend)
    · exact hrun'

theorem inBytes_alike (n : Nat) : Alike env m m' ordered before (inBytes env n) fun _ => before := by
  induction n with
  | zero => exact .pure fun _ h => h
  | succ n ih => exact .bind inByte_alike fun _ => .bind ih fun _ => .pure fun _ h => h

/-- `MemWrite` anywhere, where the output is not read back. -/
theorem memWrite_alike {a n v : Nat} :
    Alike env m m' false before (memWrite env a n v) fun _ => anyCount := by
  intro w w' hw _
  rcases memWrite_cases env a n v w with ⟨hall, hrun⟩ | ⟨j, hj, hrej, hbefore, hrun⟩
  · exact ⟨_, _, _, hrun, memWrite_ok hall, hw.put _ (fun h => by cases h), fun _ _ => trivial⟩
  · exact ⟨_, _, _, hrun, memWrite_rejected w' hj hbefore hrej, hw.put _ (fun h => by cases h), fun _ _ => trivial⟩

theorem append_alike {v : Nat} (h : ∀ k, before k → after () (k + 1)) :
    Alike env m m' ordered before (append env v) after := by
  intro w w' hw hk
  rcases append_cases env v w with ⟨hacc, hrun⟩ | ⟨hrej, hrun⟩
  · refine ⟨_, _, w'.put (env.dst + w.stored) [BitVec.ofNat 8 v], hrun, ?_, hw.put _ fun _ => rfl, fun _ _ => h _ hk⟩
    rw [← hw.stored] at hacc
    rw [append_ok hacc, hw.stored]
  · refine ⟨_, w, w', hrun, ?_, hw, fun _ ha => by cases ha⟩
    rw [← hw.stored] at hrej ⊢
    rcases append_cases env v w' with ⟨hacc, -⟩ | ⟨-, hrun'⟩
    · exact Bool.noConfusion (hacc.symm.trans hrej)
    · exact hrun'

theorem appendBytes_alike {n v : Nat} :
    Alike env m m' ordered anyCount (appendBytes env v n) fun _ => anyCount := by
  induction n generalizing v with
  | zero => exact .pure fun _ h => h
  | succ n ih => exact .bind (append_alike (after := fun _ => anyCount) fun _ _ => trivial) fun _ => ih

theorem require_alike {ok : Bool} :
    Alike env m m' ordered before (require ok) fun _ k => ok = true ∧ before k := by
  unfold require
  exact .ite (fun h => .pure fun _ hk => ⟨h, hk⟩) fun _ => .raise

theorem checkBuffers_alike : Alike env m m' ordered before (checkBuffers env) fun _ => before :=
  require_alike.weaken (fun _ h => h) fun _ _ h => h.2

theorem takeFormat_alike {fmt : BitVec 4} : Alike env m m' ordered before (takeFormat fmt) fun _ => before := by
  unfold takeFormat
  split
  · exact .pure fun _ h => h
  · exact .raise

theorem takeMode_alike {swz : BitVec 4} : Alike env m m' ordered before (takeMode swz) fun _ => before := by
  unfold takeMode
  split
  · exact .pure fun _ h => h
  · exact .raise

theorem takeBlockFormat_alike {fmt : BitVec 4} :
    Alike env m m' ordered before (takeBlockFormat fmt) fun _ => before := by
  refine .bind takeFormat_alike fun f => ?_
  split
  · exact .pure fun _ h => h
  · exact .pure fun _ h => h
  · exact .raise

theorem takeTexture_alike {mode : SwizzleMode} {pad : Bool} :
    Alike env m m' ordered before (takeTexture env mode pad)
      fun t k => (env.dimensionsLegal = true ∧ t = env.texture mode pad) ∧ before k :=
  .bind require_alike fun _ => .assume fun hd => .pure fun _ hk => ⟨⟨hd, rfl⟩, hk⟩

end Port
end Sys2Proof.Machine
end

section
/-! PROOFS. Every command's body is `Alike` in two runs on the same operands and the same input bytes, and what that
says of the command's end (40_decompressors.md R110). -/
namespace Sys2Proof.Machine

variable {α : Type} {env : Env} {m m' : Memory} {ordered : Bool} {before : Nat → Prop}

/-! ## Records and texels -/

theorem readPixel_alike {a n : Nat} (h : ∀ j < 4, env.input.has (a + 4 * n + j) = true) :
    Alike env m m' ordered before (readPixel env a n) fun _ => before := by
  have one : ∀ j < 4, Alike env m m' ordered before (memRead env (a + 4 * n + j) 1) fun _ => before := fun j hj =>
    memRead_alike fun i hi => by rw [show i = 0 by omega]; exact h j hj
  exact .bind (one 0 (by omega)) fun _ => .bind (one 1 (by omega)) fun _ => .bind (one 2 (by omega)) fun _ =>
    .bind (one 3 (by omega)) fun _ => .pure fun _ h => h

theorem writePixel_alike {a n : Nat} {c : Pixel} :
    Alike env m m' false before (writePixel env a n c) fun _ => anyCount :=
  .bind memWrite_alike fun _ => .bind memWrite_alike fun _ => .bind memWrite_alike fun _ => memWrite_alike

theorem writePixels_alike {a n : Nat} {cs : List Pixel} :
    Alike env m m' false anyCount (writePixels env a cs n) fun _ => anyCount := by
  induction cs generalizing n with
  | nil => exact .pure fun _ h => h
  | cons c cs ih => exact .bind writePixel_alike fun _ => ih

theorem readBlock_alike {a : Nat} {alpha : Bool} (h : ∀ j < blockBytes alpha, env.input.has (a + j) = true) :
    Alike env m m' ordered before (readBlock env a alpha) fun _ => before := by
  unfold readBlock
  cases alpha with
  | true =>
    refine .bind (memRead_alike fun j hj => ?_) fun _ =>
      .bind (memRead_alike fun j hj => h j (by simp [blockBytes]; omega)) fun _ => .pure fun _ hk => hk
    rw [Nat.add_assoc]
    exact h (8 + j) (by simp [blockBytes]; omega)
  | false =>
    exact .bind (memRead_alike fun j hj => h j (by simpa [blockBytes] using hj)) fun _ => .pure fun _ hk => hk

/-- The bytes of element `j` of `size` bytes lie in the input. -/
theorem input_has_element {size j count i : Nat} (hj : j < count) (hcount : count ≤ env.srcLen / size) (hi : i < size) :
    env.input.has (env.src + size * j + i) = true := by
  have h : size * (j + 1) ≤ env.srcLen :=
    (Nat.mul_le_mul_left size (hj.trans_le hcount)).trans (Nat.mul_div_le env.srcLen size)
  rw [Nat.mul_add, Nat.mul_one] at h
  rw [Nat.add_assoc]
  exact input_has (by omega)

theorem pixDecode_alike {f : PixelFormat} {j : Nat} (hj : j < pixelCount f env.srcLen) :
    Alike env m m' ordered before (pixDecode env f env.src j) fun _ => before := by
  unfold pixDecode
  split
  · next size d e hf =>
    rw [pixelCount_bytes hf] at hj
    refine .bind (memRead_alike fun i hi => ?_) fun _ => .pure fun _ hk => hk
    rw [Nat.mul_comm j size]
    exact input_has_element hj (Nat.le_refl _) hi
  · next d e hf =>
    rw [pixelCount_nibbles hf] at hj
    refine .bind (memRead_alike fun i hi => ?_) fun _ => .pure fun _ hk => hk
    rw [Nat.add_assoc]
    exact input_has (by omega)
  · next alpha hf =>
    rw [pixelCount_blocks hf] at hj
    exact .bind (readBlock_alike fun i hi => input_has_element (show j / 16 < _ by omega) (Nat.le_refl _) hi) fun _ =>
      .pure fun _ hk => hk

theorem etc1Encode_alike {pixels : List Pixel} {alpha : Bool} :
    Alike env m m' ordered anyCount (etc1Encode env pixels alpha) fun _ => anyCount := by
  unfold etc1Encode
  cases alpha with
  | true => exact .bind appendBytes_alike fun _ => .bind appendBytes_alike fun _ => .pure fun _ h => h
  | false => exact .bind appendBytes_alike fun _ => .pure fun _ h => h

theorem encodeByteTexels_alike {size : Nat} {e : Pixel → Nat} {cs : List Pixel} :
    Alike env m m' ordered anyCount (encodeByteTexels env size e cs) fun _ => anyCount := by
  induction cs with
  | nil => exact .pure fun _ h => h
  | cons c cs ih => exact .bind appendBytes_alike fun _ => ih

theorem encodeNibbleTexels_alike {e : Pixel → Nat} {cs : List Pixel} {pend : Option Nat} :
    Alike env m m' ordered anyCount (encodeNibbleTexels env e cs pend) fun _ => anyCount := by
  induction cs generalizing pend with
  | nil =>
    cases pend with
    | none => exact .pure fun _ h => h
    | some low => exact append_alike fun _ _ => trivial
  | cons c cs ih =>
    cases pend with
    | none => exact ih
    | some low => exact .bind (append_alike (after := fun _ => anyCount) fun _ _ => trivial) fun _ => ih

theorem encodeBlockTexels_alike {alpha : Bool} {n : Nat} {cs : List Pixel} :
    Alike env m m' ordered anyCount (encodeBlockTexels env alpha n cs) fun _ => anyCount := by
  induction n generalizing cs with
  | zero => exact .pure fun _ h => h
  | succ n ih => exact .bind etc1Encode_alike fun _ => ih

theorem pixEncode_alike {f : PixelFormat} {cs : List Pixel} :
    Alike env m m' ordered anyCount (pixEncode env f cs) fun _ => anyCount := by
  unfold pixEncode
  split
  · exact encodeByteTexels_alike
  · exact encodeNibbleTexels_alike
  · exact encodeBlockTexels_alike

theorem placeTexel_alike {f : PixelFormat} {mode : SwizzleMode} {t : Texture} {n : Nat}
    (hn : n < pixelCount f env.srcLen) :
    Alike env m m' false anyCount (placeTexel env f mode t n) fun _ => anyCount := by
  rw [placeTexel_eq]
  exact .bind (pixDecode_alike hn) fun _ => .ite (fun _ => writePixel_alike) fun _ => .pure fun _ h => h

theorem gatherPixel_alike {mode : SwizzleMode} {t : Texture} {n : Nat} (hw : 0 < t.w) (hh : 0 < t.h)
    (hs : 4 * t.w * t.h ≤ env.srcLen) : Alike env m m' ordered before (gatherPixel env mode t n) fun _ => before := by
  rw [gatherPixel_eq]
  have hin := record_in_raster (x := min (addressOf n t.stride mode).1 (t.w - 1))
    (y := min (addressOf n t.stride mode).2 (t.h - 1)) (w := t.w) (h := t.h) (by omega) (by omega)
  rw [Nat.mul_assoc] at hs
  refine readPixel_alike fun i hi => ?_
  rw [Nat.add_assoc]
  exact input_has (by omega)

/-! ## Streams -/

/-- A back-reference copy reads bytes that both runs have appended. -/
theorem copyback_alike {disp len n : Nat} (hdisp : 1 ≤ disp) :
    Alike env m m' true anyCount (copyback env disp len n) fun _ => anyCount := by
  refine .outLen_bind fun out _ => .ite (fun _ => .raiseAtCursor) fun hback => ?_
  refine .ite (fun _ => .raiseAtCursor) fun _ => ?_
  have round : Alike env m m' true (disp ≤ ·)
      (outLen >>= fun at_ => outByte env (at_ - disp) >>= fun v => append env v) fun _ => (disp ≤ ·) :=
    .outLen_bind fun k hk => .bind (outByte_alike fun _ h => by omega) fun _ => append_alike fun _ h => by omega
  exact (Alike.repeatTimes round len).weaken (fun k hk => by omega) fun _ _ _ => trivial

/-- A reference reader that ends alike, with a displacement of at least 1. -/
def ReadsAlike (env : Env) (m m' : Memory) (reference : Eng (Nat × Nat)) : Prop :=
  Alike env m m' true anyCount reference fun dl k => 1 ≤ dl.1 ∧ anyCount k

theorem lz10Reference_alike : ReadsAlike env m m' (lz10Reference env) :=
  .bind inByte_alike fun _ => .bind inByte_alike fun _ => .pure fun _ h => ⟨Nat.le_add_left .., h⟩

theorem lz11Reference_alike : ReadsAlike env m m' (lz11Reference env) := by
  refine .bind inByte_alike fun b1 => ?_
  split
  · exact .bind inByte_alike fun _ => .bind inByte_alike fun _ => .pure fun _ h => ⟨Nat.le_add_left .., h⟩
  · exact .bind inByte_alike fun _ => .bind inByte_alike fun _ => .bind inByte_alike fun _ =>
      .pure fun _ h => ⟨Nat.le_add_left .., h⟩
  · exact .bind inByte_alike fun _ => .pure fun _ h => ⟨Nat.le_add_left .., h⟩

theorem appendInput_alike :
    Alike env m m' ordered before (inByte env >>= fun v => append env v) fun _ => anyCount :=
  .bind inByte_alike fun _ => append_alike fun _ _ => trivial

section Lz
variable {reference : Eng (Nat × Nat)}

theorem lzToken_alike (href : ReadsAlike env m m' reference) {n flag : Nat} :
    Alike env m m' true anyCount (lzToken env reference n flag) fun _ => anyCount :=
  .ite (fun _ => appendInput_alike) fun _ => .bind href fun _ => .assume copyback_alike

theorem lzGroup_alike (href : ReadsAlike env m m' reference) {n flags : Nat} (k : Nat) :
    Alike env m m' true anyCount (lzGroup env reference n flags k) fun _ => anyCount := by
  induction k with
  | zero => exact .pure fun _ h => h
  | succ k ih =>
    refine .outLen_bind fun out _ => .ite (fun _ => .pure fun _ _ => trivial) fun _ => ?_
    exact .bind ((lzToken_alike href).weaken (fun _ _ => trivial) fun _ _ h => h) fun _ => ih

theorem lzBody_alike (href : ReadsAlike env m m' reference) {n : Nat} (bound : Nat) :
    Alike env m m' true anyCount (lzBody env reference n bound) fun _ => anyCount := by
  induction bound with
  | zero => exact .pure fun _ h => h
  | succ bound ih =>
    refine .outLen_bind fun out _ => .ite (fun _ => ?_) fun _ => .pure fun _ _ => trivial
    refine .bind inByte_alike fun flags => ?_
    exact .bind ((lzGroup_alike href 8).weaken (fun _ _ => trivial) fun _ _ h => h) fun _ => ih

end Lz

theorem rleGroup_alike {n : Nat} : Alike env m m' ordered before (rleGroup env n) fun _ => anyCount := by
  have any : ∀ {out cnt : Nat} {body : Eng Unit}, (Alike env m m' ordered anyCount body fun _ => anyCount) →
      Alike env m m' ordered (· = out) (repeatTimes body cnt) fun _ => anyCount := fun h =>
    (Alike.repeatTimes h _).weaken (fun _ _ => trivial) fun _ _ h => h
  refine .bind inByte_alike fun f => .ite (fun _ => .bind inByte_alike fun v => ?_) fun _ => ?_
  · exact .outLen_bind fun out _ => .ite (fun _ => .raiseAtCursor) fun _ => any (append_alike fun _ _ => trivial)
  · exact .outLen_bind fun out _ => .ite (fun _ => .raiseAtCursor) fun _ => any appendInput_alike

theorem rleLoop_alike {n : Nat} (bound : Nat) :
    Alike env m m' ordered anyCount (rleLoop env n bound) fun _ => anyCount := by
  induction bound with
  | zero => exact .pure fun _ h => h
  | succ bound ih =>
    refine .outLen_bind fun out _ => .ite (fun _ => ?_) fun _ => .pure fun _ _ => trivial
    exact .bind rleGroup_alike fun _ => ih

theorem huffRefill_alike (h : HuffState) : Alike env m m' ordered before (huffRefill env h) fun _ => before :=
  .ite (fun _ => .bind (inBytes_alike 4) fun _ => .pure fun _ hk => hk) fun _ => .pure fun _ hk => hk

theorem huffEmit_alike {wide : Bool} {leaf : Nat} {pend : Option Nat} :
    Alike env m m' ordered anyCount (huffEmit env wide leaf pend) fun _ => anyCount := by
  have store : ∀ v : Nat, Alike env m m' ordered anyCount (append env v) fun _ => anyCount := fun v =>
    append_alike fun _ _ => trivial
  refine .ite (fun _ => .bind (store leaf) fun _ => .pure fun _ h => h) fun _ => ?_
  cases pend with
  | none => exact .pure fun _ h => h
  | some low => exact .bind (store _) fun _ => .pure fun _ h => h

theorem huffWalk_alike {wide : Bool} {tree : List Nat} {nsym : Nat} (bound : Nat) (h : HuffState) :
    Alike env m m' ordered anyCount (huffWalk env wide tree nsym bound h) fun _ => anyCount := by
  induction bound generalizing h with
  | zero => exact .ite (fun _ => .raiseAtCursor) fun _ => .pure fun _ hk => hk
  | succ bound ih =>
    refine .ite (fun _ => .bind (mid := fun _ => anyCount) ?_ fun h' => ih h') fun _ => .pure fun _ hk => hk
    refine .bind (huffRefill_alike h) fun h1 => .ite (fun _ => .raiseAtCursor) fun _ => ?_
    exact .ite (fun _ => .bind huffEmit_alike fun _ => .pure fun _ hk => hk) fun _ => .pure fun _ hk => hk

theorem huffBody_alike {n : Nat} {wide : Bool} :
    Alike env m m' ordered anyCount (huffBody env n wide) fun _ => anyCount := by
  refine .ite (fun _ => .pure fun _ h => h) fun _ => .bind (mid := fun _ => anyCount) ?_ fun tree => huffWalk_alike _ _
  exact .bind inByte_alike fun _ => .bind (.collectFrom fun _ _ _ => inByte_alike) fun _ => .pure fun _ h => h

theorem containerBody_alike {mth n : Nat} :
    Alike env m m' true anyCount (containerBody env mth n) fun _ => anyCount := by
  unfold containerBody
  split
  · exact .repeatTimes appendInput_alike n
  · exact lzBody_alike lz10Reference_alike n
  · exact huffBody_alike
  · exact huffBody_alike
  · exact rleLoop_alike n

theorem checkDeclared_alike {n : Nat} : Alike env m m' ordered before (checkDeclared env n) fun _ => before :=
  .ite (fun _ => .raiseAtCursor) fun _ => .pure fun _ h => h

/-! ## The commands -/

/-- `exec i` runs a body that ends alike in two runs on the same operands and input. -/
def RunsAlike (i : Instr) : Prop :=
  ∃ body, (∀ s, exec i s = runCommand s body) ∧ ∃ ordered, ∀ env m m',
    Alike env m m' ordered anyCount (body env) fun _ => anyCount

theorem done_alike {r : Nat × Nat} : Alike env m m' ordered anyCount (pure r) fun _ => anyCount := .pure fun _ h => h

theorem etc1Dec_alike (fmt : BitVec 4) : RunsAlike (.etc1Dec fmt) := by
  refine ⟨_, fun _ => rfl, false, fun env m m' => ?_⟩
  refine .bind takeBlockFormat_alike fun alpha => .bind require_alike fun _ => .assume fun hin => ?_
  refine .bind require_alike fun _ => .assume fun _ => .bind checkBuffers_alike fun _ => ?_
  rw [decide_eq_true_eq] at hin
  exact .bind (readBlock_alike fun j hj => input_has (by omega)) fun _ => .bind writePixels_alike fun _ => done_alike

theorem etc1Enc_alike (fmt : BitVec 4) : RunsAlike (.etc1Enc fmt) := by
  refine ⟨_, fun _ => rfl, true, fun env m m' => ?_⟩
  refine .bind takeBlockFormat_alike fun alpha => .bind require_alike fun _ => .assume fun hin => ?_
  refine .bind require_alike fun _ => .assume fun _ => .bind checkBuffers_alike fun _ => ?_
  rw [decide_eq_true_eq] at hin
  refine .bind (.collectFrom fun j _ hj => readPixel_alike fun i hi => ?_) fun _ =>
    .bind etc1Encode_alike fun _ => done_alike
  rw [Nat.add_assoc]
  exact input_has (by omega)

theorem pixDec_alike (fmt : BitVec 4) : RunsAlike (.pixDec fmt) := by
  refine ⟨_, fun _ => rfl, false, fun env m m' => ?_⟩
  refine .bind takeFormat_alike fun f => .bind require_alike fun _ => .assume fun _ => ?_
  refine .bind checkBuffers_alike fun _ => ?_
  refine .bind (.forFrom fun j _ hj => ?_) fun _ => done_alike
  exact .bind (pixDecode_alike (by omega)) fun _ => writePixel_alike

theorem pixEnc_alike (fmt : BitVec 4) : RunsAlike (.pixEnc fmt) := by
  refine ⟨_, fun _ => rfl, true, fun env m m' => ?_⟩
  refine .bind takeFormat_alike fun f => .bind require_alike fun _ => .assume fun _ => ?_
  refine .bind require_alike fun _ => .assume fun hin => .bind require_alike fun _ => .assume fun _ => ?_
  refine .bind checkBuffers_alike fun _ => ?_
  rw [decide_eq_true_eq] at hin
  refine .bind (.collectFrom fun j _ hj => readPixel_alike fun i hi => ?_) fun _ =>
    .bind pixEncode_alike fun _ => done_alike
  rw [Nat.add_assoc]
  exact input_has (by omega)

theorem texDec_alike (fmt swz : BitVec 4) (pad : Bool) : RunsAlike (.texDec fmt swz pad) := by
  refine ⟨_, fun _ => rfl, false, fun env m m' => ?_⟩
  refine .bind takeFormat_alike fun f => .bind takeMode_alike fun mode => .bind takeTexture_alike fun t => ?_
  refine .assume fun _ => .bind require_alike fun _ => .assume fun hin => ?_
  refine .bind require_alike fun _ => .assume fun _ => .bind checkBuffers_alike fun _ => ?_
  rw [decide_eq_true_eq] at hin
  exact .bind (.forFrom fun j _ hj => placeTexel_alike (by omega)) fun _ => done_alike

theorem texEnc_alike (fmt swz : BitVec 4) (pad : Bool) : RunsAlike (.texEnc fmt swz pad) := by
  refine ⟨_, fun _ => rfl, true, fun env m m' => ?_⟩
  refine .bind takeFormat_alike fun f => .bind takeMode_alike fun mode => .bind takeTexture_alike fun t => ?_
  refine .assume fun ht => .bind require_alike fun _ => .assume fun hin => ?_
  refine .bind require_alike fun _ => .assume fun _ => .bind checkBuffers_alike fun _ => ?_
  rw [decide_eq_true_eq] at hin
  obtain ⟨hd, rfl⟩ := ht
  have hpos : 0 < env.width ∧ 0 < env.height := by
    simp [Env.dimensionsLegal] at hd
    omega
  exact .bind (.collectFrom fun j _ _ => gatherPixel_alike hpos.1 hpos.2 hin) fun _ =>
    .bind pixEncode_alike fun _ => done_alike

theorem sizedCommand_alike {i : Instr} {body : Env → Nat → Eng Unit}
    (hexec : ∀ s, exec i s = runCommand s (sizedCommand body))
    (hbody : ∀ env n m m', Alike env m m' true anyCount (body env n) fun _ => anyCount) : RunsAlike i :=
  ⟨_, hexec, true, fun _ _ _ => .bind require_alike fun _ => .assume fun _ => .bind checkBuffers_alike fun _ =>
    .bind (hbody _ _ _ _) fun _ => done_alike⟩

theorem lz10Dec_alike : RunsAlike .lz10Dec :=
  ⟨_, exec_lz10Dec, true, fun _ _ _ => .bind checkBuffers_alike fun _ => .bind inByte_alike fun _ =>
    .ite (fun _ => .raiseAtCursor) fun _ => .bind (inBytes_alike 3) fun n => .bind checkDeclared_alike fun _ =>
      .bind (lzBody_alike lz10Reference_alike n) fun _ => done_alike⟩

theorem lz11Dec_alike : RunsAlike .lz11Dec :=
  ⟨_, exec_lz11Dec, true, fun _ _ _ => .bind checkBuffers_alike fun _ => .bind (inBytes_alike 4) fun _ =>
    .bind checkDeclared_alike fun _ => .bind (lzBody_alike lz11Reference_alike _) fun _ => done_alike⟩

theorem contDec_alike : RunsAlike .contDec :=
  ⟨_, exec_contDec, true, fun _ _ _ => .bind checkBuffers_alike fun _ => .bind (inBytes_alike 4) fun _ =>
    .ite (fun _ => .raiseAtCursor) fun _ => .bind checkDeclared_alike fun _ => .bind containerBody_alike fun _ =>
      done_alike⟩

/-- Every command ends alike. -/
theorem command_alike (i : Instr) : RunsAlike i := by
  cases i with
  | nop => exact ⟨_, fun _ => rfl, true, fun _ _ _ => done_alike⟩
  | etc1Dec fmt => exact etc1Dec_alike fmt
  | etc1Enc fmt => exact etc1Enc_alike fmt
  | swzAddr swz =>
    exact ⟨_, fun _ => rfl, true, fun _ _ _ => .bind takeMode_alike fun _ => .bind require_alike fun _ =>
      .assume fun _ => done_alike⟩
  | texDim swz pad =>
    exact ⟨_, fun _ => rfl, true, fun _ _ _ => .bind takeMode_alike fun _ => .bind takeTexture_alike fun _ =>
      .assume fun _ => done_alike⟩
  | lz10Dec => exact lz10Dec_alike
  | lz11Dec => exact lz11Dec_alike
  | rleDec => exact sizedCommand_alike exec_rleDec fun _ n _ _ => rleLoop_alike n
  | contDec => exact contDec_alike
  | huff4Dec => exact sizedCommand_alike exec_huff4Dec fun _ _ _ _ => huffBody_alike
  | huff8Dec => exact sizedCommand_alike exec_huff8Dec fun _ _ _ _ => huffBody_alike
  | pixDec fmt => exact pixDec_alike fmt
  | pixEnc fmt => exact pixEnc_alike fmt
  | texDec fmt swz pad => exact texDec_alike fmt swz pad
  | texEnc fmt swz pad => exact texEnc_alike fmt swz pad

/-! ## The end of the command -/

variable {i : Instr} {s t : State}

/-- A platform that rejects no access to the buffers lets every command end without BusFault. -/
theorem exec_no_busFault (ha : s.BusAccepts) (he : exec i s = .next t) : t.status.errCode ≠ some .busFault := by
  intro hc
  have read : ∀ a, s.env.input.has a = true ∨ s.env.output.has a = true → s.platform.rejects a .read = false := by
    rintro a (h | h)
    · obtain ⟨hle, hlt⟩ := (s.input_has a).mp h
      simpa [Nat.add_sub_cancel' hle] using ha.input (a - s.srcAddr.toNat) (by omega)
    · obtain ⟨hle, hlt⟩ := (s.output_has a).mp h
      simpa [Nat.add_sub_cancel' hle] using ha.readBack (a - s.dstAddr.toNat) (by omega)
  rcases exec_busFault_address he hc with ⟨hrej, hin⟩ | ⟨hrej, hin⟩
  · exact Bool.noConfusion ((read _ hin).symm.trans hrej)
  · obtain ⟨hle, hlt⟩ := (s.output_has _).mp hin
    have hacc := ha.output (t.errInfo.toNat - s.dstAddr.toNat) (by omega)
    rw [Nat.add_sub_cancel' hle] at hacc
    exact Bool.noConfusion (hacc.symm.trans hrej)

/-- A command that does not end with BusFault ends as its body does. -/
theorem exec_eq_endWith {body : Env → Eng (Nat × Nat)} (hexec : ∀ s, exec i s = runCommand s body)
    {r : Except Raise (Nat × Nat)} {w : Work} (hrun : body s.env (Work.start s.mem) = (r, w)) (he : exec i s = .next t)
    (hc : t.status.errCode ≠ some .busFault) : t = s.endWith r w := by
  obtain rfl := Host.Outcome.next.inj (he.symm.trans (hexec s))
  cases r with
  | ok v => exact afterCommand_of_ok hrun
  | error e =>
    refine afterCommand_of_error hrun fun hb => hc ?_
    rw [afterCommand_of_busFault hrun hb]
    exact congrArg some hb

/-- Settles O10: the two runs end alike (`command_alike`), and no access is rejected. -/
theorem inputDeterminesOutcome : Obligations.InputDeterminesOutcome := by
  intro i s u t v hsrc hsrcLen hdst hdstLen hp0 hp1 hplatform ha hinput ht hv
  have henv : u.env = s.env := by simp only [State.env, hsrc, hsrcLen, hdst, hdstLen, hp0, hp1, hplatform]
  have hu : u.BusAccepts := by
    refine ⟨?_, ?_, ?_⟩ <;> simp only [hsrc, hsrcLen, hdst, hdstLen, hplatform]
    · exact ha.input
    · exact ha.output
    · exact ha.readBack
  obtain ⟨body, hexec, ordered, halike⟩ := command_alike i
  have hstart : Coupled s.env s.mem u.mem ordered (Work.start s.mem) (Work.start u.mem) := .start fun a h => by
    obtain ⟨hle, hlt⟩ := (s.input_has a).mp h
    simpa [Nat.add_sub_cancel' hle] using hinput (a - s.srcAddr.toNat) (by omega)
  obtain ⟨r, w, w', hrun, hrun', hw, -⟩ := halike s.env s.mem u.mem _ _ hstart trivial
  rw [← henv] at hrun'
  obtain rfl := exec_eq_endWith hexec hrun ht (exec_no_busFault ha ht)
  obtain rfl := exec_eq_endWith hexec hrun' hv (exec_no_busFault hu hv)
  simp only [State.endWith_mem]
  cases r with
  | ok a => exact ⟨rfl, rfl, rfl, rfl, hw.bytes⟩
  | error e => exact ⟨rfl, congrArg (BitVec.ofNat 32) hw.stored, rfl, rfl, hw.bytes⟩

end Sys2Proof.Machine
end

section
/-! PROOFS. What a piece of a decompressor has read and written where it yields a value: `Yields`, the inverse of
`Runs`, with one rule for each way of building a piece (20_memory.md R66, R67). -/
namespace Sys2Proof.Machine

open Sys2Proof.Reference

variable {α β : Type} {env : Env} {stop : Raise} {out : List Byte}

/-- After the output `out`, `x` yields a value only where the bytes it has read, the value and the output it leaves are
`good`. -/
def Yields (env : Env) (stop : Raise) (x : Eng α) (out : List Byte) (good : List Byte → α → List Byte → Prop) : Prop :=
  ∀ rest w v w', Feeds env stop out rest w → x w = (.ok v, w') →
    ∃ bytes rest' out', rest = bytes ++ rest' ∧ Feeds env stop out' rest' w' ∧ good bytes v out'

/-! ## Rules -/

theorem run_bind_eq_ok {x : Eng α} {f : α → Eng β} {w w' : Work} {v : β} (h : (x >>= f) w = (.ok v, w')) :
    ∃ u w1, x w = (.ok u, w1) ∧ f u w1 = (.ok v, w') := by
  rw [run_bind] at h
  rcases hx : x w with ⟨r | u, w1⟩
  · rw [hx] at h
    cases (Prod.mk.inj h).1
  · rw [hx] at h
    exact ⟨u, w1, rfl, h⟩

section Rules
variable {good : List Byte → β → List Byte → Prop}

theorem Yields.pure {v : β} (h : good [] v out) : Yields env stop (pure v) out good := by
  intro rest w u w' hw hrun
  obtain ⟨hu, rfl⟩ := Prod.mk.inj hrun
  obtain rfl := Except.ok.inj hu
  exact ⟨[], rest, out, rfl, hw, h⟩

theorem Yields.raiseAtCursor {e : Err} : Yields env stop (inPos >>= fun p => raise e p) out good := by
  intro rest w v w' _ hrun
  cases (Prod.mk.inj hrun).1

theorem Yields.ite {c : Prop} [Decidable c] {x y : Eng β} (hx : c → Yields env stop x out good)
    (hy : ¬ c → Yields env stop y out good) : Yields env stop (if c then x else y) out good := by
  split
  · next h => exact hx h
  · next h => exact hy h

theorem Yields.bind {x : Eng α} {f : α → Eng β} {mid : List Byte → α → List Byte → Prop}
    (hx : Yields env stop x out mid)
    (hf : ∀ b1 v out1, mid b1 v out1 → Yields env stop (f v) out1 fun b2 => good (b1 ++ b2)) :
    Yields env stop (x >>= f) out good := by
  intro rest w v w' hw hrun
  obtain ⟨u, w1, h1, h2⟩ := run_bind_eq_ok hrun
  obtain ⟨b1, rest1, out1, rfl, hw1, hmid⟩ := hx rest w u w1 hw h1
  obtain ⟨b2, rest2, out2, rfl, hw2, hgood⟩ := hf b1 u out1 hmid rest1 w1 v w' hw1 h2
  exact ⟨b1 ++ b2, rest2, out2, (List.append_assoc ..).symm, hw2, hgood⟩

theorem Yields.post {x : Eng β} {good' : List Byte → β → List Byte → Prop} (h : Yields env stop x out good)
    (hgood : ∀ bytes v out', good bytes v out' → good' bytes v out') : Yields env stop x out good' := by
  intro rest w v w' hw hrun
  obtain ⟨bytes, rest', out', hrest, hw', h⟩ := h rest w v w' hw hrun
  exact ⟨bytes, rest', out', hrest, hw', hgood _ _ _ h⟩

/-- A run that yields a value is the one that `Runs` tells of. -/
theorem Runs.eq_of_ok {x : Eng β} {u v : β} {bytes rest out' : List Byte} {w w' : Work}
    (h : Runs env stop x out bytes v out') (hw : Feeds env stop out (bytes ++ rest) w) (hrun : x w = (.ok u, w')) :
    v = u ∧ Feeds env stop out' rest w' := by
  obtain ⟨w1, hrun1, hw1⟩ := h rest w hw
  obtain ⟨hu, rfl⟩ := Prod.mk.inj (hrun1.symm.trans hrun)
  exact ⟨Except.ok.inj hu, hw1⟩

/-- A piece that reads nothing yields what it yields. -/
theorem Runs.yields {x : Eng β} {v : β} {out' : List Byte} (h : Runs env stop x out [] v out')
    (hgood : good [] v out') : Yields env stop x out good := by
  intro rest w u w' hw hrun
  obtain ⟨rfl, hw'⟩ := h.eq_of_ok hw hrun
  exact ⟨[], rest, out', rfl, hw', hgood⟩

/-- A piece that reads nothing, then another. -/
theorem Runs.then_yields {x : Eng α} {f : α → Eng β} {v : α} {out1 : List Byte} (hx : Runs env stop x out [] v out1)
    (hf : Yields env stop (f v) out1 good) : Yields env stop (x >>= f) out good :=
  Yields.bind (mid := fun b u o => b = [] ∧ u = v ∧ o = out1) (hx.yields ⟨rfl, rfl, rfl⟩) fun _ _ _ h => by
    obtain ⟨rfl, rfl, rfl⟩ := h
    exact hf

/-- A check, then the rest. -/
theorem Yields.require_bind {ok : Bool} {f : Unit → Eng β} (h : ok = true → Yields env stop (f ()) out good) :
    Yields env stop (require ok >>= f) out good := by
  cases hok : ok with
  | true => exact (require_runs rfl out).then_yields (h hok)
  | false =>
    intro rest w v w' _ hrun
    rw [require_bind_false f rfl] at hrun
    cases (Prod.mk.inj hrun).1

theorem Yields.checkBuffers_bind {f : Unit → Eng β} (h : env.buffersLegal = true → Yields env stop (f ()) out good) :
    Yields env stop (checkBuffers env >>= f) out good :=
  .require_bind h

/-- An input byte, then the rest. -/
theorem Yields.inByte_bind {f : Nat → Eng β}
    (h : ∀ b : Byte, Yields env stop (f b.toNat) out fun bytes => good (b :: bytes)) :
    Yields env stop (inByte env >>= f) out good := by
  intro rest w v w' hw hrun
  cases rest with
  | nil =>
    obtain ⟨w1, hstop, -⟩ := (inByte_stops (env := env) (stop := stop) out).bind (f := f) w hw
    cases (Prod.mk.inj (hstop.symm.trans hrun)).1
  | cons b rest =>
    obtain ⟨w1, hbyte, hw1⟩ := (inByte_decodes b).runs out rest w hw
    rw [run_bind_ok hbyte] at hrun
    obtain ⟨bytes, rest', out', rfl, hw', hgood⟩ := h b rest w1 v w' hw1 hrun
    exact ⟨b :: bytes, rest', out', rfl, hw', hgood⟩

end Rules

/-! ## Several bytes -/

theorem inBytes_yields (n : Nat) :
    Yields env stop (inBytes env n) out fun bytes v out' => bytes = littleBytes n v ∧ v < 256 ^ n ∧ out' = out := by
  induction n with
  | zero => exact .pure ⟨rfl, Nat.one_pos, rfl⟩
  | succ n ih =>
    refine .inByte_bind fun b => .bind ih fun bytes v out' h => .pure ?_
    obtain ⟨rfl, hv, rfl⟩ := h
    have hb := b.isLt
    refine ⟨?_, by rw [Nat.pow_succ]; omega, rfl⟩
    rw [List.append_nil, littleBytes, show (b.toNat + 256 * v) / 256 = v by omega]
    congr 1
    apply BitVec.eq_of_toNat_eq
    rw [BitVec.toNat_ofNat]
    omega

theorem collectBytes_yields (n k : Nat) :
    Yields env stop (collectFrom (fun _ => inByte env) n k) out fun bytes v out' =>
      bytes.length = n ∧ v = bytes.map BitVec.toNat ∧ out' = out := by
  induction n generalizing k with
  | zero => exact .pure ⟨rfl, rfl, rfl⟩
  | succ n ih =>
    refine .inByte_bind fun b => .bind (ih (k + 1)) fun bytes v out' h => .pure ?_
    obtain ⟨rfl, rfl, rfl⟩ := h
    rw [List.append_nil]
    exact ⟨rfl, rfl, rfl⟩

/-- Bytes copied from the input to the output. -/
theorem copyInput_yields (he : env.Serves) (k : Nat) {out : List Byte} (hroom : out.length + k ≤ env.dstLen) :
    Yields env stop (repeatTimes (inByte env >>= fun v => append env v) k) out fun bytes _ out' =>
      bytes.length = k ∧ out' = out ++ bytes := by
  induction k generalizing out with
  | zero => exact .pure ⟨rfl, (List.append_nil out).symm⟩
  | succ k ih =>
    refine .bind (mid := fun bytes _ out' => ∃ b, bytes = [b] ∧ out' = out ++ [b]) (.inByte_bind fun b => ?_) ?_
    · exact (appendByte_runs he (by omega) b).yields ⟨b, rfl, rfl⟩
    · rintro _ _ _ ⟨b, rfl, rfl⟩
      refine (ih (by rw [List.length_append, List.length_singleton]; omega)).post fun bytes _ out' h => ?_
      obtain ⟨rfl, rfl⟩ := h
      exact ⟨rfl, List.append_assoc ..⟩

end Sys2Proof.Machine
end

section
/-! PROOFS. An LZ or RLE body that comes to its end has read a legal body of the declared length (40_decompressors.md
R112, R114 to R116, R119, R120, R122, R123). -/
namespace Sys2Proof.Machine

open Sys2Proof.Reference

variable {env : Env} {stop : Raise} {n : Nat} {out : List Byte}

/-! ## Back-references -/

theorem nibblePair_eq {b : Byte} {hi lo : Nat} (hhi : hi % 16 = bits b.toNat 7 4) (hlo : lo % 16 = bits b.toNat 3 0) :
    nibblePair hi lo = b := by
  have hb := b.isLt
  apply BitVec.eq_of_toNat_eq
  rw [nibblePair_toNat, hhi, hlo]
  simp only [bits, Nat.shiftRight_eq_div_pow]
  omega

theorem lowByte_eq {b : Byte} {v : Nat} (h : v % 256 = b.toNat) : BitVec.ofNat 8 v = b :=
  BitVec.eq_of_toNat_eq (by rw [BitVec.toNat_ofNat]; exact h)

theorem nibble_lt (b : Byte) : bits b.toNat 7 4 < 16 ∧ bits b.toNat 3 0 < 16 := by
  simp only [bits]
  omega

/-- What a reader of back-references yields is a token in range, of which it has read the bytes. -/
structure LzReads (env : Env) (stop : Raise) (ok : LzToken → Bool) (enc : LzToken → List Byte)
    (reference : Eng (Nat × Nat)) : Prop where
  literal : ∀ v, ok (.literal v) = true
  back : ∀ out, Yields env stop reference out fun bytes dl out' =>
    ok (.back dl.1 dl.2) = true ∧ bytes = enc (.back dl.1 dl.2) ∧ out' = out

theorem lz10_reads : LzReads env stop LzToken.legal10 LzToken.bytes10 (lz10Reference env) := by
  refine ⟨fun _ => rfl, fun out => .inByte_bind fun b1 => .inByte_bind fun b2 => .pure ⟨?_, ?_, rfl⟩⟩ <;>
    have h1 := nibble_lt b1 <;> have h2 := b2.isLt
  · simp only [LzToken.legal10, Bool.and_eq_true, decide_eq_true_eq]
    omega
  · rw [LzToken.bytes10, nibblePair_eq (b := b1) (by dsimp only; omega) (by dsimp only; omega),
      lowByte_eq (b := b2) (by dsimp only; omega)]

theorem lz11_reads : LzReads env stop LzToken.legal11 LzToken.bytes11 (lz11Reference env) := by
  refine ⟨fun _ => rfl, fun out => .inByte_bind fun b1 => ?_⟩
  have h1 := nibble_lt b1
  rcases hform : bits b1.toNat 7 4 with _ | _ | k
  · refine .inByte_bind fun b2 => .inByte_bind fun b3 => .pure ?_
    have h2 := nibble_lt b2
    have h3 := b3.isLt
    refine ⟨by simp only [LzToken.legal11, Bool.and_eq_true, decide_eq_true_eq]; omega, ?_, rfl⟩
    rw [LzToken.bytes11, if_neg (by dsimp only; omega), if_pos (by dsimp only; omega),
      nibblePair_eq (b := b1) (by omega) (by dsimp only; omega),
      nibblePair_eq (b := b2) (by dsimp only; omega) (by dsimp only; omega),
      lowByte_eq (b := b3) (by dsimp only; omega)]
  · refine .inByte_bind fun b2 => .inByte_bind fun b3 => .inByte_bind fun b4 => .pure ?_
    have h2 := b2.isLt
    have h3 := nibble_lt b3
    have h4 := b4.isLt
    refine ⟨by simp only [LzToken.legal11, Bool.and_eq_true, decide_eq_true_eq]; omega, ?_, rfl⟩
    rw [LzToken.bytes11, if_neg (by dsimp only; omega), if_neg (by dsimp only; omega),
      nibblePair_eq (b := b1) (by omega) (by dsimp only; omega), lowByte_eq (b := b2) (by dsimp only; omega),
      nibblePair_eq (b := b3) (by dsimp only; omega) (by dsimp only; omega),
      lowByte_eq (b := b4) (by dsimp only; omega)]
  · refine .inByte_bind fun b2 => .pure ?_
    have h2 := b2.isLt
    refine ⟨by simp only [LzToken.legal11, Bool.and_eq_true, decide_eq_true_eq]; omega, ?_, rfl⟩
    rw [LzToken.bytes11, if_pos (by dsimp only; omega),
      nibblePair_eq (b := b1) (by dsimp only; omega) (by dsimp only; omega),
      lowByte_eq (b := b2) (by dsimp only; omega)]

theorem copyback_yields (he : env.Serves) (hn : n ≤ env.dstLen) {disp len : Nat} (hdisp : 1 ≤ disp) :
    Yields env stop (copyback env disp len n) out fun bytes _ out' =>
      bytes = [] ∧ (LzToken.back disp len).apply out = some out' ∧ out'.length ≤ n := by
  refine (outLen_runs out).then_yields (.ite (fun _ => .raiseAtCursor) fun hback => ?_)
  refine .ite (fun _ => .raiseAtCursor) fun hlen => ?_
  rw [Nat.not_lt] at hback hlen
  refine (copy_runs he hdisp len hback (hlen.trans hn)).yields ⟨rfl, ?_, ?_⟩
  · rw [LzToken.apply, if_pos hback]
  · rwa [copyBehind_length]

/-! ## Tokens and groups -/

section Form
variable {ok : LzToken → Bool} {enc : LzToken → List Byte} {reference : Eng (Nat × Nat)}

theorem LzReads.token_yields (hr : LzReads env stop ok enc reference) (hf : LzForm env stop ok enc reference)
    (he : env.Serves) (hn : n ≤ env.dstLen) (hlt : out.length < n) {flag : Nat} (hflag : flag < 2) :
    Yields env stop (lzToken env reference n flag) out fun bytes _ out' =>
      ∃ t : LzToken, ok t = true ∧ flag = t.flag.toNat ∧ bytes = enc t ∧ t.apply out = some out' ∧ out'.length ≤ n := by
  refine .ite (fun h0 => .inByte_bind fun b => ?_) fun h0 => .bind (hr.back out) fun bytes dl out' h => ?_
  · refine (appendByte_runs he (by omega) b).yields ⟨.literal b, hr.literal b, h0, (hf.literal b).symm, rfl, ?_⟩
    rw [List.length_append]
    exact hlt
  · obtain ⟨hok, rfl, rfl⟩ := h
    refine (copyback_yields he hn (hf.ranges _ _ hok).1).post fun bytes _ out' h => ?_
    obtain ⟨rfl, happly, hle⟩ := h
    exact ⟨.back dl.1 dl.2, hok, (show flag = 1 by omega), List.append_nil _, happly, hle⟩

theorem flagsTell_of_cons {flags k : Nat} {t : LzToken} {ts : List LzToken} (hbit : bitAt flags k = t.flag.toNat)
    (h : flagsTell flags k ts) : flagsTell flags (k + 1) (t :: ts) := by
  intro i hi
  cases i with
  | zero => exact hbit
  | succ i =>
    rw [List.getElem_cons_succ, show k + 1 - 1 - (i + 1) = k - 1 - i by omega]
    exact h i (Nat.lt_of_succ_lt_succ hi)

/-- The tokens `ts`, which the flag bits from bit `k - 1` down tell, are written as `bytes` and take the output from
`out` to `out'`: `k` tokens, or those up to the declared length `n`. -/
structure LzTokens (ok : LzToken → Bool) (enc : LzToken → List Byte) (n flags k : Nat) (out bytes out' : List Byte)
    (ts : List LzToken) : Prop where
  legal : ∀ t ∈ ts, ok t = true
  count : ts.length ≤ k
  tell : flagsTell flags k ts
  bytes : bytes = ts.flatMap enc
  expand : expandTokens out ts = some out'
  fits : out'.length ≤ n
  whole : ts.length = k ∨ out'.length = n

theorem LzTokens.none {flags k : Nat} (hle : out.length ≤ n) (h : k = 0 ∨ out.length = n) :
    LzTokens ok enc n flags k out [] out [] :=
  ⟨by simp, Nat.zero_le k, fun i hi => absurd hi (Nat.not_lt_zero i), rfl, rfl, hle, h.imp_left Eq.symm⟩

theorem LzTokens.cons {flags k : Nat} {t : LzToken} {ts : List LzToken} {bytes mid out' : List Byte}
    (h : LzTokens ok enc n flags k mid bytes out' ts) (hok : ok t = true) (hflag : bitAt flags k = t.flag.toNat)
    (happly : t.apply out = some mid) : LzTokens ok enc n flags (k + 1) out (enc t ++ bytes) out' (t :: ts) := by
  refine ⟨List.forall_mem_cons.mpr ⟨hok, h.legal⟩, Nat.succ_le_succ h.count, flagsTell_of_cons hflag h.tell, ?_, ?_,
    h.fits, h.whole.imp_left (congrArg (· + 1))⟩
  · rw [h.bytes, List.flatMap_cons]
  · rw [expandTokens, happly]
    exact h.expand

/-- The tokens of one flag byte. -/
theorem LzReads.group_yields (hr : LzReads env stop ok enc reference) (hf : LzForm env stop ok enc reference)
    (he : env.Serves) (hn : n ≤ env.dstLen) (flags k : Nat) {out : List Byte} (hle : out.length ≤ n) :
    Yields env stop (lzGroup env reference n flags k) out fun bytes _ out' =>
      ∃ ts, LzTokens ok enc n flags k out bytes out' ts := by
  induction k generalizing out with
  | zero => exact .pure ⟨[], .none hle (.inl rfl)⟩
  | succ k ih =>
    refine (outLen_runs out).then_yields (.ite (fun h => .pure ⟨[], .none hle (.inr h)⟩) fun hne => ?_)
    have hbit : bitAt flags k < 2 := Nat.mod_lt _ Nat.two_pos
    refine .bind (hr.token_yields hf he hn (by omega) hbit) fun b1 _ mid h => ?_
    obtain ⟨t, hok, hflag, rfl, happly, hmid⟩ := h
    refine (ih hmid).post fun b2 _ out' h => ?_
    obtain ⟨ts, hts⟩ := h
    exact ⟨t :: ts, hts.cons hok hflag happly⟩

theorem bool_eq_of_toNat_eq : ∀ {a b : Bool}, a.toNat = b.toNat → a = b := by decide

theorem LzGroup.legal_of_flagsTell {g : LzGroup} (hpos : 1 ≤ g.tokens.length) (hlen : g.tokens.length ≤ 8)
    (hok : ∀ t ∈ g.tokens, ok t = true) (htell : flagsTell g.flags.toNat 8 g.tokens) : g.legal ok = true := by
  simp only [LzGroup.legal, Bool.and_eq_true, decide_eq_true_eq, List.all_eq_true, List.mem_range, beq_iff_eq]
  refine ⟨⟨⟨hpos, hlen⟩, hok⟩, fun i hi => ?_⟩
  have hbit := htell i hi
  rw [bitAt_eq_testBit, show 8 - 1 - i = 7 - i by omega] at hbit
  rw [List.getD_eq_getElem _ _ (by simpa using hi), List.getElem_map, BitVec.getLsbD]
  exact bool_eq_of_toNat_eq hbit

theorem expandTokens_trans {ts us : List LzToken} {mid out' : List Byte} (h1 : expandTokens out ts = some mid)
    (h2 : expandTokens mid us = some out') : expandTokens out (ts ++ us) = some out' := by
  induction ts generalizing out with
  | nil =>
    obtain rfl := Option.some.inj h1
    exact h2
  | cons t ts ih =>
    obtain ⟨mid', ha, hrest⟩ := expandTokens_cons h1
    rw [List.cons_append, expandTokens, ha]
    exact ih hrest

/-! ## LZ bodies -/

/-- `bytes` are the groups that take the output from `out` to `out'`. -/
def LzGroups (ok : LzToken → Bool) (enc : LzToken → List Byte) (out bytes out' : List Byte) : Prop :=
  ∃ groups : List LzGroup, (∀ g ∈ groups, g.legal ok = true) ∧ groupsFull groups = true
    ∧ bytes = groups.flatMap (LzGroup.bytes enc) ∧ expandTokens out (groups.flatMap LzGroup.tokens) = some out'

/-- One more group in front, which is full unless it is the last. -/
theorem LzForm.groups_cons (hf : LzForm env stop ok enc reference) {g : LzGroup} {bytes mid out' : List Byte}
    (hlegal : g.legal ok = true) (hexpand : expandTokens out g.tokens = some mid)
    (hfull : g.tokens.length = 8 ∨ mid.length = out'.length) (h : LzGroups ok enc mid bytes out') :
    LzGroups ok enc out (g.bytes enc ++ bytes) out' := by
  obtain ⟨groups, hok, hgroups, rfl, hrest⟩ := h
  refine ⟨g :: groups, List.forall_mem_cons.mpr ⟨hlegal, hok⟩, ?_, rfl, expandTokens_trans hexpand hrest⟩
  cases groups with
  | nil => rfl
  | cons g' gs =>
    have hgrow := hf.expand_le (LzGroup.legal_of_mem_flatMap hok) hrest
    obtain ⟨hpos, -⟩ := LzGroup.legal_iff (hok g' List.mem_cons_self)
    rw [List.flatMap_cons, List.length_append] at hgrow
    rw [groupsFull, hgroups, Bool.and_true, decide_eq_true_eq]
    omega

theorem LzReads.body_yields (hr : LzReads env stop ok enc reference) (hf : LzForm env stop ok enc reference)
    (he : env.Serves) (hn : n ≤ env.dstLen) (bound : Nat) {out : List Byte} (hle : out.length ≤ n)
    (hbound : n ≤ out.length + bound) :
    Yields env stop (lzBody env reference n bound) out fun bytes _ out' =>
      LzGroups ok enc out bytes out' ∧ out'.length = n := by
  have done : ∀ {out : List Byte}, out.length ≤ n → n ≤ out.length → LzGroups ok enc out [] out ∧ out.length = n :=
    fun h h' => ⟨⟨[], by simp, rfl, rfl, rfl⟩, Nat.le_antisymm h h'⟩
  induction bound generalizing out with
  | zero => exact .pure (done hle hbound)
  | succ bound ih =>
    refine (outLen_runs out).then_yields (.ite (fun hlt => ?_) fun h => .pure (done hle (Nat.not_lt.mp h)))
    refine .inByte_bind fun flags => .bind (hr.group_yields hf he hn flags.toNat 8 hle) fun bytes _ mid h => ?_
    obtain ⟨ts, hoks, hlen, htell, rfl, hexpand, hmid, hend⟩ := h
    have hgrow := hf.expand_le hoks hexpand
    have hpos : 1 ≤ ts.length := by
      rcases ts with _ | ⟨t, ts⟩
      · obtain rfl := Option.some.inj hexpand
        simp only [List.length_nil] at hend
        omega
      · exact Nat.le_add_left 1 ts.length
    have hlegal : (LzGroup.mk flags ts).legal ok = true := LzGroup.legal_of_flagsTell hpos hlen hoks htell
    refine (ih hmid (by omega)).post fun b2 _ out' h => ?_
    obtain ⟨hgroups, rfl⟩ := h
    exact ⟨hf.groups_cons hlegal hexpand hend hgroups, rfl⟩

theorem LzReads.yields (hr : LzReads env stop ok enc reference) (hf : LzForm env stop ok enc reference)
    (he : env.Serves) (hn : n ≤ env.dstLen) :
    Yields env stop (lzBody env reference n n) [] fun bytes _ out' => LzBody ok enc bytes out' ∧ out'.length = n :=
  hr.body_yields hf he hn n (Nat.zero_le n) (by simp)

end Form

/-! ## RLE -/

theorem rleFlag_run {f : Byte} (h : bitAt f.toNat 7 = 1) : BitVec.ofNat 8 (128 + (bits f.toNat 6 0 + 3 - 3)) = f := by
  have hf := f.isLt
  apply lowByte_eq
  simp only [bitAt, bits, Nat.shiftRight_eq_div_pow] at h ⊢
  omega

theorem rleFlag_literals {f : Byte} (h : bitAt f.toNat 7 ≠ 1) : BitVec.ofNat 8 (bits f.toNat 6 0 + 1 - 1) = f := by
  have hf := f.isLt
  apply lowByte_eq
  simp only [bitAt, bits, Nat.shiftRight_eq_div_pow] at h ⊢
  omega

theorem rleCount_lt (v : Nat) : bits v 6 0 < 128 := by
  simp only [bits]
  omega

theorem rleGroup_yields (he : env.Serves) (hn : n ≤ env.dstLen) :
    Yields env stop (rleGroup env n) out fun bytes _ out' =>
      ∃ g : RleGroup, g.legal = true ∧ bytes = g.bytes ∧ out' = out ++ g.expand ∧ out'.length ≤ n := by
  refine .inByte_bind fun f => .ite (fun hrun => .inByte_bind fun v => ?_) fun hlit => ?_ <;>
    have hcount := rleCount_lt f.toNat <;>
    refine (outLen_runs out).then_yields (.ite (fun _ => .raiseAtCursor) fun hroom => ?_) <;> rw [Nat.not_lt] at hroom
  · refine (repeatAppend_runs he v _ (hroom.trans hn)).yields ⟨.run (bits f.toNat 6 0 + 3) v, ?_, ?_, rfl, ?_⟩
    · simp only [RleGroup.legal, Bool.and_eq_true, decide_eq_true_eq]
      omega
    · rw [RleGroup.bytes, rleFlag_run hrun]
    · rwa [List.length_append, List.length_replicate]
  · refine (copyInput_yields he _ (hroom.trans hn)).post fun vs _ out' h => ?_
    obtain ⟨hlen, rfl⟩ := h
    refine ⟨.literals vs, ?_, ?_, rfl, ?_⟩
    · simp only [RleGroup.legal, Bool.and_eq_true, decide_eq_true_eq]
      omega
    · rw [RleGroup.bytes, hlen, rleFlag_literals hlit]
    · rwa [List.length_append, hlen]

theorem rleLoop_yields (he : env.Serves) (hn : n ≤ env.dstLen) (bound : Nat) {out : List Byte} (hle : out.length ≤ n)
    (hbound : n ≤ out.length + bound) :
    Yields env stop (rleLoop env n bound) out fun bytes _ out' =>
      ∃ expansion, RleBody bytes expansion ∧ out' = out ++ expansion ∧ out'.length = n := by
  have done : ∀ {out : List Byte}, out.length ≤ n → n ≤ out.length →
      ∃ expansion, RleBody [] expansion ∧ out = out ++ expansion ∧ out.length = n := fun h h' =>
    ⟨[], ⟨[], by simp, rfl, rfl⟩, (List.append_nil _).symm, Nat.le_antisymm h h'⟩
  induction bound generalizing out with
  | zero => exact .pure (done hle hbound)
  | succ bound ih =>
    refine (outLen_runs out).then_yields (.ite (fun hlt => ?_) fun h => .pure (done hle (Nat.not_lt.mp h)))
    refine .bind (rleGroup_yields he hn) fun b1 _ mid h => ?_
    obtain ⟨g, hlegal, rfl, rfl, hmid⟩ := h
    have hpos := RleGroup.expand_pos hlegal
    refine (ih hmid (by rw [List.length_append]; omega)).post fun b2 _ out' h => ?_
    obtain ⟨_, ⟨groups, hlegals, rfl, rfl⟩, rfl, hlen⟩ := h
    exact ⟨_, ⟨g :: groups, List.forall_mem_cons.mpr ⟨hlegal, hlegals⟩, rfl, rfl⟩, List.append_assoc .., hlen⟩

theorem rleBody_yields (he : env.Serves) (hn : n ≤ env.dstLen) :
    Yields env stop (rleBody env n) [] fun bytes _ out' => RleBody bytes out' ∧ out'.length = n :=
  (rleLoop_yields (out := []) he hn n (Nat.zero_le n) (by simp)).post fun bytes _ out' h => by
    obtain ⟨_, hbody, rfl, hlen⟩ := h
    exact ⟨hbody, hlen⟩

theorem verbatimBody_yields (he : env.Serves) (hn : n ≤ env.dstLen) :
    Yields env stop (verbatimBody env n) [] fun bytes _ out' => bytes = out' ∧ out'.length = n :=
  (copyInput_yields he n (by simpa using hn)).post fun bytes _ out' h => by
    obtain ⟨hlen, rfl⟩ := h
    exact ⟨rfl, hlen⟩

end Sys2Proof.Machine
end

section
/-! PROOFS. A Huffman body that comes to its end has read a tree and the fewest words that hold the paths of its symbols
(41_huffman.md R160 to R166). -/
namespace Sys2Proof.Machine

open Sys2Proof.Reference

variable {env : Env} {stop : Raise} {n : Nat} {wide : Bool} {tree : List Byte}

/-! ## Paths -/

theorem leafOf_concat {a node : Nat} {path : List Bool} {b : Bool} (h : nodeAt tree a path = some node)
    (hin : ¬ tree.length ≤ childAddress tree node b) (hleaf : childLeaf tree node b = true) :
    leafOf tree a (path ++ [b]) = some (tree.getD (childAddress tree node b) 0) := by
  induction path generalizing a with
  | nil =>
    obtain rfl := Option.some.inj h
    rw [List.nil_append, leafOf, if_neg hin, if_pos hleaf]
    rfl
  | cons c path ih =>
    rw [nodeAt] at h
    split at h
    · cases h
    · next hc =>
      obtain ⟨hout, hinner⟩ : ¬ tree.length ≤ childAddress tree a c ∧ ¬ childLeaf tree a c = true := by simpa using hc
      rw [List.cons_append, leafOf, if_neg hout, if_neg hinner, ih h]

theorem nodeAt_concat {a node : Nat} {path : List Bool} {b : Bool} (h : nodeAt tree a path = some node)
    (hin : ¬ tree.length ≤ childAddress tree node b) (hleaf : ¬ childLeaf tree node b = true) :
    nodeAt tree a (path ++ [b]) = some (childAddress tree node b) := by
  induction path generalizing a with
  | nil =>
    obtain rfl := Option.some.inj h
    rw [List.nil_append, nodeAt, if_neg (by simp [hin, hleaf])]
    rfl
  | cons c path ih =>
    rw [nodeAt] at h
    split at h
    · cases h
    · next hc => rw [List.cons_append, nodeAt, if_neg hc, ih h]

/-- The cases of one bit of the walk. -/
theorem bitStep_cases {p q : Nat × List Byte} {b : Bool} (h : bitStep tree p b = some q) :
    ¬ tree.length ≤ childAddress tree p.1 b
      ∧ ((childLeaf tree p.1 b = true ∧ q = (1, p.2 ++ [tree.getD (childAddress tree p.1 b) 0]))
        ∨ (¬ childLeaf tree p.1 b = true ∧ q = (childAddress tree p.1 b, p.2))) := by
  unfold bitStep at h
  split at h
  · cases h
  · next hin =>
    split at h <;> obtain rfl := Option.some.inj h
    · next hleaf => exact ⟨hin, .inl ⟨hleaf, rfl⟩⟩
    · next hleaf => exact ⟨hin, .inr ⟨hleaf, rfl⟩⟩

theorem bitWalk_concat {p q : Nat × List Byte} {bs : List Bool} {b : Bool} (h : bitWalk tree p (bs ++ [b]) = some q) :
    ∃ p', bitWalk tree p bs = some p' ∧ bitStep tree p' b = some q := by
  rw [bitWalk_append] at h
  obtain ⟨p', h1, h2⟩ := Option.bind_eq_some_iff.mp h
  obtain ⟨q', hstep, hdone⟩ := bitWalk_cons h2
  obtain rfl := Option.some.inj hdone
  exact ⟨p', h1, hstep⟩

/-- The bits of a walk from the root are the paths of the symbols decoded, and a path to the node it stands at. -/
theorem paths_of_bitWalk (bs : List Bool) {node : Nat} {syms : List Byte}
    (h : bitWalk tree (1, []) bs = some (node, syms)) :
    ∃ (paths : List (List Bool)) (rest : List Bool), bs = paths.flatten ++ rest
      ∧ paths.map (leafOf tree 1) = syms.map some ∧ nodeAt tree 1 rest = some node := by
  induction bs using List.reverseRecOn generalizing node syms with
  | nil =>
    obtain ⟨rfl, rfl⟩ := Prod.mk.inj (Option.some.inj h)
    exact ⟨[], [], rfl, rfl, rfl⟩
  | append_singleton bs b ih =>
    obtain ⟨⟨node1, syms1⟩, h1, hstep⟩ := bitWalk_concat h
    obtain ⟨paths, rest, rfl, hpaths, hnode⟩ := ih h1
    obtain ⟨hin, ⟨hleaf, hq⟩ | ⟨hleaf, hq⟩⟩ := bitStep_cases hstep <;> obtain ⟨rfl, rfl⟩ := Prod.mk.inj hq
    · refine ⟨paths ++ [rest ++ [b]], [], by simp, ?_, rfl⟩
      rw [List.map_append, List.map_append, hpaths, List.map_singleton, List.map_singleton,
        leafOf_concat hnode hin hleaf]
    · exact ⟨paths, rest ++ [b], List.append_assoc .., hpaths, nodeAt_concat hnode hin hleaf⟩

/-- Every child has an address of at least 2. -/
theorem childAddress_ge (tree : List Byte) (a : Nat) (b : Bool) : 2 ≤ childAddress tree a b := by
  unfold childAddress
  omega

/-- Only the empty path leads back to the root. -/
theorem path_to_root {a : Nat} {path : List Bool} (h : nodeAt tree a path = some 1) : path = [] := by
  induction path using List.reverseRecOn with
  | nil => rfl
  | append_singleton path b ih =>
    have hwalk := bitWalk_of_nodeAt [] h
    obtain ⟨⟨node, syms⟩, -, hstep⟩ := bitWalk_concat hwalk
    obtain ⟨-, ⟨-, hq⟩ | ⟨-, hq⟩⟩ := bitStep_cases hstep
    · simp at hq
    · exact absurd ((childAddress_ge tree node b).trans_eq (Prod.mk.inj hq).1.symm) (by decide)

/-! ## The walk -/

/-- The bits `bs` of the current word and those of the words in `bytes` are the bits `used` and, fewer than a word, the
bits `left` (41_huffman.md R165). -/
def TakesBits (bs : List Bool) (bytes : List Byte) (used left : List Bool) : Prop :=
  left.length < 32 ∧ ∃ words : List Word, bytes = wordBytes words ∧ bs ++ words.flatMap wordBits = used ++ left

theorem TakesBits.none {bs : List Bool} (h : bs.length < 32) : TakesBits bs [] [] bs :=
  ⟨h, [], rfl, List.append_nil bs⟩

theorem TakesBits.trans {bs used used' left left' : List Bool} {b1 b2 : List Byte} (h : TakesBits bs b1 used left)
    (h' : TakesBits left b2 used' left') : TakesBits bs (b1 ++ b2) (used ++ used') left' := by
  obtain ⟨-, words, rfl, hbits⟩ := h
  obtain ⟨hlt, words', rfl, hbits'⟩ := h'
  refine ⟨hlt, words ++ words', List.flatMap_append.symm, ?_⟩
  rw [List.flatMap_append, ← List.append_assoc, hbits, List.append_assoc, hbits', List.append_assoc]

/-- A bit is had from the current word, or from a new one. -/
theorem huffRefill_yields {h : HuffState} {node : Nat} {syms : List Byte} {bs : List Bool} (out : List Byte)
    (hh : HuffAt wide h node syms bs) :
    Yields env stop (huffRefill env h) out fun bytes h1 _ => ∃ b left, TakesBits bs bytes [b] left
      ∧ Runs env stop (huffRefill env h) out bytes h1 out ∧ HuffAt wide h1 node syms (b :: left) := by
  intro rest w h1 w' hw hrun
  cases bs with
  | cons b bs =>
    have hsame := huffRefill_bit (env := env) (stop := stop) (out := out) hh
    obtain ⟨rfl, hw'⟩ := hsame.eq_of_ok hw hrun
    exact ⟨[], rest, out, rfl, hw', b, bs, ⟨hh.word, [], rfl, List.append_nil _⟩, hsame, hh⟩
  | nil =>
    have hbytes : Yields env stop (huffRefill env h) out fun bytes _ _ =>
        ∃ word : Word, bytes = littleBytes 4 word.toNat := by
      rw [huffRefill, if_pos (by exact hh.left)]
      refine .bind (inBytes_yields 4) fun bytes v out' hb => .pure ?_
      obtain ⟨rfl, hv, -⟩ := hb
      exact ⟨BitVec.ofNat 32 v,
        by rw [BitVec.toNat_ofNat, Nat.mod_eq_of_lt (show v < 2 ^ 32 from hv), List.append_nil]⟩
    obtain ⟨_, rest', _, rfl, -, word, rfl⟩ := hbytes rest w h1 w' hw hrun
    obtain ⟨h2, hruns, hat⟩ := huffRefill_word (env := env) (stop := stop) (out := out) hh word
    obtain ⟨rfl, hw'⟩ := hruns.eq_of_ok hw hrun
    obtain ⟨b, left, hbits⟩ : ∃ b left, wordBits word = b :: left :=
      List.exists_cons_of_length_pos (by rw [wordBits_length]; exact Nat.succ_pos _)
    have hlen := wordBits_length word
    rw [hbits, List.length_cons] at hlen
    rw [hbits] at hat
    refine ⟨_, rest', out, rfl, hw', b, left, ⟨by omega, [word], ?_, ?_⟩, hruns, hat⟩
    · rw [wordBytes, List.flatMap_singleton]
    · rw [List.nil_append, List.flatMap_singleton, hbits, List.singleton_append]

/-- One bit of the walk stays inside the tree. -/
theorem huffStep_yields (he : env.Serves) (hn : n ≤ env.dstLen) {h : HuffState} {node : Nat} {syms : List Byte}
    {bs : List Bool} (hh : HuffAt wide h node syms bs) (hroom : syms.length < huffSymbols wide n) :
    Yields env stop (huffStep env wide (tree.map BitVec.toNat) h) (huffOut wide syms) fun bytes h' out' =>
      ∃ b left q, TakesBits bs bytes [b] left ∧ bitStep tree (node, syms) b = some q
        ∧ HuffAt wide h' q.1 q.2 left ∧ out' = huffOut wide q.2 := by
  intro rest w h' w' hw hrun
  obtain ⟨h1, w1, hrefill, hrest⟩ := run_bind_eq_ok hrun
  obtain ⟨_, rest', _, rfl, -, b, left, htakes, hruns, hat⟩ := huffRefill_yields _ hh rest w h1 w1 hw hrefill
  cases hstep : bitStep tree (node, syms) b with
  | none =>
    have hout : (tree.map BitVec.toNat).length
        ≤ huffChild h1.node ((tree.map BitVec.toNat).getD h1.node 0) (bitAt h1.word 31) := by
      rw [hat.next.1, hat.node, tree_getD, huffChild_eq, List.length_map]
      by_contra hin
      simp only [bitStep, if_neg hin] at hstep
      split at hstep <;> cases hstep
    rw [if_pos hout] at hrest
    cases (Prod.mk.inj hrest).1
  | some q =>
    obtain ⟨h2, hruns2, hat2⟩ := huffStep_runs he hn hstep hroom hruns hat
    obtain ⟨rfl, hw'⟩ := hruns2.eq_of_ok hw hrun
    exact ⟨_, rest', _, rfl, hw', b, left, q, htakes, hstep, hat2, rfl⟩

/-- After one bit the declared number of symbols is not passed, and it is reached at the root. -/
theorem bitStep_symbols {p q : Nat × List Byte} {b : Bool} {k : Nat} (h : bitStep tree p b = some q)
    (hlt : p.2.length < k) : q.2.length ≤ k ∧ (q.2.length = k → q.1 = 1) := by
  obtain ⟨-, ⟨-, rfl⟩ | ⟨-, rfl⟩⟩ := bitStep_cases h
  · exact ⟨by rwa [List.length_append], fun _ => rfl⟩
  · exact ⟨hlt.le, fun heq => absurd heq hlt.ne⟩

/-- The bits left and those of `bytes` take the walk from `p` to the root with the declared number of symbols, inside the
last word, and the output to `out'`. -/
def WalksToEnd (wide : Bool) (n : Nat) (tree : List Byte) (p : Nat × List Byte) (bs : List Bool)
    (bytes out' : List Byte) : Prop :=
  ∃ used left syms, TakesBits bs bytes used left ∧ bitWalk tree p used = some (1, syms)
    ∧ syms.length = huffSymbols wide n ∧ out' = huffOut wide syms

theorem WalksToEnd.done {syms : List Byte} {node : Nat} {bs : List Bool} (hbs : bs.length < 32)
    (hle : syms.length ≤ huffSymbols wide n) (hroot : syms.length = huffSymbols wide n → node = 1)
    (hge : ¬ syms.length < huffSymbols wide n) : WalksToEnd wide n tree (node, syms) bs [] (huffOut wide syms) := by
  have hlen := Nat.le_antisymm hle (Nat.not_lt.mp hge)
  exact ⟨[], bs, syms, .none hbs, by rw [hroot hlen]; rfl, hlen, rfl⟩

theorem WalksToEnd.step {p q : Nat × List Byte} {b : Bool} {bs left : List Bool} {b1 b2 out' : List Byte}
    (htakes : TakesBits bs b1 [b] left) (hstep : bitStep tree p b = some q)
    (h : WalksToEnd wide n tree q left b2 out') : WalksToEnd wide n tree p bs (b1 ++ b2) out' := by
  obtain ⟨used, left', syms, htakes', hwalk, hlen, rfl⟩ := h
  refine ⟨b :: used, left', syms, htakes.trans htakes', ?_, hlen, rfl⟩
  rw [bitWalk, List.foldlM_cons, hstep]
  exact hwalk

/-- A walk that comes to its end has decoded the declared number of symbols. -/
theorem huffWalk_yields (he : env.Serves) (hn : n ≤ env.dstLen) (bound : Nat) {h : HuffState} {node : Nat}
    {syms : List Byte} {bs : List Bool} (hh : HuffAt wide h node syms bs) (hbs : bs.length < 32)
    (hle : syms.length ≤ huffSymbols wide n) (hroot : syms.length = huffSymbols wide n → node = 1) :
    Yields env stop (huffWalk env wide (tree.map BitVec.toNat) (huffSymbols wide n) bound h) (huffOut wide syms)
      fun bytes _ out' => WalksToEnd wide n tree (node, syms) bs bytes out' := by
  induction bound generalizing h node syms bs with
  | zero => exact .ite (fun _ => .raiseAtCursor) fun hge => .pure (.done hbs hle hroot (hh.syms ▸ hge))
  | succ bound ih =>
    refine .ite (fun hlt => ?_) fun hge => .pure (.done hbs hle hroot (hh.syms ▸ hge))
    rw [hh.syms] at hlt
    refine .bind (huffStep_yields he hn hh hlt) fun b1 h' out1 hmid => ?_
    obtain ⟨b, left, q, htakes, hstep, hat, rfl⟩ := hmid
    obtain ⟨hle', hroot'⟩ := bitStep_symbols hstep hlt
    exact (ih hat htakes.1 hle' hroot').post fun b2 _ out' hgood => hgood.step htakes hstep

/-! ## Bodies -/

theorem huffTree_yields (out : List Byte) :
    Yields env stop (huffTree env) out fun tree v out' =>
      tree.length = 2 * ((tree.getD 0 0).toNat + 1) ∧ v = tree.map BitVec.toNat ∧ out' = out := by
  refine .inByte_bind fun size => .bind (collectBytes_yields _ 1) fun bytes v out' h => .pure ?_
  obtain ⟨hlen, rfl, rfl⟩ := h
  rw [List.append_nil]
  exact ⟨by rw [List.length_cons, List.getD_cons_zero, hlen]; omega, rfl, rfl⟩

theorem huffOut_length {syms : List Byte} (h : syms.length = huffSymbols wide n) : (huffOut wide syms).length = n := by
  cases wide with
  | true => exact h
  | false =>
    rw [huffOut, if_neg Bool.false_ne_true, packNibbles_length, h, huffSymbols, if_neg Bool.false_ne_true]
    omega

theorem huffBody_yields (he : env.Serves) (hn : n ≤ env.dstLen) :
    Yields env stop (huffBody env n wide) [] fun bytes _ out' => HuffBody wide bytes out' ∧ out'.length = n := by
  refine .ite (fun h0 => .pure ⟨.inl ⟨rfl, rfl⟩, h0.symm⟩) fun h0 => .bind (huffTree_yields []) fun tree v out1 h => ?_
  obtain ⟨htree, rfl, rfl⟩ := h
  have hsymbols : 0 < huffSymbols wide n := by
    cases wide <;> simp only [huffSymbols, if_true, Bool.false_eq_true, if_false] <;> omega
  have hwalk := huffWalk_yields (stop := stop) (tree := tree) he hn (8 * env.srcLen + 1) (huffStart_at wide)
    (Nat.succ_pos 31) (Nat.zero_le _) fun h => absurd h hsymbols.ne
  rw [show huffOut wide [] = [] by cases wide <;> rfl] at hwalk
  refine hwalk.post fun bytes _ out' hgood => ?_
  obtain ⟨used, left, symbols, ⟨hfew, words, rfl, hbits⟩, hused, hlen, rfl⟩ := hgood
  obtain ⟨paths, rest, rfl, hpaths, hnode⟩ := paths_of_bitWalk used hused
  obtain rfl := path_to_root hnode
  have hout := huffOut_length hlen
  rw [List.append_nil, List.nil_append] at hbits
  have hcount := congrArg List.length hbits
  rw [flatMap_wordBits_length, List.length_append] at hcount
  refine ⟨.inr ⟨tree, words, paths, symbols, htree, hpaths, ⟨left, hbits.symm⟩, by omega, rfl, fun hnil => ?_, ?_⟩,
    hout⟩
  · rw [hnil, List.length_nil] at hout
    omega
  · cases wide with
    | true => rfl
    | false => exact ⟨by rw [hout]; exact hlen, rfl⟩

end Sys2Proof.Machine
end

section
/-! PROOFS. A decompressor that ends with success has read a whole body of the declared length (40_decompressors.md R110
to R127; 41_huffman.md R166, R168, R169). -/
namespace Sys2Proof.Machine

open Sys2Proof.Reference

variable {env : Env} {stop : Raise} {i : Instr} {s t : State} {n : Nat}

/-! ## Bodies and headers -/

theorem containerBody_yields (he : env.Serves) (hn : n ≤ env.dstLen) {m : Nat} (hm : m < 5) :
    Yields env stop (containerBody env m n) [] fun bytes _ out' => ContainerBody m bytes out' ∧ out'.length = n := by
  match m, hm with
  | 0, _ => exact verbatimBody_yields he hn
  | 1, _ => exact lz10_reads.yields lz10_form he hn
  | 2, _ => exact huffBody_yields he hn
  | 3, _ => exact huffBody_yields he hn
  | 4, _ => exact rleBody_yields he hn

/-- A command's result counts its output, which fits the output buffer, and what it has read is `good` for it. -/
def Counted (env : Env) (good : List Byte → Nat × Nat → List Byte → Prop) (bytes : List Byte) (r : Nat × Nat)
    (out : List Byte) : Prop :=
  r.1 = out.length ∧ out.length ≤ env.dstLen ∧ good bytes r out

theorem Yields.checkDeclared_bind {α : Type} {f : Unit → Eng α} {out : List Byte}
    {good : List Byte → α → List Byte → Prop} (h : n ≤ env.dstLen → Yields env stop (f ()) out good) :
    Yields env stop (checkDeclared env n >>= f) out good := by
  by_cases hn : n ≤ env.dstLen
  · exact (checkDeclared_runs hn out).then_yields (h hn)
  · intro rest w v w' _ hrun
    rw [checkDeclared, if_pos (Nat.not_le.mp hn)] at hrun
    cases (Prod.mk.inj hrun).1

theorem sizedCommand_yields {body : Env → Nat → Eng Unit} {ofBody : List Byte → List Byte → Prop}
    (hs : env.buffersLegal = true → env.Serves)
    (hbody : env.Serves → env.param0 ≤ env.dstLen →
      Yields env stop (body env env.param0) [] fun bytes _ out => ofBody bytes out ∧ out.length = env.param0) :
    Yields env stop (sizedCommand body env) []
      (Counted env fun bytes _ out => ofBody bytes out ∧ out.length = env.param0) := by
  refine .require_bind fun hn => .checkBuffers_bind fun hl => ?_
  have hn := of_decide_eq_true hn
  refine .bind (hbody (hs hl) hn) fun bytes _ out h => .pure ?_
  rw [List.append_nil]
  exact ⟨h.2.symm, h.2.trans_le hn, h⟩

theorem lz10Command_yields (hs : env.buffersLegal = true → env.Serves) :
    Yields env stop (lz10Command env) [] (Counted env fun bytes _ out =>
      ∃ input, bytes = 0x10#8 :: littleBytes 3 out.length ++ input ∧ Lz10Body input out) := by
  refine .checkBuffers_bind fun hl => .inByte_bind fun tag => .ite (fun _ => .raiseAtCursor) fun htag => ?_
  obtain rfl : tag = 0x10#8 := BitVec.eq_of_toNat_eq (not_not.mp htag)
  refine .bind (inBytes_yields 3) fun _ n _ h => .checkDeclared_bind fun hn => ?_
  obtain ⟨rfl, -, rfl⟩ := h
  refine .bind (lz10_reads.yields lz10_form (hs hl) hn) fun input _ out h => .pure ?_
  obtain ⟨hbody, rfl⟩ := h
  exact ⟨rfl, hn, input, by rw [List.append_nil]; rfl, hbody⟩

/-- A header of LZ11: any tag, then the length (40_decompressors.md R118). -/
theorem header_tagged {v : Nat} (hv : v < 256 ^ 4) :
    ∃ tag : Byte, littleBytes 4 v = tag :: littleBytes 3 (bits v 31 8) := by
  refine ⟨BitVec.ofNat 8 v, ?_⟩
  have hlength : bits v 31 8 = v / 256 := by
    rw [bits, Nat.shiftRight_eq_div_pow]
    omega
  rw [hlength, littleBytes]

theorem lz11Command_yields (hs : env.buffersLegal = true → env.Serves) :
    Yields env stop (lz11Command env) [] (Counted env fun bytes _ out =>
      ∃ (tag : Byte) (input : List Byte), bytes = tag :: littleBytes 3 out.length ++ input ∧ Lz11Body input out) := by
  refine .checkBuffers_bind fun hl => .bind (inBytes_yields 4) fun _ v _ h => .checkDeclared_bind fun hn => ?_
  obtain ⟨rfl, hv, rfl⟩ := h
  obtain ⟨tag, hheader⟩ := header_tagged hv
  refine .bind (lz11_reads.yields lz11_form (hs hl) hn) fun input _ out h => .pure ?_
  obtain ⟨hbody, hlen⟩ := h
  refine ⟨hlen.symm, hlen.trans_le hn, tag, input, ?_, hbody⟩
  rw [hheader, hlen, List.append_nil]

theorem contCommand_yields (hs : env.buffersLegal = true → env.Serves) :
    Yields env stop (contCommand env) [] (Counted env fun bytes r out =>
      ∃ input, r.2 < 5 ∧ bytes = littleBytes 4 (8 * out.length + r.2) ++ input ∧ ContainerBody r.2 input out) := by
  refine .checkBuffers_bind fun hl => .bind (inBytes_yields 4) fun _ v _ h => ?_
  refine .ite (fun _ => .raiseAtCursor) fun hm => ?_
  obtain ⟨rfl, hv, rfl⟩ := h
  have hm := Nat.not_le.mp hm
  refine .checkDeclared_bind fun hn => .bind (containerBody_yields (hs hl) hn hm) fun input _ out h => .pure ?_
  obtain ⟨hbody, hlen⟩ := h
  have hheader : 8 * out.length + bits v 2 0 = v := by
    rw [hlen, bits, bits, Nat.shiftRight_eq_div_pow, Nat.shiftRight_zero]
    omega
  refine ⟨hlen.symm, hlen.trans_le hn, input, hm, ?_, hbody⟩
  rw [hheader, List.append_nil]

/-! ## From success to the body -/

/-- A command that ends with success has run its body to its end, and ends so where no access is rejected. -/
theorem exec_success {body : Env → Eng (Nat × Nat)} (hexec : ∀ s, exec i s = runCommand s body)
    (hbody : BodyTraced i s body) (hc : t.status.errCode = none) (he : exec i s = .next t) :
    ∃ r w, body (s.rejecting []).env (Work.start s.mem) = (.ok r, w) ∧ t = s.endWithSuccess w.mem r.1 r.2 := by
  obtain rfl := Host.Outcome.next.inj (he.symm.trans (hexec s))
  rcases afterCommand_cases s body with ⟨r0, r1, w, hrun, hend⟩ | ⟨r, w, -, -, hend⟩ | ⟨r, w, -, -, hend⟩
  · obtain ⟨tr, r, w', ht, -⟩ := hbody
    obtain ⟨rfl, rfl⟩ := ht.eq_of_ok hrun
    exact ⟨(r0, r1), w', ht.accepted [] fun a _ => a.rejectedBy_nil, hend⟩
  · rw [hend] at hc
    cases hc
  · rw [hend] at hc
    cases hc

/-- Where no access is rejected, legal buffers serve every command. -/
theorem serves_rejecting_nil (h : (s.rejecting []).env.buffersLegal = true) : (s.rejecting []).env.Serves :=
  ((buffersLegal_iff _).mp h).serves fun _ _ => ⟨rfl, rfl⟩

/-- A decompressor's success end, with what its body has read. -/
theorem input_of_success {body : Env → Eng (Nat × Nat)} (hexec : ∀ s, exec i s = runCommand s body)
    (hbody : BodyTraced i s body) (hc : t.status.errCode = none) (he : exec i s = .next t)
    {good : List Byte → Nat × Nat → List Byte → Prop}
    (hyields : ∀ stop, Yields (s.rejecting []).env stop (body (s.rejecting []).env) []
      (Counted (s.rejecting []).env good)) :
    ∃ input r out, good input r out ∧ s.mem.Holds s.srcAddr.toNat input ∧ input.length ≤ s.srcLen.toNat
      ∧ t.mem.Holds s.dstAddr.toNat out ∧ t.result0.toNat = out.length ∧ t.result1 = BitVec.ofNat 32 r.2 := by
  obtain ⟨r, w, hrun, rfl⟩ := exec_success hexec hbody hc he
  have hstart := Feeds.start (s.rejecting []) fun _ _ => rfl
  obtain ⟨input, rest, out, hrest, hw, hr, hroom, hgood⟩ := hyields _ _ _ r w hstart hrun
  have hholds : s.mem.Holds s.srcAddr.toNat (input ++ rest) := hrest ▸ s.mem.holds_bytes _ _
  have hlen : s.srcLen.toNat = input.length + rest.length := by
    rw [← List.length_append, ← hrest]
    exact (Memory.bytes_length ..).symm
  refine ⟨input, r, out, hgood, (Memory.holds_append.mp hholds).1, by omega, hw.output, ?_, rfl⟩
  have hlt : out.length < 2 ^ 32 := hroom.trans_lt s.dstLen.isLt
  rw [State.endWithSuccess_result0, hr, BitVec.toNat_ofNat, Nat.mod_eq_of_lt hlt]

/-- The header's share of the input. -/
theorem length_le_of_header {header input : List Byte} {k : Nat} (hk : header.length = k)
    (h : (header ++ input).length ≤ s.srcLen.toNat) : k + input.length ≤ s.srcLen.toNat := by
  rwa [List.length_append, hk] at h

/-- A sized decompressor's success end. -/
theorem sized_of_success {body : Env → Nat → Eng Unit} {ofBody : List Byte → List Byte → Prop}
    (hexec : ∀ s, exec i s = runCommand s (sizedCommand body)) (hbody : BodyTraced i s (sizedCommand body))
    (hyields : ∀ {env : Env} {stop : Raise}, env.Serves → env.param0 ≤ env.dstLen →
      Yields env stop (body env env.param0) [] fun bytes _ out => ofBody bytes out ∧ out.length = env.param0)
    (hc : t.status.errCode = none) (he : exec i s = .next t) :
    ∃ input out, ofBody input out ∧ s.mem.Holds s.srcAddr.toNat input ∧ input.length ≤ s.srcLen.toNat
      ∧ out.length = s.param0.toNat ∧ t.mem.Holds s.dstAddr.toNat out ∧ t.result0.toNat = out.length := by
  obtain ⟨input, r, out, ⟨hof, hparam⟩, hin, hlen, hout, hr0, -⟩ :=
    input_of_success hexec hbody hc he fun _ => sizedCommand_yields serves_rejecting_nil hyields
  exact ⟨input, out, hof, hin, hlen, hparam, hout, hr0⟩

/-- Settles O47: what each body has read where it comes to its end (`Yields`). -/
theorem successMeansWholeBody : Obligations.SuccessMeansWholeBody := by
  intro s t hc
  refine ⟨fun he => ?_, fun he => ?_, fun he => ?_, fun wide he => ?_, fun he => ?_⟩
  · exact sized_of_success exec_rleDec (rleCommand_traced s) rleBody_yields hc he
  · obtain ⟨_, r, out, ⟨input, rfl, hbody⟩, hin, hlen, hout, hr0, -⟩ :=
      input_of_success exec_lz10Dec (lz10Command_traced s) hc he fun _ => lz10Command_yields serves_rejecting_nil
    exact ⟨input, out, hbody, hin, length_le_of_header (by simp [littleBytes_length]) hlen, hout, hr0⟩
  · obtain ⟨_, r, out, ⟨tag, input, rfl, hbody⟩, hin, hlen, hout, hr0, -⟩ :=
      input_of_success exec_lz11Dec (lz11Command_traced s) hc he fun _ => lz11Command_yields serves_rejecting_nil
    exact ⟨tag, input, out, hbody, hin, length_le_of_header (by simp [littleBytes_length]) hlen, hout, hr0⟩
  · cases wide with
    | false => exact sized_of_success exec_huff4Dec (huffCommand_traced false s rfl rfl) huffBody_yields hc he
    | true => exact sized_of_success exec_huff8Dec (huffCommand_traced true s rfl rfl) huffBody_yields hc he
  · obtain ⟨_, r, out, ⟨input, hm, rfl, hbody⟩, hin, hlen, hout, hr0, hr1⟩ :=
      input_of_success exec_contDec (contCommand_traced s) hc he fun _ => contCommand_yields serves_rejecting_nil
    refine ⟨r.2, input, out, hm, hbody, hin, length_le_of_header (littleBytes_length 4 _) hlen, hout, hr0, ?_⟩
    rw [hr1, BitVec.toNat_ofNat]
    omega

end Sys2Proof.Machine
end

section
/-! PROOFS. HUFF4.DEC and HUFF8.DEC on an input that begins with a Huffman body (41_huffman.md R160 to R169): the body run
forward bit by bit (`huffBody_runs`), behind the checks of a command whose length stands in PARAM0. -/
namespace Sys2Proof.Machine

open Sys2Proof.Reference

variable {i : Instr} {s : State} {input out : List Byte}

/-- A Huffman decoder, of either width, yields the bytes that the body in front of its input stands for. -/
theorem huffCommand_endsWithBytes {wide : Bool} (hd : decompresses i = true) (hm : mostStored i s = s.param0.toNat)
    (hexec : ∀ s, exec i s = runCommand s (sizedCommand fun env n => huffBody env n wide)) (hu : s.BuffersUsable)
    (ha : s.BusAccepts) (hinput : s.mem.Holds s.srcAddr.toNat input) (hlen : input.length ≤ s.srcLen.toNat)
    (hparam : s.param0.toNat = out.length) (hroom : out.length ≤ s.dstLen.toNat) (hbody : HuffBody wide input out) :
    EndsWithBytes i s out.length 0 out.length (out.getD · 0) := by
  refine endsWithBytes_of_runs hd hexec (huffCommand_traced wide s hd hm) ha hinput hlen fun stop => ?_
  have hrun : Runs s.env stop (huffBody s.env s.env.param0 wide) [] input () out := by
    rw [State.env_param0, hparam]
    exact huffBody_runs (ha.serves hu) hbody hroom
  rw [← hparam]
  exact sizedCommand_runs ((buffersLegal_iff s).mpr hu) (hparam.trans_le hroom) hrun

/-- Settles O45: both widths run the one body, on the tree and then on the bits of the symbols' paths. -/
theorem huffmanDecompresses : Obligations.HuffmanDecompresses := by
  intro s input out hu ha hinput hlen hparam hroom
  exact ⟨huffCommand_endsWithBytes rfl rfl exec_huff4Dec hu ha hinput hlen hparam hroom,
    huffCommand_endsWithBytes rfl rfl exec_huff8Dec hu ha hinput hlen hparam hroom⟩

end Sys2Proof.Machine
end

section
/-! PROOFS. Every texel of the byte and nibble formats is what its own decoding encodes to (42_pixel_format.md R202,
R203): a texel is its fields side by side, and a channel's top bits are the field that was repeated to fill it. -/
namespace Sys2Proof.Machine

variable {k l m n t : Nat}

/-! ## A texel as its fields -/

/-- A word is its high and its low field side by side. -/
theorem exists_append (w : BitVec (m + n)) : ∃ (x : BitVec m) (y : BitVec n), w = x ++ y :=
  ⟨_, _, BitVec.extractLsb'_append_extractLsb'.symm⟩

theorem exists_oneField (n : Nat) (h : t < 2 ^ n) : ∃ x : BitVec n, t = x.toNat :=
  ⟨BitVec.ofNat n t, by rw [BitVec.toNat_ofNat, Nat.mod_eq_of_lt h]⟩

theorem exists_twoFields (m n : Nat) (h : t < 2 ^ (m + n)) : ∃ (x : BitVec m) (y : BitVec n), t = (x ++ y).toNat := by
  obtain ⟨w, rfl⟩ := exists_oneField (m + n) h
  obtain ⟨x, y, rfl⟩ := exists_append w
  exact ⟨x, y, rfl⟩

theorem exists_threeFields (l m n : Nat) (h : t < 2 ^ (l + m + n)) :
    ∃ (x : BitVec l) (y : BitVec m) (z : BitVec n), t = (x ++ y ++ z).toNat := by
  obtain ⟨w, z, rfl⟩ := exists_twoFields (l + m) n h
  obtain ⟨x, y, rfl⟩ := exists_append w
  exact ⟨x, y, z, rfl⟩

theorem exists_fourFields (k l m n : Nat) (h : t < 2 ^ (k + l + m + n)) :
    ∃ (x : BitVec k) (y : BitVec l) (z : BitVec m) (u : BitVec n), t = (x ++ y ++ z ++ u).toNat := by
  obtain ⟨w, z, u, rfl⟩ := exists_threeFields (k + l) m n h
  obtain ⟨x, y, rfl⟩ := exists_append w
  exact ⟨x, y, z, u, rfl⟩

/-! ## The formats -/

/-- The one bit of an alpha channel that is that bit throughout. -/
theorem extractLsb'_signExtend_bit : ∀ a : BitVec 1, (a.signExtend 8).extractLsb' 7 1 = a := by decide

theorem rgba8888_roundTrip (h : t < 256 ^ 4) : encodeRgba8888 (decodeRgba8888 t) = t := by
  obtain ⟨r, g, b, a, rfl⟩ := exists_fourFields 8 8 8 8 h
  rw [decodeRgba8888_append, encodeRgba8888_eq]

theorem rgb888_roundTrip (h : t < 256 ^ 3) : encodeRgb888 (decodeRgb888 t) = t := by
  obtain ⟨r, g, b, rfl⟩ := exists_threeFields 8 8 8 h
  rw [decodeRgb888_append, encodeRgb888_eq]

theorem rgba5551_roundTrip (h : t < 256 ^ 2) : encodeRgba5551 (decodeRgba5551 t) = t := by
  obtain ⟨r, g, b, a, rfl⟩ := exists_fourFields 5 5 5 1 h
  rw [decodeRgba5551_append, encodeRgba5551_eq, extractLsb'_signExtend_bit]
  simp only [BitVec.extractLsb'_append_eq_left]

theorem rgb565_roundTrip (h : t < 256 ^ 2) : encodeRgb565 (decodeRgb565 t) = t := by
  obtain ⟨r, g, b, rfl⟩ := exists_threeFields 5 6 5 h
  rw [decodeRgb565_append, encodeRgb565_eq]
  simp only [BitVec.extractLsb'_append_eq_left]

theorem rgba4444_roundTrip (h : t < 256 ^ 2) : encodeRgba4444 (decodeRgba4444 t) = t := by
  obtain ⟨r, g, b, a, rfl⟩ := exists_fourFields 4 4 4 4 h
  rw [decodeRgba4444_append, encodeRgba4444_eq]
  simp only [BitVec.extractLsb'_append_eq_left]

theorem la88_roundTrip (h : t < 256 ^ 2) : encodeLa88 (decodeLa88 t) = t := by
  obtain ⟨l, a, rfl⟩ := exists_twoFields 8 8 h
  rw [decodeLa88_append, toNat_append_eq_add, encodeLa88]

theorem hl88_roundTrip (h : t < 256 ^ 2) : encodeHl88 (decodeHl88 t) = t := by
  obtain ⟨r, g, rfl⟩ := exists_twoFields 8 8 h
  rw [decodeHl88_append, toNat_append_eq_add, encodeHl88]

theorem l8_roundTrip (h : t < 256 ^ 1) : encodeL8 (decodeL8 t) = t := by
  obtain ⟨l, rfl⟩ := exists_oneField 8 h
  rw [decodeL8_toNat, encodeL8]

theorem a8_roundTrip (h : t < 256 ^ 1) : encodeA8 (decodeA8 t) = t := by
  obtain ⟨a, rfl⟩ := exists_oneField 8 h
  rw [decodeA8_toNat, encodeA8]

theorem la44_roundTrip (h : t < 256 ^ 1) : encodeLa44 (decodeLa44 t) = t := by
  obtain ⟨l, a, rfl⟩ := exists_twoFields 4 4 h
  rw [decodeLa44_append, encodeLa44_eq]
  simp only [BitVec.extractLsb'_append_eq_left]

theorem l4_roundTrip (h : t < 16) : encodeL4 (decodeL4 t) = t := by
  obtain ⟨v, rfl⟩ := exists_oneField 4 h
  rw [decodeL4_toNat, encodeL4_eq, BitVec.extractLsb'_append_eq_left]

theorem a4_roundTrip (h : t < 16) : encodeA4 (decodeA4 t) = t := by
  obtain ⟨v, rfl⟩ := exists_oneField 4 h
  rw [decodeA4_toNat, encodeA4_eq, BitVec.extractLsb'_append_eq_left]

/-- Settles O49: each format by its own lemma; the ETC1 formats have no texels of their own. -/
theorem texelRoundTrip : Obligations.TexelRoundTrip := by
  intro f t
  cases f with
  | rgba8888 => exact rgba8888_roundTrip
  | rgb888 => exact rgb888_roundTrip
  | rgba5551 => exact rgba5551_roundTrip
  | rgb565 => exact rgb565_roundTrip
  | rgba4444 => exact rgba4444_roundTrip
  | la88 => exact la88_roundTrip
  | hl88 => exact hl88_roundTrip
  | l8 => exact l8_roundTrip
  | a8 => exact a8_roundTrip
  | la44 => exact la44_roundTrip
  | l4 => exact l4_roundTrip
  | a4 => exact a4_roundTrip
  | etc1 => exact trivial
  | etc1a4 => exact trivial

end Sys2Proof.Machine
end

section
/-! PROOFS. The decoded ETC1 block, field by field (43_etc1.md R230 to R238): each field of the block word as a number
is the field as a bit vector, and so the decoder's pixel at a caller position is the reference's. -/
namespace Sys2Proof.Machine

open Sys2Proof.Reference

variable {n : Nat}

/-! ## Fields of a word -/

theorem bits_toNat_eq (w : BitVec n) (hi lo : Nat) : bits w.toNat hi lo = (w.extractLsb' lo (hi + 1 - lo)).toNat := by
  rw [bits, BitVec.extractLsb'_toNat]

theorem nibble_toNat_eq (w : BitVec n) (i : Nat) :
    bits w.toNat (4 * i + 3) (4 * i) = (w.extractLsb' (4 * i) 4).toNat := by
  rw [bits_toNat_eq, show 4 * i + 3 + 1 - 4 * i = 4 by omega]

theorem bitAt_toNat_eq (w : BitVec n) (i : Nat) : bitAt w.toNat i = (w.getLsbD i).toNat :=
  bitAt_eq_testBit w.toNat i

theorem decide_bitAt_eq_one (w : BitVec n) (i : Nat) : decide (bitAt w.toNat i = 1) = w.getLsbD i := by
  rw [bitAt_toNat_eq]
  cases w.getLsbD i <;> rfl

/-! ## The fields of a pixel -/

/-- Caller position `k` is the block pixel of its column and row (43_etc1.md R232, R233). -/
theorem order3ds_eq : ∀ k < 16, order3ds k = 4 * callerColumn k + callerRow k := by decide

theorem callerPosition_lt (k : Nat) : callerColumn k < 4 ∧ callerRow k < 4 := by
  simp only [callerColumn, callerRow]
  omega

/-- The sub-block of a block pixel by its column and row (43_etc1.md R233). -/
theorem subBlock_eq : ∀ x < 4, ∀ y < 4, ∀ flip : Bool,
    subBlock (4 * x + y) flip = (if flip then decide (2 ≤ y) else decide (2 ≤ x)).toNat := by decide

/-- The second base level of diff mode: the first plus a signed difference, modulo 32 (43_etc1.md R235). -/
theorem secondLevel_eq : ∀ (q : BitVec 5) (d : BitVec 3),
    (((q.toNat : Int) + sext3 d.toNat) % 32).toNat = (q + d.signExtend 5).toNat := by decide

theorem channelBases_eq (diff : Bool) (x : Byte) :
    channelBases diff x.toNat = (baseLevel diff x false, baseLevel diff x true) := by
  cases diff with
  | false => simp only [channelBases, baseLevel, bits_toNat_eq, Bool.false_eq_true, if_false, if_true]
  | true =>
    simp only [channelBases, baseLevel, bits_toNat_eq, Bool.false_eq_true, if_false, if_true]
    rw [secondLevel_eq]

theorem baseLevel_lt (diff : Bool) (x : Byte) (second : Bool) : baseLevel diff x second < levels diff := by
  cases diff with
  | false => exact BitVec.isLt _
  | true => exact BitVec.isLt _

theorem scaleLevel_eq {diff : Bool} {q : Nat} (h : q < levels diff) : scaleLevel diff q = scaledLevel diff q := by
  cases diff with
  | false => rfl
  | true =>
    have hq : q < 32 := h
    revert q
    decide

/-- The two selector bits choose the size and the sign of a table's offset (43_etc1.md R230, R231). -/
theorem modifier_eq : ∀ t < 8, ∀ negative large : Bool,
    modifier t (2 * negative.toNat + large.toNat)
      = (let size := if large then (modifierPair t).2 else (modifierPair t).1
        if negative then -size else size) := by decide

theorem clamp255_eq (v : Int) : clamp255 v = max 0 (min 255 v) := by
  unfold clamp255
  split
  · omega
  · split <;> omega

/-! ## The decoded pixel -/

variable (w : BitVec 64)

theorem blockColour_eq (second : Bool) :
    blockColour w.toNat second.toNat
      = { r := scaledLevel (w.getLsbD 33) (baseLevel (w.getLsbD 33) (w.extractLsb' 56 8) second)
          g := scaledLevel (w.getLsbD 33) (baseLevel (w.getLsbD 33) (w.extractLsb' 48 8) second)
          b := scaledLevel (w.getLsbD 33) (baseLevel (w.getLsbD 33) (w.extractLsb' 40 8) second) } := by
  have pick : ∀ x : Byte, scaleLevel (w.getLsbD 33)
      (if second.toNat = 0 then (channelBases (w.getLsbD 33) x.toNat).1 else (channelBases (w.getLsbD 33) x.toNat).2)
        = scaledLevel (w.getLsbD 33) (baseLevel (w.getLsbD 33) x second) := fun x => by
    rw [channelBases_eq]
    cases second <;> exact scaleLevel_eq (baseLevel_lt _ x _)
  simp only [blockColour, blockDiff, decide_bitAt_eq_one, bits_toNat_eq w]
  rw [← pick, ← pick, ← pick]

theorem blockTable_eq (second : Bool) :
    blockTable w.toNat second.toNat = (if second then w.extractLsb' 34 3 else w.extractLsb' 37 3).toNat := by
  cases second <;> exact bits_toNat_eq w _ _

theorem blockSelector_eq (i : Nat) :
    blockSelector w.toNat i = 2 * (w.getLsbD (16 + i)).toNat + (w.getLsbD i).toNat := by
  rw [blockSelector, bitAt_toNat_eq, bitAt_toNat_eq]

theorem blockPixelColour_eq {x y : Nat} (hx : x < 4) (hy : y < 4) :
    blockPixelColour w.toNat (4 * x + y)
      = { r := blockChannel w (w.extractLsb' 56 8) x y, g := blockChannel w (w.extractLsb' 48 8) x y
          b := blockChannel w (w.extractLsb' 40 8) x y } := by
  have hflip : blockFlip w.toNat = w.getLsbD 32 := decide_bitAt_eq_one w 32
  rw [blockPixelColour, hflip, subBlock_eq x hx y hy, blockColour_eq, blockTable_eq, blockSelector_eq,
    modifier_eq _ (BitVec.isLt _)]
  simp only [shade, Rgb.map, clamp255_eq]
  rfl

theorem blockPixelAlpha_eq (plane : Option (BitVec 64)) (k : Nat) :
    BitVec.ofNat 8 (blockPixelAlpha (plane.map BitVec.toNat) (4 * callerColumn k + callerRow k))
      = (callerPixel w plane k).a := by
  cases plane with
  | none => rfl
  | some p =>
    rw [Option.map_some, blockPixelAlpha, nibble_toNat_eq, ofNat_x4]
    rfl

theorem ofNat_toNat_blockChannel (channel : Byte) (x y : Nat) :
    BitVec.ofNat 8 (blockChannel w channel x y).toNat = BitVec.ofInt 8 (blockChannel w channel x y) := by
  have hnonneg : 0 ≤ blockChannel w channel x y := Int.le_max_left 0 _
  rw [← BitVec.ofInt_natCast, Int.toNat_of_nonneg hnonneg]

/-- The decoder's pixel is the one that the block's fields stand for (43_etc1.md R233 to R237). -/
theorem blockPixel_order3ds (plane : Option (BitVec 64)) {k : Nat} (hk : k < 16) :
    blockPixel w.toNat (plane.map BitVec.toNat) (order3ds k) = callerPixel w plane k := by
  obtain ⟨hx, hy⟩ := callerPosition_lt k
  rw [order3ds_eq k hk, blockPixel, blockPixelColour_eq w hx hy]
  simp only [Pixel.ofNat, blockPixelAlpha_eq w, ofNat_toNat_blockChannel]
  rfl

/-- The decoded block in caller order (43_etc1.md R238). -/
theorem decodeBlock_eq (plane : Option (BitVec 64)) :
    decodeBlock w.toNat (plane.map BitVec.toNat) = (List.range 16).map (callerPixel w plane) :=
  List.map_congr_left fun _ hk => blockPixel_order3ds w plane (List.mem_range.mp hk)

end Sys2Proof.Machine
end

section
/-! PROOFS. Decoding a texel buffer where the platform lets every byte through (42_pixel_format.md R182, R200;
43_etc1.md R238): a pixel is decoded from the bytes that `texelReads` names, and PIX.DEC leaves the records
of the pixels. -/
namespace Sys2Proof.Machine

open Sys2Proof.Reference

variable {env : Env}

/-! ## From the bytes of a body to the end of its command -/

/-- A body that stores its bytes from DST_ADDR on and yields its results ends its command with them. -/
theorem endsWithBytes_of_put {i : Instr} {s : State} {body : Env → Eng (Nat × Nat)} {bytes : List Byte} {r0 r1 n : Nat}
    {f : Nat → Byte} (hexec : exec i s = runCommand s body)
    (h : body s.env (Work.start s.mem) = (.ok (r0, r1), (Work.start s.mem).put s.dstAddr.toNat bytes))
    (hlen : bytes.length = n) (hbytes : ∀ k < n, bytes.getD k 0 = f k) : EndsWithBytes i s r0 r1 n f := by
  subst hlen
  have hend : exec i s = .next (s.endWithSuccess (s.mem.store s.dstAddr.toNat bytes) r0 r1) := by
    rw [hexec, runCommand, afterCommand_of_ok h, Work.put_mem, Work.start_mem]
  refine ⟨_, hend, endWithSuccess_succeeded s _ r0 r1, ?_, ?_⟩
  · exact fun k hk => (Memory.read_store_inside hk).trans (hbytes k hk)
  · exact fun b hb => Memory.read_store_outside hb

/-- Byte `k` of records side by side is a channel of record `k / 4` (30_encoding.md R86). -/
theorem flatMap_bytes_getD (pixels : List Pixel) (k : Nat) :
    (pixels.flatMap Pixel.bytes).getD k 0 = channelByte (pixels.getD (k / 4) (Pixel.ofNat 0 0 0 0)) (k % 4) := by
  induction pixels generalizing k with
  | nil => simp [channelByte, Pixel.ofNat]
  | cons c cs ih =>
    rw [List.flatMap_cons]
    rcases Nat.lt_or_ge k 4 with hlt | hge
    · rw [List.getD_append _ _ _ _ hlt, Nat.div_eq_of_lt hlt, Nat.mod_eq_of_lt hlt, List.getD_cons_zero]
      interval_cases k <;> rfl
    · obtain ⟨k, rfl⟩ := Nat.exists_eq_add_of_le' hge
      rw [List.getD_append_right _ _ _ _ hge, Pixel.bytes_length, Nat.add_sub_cancel, ih, Nat.add_mod_right,
        Nat.add_div_right k (by decide), List.getD_cons_succ]

/-- Pieces of one size each. -/
theorem length_flatMap_const {γ : Type} {g : γ → List Byte} {size : Nat} (h : ∀ c, (g c).length = size) (cs : List γ) :
    (cs.flatMap g).length = cs.length * size := by
  simp only [List.length_flatMap, h, List.map_const', List.sum_replicate, smul_eq_mul]

theorem flatMap_bytes_length (pixels : List Pixel) : (pixels.flatMap Pixel.bytes).length = 4 * pixels.length := by
  rw [length_flatMap_const Pixel.bytes_length, Nat.mul_comm]

/-! ## Blocks -/

theorem ofNat_little_toNat (m : Memory) (a : Nat) : (BitVec.ofNat 64 (m.little a 8)).toNat = m.little a 8 := by
  rw [BitVec.toNat_ofNat]
  exact Nat.mod_eq_of_lt (m.little_lt a 8)

/-- The unit of ETC1 is a block word (42_pixel_format.md R198). -/
theorem blockAt_false (m : Memory) (a : Nat) : blockAt m a false = decodeBlock (m.little a 8) none := by
  have h := decodeBlock_eq (BitVec.ofNat 64 (m.little a 8)) none
  rw [ofNat_little_toNat] at h
  exact h.symm

/-- The unit of ETC1A4 is an alpha plane and then a block word (42_pixel_format.md R198). -/
theorem blockAt_true (m : Memory) (a : Nat) :
    blockAt m a true = decodeBlock (m.little (a + 8) 8) (some (m.little a 8)) := by
  have h := decodeBlock_eq (BitVec.ofNat 64 (m.little (a + 8) 8)) (some (BitVec.ofNat 64 (m.little a 8)))
  rw [Option.map_some, ofNat_little_toNat, ofNat_little_toNat] at h
  exact h.symm

/-- A property of every byte of an ETC1A4 unit holds of every byte of its two halves. -/
theorem block_halves {p : Nat → Prop} {a : Nat} (h : ∀ i < blockBytes true, p (a + i)) :
    (∀ i < 8, p (a + i)) ∧ ∀ i < 8, p (a + 8 + i) :=
  ⟨fun i hi => h i (Nat.lt_add_left 8 hi), fun i hi => by
    rw [Nat.add_assoc]
    exact h (8 + i) (Nat.add_lt_add_left hi 8)⟩

theorem blockAt_congr {m m' : Memory} {a : Nat} {alpha : Bool}
    (h : ∀ i < blockBytes alpha, m.read (a + i) = m'.read (a + i)) : blockAt m a alpha = blockAt m' a alpha := by
  cases alpha with
  | false => rw [blockAt_false, blockAt_false, Memory.little_congr (n := 8) h]
  | true =>
    obtain ⟨hplane, hblock⟩ := block_halves (p := fun b => m.read b = m'.read b) h
    rw [blockAt_true, blockAt_true, Memory.little_congr hplane, Memory.little_congr hblock]

/-- A block read where the platform lets its bytes through (43_etc1.md R238, R245). -/
theorem readBlock_ok {a : Nat} {alpha : Bool} {w : Work}
    (h : ∀ i < blockBytes alpha, env.platform.rejects (a + i) .read = false) :
    readBlock env a alpha w = (.ok (blockAt w.mem a alpha), w) := by
  cases alpha with
  | false =>
    rw [blockAt_false]
    exact run_bind_ok (memRead_ok h)
  | true =>
    obtain ⟨hplane, hblock⟩ := block_halves (p := fun b => env.platform.rejects b .read = false) h
    rw [blockAt_true]
    exact (run_bind_ok (memRead_ok hblock)).trans (run_bind_ok (memRead_ok hplane))

/-! ## A pixel of a texel buffer -/

section Layout
variable {f : PixelFormat} {decode : Nat → Pixel} {encode : Pixel → Nat}

theorem mem_texelReads_bytes {size j k : Nat} (hf : texelLayout f = .bytes size decode encode) :
    k ∈ texelReads f j ↔ j * size ≤ k ∧ k < j * size + size := by
  simp only [texelReads, hf, List.mem_range'_1]

theorem mem_texelReads_nibbles {j k : Nat} (hf : texelLayout f = .nibbles decode encode) :
    k ∈ texelReads f j ↔ k = j / 2 := by
  simp only [texelReads, hf, List.mem_singleton]

theorem mem_texelReads_blocks {alpha : Bool} {j k : Nat} (hf : texelLayout f = .blocks alpha) :
    k ∈ texelReads f j ↔ blockBytes alpha * (j / 16) ≤ k ∧ k < blockBytes alpha * (j / 16) + blockBytes alpha := by
  cases alpha with
  | false => simp [texelReads, hf, List.mem_range'_1, blockBytes]
  | true =>
    simp only [texelReads, hf, List.mem_append, List.mem_range'_1, blockBytes, if_true]
    omega

/-- A property of the bytes that a texel is read from holds of every byte of the texel. -/
theorem texelReads_bytes {p : Nat → Prop} {size a j : Nat} (hf : texelLayout f = .bytes size decode encode)
    (h : ∀ k ∈ texelReads f j, p (a + k)) : ∀ i < size, p (a + j * size + i) := fun i hi => by
  rw [Nat.add_assoc]
  exact h _ ((mem_texelReads_bytes hf).mpr ⟨Nat.le_add_right _ i, Nat.add_lt_add_left hi _⟩)

theorem texelReads_blocks {p : Nat → Prop} {alpha : Bool} {a j : Nat} (hf : texelLayout f = .blocks alpha)
    (h : ∀ k ∈ texelReads f j, p (a + k)) : ∀ i < blockBytes alpha, p (a + blockBytes alpha * (j / 16) + i) :=
  fun i hi => by
    rw [Nat.add_assoc]
    exact h _ ((mem_texelReads_blocks hf).mpr ⟨Nat.le_add_right _ i, Nat.add_lt_add_left hi _⟩)

theorem texelReads_nibbles {p : Nat → Prop} {a j : Nat} (hf : texelLayout f = .nibbles decode encode)
    (h : ∀ k ∈ texelReads f j, p (a + k)) : p (a + j / 2) := h _ ((mem_texelReads_nibbles hf).mpr rfl)

end Layout

/-- The bytes of a texel lie in the buffer (42_pixel_format.md R181, R182). -/
theorem texelReads_lt {f : PixelFormat} {len j k : Nat} (hj : j < pixelCount f len) (hk : k ∈ texelReads f j) :
    k < len := by
  cases hf : texelLayout f with
  | bytes size decode encode =>
    rw [pixelCount_bytes hf] at hj
    obtain ⟨-, hlt⟩ := (mem_texelReads_bytes hf).mp hk
    calc
      k < (j + 1) * size := by rwa [Nat.succ_mul]
      _ ≤ len / size * size := Nat.mul_le_mul_right size hj
      _ ≤ len := Nat.div_mul_le_self len size
  | nibbles decode encode =>
    rw [pixelCount_nibbles hf] at hj
    obtain rfl := (mem_texelReads_nibbles hf).mp hk
    omega
  | blocks alpha =>
    rw [pixelCount_blocks hf] at hj
    obtain ⟨-, hlt⟩ := (mem_texelReads_blocks hf).mp hk
    calc
      k < blockBytes alpha * (j / 16 + 1) := by rwa [Nat.mul_succ]
      _ ≤ blockBytes alpha * (len / blockBytes alpha) := Nat.mul_le_mul_left _ (by omega)
      _ ≤ len := Nat.mul_div_le len _

theorem nibble_eq (byte j : Nat) :
    (if j % 2 = 0 then bits byte 3 0 else bits byte 7 4) = byte / (if j % 2 = 0 then 1 else 16) % 16 := by
  split
  · rw [bits, Nat.shiftRight_zero, Nat.div_one]
    rfl
  · rw [bits, Nat.shiftRight_eq_div_pow]
    rfl

/-- A pixel decoded where the platform lets its bytes through (42_pixel_format.md R182). -/
theorem pixDecode_ok {f : PixelFormat} {a j : Nat} {w : Work}
    (h : ∀ k ∈ texelReads f j, env.platform.rejects (a + k) .read = false) :
    pixDecode env f a j w = (.ok (pixelAt w.mem f a j), w) := by
  cases hf : texelLayout f with
  | bytes size decode encode =>
    simp only [pixDecode, pixelAt, hf]
    exact run_bind_ok (memRead_ok (texelReads_bytes (p := (env.platform.rejects · .read = false)) hf h))
  | nibbles decode encode =>
    simp only [pixDecode, pixelAt, hf, ← nibble_eq, ← Memory.little_one]
    refine run_bind_ok (memRead_ok fun i hi => ?_)
    obtain rfl := Nat.lt_one_iff.mp hi
    exact texelReads_nibbles (p := (env.platform.rejects · .read = false)) hf h
  | blocks alpha =>
    simp only [pixDecode, pixelAt, hf]
    exact run_bind_ok (readBlock_ok (texelReads_blocks (p := (env.platform.rejects · .read = false)) hf h))

/-- A pixel depends on the bytes it is decoded from (42_pixel_format.md R182). -/
theorem pixelAt_congr {f : PixelFormat} {a j : Nat} {m m' : Memory}
    (h : ∀ k ∈ texelReads f j, m.read (a + k) = m'.read (a + k)) : pixelAt m f a j = pixelAt m' f a j := by
  cases hf : texelLayout f with
  | bytes size decode encode =>
    simp only [pixelAt, hf, Memory.little_congr (texelReads_bytes (p := fun b => m.read b = m'.read b) hf h)]
  | nibbles decode encode =>
    simp only [pixelAt, hf, texelReads_nibbles (p := fun b => m.read b = m'.read b) hf h]
  | blocks alpha =>
    simp only [pixelAt, hf, blockAt_congr (texelReads_blocks (p := fun b => m.read b = m'.read b) hf h)]

/-! ## The decoding loop -/

/-- The records of the first `n` pixels of the input. -/
def State.pixelBytes (s : State) (f : PixelFormat) (n : Nat) : List Byte :=
  ((List.range n).map (pixelAt s.mem f s.srcAddr.toNat)).flatMap Pixel.bytes

theorem State.pixelBytes_length (s : State) (f : PixelFormat) (n : Nat) : (s.pixelBytes f n).length = 4 * n := by
  rw [State.pixelBytes, flatMap_bytes_length, List.length_map, List.length_range]

theorem State.pixelBytes_succ (s : State) (f : PixelFormat) (n : Nat) :
    s.pixelBytes f (n + 1) = s.pixelBytes f n ++ (pixelAt s.mem f s.srcAddr.toNat n).bytes := by
  simp only [State.pixelBytes, List.range_succ, List.map_append, List.flatMap_append, List.map_singleton,
    List.flatMap_singleton]

theorem State.pixelBytes_getD (s : State) (f : PixelFormat) {n k : Nat} (h : k < 4 * n) :
    (s.pixelBytes f n).getD k 0 = channelByte (pixelAt s.mem f s.srcAddr.toNat (k / 4)) (k % 4) := by
  rw [State.pixelBytes, flatMap_bytes_getD, List.getD_eq_getElem _ _ (by simp; omega), List.getElem_map,
    List.getElem_range]

/-- The working state of PIX.DEC after `n` rounds (42_pixel_format.md R200). -/
def State.decoded (s : State) (f : PixelFormat) (n : Nat) : Work :=
  (Work.start s.mem).put s.dstAddr.toNat (s.pixelBytes f n)

theorem State.decoded_succ (s : State) (f : PixelFormat) (n : Nat) :
    s.decoded f (n + 1)
      = (s.decoded f n).put (s.dstAddr.toNat + 4 * n) (pixelAt s.mem f s.srcAddr.toNat n).bytes := by
  rw [State.decoded, State.pixelBytes_succ, ← Work.put_put, State.pixelBytes_length, State.decoded]

/-- The records written lie apart from the input (20_memory.md R65). -/
theorem State.decoded_input {s : State} {f : PixelFormat} {n k : Nat} (hu : s.BuffersUsable)
    (hn : 4 * n ≤ s.dstLen.toNat) (hk : k < s.srcLen.toNat) :
    (s.decoded f n).mem.read (s.srcAddr.toNat + k) = s.mem.read (s.srcAddr.toNat + k) := by
  refine Memory.read_store_outside ?_
  rw [State.pixelBytes_length]
  have := hu.disjoint
  omega

/-- One round of PIX.DEC (42_pixel_format.md R200). -/
theorem decodeRound_ok {s : State} {f : PixelFormat} {j : Nat} (hu : s.BuffersUsable) (ha : s.BusAccepts)
    (hj : j < pixelCount f s.srcLen.toNat) (hroom : 4 * (j + 1) ≤ s.dstLen.toNat) :
    (pixDecode s.env f s.srcAddr.toNat j >>= fun c => writePixel s.env s.dstAddr.toNat j c) (s.decoded f j)
      = (.ok (), s.decoded f (j + 1)) := by
  have hpixel : pixelAt (s.decoded f j).mem f s.srcAddr.toNat j = pixelAt s.mem f s.srcAddr.toNat j :=
    pixelAt_congr fun k hk => s.decoded_input hu (by omega) (texelReads_lt hj hk)
  rw [run_bind_ok (pixDecode_ok fun k hk => ha.input k (texelReads_lt hj hk)), hpixel, s.decoded_succ]
  refine writePixel_ok fun i hi => ?_
  rw [Nat.add_assoc]
  exact ha.output _ (by omega)

theorem decodeLoop_ok {s : State} {f : PixelFormat} (hu : s.BuffersUsable) (ha : s.BusAccepts)
    (hroom : 4 * pixelCount f s.srcLen.toNat ≤ s.dstLen.toNat) {n j : Nat} (hn : j + n = pixelCount f s.srcLen.toNat) :
    forFrom (fun j => pixDecode s.env f s.srcAddr.toNat j >>= fun c => writePixel s.env s.dstAddr.toNat j c) n j
        (s.decoded f j)
      = (.ok (), s.decoded f (pixelCount f s.srcLen.toNat)) := by
  induction n generalizing j with
  | zero => rw [← hn]; rfl
  | succ n ih =>
    rw [run_forFrom_succ, run_bind_ok (decodeRound_ok hu ha (by omega) (by omega))]
    exact ih (by omega)

/-- Settles O50: past its checks the command is the loop, which leaves the records of the input's pixels. -/
theorem pixelDecode : Obligations.PixelDecode := by
  intro fmt f s hf hu ha hroom
  refine endsWithBytes_of_put rfl ?_ (s.pixelBytes_length f _) fun k hk => s.pixelBytes_getD f hk
  exact (takeFormat_bind hf _ _).trans <| (require_bind_true _ (decide_eq_true hroom) _).trans <|
    (checkBuffers_bind_legal ((buffersLegal_iff s).mpr hu) _ _).trans <|
    run_bind_ok (decodeLoop_ok hu ha hroom (Nat.zero_add _))

end Sys2Proof.Machine
end

section
/-! PROOFS. The texel bytes that the pixel encoder appends (42_pixel_format.md R183, R184, R198; 43_etc1.md R250): each
piece of it is an `Appends`, and PIX.ENC is the records read and their texel bytes appended. -/
namespace Sys2Proof.Machine

open Sys2Proof.Reference

variable {α β : Type} {env : Env}

/-! ## Pieces that append -/

/-- Where the platform lets the bytes through, `x` appends them and yields `v` (20_memory.md R67). -/
def Appends (env : Env) (x : Eng α) (bytes : List Byte) (v : α) : Prop :=
  ∀ w : Work, (∀ j < bytes.length, env.platform.rejects (env.dst + w.stored + j) .write = false) →
    x w = (.ok v, w.put (env.dst + w.stored) bytes)

theorem Appends.pure (v : α) : Appends env (pure v) [] v := fun _ _ => rfl

theorem Appends.bind {x : Eng α} {f : α → Eng β} {b c : List Byte} {v : α} {u : β} (hx : Appends env x b v)
    (hf : Appends env (f v) c u) : Appends env (x >>= f) (b ++ c) u := by
  intro w h
  rw [List.length_append] at h
  rw [run_bind_ok (hx w fun j hj => h j (Nat.lt_add_right _ hj)), hf, Work.put_stored, ← Nat.add_assoc, Work.put_put]
  intro j hj
  rw [Work.put_stored, ← Nat.add_assoc, Nat.add_assoc _ b.length]
  exact h _ (Nat.add_lt_add_left hj _)

/-- A piece that appends, then a value. -/
theorem Appends.result {x : Eng α} {bytes : List Byte} {v : α} (hx : Appends env x bytes v) (u : β) :
    Appends env (x >>= fun _ => Pure.pure u) bytes u := by
  have h := hx.bind (f := fun _ => Pure.pure u) (.pure u)
  rwa [List.append_nil] at h

theorem append_appends (v : Nat) : Appends env (append env v) [BitVec.ofNat 8 v] () := fun _ h =>
  append_ok (h 0 Nat.one_pos)

theorem appendBytes_appends (v n : Nat) : Appends env (appendBytes env v n) (littleBytes n v) () := fun _ h =>
  appendBytes_ok fun j hj => h j (by rwa [littleBytes_length])

/-! ## Texels -/

/-- An encoded block: the alpha plane, then the block word (43_etc1.md R250). -/
theorem etc1Encode_appends (pixels : List Pixel) (alpha : Bool) :
    Appends env (etc1Encode env pixels alpha) (encodedBlock alpha pixels)
      (encodeColours ((blockOrder pixels).map Pixel.rgb)).2 := by
  cases alpha with
  | false => exact (appendBytes_appends _ 8).result _
  | true => exact (appendBytes_appends _ 8).bind ((appendBytes_appends _ 8).result _)

theorem encodeByteTexels_appends (size : Nat) (encode : Pixel → Nat) (cs : List Pixel) :
    Appends env (encodeByteTexels env size encode cs) (cs.flatMap fun c => littleBytes size (encode c)) () := by
  induction cs with
  | nil => exact .pure ()
  | cons c cs ih => exact (appendBytes_appends (encode c) size).bind ih

/-- The nibble cursor holds the low half of the byte to come (42_pixel_format.md R184). -/
theorem encodeNibbleTexels_appends (encode : Pixel → Nat) (cs : List Pixel) (pend : Option Nat) :
    Appends env (encodeNibbleTexels env encode cs pend) (nibbleBytes (pend.toList ++ cs.map encode)) () := by
  induction cs generalizing pend with
  | nil =>
    cases pend with
    | none => exact .pure ()
    | some low => exact append_appends low
  | cons c cs ih =>
    cases pend with
    | none => exact ih (some (encode c))
    | some low => exact (append_appends (16 * encode c + low)).bind (ih none)

theorem encodeBlockTexels_appends (alpha : Bool) (n : Nat) (cs : List Pixel) :
    Appends env (encodeBlockTexels env alpha n cs) ((blockChunks n cs).flatMap (encodedBlock alpha)) () := by
  induction n generalizing cs with
  | zero => exact .pure ()
  | succ n ih => exact (etc1Encode_appends (cs.take 16) alpha).bind (ih (cs.drop 16))

/-- The encoder appends the texel bytes of the pixels, the zero-alpha step first (42_pixel_format.md R183, R199). -/
theorem pixEncode_appends (f : PixelFormat) (cs : List Pixel) :
    Appends env (pixEncode env f cs) (texelBytes f (cs.map (zeroAlpha env.platform))) () := by
  unfold pixEncode texelBytes
  cases texelLayout f with
  | bytes size decode encode => exact encodeByteTexels_appends size encode _
  | nibbles decode encode => exact encodeNibbleTexels_appends encode _ none
  | blocks alpha => exact encodeBlockTexels_appends alpha _ _

/-! ## The number of texel bytes (42_pixel_format.md R181) -/

theorem nibbleBytes_length (vs : List Nat) : (nibbleBytes vs).length = (vs.length + 1) / 2 := by
  induction vs using nibbleBytes.induct with
  | case1 lo hi rest ih =>
    rw [nibbleBytes, List.length_cons, ih, List.length_cons, List.length_cons]
    omega
  | case2 lo => simp only [nibbleBytes, List.length_singleton, Nat.reduceAdd, Nat.reduceDiv]
  | case3 => rfl

theorem blockChunks_length (n : Nat) (cs : List Pixel) : (blockChunks n cs).length = n := by
  induction n generalizing cs with
  | zero => rfl
  | succ n ih => rw [blockChunks, List.length_cons, ih]

theorem encodedBlock_length (alpha : Bool) (cs : List Pixel) : (encodedBlock alpha cs).length = blockBytes alpha := by
  cases alpha <;> rfl

theorem texelBytes_length (f : PixelFormat) (cs : List Pixel) : (texelBytes f cs).length = encodedSize f cs.length := by
  unfold texelBytes encodedSize
  cases texelLayout f with
  | bytes size decode encode => exact length_flatMap_const (fun c => littleBytes_length size _) cs
  | nibbles decode encode => exact (nibbleBytes_length _).trans (by rw [List.length_map])
  | blocks alpha => exact (length_flatMap_const (encodedBlock_length alpha) _).trans (by rw [blockChunks_length])

/-! ## The command -/

/-- The records read where the platform lets their bytes through (30_encoding.md R86, R87). -/
theorem readPixels_ok {a n k : Nat} {w : Work}
    (h : ∀ j < 4 * n, env.platform.rejects (a + 4 * k + j) .read = false) :
    collectFrom (readPixel env a) n k w = (.ok ((List.range' k n).map (recordAt w.mem a)), w) := by
  induction n generalizing k with
  | zero => rfl
  | succ n ih =>
    have hrest := ih (k := k + 1) fun j hj => by
      rw [Nat.mul_succ, ← Nat.add_assoc, Nat.add_assoc _ 4]
      exact h (4 + j) (by omega)
    rw [run_collectFrom_succ, run_bind_ok (readPixel_ok fun j hj => h j (by omega)), run_bind_ok hrest]
    rfl

/-- The ETC1 formats take whole blocks, the others any count (42_pixel_format.md R181, R201). -/
theorem countLegal_of_blocks {f : PixelFormat} {n : Nat} (h : f = .etc1 ∨ f = .etc1a4 → n % 16 = 0) :
    countLegal f n = true := by
  cases f with
  | etc1 => exact decide_eq_true (h (.inl rfl))
  | etc1a4 => exact decide_eq_true (h (.inr rfl))
  | _ => rfl

/-- Settles O51: past its checks the command reads the records and appends their texel bytes. -/
theorem pixelEncode : Obligations.PixelEncode := by
  intro fmt f s hf hu ha hcount hsrc hdst bytes
  have hlen : bytes.length = encodedSize f s.param0.toNat := by
    rw [texelBytes_length, List.length_map, List.length_range]
  have hread : collectFrom (readPixel s.env s.env.src) s.env.param0 0 (Work.start s.mem)
      = (.ok ((List.range s.param0.toNat).map (recordAt s.mem s.srcAddr.toNat)), Work.start s.mem) := by
    rw [List.range_eq_range']
    exact readPixels_ok fun j hj => ha.input j (hj.trans_le hsrc)
  have hencode := pixEncode_appends (env := s.env) f ((List.range s.param0.toNat).map (recordAt s.mem s.srcAddr.toNat))
    (Work.start s.mem)
  rw [List.map_map] at hencode
  refine ⟨fun _ => rfl, hlen, endsWithBytes_of_put rfl ?_ hlen fun _ _ => rfl⟩
  refine (takeFormat_bind hf _ _).trans <| (require_bind_true _ (countLegal_of_blocks hcount) _).trans <|
    (require_bind_true _ (decide_eq_true hsrc) _).trans <| (require_bind_true _ (decide_eq_true hdst) _).trans <|
    (checkBuffers_bind_legal ((buffersLegal_iff s).mpr hu) _ _).trans <| (run_bind_ok hread).trans <|
    run_bind_ok (hencode fun j hj => ?_)
  exact ha.output j ((hlen ▸ hj).trans_le hdst)

end Sys2Proof.Machine
end

section
/-! PROOFS. The sizes that a command's operands must have (42_pixel_format.md R200, R201; 43_etc1.md R245, R275;
40_decompressors.md R124; 41_huffman.md R168, R169): a command runs its checks in order up to the one that fails. -/
namespace Sys2Proof.Machine

open Sys2Proof.Reference

variable {α : Type} {fmt : BitVec 4} {f : PixelFormat} {s : State}

/-! ## The checks of a command -/

/-- A check and what comes after it end with InvalidParameter if what comes after a passed check does. -/
theorem require_bind_invalid {ok : Bool} {f : Unit → Eng α} {w : Work}
    (h : ok = true → f () w = (.error { err := .invalidParameter, info := 0 }, w)) :
    (require ok >>= f) w = (.error { err := .invalidParameter, info := 0 }, w) := by
  cases hok : ok with
  | false => exact require_bind_false f rfl w
  | true => exact (require_bind_true f rfl w).trans (h hok)

theorem takeBlockFormat_bind {alpha : Bool} (f : Bool → Eng α) (w : Work) :
    (takeBlockFormat (if alpha then 13 else 12) >>= f) w = f alpha w := by
  cases alpha <;> rfl

/-- A block format is the one of its code (30_encoding.md R81). -/
theorem exists_blockFormat (hf : pixelFormatOf fmt = some f) (h : f = .etc1 ∨ f = .etc1a4) :
    ∃ alpha : Bool, fmt = (if alpha then 13 else 12) ∧ (if f = .etc1 then 8 else 16) = blockBytes alpha := by
  rcases blockFormat_code hf with ⟨rfl, rfl⟩ | ⟨rfl, rfl⟩ | ⟨h1, h2, -⟩
  · exact ⟨false, rfl, rfl⟩
  · exact ⟨true, rfl, rfl⟩
  · exact absurd h (not_or.mpr ⟨h1, h2⟩)

/-- A count that is legal for a block format is a whole number of blocks (42_pixel_format.md R181). -/
theorem mod_eq_zero_of_countLegal {n : Nat} (h : f = .etc1 ∨ f = .etc1a4) (hc : countLegal f n = true) :
    n % 16 = 0 := by
  rcases h with rfl | rfl <;> exact of_decide_eq_true hc

/-! ## The commands -/

theorem etc1Dec_sizes {alpha : Bool} (h : s.srcLen.toNat < blockBytes alpha ∨ s.dstLen.toNat < 64) :
    EndsBeforeWork (.etc1Dec (if alpha then 13 else 12)) s .invalidParameter 0 := by
  refine endsBeforeWork_of_raise rfl (by decide) ?_
  refine (takeBlockFormat_bind _ _).trans <| require_bind_invalid fun hsrc => require_bind_invalid fun hdst => ?_
  exact absurd h (not_or.mpr ⟨(of_decide_eq_true hsrc).not_gt, (of_decide_eq_true hdst).not_gt⟩)

theorem etc1Enc_sizes {alpha : Bool} (h : s.srcLen.toNat < 64 ∨ s.dstLen.toNat < blockBytes alpha) :
    EndsBeforeWork (.etc1Enc (if alpha then 13 else 12)) s .invalidParameter 0 := by
  refine endsBeforeWork_of_raise rfl (by decide) ?_
  refine (takeBlockFormat_bind _ _).trans <| require_bind_invalid fun hsrc => require_bind_invalid fun hdst => ?_
  exact absurd h (not_or.mpr ⟨(of_decide_eq_true hsrc).not_gt, (of_decide_eq_true hdst).not_gt⟩)

theorem pixDec_size (hf : pixelFormatOf fmt = some f) (h : s.dstLen.toNat < 4 * pixelCount f s.srcLen.toNat) :
    EndsBeforeWork (.pixDec fmt) s .invalidParameter 0 :=
  endsBeforeWork_of_raise rfl (by decide) <| (takeFormat_bind hf _ _).trans <|
    require_bind_false _ (decide_eq_false h.not_ge) _

theorem pixEnc_sizes (hf : pixelFormatOf fmt = some f)
    (h : (f = .etc1 ∨ f = .etc1a4) ∧ s.param0.toNat % 16 ≠ 0 ∨ s.srcLen.toNat < 4 * s.param0.toNat
      ∨ s.dstLen.toNat < encodedSize f s.param0.toNat) : EndsBeforeWork (.pixEnc fmt) s .invalidParameter 0 := by
  refine endsBeforeWork_of_raise rfl (by decide) ?_
  refine (takeFormat_bind hf _ _).trans <| require_bind_invalid fun hcount => require_bind_invalid fun hsrc =>
    require_bind_invalid fun hdst => ?_
  rcases h with ⟨hblock, hmod⟩ | hshort | hshort
  · exact absurd (mod_eq_zero_of_countLegal hblock hcount) hmod
  · exact absurd hshort (of_decide_eq_true hsrc).not_gt
  · exact absurd hshort (of_decide_eq_true hdst).not_gt

/-- A decompressor whose length stands in PARAM0 begins with the check of it. -/
theorem sizedCommand_size {i : Instr} {body : Env → Nat → Eng Unit}
    (hexec : exec i s = runCommand s (sizedCommand body)) (h : s.dstLen.toNat < s.param0.toNat) :
    EndsBeforeWork i s .invalidParameter 0 :=
  endsBeforeWork_of_raise hexec (by decide) <| require_bind_false _ (decide_eq_false h.not_ge) _

/-- Settles O29: each command run up to the check that fails. -/
theorem sizeChecksEnd : Obligations.SizeChecksEnd := by
  intro fmt f s hf
  refine ⟨fun hblock h => ?_, fun hblock h => ?_, pixDec_size hf, pixEnc_sizes hf, fun h => ?_⟩
  · obtain ⟨alpha, rfl, hbytes⟩ := exists_blockFormat hf hblock
    exact etc1Dec_sizes (hbytes ▸ h)
  · obtain ⟨alpha, rfl, hbytes⟩ := exists_blockFormat hf hblock
    exact etc1Enc_sizes (hbytes ▸ h)
  · exact ⟨sizedCommand_size (exec_rleDec s) h, sizedCommand_size (exec_huff4Dec s) h,
      sizedCommand_size (exec_huff8Dec s) h⟩

end Sys2Proof.Machine
end

section
/-! PROOFS. The two block commands where every check passes and every access is accepted (43_etc1.md R238, R245, R250,
R275), and the order of the block's pixels (43_etc1.md R232). -/
namespace Sys2Proof.Machine

open Sys2Proof.Reference

variable {s : State}

/-! ## The order of the pixels -/

/-- The block pixels are the given ones, in the order of the inverse table (43_etc1.md R250). -/
theorem blockOrder_eq {pixels : List Pixel} (h : pixels.length = 16) (d : Pixel) :
    blockOrder pixels = inv3dsTable.map fun k => pixels.getD k d := by
  have hlt : ∀ k ∈ inv3dsTable, k < pixels.length := by rw [h]; decide
  rw [blockOrder, ← List.filterMap_eq_map]
  exact List.filterMap_congr fun k hk => by
    rw [Function.comp_apply, List.getD_eq_getElem _ _ (hlt k hk), List.getElem?_eq_getElem (hlt k hk)]

/-- The inverse table undoes the permutation (43_etc1.md R232). -/
theorem inv3dsTable_order3ds : ∀ k < 16, inv3dsTable[order3ds k]? = some k := by decide

/-- Caller position `k` becomes block pixel `order3ds k` (43_etc1.md R232). -/
theorem blockOrder_order3ds {pixels : List Pixel} (h : pixels.length = 16) {k : Nat} (hk : k < 16) :
    (blockOrder pixels)[order3ds k]? = pixels[k]? := by
  have hlt : k < pixels.length := h ▸ hk
  rw [blockOrder_eq h (Pixel.ofNat 0 0 0 0), List.getElem?_map, inv3dsTable_order3ds k hk, Option.map_some,
    List.getD_eq_getElem _ _ hlt, List.getElem?_eq_getElem hlt]

theorem decodeBlock_getElem? (w : Nat) (aw : Option Nat) {k : Nat} (hk : k < 16) :
    (decodeBlock w aw)[k]? = some (blockPixel w aw (order3ds k)) := by
  rw [decodeBlock, List.getElem?_map, List.getElem?_range hk, Option.map_some]

/-- Settles O52: the tables and their powers by evaluation, the codec's order from them. -/
theorem callerOrder : Obligations.CallerOrder :=
  ⟨by decide, by decide, by decide, by decide, fun _ h _ hk => blockOrder_order3ds h hk,
    fun w aw _ hk => decodeBlock_getElem? w aw hk⟩

/-- Settles O53: the pixel that is decoded at a caller position, by `blockPixel_order3ds`. -/
theorem decodedPixel : Obligations.DecodedPixel := by
  intro w plane k hk
  rw [decodeBlock_getElem? _ _ hk, blockPixel_order3ds w plane hk]

/-! ## ETC1.DEC -/

theorem blockAt_length (m : Memory) (a : Nat) (alpha : Bool) : (blockAt m a alpha).length = 16 := by
  rw [blockAt, List.length_map, List.length_range]

/-- Settles O54: past its checks the command reads the block and writes the records of its pixels. -/
theorem blockDecode : Obligations.BlockDecode := by
  intro alpha s hu ha hsrc hdst
  have hlen : ((blockAt s.mem s.srcAddr.toNat alpha).flatMap Pixel.bytes).length = 64 := by
    rw [flatMap_bytes_length, blockAt_length]
  have hread : readBlock s.env s.env.src alpha (Work.start s.mem)
      = (.ok (blockAt s.mem s.srcAddr.toNat alpha), Work.start s.mem) :=
    readBlock_ok fun i hi => ha.input i (hi.trans_le hsrc)
  have hwrite : writePixels s.env s.env.dst (blockAt s.mem s.srcAddr.toNat alpha) 0 (Work.start s.mem)
      = (.ok (), (Work.start s.mem).put s.dstAddr.toNat
          ((blockAt s.mem s.srcAddr.toNat alpha).flatMap Pixel.bytes)) :=
    writePixels_ok fun j hj => ha.output j (by rw [blockAt_length] at hj; omega)
  refine endsWithBytes_of_put rfl ?_ hlen fun k _ => flatMap_bytes_getD _ k
  exact (takeBlockFormat_bind _ _).trans <| (require_bind_true _ (decide_eq_true hsrc) _).trans <|
    (require_bind_true _ (decide_eq_true hdst) _).trans <|
    (checkBuffers_bind_legal ((buffersLegal_iff s).mpr hu) _ _).trans <| (run_bind_ok hread).trans <|
    run_bind_ok hwrite

/-! ## ETC1.ENC -/

/-- The command leaves the encoded block of its 16 records and yields its error (43_etc1.md R275). -/
theorem etc1Enc_endsWithBytes {alpha : Bool} (hu : s.BuffersUsable) (ha : s.BusAccepts) (hsrc : 64 ≤ s.srcLen.toNat)
    (hdst : blockBytes alpha ≤ s.dstLen.toNat) {pixels : List Pixel}
    (hpixels : pixels = (List.range 16).map fun n => recordAt s.mem s.srcAddr.toNat n) :
    EndsWithBytes (.etc1Enc (if alpha then 13 else 12)) s (blockBytes alpha)
      (encodeColours ((blockOrder pixels).map Pixel.rgb)).2 (blockBytes alpha)
      ((encodedBlock alpha pixels).getD · 0) := by
  subst hpixels
  have hread : collectFrom (readPixel s.env s.env.src) 16 0 (Work.start s.mem)
      = (.ok ((List.range 16).map fun n => recordAt s.mem s.srcAddr.toNat n), Work.start s.mem) := by
    rw [List.range_eq_range']
    exact readPixels_ok fun j hj => ha.input j (hj.trans_le hsrc)
  have hlen := encodedBlock_length alpha ((List.range 16).map fun n => recordAt s.mem s.srcAddr.toNat n)
  refine endsWithBytes_of_put rfl ?_ hlen fun _ _ => rfl
  refine (takeBlockFormat_bind _ _).trans <| (require_bind_true _ (decide_eq_true hsrc) _).trans <|
    (require_bind_true _ (decide_eq_true hdst) _).trans <|
    (checkBuffers_bind_legal ((buffersLegal_iff s).mpr hu) _ _).trans <| (run_bind_ok hread).trans <|
    run_bind_ok (etc1Encode_appends (env := s.env) _ alpha (Work.start s.mem) fun j hj => ?_)
  exact ha.output j ((hlen ▸ hj).trans_le hdst)

end Sys2Proof.Machine
end

section
/-! PROOFS. The first of least cost (00_scope.md R13): what `firstBest` yields of a list whose elements stand in a given
order, and the same where the list may be empty. -/
namespace Sys2Proof.Machine

variable {α : Type} {r : α → α → Prop} {cost : α → Nat} {b x : α} {xs : List α}

/-- `b` is of least cost in the list, and of those the first in the order `r`. -/
structure FirstOf (cost : α → Nat) (r : α → α → Prop) (xs : List α) (b : α) : Prop where
  mem : b ∈ xs
  least : ∀ x ∈ xs, cost b < cost x ∨ cost b = cost x ∧ (x = b ∨ r b x)

theorem FirstOf.le (h : FirstOf cost r xs b) (hx : x ∈ xs) : cost b ≤ cost x :=
  (h.least x hx).elim Nat.le_of_lt fun heq => heq.1.le

theorem FirstOf.append_better (h : FirstOf cost r xs b) (hlt : cost x < cost b) : FirstOf cost r (xs ++ [x]) x := by
  refine ⟨List.mem_append_right xs List.mem_cons_self, fun y hy => ?_⟩
  rcases List.mem_append.mp hy with hy | hy
  · exact .inl (hlt.trans_le (h.le hy))
  · exact .inr (by rw [List.mem_singleton.mp hy]; exact ⟨rfl, .inl rfl⟩)

theorem FirstOf.append_notBetter (h : FirstOf cost r xs b) (hle : cost b ≤ cost x) (hr : r b x) :
    FirstOf cost r (xs ++ [x]) b := by
  refine ⟨List.mem_append_left [x] h.mem, fun y hy => ?_⟩
  rcases List.mem_append.mp hy with hy | hy
  · exact h.least y hy
  · rw [List.mem_singleton.mp hy]
    exact hle.lt_or_eq.imp_right fun heq => ⟨heq, .inr hr⟩

theorem firstBest_concat (cost : α → Nat) (b x : α) (xs : List α) :
    firstBest cost b (xs ++ [x]) = if cost x < cost (firstBest cost b xs) then x else firstBest cost b xs :=
  List.foldl_concat ..

theorem firstBest_firstOf (h : (b :: xs).Pairwise r) : FirstOf cost r (b :: xs) (firstBest cost b xs) := by
  induction xs using List.reverseRecOn with
  | nil => exact ⟨List.mem_singleton_self b, fun y hy => .inr (by rw [List.mem_singleton.mp hy]; exact ⟨rfl, .inl rfl⟩)⟩
  | append_singleton xs x ih =>
    rw [← List.cons_append] at h ⊢
    obtain ⟨hxs, -, hx⟩ := List.pairwise_append.mp h
    rw [firstBest_concat]
    split
    case isTrue hlt => exact (ih hxs).append_better hlt
    case isFalse hge => exact (ih hxs).append_notBetter (Nat.not_lt.mp hge) (hx _ (ih hxs).mem x List.mem_cons_self)

/-- The least of the numbers below `n` whose cost is least. -/
theorem firstBest_range (cost : Nat → Nat) {n : Nat} (h : 0 < n) :
    firstBest cost 0 ((List.range n).drop 1) < n
      ∧ ∀ x < n, cost (firstBest cost 0 ((List.range n).drop 1)) < cost x
          ∨ cost (firstBest cost 0 ((List.range n).drop 1)) = cost x
            ∧ firstBest cost 0 ((List.range n).drop 1) ≤ x := by
  have hlist : 0 :: (List.range n).drop 1 = List.range n := by
    obtain ⟨m, rfl⟩ := Nat.exists_eq_succ_of_ne_zero h.ne'
    rw [List.range_succ_eq_map, List.drop_one, List.tail_cons]
  have hfirst := firstBest_firstOf (cost := cost) (hlist ▸ List.pairwise_lt_range)
  rw [hlist] at hfirst
  refine ⟨List.mem_range.mp hfirst.mem, fun x hx => (hfirst.least x (List.mem_range.mpr hx)).imp_right ?_⟩
  exact fun ⟨heq, hlt⟩ => ⟨heq, hlt.elim (fun h => h.ge) Nat.le_of_lt⟩

/-! ## Lists that may be empty -/

/-- The first element of least cost, if there is any. -/
def firstLeast (cost : α → Nat) : List α → Option α
  | [] => none
  | x :: xs => some (firstBest cost x xs)

theorem firstLeast_eq_none : firstLeast cost xs = none ↔ xs = [] := by
  cases xs <;> simp [firstLeast]

theorem firstLeast_firstOf (hr : xs.Pairwise r) (h : firstLeast cost xs = some b) : FirstOf cost r xs b := by
  cases xs with
  | nil => cases h
  | cons x xs =>
    obtain rfl := Option.some.inj h
    exact firstBest_firstOf hr

theorem firstLeast_concat (cost : α → Nat) (xs : List α) (x : α) :
    firstLeast cost (xs ++ [x])
      = match firstLeast cost xs with
        | none => some x
        | some b => if cost x < cost b then some x else some b := by
  cases xs with
  | nil => rfl
  | cons y ys =>
    rw [List.cons_append, firstLeast, firstBest_concat, firstLeast]
    exact apply_ite some _ _ _

/-- A fold that keeps the best so far, whichever step it is written with. -/
theorem foldl_eq_firstLeast {step : Option α → α → Option α} (hnone : ∀ x, step none x = some x)
    (hsome : ∀ b x, step (some b) x = if cost x < cost b then some x else some b) (xs ys : List α) :
    ys.foldl step (firstLeast cost xs) = firstLeast cost (xs ++ ys) := by
  induction ys using List.reverseRecOn with
  | nil => rw [List.append_nil]; rfl
  | append_singleton ys y ih =>
    rw [List.foldl_concat, ih, ← List.append_assoc, firstLeast_concat]
    cases firstLeast cost (xs ++ ys) with
    | none => exact hnone y
    | some b => exact hsome b y

end Sys2Proof.Machine
end

section
/-! PROOFS. The search of a sub-block (43_etc1.md R266 to R271): the bases it tries, in their order, and the first
solution of least error among them. -/
namespace Sys2Proof.Machine

open Sys2Proof.Reference

variable {pixels : List Rgb} {diff : Bool} {ref : Option Rgb} {start c d : Rgb} {radii : List Nat}

/-! ## The shells (43_etc1.md R267) -/

/-- Lower in R, G and B, in that order. -/
def LexBefore (c d : Rgb) : Prop := c.r < d.r ∨ c.r = d.r ∧ (c.g < d.g ∨ c.g = d.g ∧ c.b < d.b)

theorem mem_around {r : Nat} {x : Int} : x ∈ around r ↔ x.natAbs ≤ r := by
  simp only [around, List.mem_map, List.mem_range]
  exact ⟨by rintro ⟨k, hk, rfl⟩; omega, fun h => ⟨(x + r).toNat, by omega, by omega⟩⟩

theorem around_pairwise (r : Nat) : (around r).Pairwise (· < ·) :=
  List.pairwise_map.mpr (List.pairwise_lt_range.imp fun h => by omega)

/-- The offsets of a shell with one R and G. -/
def shellRow (r : Nat) (dr dg : Int) : List Rgb :=
  (around r).filterMap fun db =>
    if max dr.natAbs (max dg.natAbs db.natAbs) = r then some { r := dr, g := dg, b := db } else none

/-- The offsets of a shell with one R. -/
def shellPlane (r : Nat) (dr : Int) : List Rgb := (around r).flatMap (shellRow r dr)

theorem shell_eq (r : Nat) : shell r = (around r).flatMap (shellPlane r) := rfl

theorem mem_shellRow {r : Nat} {dr dg : Int} :
    d ∈ shellRow r dr dg ↔ d.r = dr ∧ d.g = dg ∧ max d.r.natAbs (max d.g.natAbs d.b.natAbs) = r := by
  simp only [shellRow, List.mem_filterMap, mem_around, Option.ite_none_right_eq_some, Option.some.injEq]
  constructor
  · rintro ⟨db, -, h, rfl⟩
    exact ⟨rfl, rfl, h⟩
  · rintro ⟨rfl, rfl, h⟩
    exact ⟨d.b, by omega, h, rfl⟩

theorem mem_shellPlane {r : Nat} {dr : Int} :
    d ∈ shellPlane r dr ↔ d.r = dr ∧ max d.r.natAbs (max d.g.natAbs d.b.natAbs) = r := by
  simp only [shellPlane, List.mem_flatMap, mem_around, mem_shellRow]
  constructor
  · rintro ⟨dg, -, h, -, hr⟩
    exact ⟨h, hr⟩
  · rintro ⟨h, hr⟩
    exact ⟨d.g, by omega, h, rfl, hr⟩

theorem mem_shell {r : Nat} : d ∈ shell r ↔ max d.r.natAbs (max d.g.natAbs d.b.natAbs) = r := by
  simp only [shell_eq, List.mem_flatMap, mem_around, mem_shellPlane]
  constructor
  · rintro ⟨dr, -, -, hr⟩
    exact hr
  · intro hr
    exact ⟨d.r, by omega, rfl, hr⟩

theorem shellRow_pairwise (r : Nat) (dr dg : Int) : (shellRow r dr dg).Pairwise LexBefore := by
  refine List.pairwise_filterMap.mpr ((around_pairwise r).imp fun hlt x hx y hy => ?_)
  obtain ⟨-, hx⟩ := Option.ite_none_right_eq_some.mp hx
  obtain ⟨-, hy⟩ := Option.ite_none_right_eq_some.mp hy
  rw [← Option.some.inj hx, ← Option.some.inj hy]
  exact .inr ⟨rfl, .inr ⟨rfl, hlt⟩⟩

theorem shellPlane_pairwise (r : Nat) (dr : Int) : (shellPlane r dr).Pairwise LexBefore := by
  refine List.pairwise_flatMap.mpr ⟨fun dg _ => shellRow_pairwise r dr dg,
    (around_pairwise r).imp fun hlt x hx y hy => ?_⟩
  obtain ⟨hxr, hxg, -⟩ := mem_shellRow.mp hx
  obtain ⟨hyr, hyg, -⟩ := mem_shellRow.mp hy
  exact .inr ⟨hxr.trans hyr.symm, .inl (by rwa [hxg, hyg])⟩

theorem shell_pairwise (r : Nat) : (shell r).Pairwise LexBefore := by
  refine List.pairwise_flatMap.mpr ⟨fun dr _ => shellPlane_pairwise r dr,
    (around_pairwise r).imp fun hlt x hx y hy => .inl ?_⟩
  rwa [(mem_shellPlane.mp hx).1, (mem_shellPlane.mp hy).1]

/-! ## The bases that are tried -/

/-- The bases that the search tries in the shells of the given radii. -/
def triedBases (diff : Bool) (ref : Option Rgb) (start : Rgb) (radii : List Nat) : List Rgb :=
  radii.flatMap fun r => ((shell r).map (start.zip (· + ·))).filter (candidateLegal diff ref)

theorem candidateLegal_iff : candidateLegal diff ref c = true ↔ LegalBase diff ref c := by
  cases ref with
  | none =>
    simp only [candidateLegal, LegalBase, Rgb.all, Bool.and_eq_true, decide_eq_true_eq, reduceCtorEq, false_implies,
      implies_true, and_assoc, and_true]
  | some b =>
    simp only [candidateLegal, LegalBase, Rgb.all, Bool.and_eq_true, decide_eq_true_eq, Option.some.injEq, forall_eq',
      and_assoc]
    rfl

/-- The bases at a distance from the start base (43_etc1.md R267). -/
theorem mem_shell_around {r : Nat} : c ∈ (shell r).map (start.zip (· + ·)) ↔ baseDistance c start = r := by
  simp only [List.mem_map, mem_shell, baseDistance]
  constructor
  · rintro ⟨d, hd, rfl⟩
    simpa only [Rgb.zip, add_sub_cancel_left] using hd
  · intro h
    refine ⟨c.zip (· - ·) start, h, ?_⟩
    simp only [Rgb.zip, add_sub_cancel]

theorem mem_triedBases : c ∈ triedBases diff ref start radii ↔ LegalBase diff ref c ∧ baseDistance c start ∈ radii := by
  simp only [triedBases, List.mem_flatMap, List.mem_filter, mem_shell_around, candidateLegal_iff]
  exact ⟨fun ⟨r, hr, hd, hc⟩ => ⟨hc, hd ▸ hr⟩, fun ⟨hc, hr⟩ => ⟨_, hr, rfl, hc⟩⟩

/-- The nearer to the start base first, then the lower (43_etc1.md R266, R267). -/
def BaseBefore (start c d : Rgb) : Prop :=
  baseDistance c start < baseDistance d start ∨ baseDistance c start = baseDistance d start ∧ LexBefore c d

theorem triedBases_pairwise (h : radii.Pairwise (· < ·)) :
    (triedBases diff ref start radii).Pairwise (BaseBefore start) := by
  refine List.pairwise_flatMap.mpr ⟨fun r _ => ?_, h.imp fun hlt c hc d hd => .inl ?_⟩
  · have hshell : ((shell r).map (start.zip (· + ·))).Pairwise LexBefore :=
      List.pairwise_map.mpr ((shell_pairwise r).imp fun h => by
        simpa only [LexBefore, Rgb.zip, add_lt_add_iff_left, add_right_inj] using h)
    refine (hshell.imp_of_mem fun hc hd hlex => .inr ⟨?_, hlex⟩).filter _
    rw [mem_shell_around.mp hc, mem_shell_around.mp hd]
  · rwa [mem_shell_around.mp (List.mem_filter.mp hc).1, mem_shell_around.mp (List.mem_filter.mp hd).1]

/-! ## The solutions that are compared -/

/-- The solutions that the search compares in the shells of the given radii. -/
def attempts (pixels : List Rgb) (diff : Bool) (ref : Option Rgb) (radii : List Nat) : List SubSolution :=
  (triedBases diff ref (startBase pixels diff) radii).flatMap fun c => (List.range 8).map (evaluate pixels c diff)

theorem attempts_append (radii radii' : List Nat) :
    attempts pixels diff ref (radii ++ radii') = attempts pixels diff ref radii ++ attempts pixels diff ref radii' := by
  simp only [attempts, triedBases, List.flatMap_append]

theorem mem_attempts {s : SubSolution} : s ∈ attempts pixels diff ref radii ↔
    ∃ c t, LegalBase diff ref c ∧ t < 8 ∧ baseDistance c (startBase pixels diff) ∈ radii
      ∧ evaluate pixels c diff t = s := by
  simp only [attempts, List.mem_flatMap, List.mem_map, List.mem_range, mem_triedBases]
  exact ⟨fun ⟨c, ⟨hc, hr⟩, t, ht, h⟩ => ⟨c, t, hc, ht, hr, h⟩, fun ⟨c, t, hc, ht, hr, h⟩ => ⟨c, ⟨hc, hr⟩, t, ht, h⟩⟩

/-- The order in which two solutions are tried. -/
def SolutionBefore (start : Rgb) (s s' : SubSolution) : Prop := TriedBefore start s.base s.table s'.base s'.table

theorem attempts_pairwise (h : radii.Pairwise (· < ·)) :
    (attempts pixels diff ref radii).Pairwise (SolutionBefore (startBase pixels diff)) := by
  refine List.pairwise_flatMap.mpr ⟨fun c _ => ?_, (triedBases_pairwise h).imp fun hbefore s hs s' hs' => ?_⟩
  · exact List.pairwise_map.mpr (List.pairwise_lt_range.imp fun hlt =>
      .inr ⟨rfl, .inr ⟨rfl, .inr ⟨rfl, .inr ⟨rfl, hlt⟩⟩⟩⟩)
  · obtain ⟨t, -, rfl⟩ := List.mem_map.mp hs
    obtain ⟨u, -, rfl⟩ := List.mem_map.mp hs'
    refine hbefore.imp_right fun ⟨hd, hlex⟩ => ⟨hd, hlex.imp_right fun ⟨hr, hlex⟩ => ⟨hr, hlex.imp_right ?_⟩⟩
    exact fun ⟨hg, hb⟩ => ⟨hg, .inl hb⟩

/-- The search keeps the first of least error of what it compares (43_etc1.md R271). -/
theorem tryShells_eq (radii radii' : List Nat) :
    tryShells pixels diff ref (startBase pixels diff) radii'
        (firstLeast SubSolution.err (attempts pixels diff ref radii))
      = firstLeast SubSolution.err (attempts pixels diff ref (radii ++ radii')) := by
  rw [attempts_append, ← foldl_eq_firstLeast (step := improve) (fun _ => rfl) fun _ _ => rfl]
  simp only [tryShells, tryCandidate, attempts, triedBases, List.foldl_flatMap, List.foldl_filter, List.foldl_map]

/-! ## The search -/

/-- The first of least error of the solutions within `reach` levels of the start base. -/
def leastWithin (pixels : List Rgb) (diff : Bool) (ref : Option Rgb) (reach : Nat) : Option SubSolution :=
  firstLeast SubSolution.err (attempts pixels diff ref (List.range (reach + 1)))

theorem mem_attempts_range {reach : Nat} {s : SubSolution} :
    s ∈ attempts pixels diff ref (List.range (reach + 1)) ↔
      ∃ c t, Candidate pixels diff ref reach c t ∧ evaluate pixels c diff t = s := by
  simp only [mem_attempts, Candidate, List.mem_range, Nat.lt_succ_iff, and_assoc]

theorem leastWithin_isFirstLeast {reach : Nat} {best : SubSolution}
    (h : leastWithin pixels diff ref reach = some best) : IsFirstLeast pixels diff ref reach best := by
  have hfirst := firstLeast_firstOf (attempts_pairwise List.pairwise_lt_range) h
  obtain ⟨c, t, hc, rfl⟩ := mem_attempts_range.mp hfirst.mem
  refine ⟨hc, rfl, fun d u hd => (hfirst.least _ (mem_attempts_range.mpr ⟨d, u, hd, rfl⟩)).imp_right ?_⟩
  exact fun ⟨herr, hbefore⟩ => ⟨herr, hbefore.imp_left fun heq =>
    ⟨congrArg SubSolution.base heq, congrArg SubSolution.table heq⟩⟩

theorem leastWithin_eq_none {reach : Nat} :
    leastWithin pixels diff ref reach = none ↔ ∀ c t, ¬ Candidate pixels diff ref reach c t := by
  rw [leastWithin, firstLeast_eq_none, List.eq_nil_iff_forall_not_mem]
  exact ⟨fun h c t hc => h _ (mem_attempts_range.mpr ⟨c, t, hc, rfl⟩), fun h s hs =>
    let ⟨c, t, hc, _⟩ := mem_attempts_range.mp hs
    h c t hc⟩

theorem exists_leastWithin {reach t : Nat} (h : Candidate pixels diff ref reach c t) :
    ∃ best, leastWithin pixels diff ref reach = some best :=
  Option.ne_none_iff_exists'.mp fun hnone => leastWithin_eq_none.mp hnone c t h

theorem search_eq : search pixels diff ref
    = if widens (leastWithin pixels diff ref 4) then leastWithin pixels diff ref 8
      else leastWithin pixels diff ref 4 := by
  have hnear := tryShells_eq (pixels := pixels) (diff := diff) (ref := ref) [] [0, 1, 2, 3, 4]
  have hfar := tryShells_eq (pixels := pixels) (diff := diff) (ref := ref) [0, 1, 2, 3, 4] [5, 6, 7, 8]
  unfold search
  simp only [show none = firstLeast SubSolution.err (attempts pixels diff ref []) from rfl, hnear, List.nil_append,
    hfar]
  rfl

/-- The search widens where no candidate near the start base fits (43_etc1.md R268). -/
theorem widens_iff : widens (leastWithin pixels diff ref 4) = true ↔ ¬ NearFits pixels diff ref := by
  cases h : leastWithin pixels diff ref 4 with
  | none => exact ⟨fun _ ⟨c, t, hc, _⟩ => leastWithin_eq_none.mp h c t hc, fun _ => rfl⟩
  | some best =>
    obtain ⟨hcand, hbest, hleast⟩ := leastWithin_isFirstLeast h
    refine decide_eq_true_iff.trans ⟨fun hlt ⟨c, t, hc, herr⟩ => ?_, fun hnot => ?_⟩
    · have hle : best.err ≤ (evaluate pixels c diff t).err := (hleast c t hc).elim Nat.le_of_lt fun heq => heq.1.le
      exact (hle.trans herr).not_gt hlt
    · exact Nat.not_le.mp fun hle => hnot ⟨_, _, hcand, hbest ▸ hle⟩

theorem search_of_nearFits (h : NearFits pixels diff ref) :
    search pixels diff ref = leastWithin pixels diff ref 4 := by
  rw [search_eq, if_neg fun hw => widens_iff.mp hw h]

theorem search_of_not_nearFits (h : ¬ NearFits pixels diff ref) :
    search pixels diff ref = leastWithin pixels diff ref 8 := by
  rw [search_eq, if_pos (widens_iff.mpr h)]

/-- What the search yields is the first of least error within 4 or within 8 levels. -/
theorem search_isFirstLeast {best : SubSolution} (h : search pixels diff ref = some best) :
    ∃ reach, IsFirstLeast pixels diff ref reach best := by
  by_cases hnear : NearFits pixels diff ref
  · exact ⟨4, leastWithin_isFirstLeast (search_of_nearFits hnear ▸ h)⟩
  · exact ⟨8, leastWithin_isFirstLeast (search_of_not_nearFits hnear ▸ h)⟩

/-- A candidate within 8 levels is enough for the search to yield something. -/
theorem exists_search {t : Nat} (h : Candidate pixels diff ref 8 c t) : ∃ best, search pixels diff ref = some best := by
  by_cases hnear : NearFits pixels diff ref
  · obtain ⟨d, u, hd, -⟩ := id hnear
    rw [search_of_nearFits hnear]
    exact exists_leastWithin hd
  · rw [search_of_not_nearFits hnear]
    exact exists_leastWithin h

/-! ## A candidate's error (43_etc1.md R270) -/

/-- The error of a pixel of colour `p` in a sub-block of base `c` and table `t`, with selector `s`. -/
def selectorCost (diff : Bool) (c : Rgb) (t : Nat) (p : Rgb) (s : Nat) : Nat :=
  perceptualError (shade (scaleBase diff c) (modifier t s)) p

theorem bestSelector_least (diff : Bool) (c : Rgb) (t : Nat) (p : Rgb) :
    bestSelector (scaleBase diff c) t p < 4
      ∧ ∀ s < 4, selectorCost diff c t p (bestSelector (scaleBase diff c) t p) < selectorCost diff c t p s
          ∨ selectorCost diff c t p (bestSelector (scaleBase diff c) t p) = selectorCost diff c t p s
            ∧ bestSelector (scaleBase diff c) t p ≤ s :=
  firstBest_range (selectorCost diff c t p) (by decide : 0 < 4)

theorem evaluate_err (pixels : List Rgb) (c : Rgb) (diff : Bool) (t : Nat) :
    (evaluate pixels c diff t).err
      = ((pixels.zip (evaluate pixels c diff t).sel).map fun x => selectorCost diff c t x.1 x.2).sum := by
  simp only [evaluate, ← List.map_prod_left_eq_zip, List.map_map]
  rfl

theorem evaluate_selectors {t : Nat} {x : Rgb × Nat} (hx : x ∈ pixels.zip (evaluate pixels c diff t).sel) :
    x.2 < 4 ∧ ∀ s < 4, selectorCost diff c t x.1 x.2 < selectorCost diff c t x.1 s
      ∨ selectorCost diff c t x.1 x.2 = selectorCost diff c t x.1 s ∧ x.2 ≤ s := by
  simp only [evaluate, ← List.map_prod_left_eq_zip, List.mem_map] at hx
  obtain ⟨p, -, rfl⟩ := hx
  exact bestSelector_least diff c t p

/-- Settles O58: the search is `leastWithin` 4 or 8 levels, as `widens_iff` says. -/
theorem searchFindsLeastNearby : Obligations.SearchFindsLeastNearby := by
  intro pixels diff ref
  refine ⟨fun hnear => ?_, fun hfar ⟨c, t, hc⟩ => ?_, fun hnone => ?_, rfl, rfl, fun c t =>
    ⟨rfl, rfl, List.length_map _, evaluate_err pixels c diff t, fun x hx => evaluate_selectors hx⟩⟩
  · obtain ⟨c, t, hc, -⟩ := id hnear
    obtain ⟨best, hbest⟩ := exists_leastWithin hc
    exact ⟨best, (search_of_nearFits hnear).trans hbest, leastWithin_isFirstLeast hbest⟩
  · obtain ⟨best, hbest⟩ := exists_leastWithin hc
    exact ⟨best, (search_of_not_nearFits hfar).trans hbest, leastWithin_isFirstLeast hbest⟩
  · have hfar : ¬ NearFits pixels diff ref := fun ⟨c, t, ⟨hc, ht, hd⟩, _⟩ => hnone c t ⟨hc, ht, hd.trans (by decide)⟩
    exact (search_of_not_nearFits hfar).trans (leastWithin_eq_none.mpr hnone)

end Sys2Proof.Machine
end

section
/-! PROOFS. The packed block word (43_etc1.md R234, R273): each field of the word that `packBlock` makes is the
parameter it was made from, so that the word holds the two solutions it stands for. -/
namespace Sys2Proof.Machine

open Sys2Proof.Reference

variable {diff flip : Bool} {b0 b1 : Int} {i k : Nat} {p : BlockParams} {s0 s1 : SubSolution}

/-! ## The halves of a block (43_etc1.md R233, R265) -/

/-- The block pixels of a sub-block, ascending. -/
def halfIndices (flip second : Bool) : List Nat := (List.range 16).filter fun i => inSecond flip i == second

theorem halfIndices_length : ∀ flip second : Bool, (halfIndices flip second).length = 8 := by decide

theorem mem_halfIndices {second : Bool} : i ∈ halfIndices flip second ↔ i < 16 ∧ inSecond flip i = second := by
  rw [halfIndices, List.mem_filter, List.mem_range, beq_iff_eq]

/-- An element that passes a filter stands behind as many as pass it before it. -/
theorem filter_getElem?_rank {α : Type} {q : α → Bool} {l : List α} {n : Nat} (hn : n < l.length)
    (hq : q l[n] = true) : (l.filter q)[((l.take n).filter q).length]? = some l[n] := by
  have hsplit : l.filter q = (l.take n).filter q ++ l[n] :: (l.drop (n + 1)).filter q := by
    rw [← List.filter_cons_of_pos hq, ← List.filter_append, List.getElem_cons_drop, List.take_append_drop]
  rw [hsplit, List.getElem?_append_right le_rfl, Nat.sub_self]
  rfl

theorem halfIndices_rank (flip : Bool) (hi : i < 16) :
    (halfIndices flip (inSecond flip i))[((List.range i).filter fun j => inSecond flip j == inSecond flip i).length]?
      = some i := by
  have h := filter_getElem?_rank (l := List.range 16) (n := i) (q := fun j => inSecond flip j == inSecond flip i)
    (by rwa [List.length_range]) (by rw [List.getElem_range, beq_self_eq_true])
  rwa [List.take_range, Nat.min_eq_left hi.le, List.getElem_range] at h

/-! ## A channel byte (43_etc1.md R235, R273) -/

/-- Two levels that one channel byte can hold. -/
structure ChannelFits (diff : Bool) (b0 b1 : Int) : Prop where
  first : 0 ≤ b0 ∧ b0 < levels diff
  second : 0 ≤ b1 ∧ b1 < levels diff
  near : diff = true → -4 ≤ b1 - b0 ∧ b1 - b0 ≤ 3

theorem packChannel_lt (h : ChannelFits diff b0 b1) : packChannel diff b0 b1 < 2 ^ 8 := by
  obtain ⟨⟨h0, hl0⟩, ⟨h1, hl1⟩, -⟩ := h
  cases diff with
  | false =>
    rw [packChannel, if_neg Bool.false_ne_true]
    change b0 < 16 at hl0
    change b1 < 16 at hl1
    omega
  | true =>
    rw [packChannel, if_pos rfl]
    change b0 < 32 at hl0
    omega

theorem channelBases_packChannel (h : ChannelFits diff b0 b1) :
    channelBases diff (packChannel diff b0 b1) = (b0.toNat, b1.toNat) := by
  obtain ⟨⟨h0, hl0⟩, ⟨h1, hl1⟩, hnear⟩ := h
  cases diff with
  | false =>
    change b1 < 16 at hl1
    change b0 < 16 at hl0
    simp only [channelBases, packChannel, bits, Nat.shiftRight_eq_div_pow, Bool.false_eq_true, if_false, Prod.mk.injEq]
    omega
  | true =>
    obtain ⟨hlow, hhigh⟩ := hnear rfl
    change b0 < 32 at hl0
    change b1 < 32 at hl1
    have hbase : bits (packChannel true b0 b1) 7 3 = b0.toNat := by
      simp only [packChannel, bits, Nat.shiftRight_eq_div_pow, if_true]
      omega
    have hdelta : bits (packChannel true b0 b1) 2 0 = ((b1 - b0) % 8).toNat := by
      simp only [packChannel, bits, Nat.shiftRight_zero, if_true]
      omega
    have hsext : sext3 ((b1 - b0) % 8).toNat = b1 - b0 := by
      unfold sext3
      split <;> omega
    simp only [channelBases, if_true, hbase, hdelta, hsext, Prod.mk.injEq, true_and]
    omega

theorem baseLevel_packChannel (h : ChannelFits diff b0 b1) (second : Bool) :
    (baseLevel diff (BitVec.ofNat 8 (packChannel diff b0 b1)) second : Int) = if second then b1 else b0 := by
  have hbases := channelBases_eq diff (BitVec.ofNat 8 (packChannel diff b0 b1))
  rw [BitVec.toNat_ofNat, Nat.mod_eq_of_lt (packChannel_lt h), channelBases_packChannel h, Prod.mk.injEq] at hbases
  cases second with
  | false => rw [← hbases.1]; exact Int.toNat_of_nonneg h.first.1
  | true => rw [← hbases.2]; exact Int.toNat_of_nonneg h.second.1

/-! ## The selector planes (43_etc1.md R273) -/

theorem packPlane_cons (s : Nat) (sel : List Nat) (k : Nat) :
    packPlane (s :: sel) k = bitAt s k + 2 * packPlane sel k := rfl

theorem bitAt_lt (v i : Nat) : bitAt v i < 2 := Nat.mod_lt _ (by decide)

theorem packPlane_lt (sel : List Nat) (k : Nat) : packPlane sel k < 2 ^ sel.length := by
  induction sel with
  | nil => exact Nat.one_pos
  | cons s sel ih =>
    have := bitAt_lt s k
    rw [packPlane_cons, List.length_cons, Nat.pow_succ]
    omega

theorem packPlane_testBit (sel : List Nat) (k i : Nat) : (packPlane sel k).testBit i = (sel.getD i 0).testBit k := by
  induction sel generalizing i with
  | nil => simp [packPlane]
  | cons s sel ih =>
    have hbit := bitAt_lt s k
    rw [packPlane_cons]
    cases i with
    | zero =>
      rw [List.getD_cons_zero, Nat.testBit_zero, show (bitAt s k + 2 * packPlane sel k) % 2 = bitAt s k by omega,
        bitAt_eq_testBit]
      cases s.testBit k <;> rfl
    | succ i =>
      rw [List.getD_cons_succ, ← ih, Nat.testBit_succ, show (bitAt s k + 2 * packPlane sel k) / 2 = packPlane sel k by
        omega]

/-- A selector is its two bits (43_etc1.md R231). -/
theorem selector_bits : ∀ s < 4, 2 * (s.testBit 1).toNat + (s.testBit 0).toNat = s := by decide

/-! ## The word -/

/-- The parameters fit their fields: what `packBlock` is given. -/
structure BlockParams.Fits (p : BlockParams) : Prop where
  table0 : p.table0 < 8
  table1 : p.table1 < 8
  base0 : LegalBase p.diff none p.base0
  base1 : LegalBase p.diff (if p.diff then some p.base0 else none) p.base1
  selectors : p.sel.length = 16

theorem BlockParams.Fits.channels (h : p.Fits) :
    ChannelFits p.diff p.base0.r p.base1.r ∧ ChannelFits p.diff p.base0.g p.base1.g
      ∧ ChannelFits p.diff p.base0.b p.base1.b := by
  obtain ⟨⟨hr, hr', hg, hg', hb, hb'⟩, -⟩ := h.base0
  obtain ⟨⟨kr, kr', kg, kg', kb, kb'⟩, hnear⟩ := h.base1
  exact ⟨⟨⟨hr, hr'⟩, ⟨kr, kr'⟩, fun hd => by have := hnear p.base0 (if_pos hd); omega⟩,
    ⟨⟨hg, hg'⟩, ⟨kg, kg'⟩, fun hd => by have := hnear p.base0 (if_pos hd); omega⟩,
    ⟨⟨hb, hb'⟩, ⟨kb, kb'⟩, fun hd => by have := hnear p.base0 (if_pos hd); omega⟩⟩

/-- The word's fields as bit vectors side by side (43_etc1.md R234). -/
def BlockParams.word (p : BlockParams) : BitVec (8 + 8 + 8 + 3 + 3 + 1 + 1 + 16 + 16) :=
  BitVec.ofNat 8 (packChannel p.diff p.base0.r p.base1.r) ++ BitVec.ofNat 8 (packChannel p.diff p.base0.g p.base1.g)
    ++ BitVec.ofNat 8 (packChannel p.diff p.base0.b p.base1.b) ++ BitVec.ofNat 3 p.table0 ++ BitVec.ofNat 3 p.table1
    ++ BitVec.ofBool p.diff ++ BitVec.ofBool p.flip ++ BitVec.ofNat 16 (packPlane p.sel 1)
    ++ BitVec.ofNat 16 (packPlane p.sel 0)

theorem packBlock_eq (h : p.Fits) : packBlock p = p.word.toNat := by
  obtain ⟨hr, hg, hb⟩ := h.channels
  have hplane : ∀ k, packPlane p.sel k < 2 ^ 16 := fun k => h.selectors ▸ packPlane_lt p.sel k
  simp only [BlockParams.word, toNat_append_eq_add, BitVec.toNat_ofNat, BitVec.toNat_ofBool]
  rw [Nat.mod_eq_of_lt (packChannel_lt hr), Nat.mod_eq_of_lt (packChannel_lt hg), Nat.mod_eq_of_lt (packChannel_lt hb),
    Nat.mod_eq_of_lt h.table0, Nat.mod_eq_of_lt h.table1, Nat.mod_eq_of_lt (hplane 0), Nat.mod_eq_of_lt (hplane 1)]
  unfold packBlock
  ring

/-- Each field of the word. -/
structure BlockParams.Fields (p : BlockParams) (w : BitVec 64) : Prop where
  red : w.extractLsb' 56 8 = BitVec.ofNat 8 (packChannel p.diff p.base0.r p.base1.r)
  green : w.extractLsb' 48 8 = BitVec.ofNat 8 (packChannel p.diff p.base0.g p.base1.g)
  blue : w.extractLsb' 40 8 = BitVec.ofNat 8 (packChannel p.diff p.base0.b p.base1.b)
  table0 : w.extractLsb' 37 3 = BitVec.ofNat 3 p.table0
  table1 : w.extractLsb' 34 3 = BitVec.ofNat 3 p.table1
  diff : w.extractLsb' 33 1 = BitVec.ofBool p.diff
  flip : w.extractLsb' 32 1 = BitVec.ofBool p.flip
  high : w.extractLsb' 16 16 = BitVec.ofNat 16 (packPlane p.sel 1)
  low : w.extractLsb' 0 16 = BitVec.ofNat 16 (packPlane p.sel 0)

theorem word_fields (p : BlockParams) : p.Fields p.word := by
  constructor
  all_goals
    simp (disch := decide) only [BlockParams.word, BitVec.extractLsb'_append_eq_of_le,
      BitVec.extractLsb'_append_eq_of_add_le, Nat.reduceSub, BitVec.extractLsb'_eq_self]

/-- A bit of a word is that bit of a field. -/
theorem getLsbD_of_field {w : BitVec 64} {lo len : Nat} {v : BitVec len} (h : w.extractLsb' lo len = v) (hk : k < len) :
    w.getLsbD (lo + k) = v.getLsbD k := by
  rw [← h, BitVec.getLsbD_extractLsb', decide_eq_true hk, Bool.true_and]

theorem toNat_of_field {w : BitVec 64} {lo len v : Nat} (h : w.extractLsb' lo len = BitVec.ofNat len v)
    (hv : v < 2 ^ len) : (w.extractLsb' lo len).toNat = v := by
  rw [h, BitVec.toNat_ofNat, Nat.mod_eq_of_lt hv]

theorem plane_getLsbD (sel : List Nat) (k : Nat) (hi : i < 16) :
    (BitVec.ofNat 16 (packPlane sel k)).getLsbD i = (sel.getD i 0).testBit k := by
  rw [BitVec.getLsbD_ofNat, packPlane_testBit, decide_eq_true hi, Bool.true_and]

/-- The selector of block pixel `i` in the word. -/
theorem word_selector {w : BitVec 64} (hw : p.Fields w) (hi : i < 16) (hs : p.sel.getD i 0 < 4) :
    2 * (w.getLsbD (16 + i)).toNat + (w.getLsbD i).toNat = p.sel.getD i 0 := by
  have hlow := getLsbD_of_field hw.low hi
  rw [Nat.zero_add] at hlow
  rw [getLsbD_of_field hw.high hi, hlow, plane_getLsbD _ _ hi, plane_getLsbD _ _ hi, selector_bits _ hs]

theorem word_base {w : BitVec 64} (hw : p.Fields w) (h : p.Fits) (second : Bool) :
    (if second then p.base1 else p.base0)
      = { r := baseLevel p.diff (w.extractLsb' 56 8) second, g := baseLevel p.diff (w.extractLsb' 48 8) second,
          b := baseLevel p.diff (w.extractLsb' 40 8) second } := by
  obtain ⟨hr, hg, hb⟩ := h.channels
  rw [hw.red, hw.green, hw.blue, baseLevel_packChannel hr, baseLevel_packChannel hg, baseLevel_packChannel hb]
  cases second <;> rfl

/-- The solution of one half. -/
def halfSolution (s0 s1 : SubSolution) (second : Bool) : SubSolution := if second then s1 else s0

/-- The two solutions are the halves of the parameters, the selectors of the block pixels given by `g`. -/
structure BlockParams.Halves (p : BlockParams) (g : Nat → Nat) (s0 s1 : SubSolution) : Prop where
  base0 : s0.base = p.base0
  base1 : s1.base = p.base1
  table0 : s0.table = p.table0
  table1 : s1.table = p.table1
  sel : p.sel = (List.range 16).map g
  halfSel : ∀ second, (halfSolution s0 s1 second).sel = (halfIndices p.flip second).map g
  small : ∀ i < 16, g i < 4

variable {g : Nat → Nat}

theorem BlockParams.Halves.selector (h : p.Halves g s0 s1) (hi : i < 16) : p.sel.getD i 0 = g i := by
  rw [h.sel, List.getD_eq_getElem _ _ (by rwa [List.length_map, List.length_range]), List.getElem_map,
    List.getElem_range]

theorem BlockParams.Halves.half_selector (h : p.Halves g s0 s1) (hi : i < 16) :
    (halfSolution s0 s1 (inSecond p.flip i)).sel[((List.range i).filter fun j =>
        inSecond p.flip j == inSecond p.flip i).length]? = some (g i) := by
  rw [h.halfSel, List.getElem?_map, halfIndices_rank p.flip hi, Option.map_some]

/-- A packed word holds the solutions it was made from (43_etc1.md R273). -/
theorem packBlock_holds (hfits : p.Fits) (h : p.Halves g s0 s1) :
    packBlock p < 2 ^ 64 ∧ HoldsSolutions (BitVec.ofNat 64 (packBlock p)) p.flip p.diff s0 s1 := by
  have hw : p.Fields (BitVec.ofNat 64 (packBlock p)) := by
    rw [packBlock_eq hfits, BitVec.ofNat_toNat, BitVec.setWidth_eq]
    exact word_fields p
  refine ⟨packBlock_eq hfits ▸ p.word.isLt, ?_, ?_, ?_, ?_, fun second => ?_, fun i hi => ?_⟩
  · exact (getLsbD_of_field hw.flip Nat.one_pos).trans (BitVec.getLsbD_ofBool p.flip 0)
  · exact (getLsbD_of_field hw.diff Nat.one_pos).trans (BitVec.getLsbD_ofBool p.diff 0)
  · exact (toNat_of_field hw.table0 hfits.table0).trans h.table0.symm
  · exact (toNat_of_field hw.table1 hfits.table1).trans h.table1.symm
  · rw [← word_base hw hfits second, ← h.base0, ← h.base1]
    exact apply_ite SubSolution.base _ s1 s0
  · have hs := h.selector hi
    rw [word_selector hw hi (hs ▸ h.small i hi), hs]
    exact h.half_selector hi

end Sys2Proof.Machine
end

section
/-! PROOFS. The solid block (43_etc1.md R260, R261): the combination and the levels that `solidBlock` packs are the
first of least error of all choices. -/
namespace Sys2Proof.Machine

open Sys2Proof.Reference

variable {c : Rgb} {v : Int} {k q : Nat} {x y : SolidChoice}

/-! ## Combinations (43_etc1.md R260) -/

/-- A combination's number holds its mode, table and selector. -/
theorem combo_fields : ∀ (diff : Bool), ∀ t < 8, ∀ s < 4,
    comboDiff (32 * diff.toNat + 4 * t + s) = diff ∧ bits (32 * diff.toNat + 4 * t + s) 4 2 = t
      ∧ bits (32 * diff.toNat + 4 * t + s) 1 0 = s ∧ 32 * diff.toNat + 4 * t + s < 64 := by decide

/-- Every combination is a mode, a table and a selector. -/
theorem combo_number : ∀ k < 64, 32 * (comboDiff k).toNat + 4 * bits k 4 2 + bits k 1 0 = k ∧ bits k 4 2 < 8
    ∧ bits k 1 0 < 4 := by decide

/-- How far level `q` is from the channel value `v` under combination `k`. -/
def channelCost (k : Nat) (v : Int) (q : Nat) : Nat := (comboValue k q - v).natAbs

/-- The weighted sum of the squares of three channels' errors (00_scope.md R12). -/
def weighted (r g b : Nat) : Nat := 2 * r ^ 2 + 4 * g ^ 2 + 3 * b ^ 2

theorem weighted_mono {r g b r' g' b' : Nat} (hr : r ≤ r') (hg : g ≤ g') (hb : b ≤ b') :
    weighted r g b ≤ weighted r' g' b' := by
  have hr := Nat.pow_le_pow_left hr 2
  have hg := Nat.pow_le_pow_left hg 2
  have hb := Nat.pow_le_pow_left hb 2
  unfold weighted
  omega

theorem eq_of_weighted_eq {r g b r' g' b' : Nat} (hr : r ≤ r') (hg : g ≤ g') (hb : b ≤ b')
    (h : weighted r g b = weighted r' g' b') : r = r' ∧ g = g' ∧ b = b' := by
  have hr := Nat.pow_le_pow_left hr 2
  have hg := Nat.pow_le_pow_left hg 2
  have hb := Nat.pow_le_pow_left hb 2
  unfold weighted at h
  exact ⟨Nat.pow_left_injective two_ne_zero (show r ^ 2 = r' ^ 2 by omega),
    Nat.pow_left_injective two_ne_zero (show g ^ 2 = g' ^ 2 by omega),
    Nat.pow_left_injective two_ne_zero (show b ^ 2 = b' ^ 2 by omega)⟩

theorem levels_pos (diff : Bool) : 0 < levels diff := by cases diff <;> decide

/-- The table's level is the least of those nearest to the value (43_etc1.md R260). -/
theorem solidLevel_least (v : Int) (k : Nat) : solidLevel v k < levels (comboDiff k)
    ∧ ∀ q < levels (comboDiff k), channelCost k v (solidLevel v k) < channelCost k v q
      ∨ channelCost k v (solidLevel v k) = channelCost k v q ∧ solidLevel v k ≤ q :=
  firstBest_range (channelCost k v) (levels_pos _)

theorem channelCost_solidLevel_le (hq : q < levels (comboDiff k)) :
    channelCost k v (solidLevel v k) ≤ channelCost k v q :=
  ((solidLevel_least v k).2 q hq).elim Nat.le_of_lt fun h => h.1.le

theorem solidLevel_le (hq : q < levels (comboDiff k)) (h : channelCost k v (solidLevel v k) = channelCost k v q) :
    solidLevel v k ≤ q :=
  ((solidLevel_least v k).2 q hq).elim (fun hlt => absurd h hlt.ne) And.right

/-! ## Choices -/

theorem solidError_eq (c : Rgb) (k : Nat) :
    solidError c k = weighted (channelCost k c.r (solidLevel c.r k)) (channelCost k c.g (solidLevel c.g k))
      (channelCost k c.b (solidLevel c.b k)) := rfl

/-- The choice's levels are below the limit of its combination. -/
theorem base_lt_levels (h : y.legal) : y.base.r.toNat < levels (comboDiff y.number)
    ∧ y.base.g.toNat < levels (comboDiff y.number) ∧ y.base.b.toNat < levels (comboDiff y.number) := by
  obtain ⟨ht, hs, ⟨hr, hr', hg, hg', hb, hb'⟩, -⟩ := h
  obtain ⟨hdiff, -⟩ := combo_fields y.diff y.table ht y.selector hs
  rw [SolidChoice.number, hdiff]
  exact ⟨(Int.toNat_lt hr).mpr hr', (Int.toNat_lt hg).mpr hg', (Int.toNat_lt hb).mpr hb'⟩

theorem number_lt_of_legal (h : y.legal) : y.number < 64 :=
  (combo_fields y.diff y.table h.1 y.selector h.2.1).2.2.2

theorem cost_eq_weighted (h : y.legal) (c : Rgb) :
    y.cost c = weighted (channelCost y.number c.r y.base.r.toNat) (channelCost y.number c.g y.base.g.toNat)
      (channelCost y.number c.b y.base.b.toNat) := by
  obtain ⟨hdiff, htable, hselector, -⟩ := combo_fields y.diff y.table h.1 y.selector h.2.1
  simp only [channelCost, comboValue, comboOffset, SolidChoice.number, hdiff, htable, hselector]
  rfl

/-- No legal choice does better than the table's levels for its combination (43_etc1.md R261). -/
theorem solidError_le_cost (h : y.legal) (c : Rgb) : solidError c y.number ≤ y.cost c := by
  obtain ⟨hr, hg, hb⟩ := base_lt_levels h
  rw [cost_eq_weighted h, solidError_eq]
  exact weighted_mono (channelCost_solidLevel_le hr) (channelCost_solidLevel_le hg) (channelCost_solidLevel_le hb)

/-- A legal choice that does as well has no lower levels (43_etc1.md R260). -/
theorem solidLevel_le_base (h : y.legal) (heq : solidError c y.number = y.cost c) :
    solidLevel c.r y.number ≤ y.base.r.toNat ∧ solidLevel c.g y.number ≤ y.base.g.toNat
      ∧ solidLevel c.b y.number ≤ y.base.b.toNat := by
  obtain ⟨hr, hg, hb⟩ := base_lt_levels h
  rw [cost_eq_weighted h, solidError_eq] at heq
  obtain ⟨er, eg, eb⟩ := eq_of_weighted_eq (channelCost_solidLevel_le hr) (channelCost_solidLevel_le hg)
    (channelCost_solidLevel_le hb) heq
  exact ⟨solidLevel_le hr er, solidLevel_le hg eg, solidLevel_le hb eb⟩

/-! ## The choice that is packed -/

/-- The combination that `solidBlock` takes. -/
def solidCombo (c : Rgb) : Nat := firstBest (solidError c) 0 ((List.range 64).drop 1)

theorem solidCombo_least (c : Rgb) : solidCombo c < 64
    ∧ ∀ k < 64, solidError c (solidCombo c) < solidError c k
      ∨ solidError c (solidCombo c) = solidError c k ∧ solidCombo c ≤ k :=
  firstBest_range (solidError c) (by decide)

/-- The choice that `solidBlock` packs. -/
def solidChoice (c : Rgb) : SolidChoice where
  diff := comboDiff (solidCombo c)
  table := bits (solidCombo c) 4 2
  selector := bits (solidCombo c) 1 0
  base := c.map fun v => solidLevel v (solidCombo c)

theorem solidChoice_number (c : Rgb) : (solidChoice c).number = solidCombo c :=
  (combo_number _ (solidCombo_least c).1).1

theorem legalBase_levels (diff : Bool) {r g b : Nat} (hr : r < levels diff) (hg : g < levels diff)
    (hb : b < levels diff) : LegalBase diff none { r := r, g := g, b := b } :=
  ⟨⟨Int.natCast_nonneg r, Int.ofNat_lt.mpr hr, Int.natCast_nonneg g, Int.ofNat_lt.mpr hg, Int.natCast_nonneg b,
    Int.ofNat_lt.mpr hb⟩, nofun⟩

theorem solidChoice_legal (c : Rgb) : (solidChoice c).legal :=
  ⟨(combo_number _ (solidCombo_least c).1).2.1, (combo_number _ (solidCombo_least c).1).2.2,
    legalBase_levels _ (solidLevel_least _ _).1 (solidLevel_least _ _).1 (solidLevel_least _ _).1⟩

theorem solidChoice_cost (c : Rgb) : (solidChoice c).cost c = solidError c (solidCombo c) := by
  rw [cost_eq_weighted (solidChoice_legal c), solidChoice_number]
  rfl

theorem solidChoice_isFirstLeast (c : Rgb) : (solidChoice c).IsFirstLeast c := by
  refine ⟨solidChoice_legal c, fun y hy => ?_⟩
  rw [solidChoice_cost, solidChoice_number]
  have hle := solidError_le_cost hy c
  rcases (solidCombo_least c).2 y.number (number_lt_of_legal hy) with hlt | ⟨heq, hnumber⟩
  · exact .inl (hlt.trans_le hle)
  rcases hle.lt_or_eq with hlt | hsame
  · exact .inl (heq.trans_lt hlt)
  refine .inr ⟨heq.trans hsame, hnumber.lt_or_eq.imp_right fun hnum => ⟨hnum, ?_⟩⟩
  obtain ⟨hr, hg, hb⟩ := solidLevel_le_base hy hsame
  obtain ⟨-, -, ⟨yr, -, yg, -, yb, -⟩, -⟩ := hy
  rw [← hnum] at hr hg hb
  exact ⟨(Int.le_toNat yr).mp hr, (Int.le_toNat yg).mp hg, (Int.le_toNat yb).mp hb⟩

/-! ## The word -/

/-- The parameters of the solid block (43_etc1.md R261). -/
def solidParams (x : SolidChoice) : BlockParams where
  flip := false
  diff := x.diff
  base0 := x.base
  base1 := x.base
  table0 := x.table
  table1 := x.table
  sel := List.replicate 16 x.selector

theorem solidBlock_eq (c : Rgb) :
    solidBlock c = (packBlock (solidParams (solidChoice c)), 16 * solidError c (solidCombo c)) := rfl

theorem solidParams_fits (h : x.legal) : (solidParams x).Fits where
  table0 := h.1
  table1 := h.1
  base0 := h.2.2
  base1 := ⟨h.2.2.1, fun b hb => by
    obtain ⟨-, hb⟩ := Option.ite_none_right_eq_some.mp hb
    have hsame : x.base = b := Option.some.inj hb
    subst hsame
    simp only [solidParams, sub_self]
    decide⟩
  selectors := List.length_replicate

theorem map_const_halfIndices (flip second : Bool) (s : Nat) :
    (halfIndices flip second).map (fun _ => s) = List.replicate 8 s := by
  rw [List.map_const', halfIndices_length]

theorem solidParams_halves (h : x.legal) : (solidParams x).Halves (fun _ => x.selector) x.half x.half where
  base0 := rfl
  base1 := rfl
  table0 := rfl
  table1 := rfl
  sel := by rw [List.map_const', List.length_range]; rfl
  halfSel := fun second => by
    rw [map_const_halfIndices]
    cases second <;> rfl
  small := fun _ _ => h.2.1

theorem solidBlock_holds (c : Rgb) : (solidBlock c).1 < 2 ^ 64
    ∧ HoldsSolutions (BitVec.ofNat 64 (solidBlock c).1) false (solidChoice c).diff (solidChoice c).half
      (solidChoice c).half :=
  packBlock_holds (solidParams_fits (solidChoice_legal c)) (solidParams_halves (solidChoice_legal c))

theorem solidBlock_err (c : Rgb) : (solidBlock c).2 = 16 * (solidChoice c).cost c := by
  rw [solidChoice_cost, solidBlock_eq]

/-- Settles O57 with the choice that is packed. -/
theorem solidBlockIsLeast : Obligations.SolidBlockIsLeast := by
  intro c
  obtain ⟨hlt, hholds⟩ := solidBlock_holds c.rgb
  exact ⟨solidChoice c.rgb, solidChoice_isFirstLeast c.rgb, hlt, hholds, solidBlock_err c.rgb⟩

end Sys2Proof.Machine
end

section
/-! PROOFS. The general block (43_etc1.md R265, R269, R273): the four combinations as pairs of searches, the first
of least error among them, and the word that holds its two solutions. -/
namespace Sys2Proof.Machine

open Sys2Proof.Reference

variable {colours : List Rgb} {flip diff : Bool} {s0 s1 : SubSolution}

/-! ## The halves of the colours (43_etc1.md R233, R265) -/

/-- The colour of block pixel `i`. -/
def colourAt (colours : List Rgb) (i : Nat) : Rgb := colours.getD i { r := 0, g := 0, b := 0 }

theorem getElem?_eq_colourAt {i : Nat} (hlen : colours.length = 16) (hi : i < 16) :
    colours[i]? = some (colourAt colours i) := by
  rw [colourAt, List.getD_eq_getElem?_getD, List.getElem?_eq_getElem (hlen.symm ▸ hi), Option.getD_some]

theorem half_eq (hlen : colours.length = 16) (flip second : Bool) :
    half colours flip second = (halfIndices flip second).map (colourAt colours) := by
  rw [← List.filterMap_eq_map]
  exact List.filterMap_congr fun i hi => getElem?_eq_colourAt hlen (mem_halfIndices.mp hi).1

theorem subBlock_eq_inSecond : ∀ i < 16, ∀ flip : Bool, subBlock i flip = (inSecond flip i).toNat := by decide

theorem subPixels_eq_half (colours : List Rgb) (flip second : Bool) :
    subPixels colours flip second.toNat = half colours flip second := by
  rw [half, List.filterMap_filter]
  refine List.filterMap_congr fun i hi => ?_
  rw [subBlock_eq_inSecond i (List.mem_range.mp hi)]
  cases inSecond flip i <;> cases second <;> rfl

/-- Selectors that a function gives come back in the order of the block pixels. -/
theorem mergeSelectors_map (flip : Bool) (g : Nat → Nat) {is : List Nat} (h : ∀ i ∈ is, i < 16) :
    mergeSelectors flip is ((is.filter fun i => inSecond flip i == false).map g)
      ((is.filter fun i => inSecond flip i == true).map g) = is.map g := by
  induction is with
  | nil => rfl
  | cons i is ih =>
    have hrest := ih fun j hj => h j (List.mem_cons_of_mem i hj)
    rw [mergeSelectors, subBlock_eq_inSecond i (h i List.mem_cons_self)]
    cases hi : inSecond flip i with
    | false =>
      rw [List.filter_cons_of_pos (by rw [hi]; rfl), List.filter_cons_of_neg (by rw [hi]; decide),
        if_pos Bool.toNat_false]
      exact congrArg (g i :: ·) hrest
    | true =>
      rw [List.filter_cons_of_neg (by rw [hi]; decide), List.filter_cons_of_pos (by rw [hi]; rfl), if_neg (by decide)]
      exact congrArg (g i :: ·) hrest

/-! ## Two searches -/

/-- What the two searches of a combination have found (43_etc1.md R265, R269). -/
structure Solved (colours : List Rgb) (flip diff : Bool) (s0 s1 : SubSolution) : Prop where
  base0 : LegalBase diff none s0.base
  base1 : LegalBase diff (if diff then some s0.base else none) s1.base
  table0 : s0.table < 8
  table1 : s1.table < 8
  value : ∀ second, halfSolution s0 s1 second
    = evaluate (half colours flip second) (halfSolution s0 s1 second).base diff (halfSolution s0 s1 second).table

theorem bothHalves_solved (h : bothHalves colours flip diff = some (s0, s1)) : Solved colours flip diff s0 s1 := by
  obtain ⟨r0, h0, hrest⟩ := Option.bind_eq_some_iff.mp h
  obtain ⟨r1, h1, hpair⟩ := Option.map_eq_some_iff.mp hrest
  obtain ⟨rfl, rfl⟩ := Prod.mk.inj hpair
  obtain ⟨-, ⟨hbase0, htable0, -⟩, hvalue0, -⟩ := search_isFirstLeast h0
  obtain ⟨-, ⟨hbase1, htable1, -⟩, hvalue1, -⟩ := search_isFirstLeast h1
  exact ⟨hbase0, hbase1, htable0, htable1, Bool.rec hvalue0 hvalue1⟩

/-- The solution of a pair of searches (43_etc1.md R265). -/
def blockSolution (flip diff : Bool) (s : SubSolution × SubSolution) : BlockSolution where
  params :=
    { flip := flip, diff := diff, base0 := s.1.base, base1 := s.2.base, table0 := s.1.table, table1 := s.2.table,
      sel := mergeSelectors flip (List.range 16) s.1.sel s.2.sel }
  err := s.1.err + s.2.err

theorem combination_eq (colours : List Rgb) (flip diff : Bool) :
    combination colours flip diff = (bothHalves colours flip diff).map (blockSolution flip diff) := by
  have h0 : subPixels colours flip 0 = half colours flip false := subPixels_eq_half colours flip false
  have h1 : subPixels colours flip 1 = half colours flip true := subPixels_eq_half colours flip true
  unfold combination bothHalves
  rw [h0, h1]
  generalize search (half colours flip false) diff none = first
  generalize search (half colours flip true) diff = second
  cases first with
  | none => rfl
  | some s0 =>
    simp only [Option.bind_some]
    cases second (if diff = true then some s0.base else none) <;> rfl

/-- The selector that the two solutions give to block pixel `i` (43_etc1.md R270). -/
def selectorOf (colours : List Rgb) (flip diff : Bool) (s0 s1 : SubSolution) (i : Nat) : Nat :=
  bestSelector (scaleBase diff (halfSolution s0 s1 (inSecond flip i)).base)
    (halfSolution s0 s1 (inSecond flip i)).table (colourAt colours i)

theorem Solved.selectors (h : Solved colours flip diff s0 s1) (hlen : colours.length = 16) (second : Bool) :
    (halfSolution s0 s1 second).sel = (halfIndices flip second).map (selectorOf colours flip diff s0 s1) := by
  rw [h.value, evaluate, half_eq hlen, List.map_map]
  refine List.map_congr_left fun i hi => ?_
  rw [Function.comp_apply, selectorOf, (mem_halfIndices.mp hi).2]

theorem Solved.merged (h : Solved colours flip diff s0 s1) (hlen : colours.length = 16) :
    (blockSolution flip diff (s0, s1)).params.sel = (List.range 16).map (selectorOf colours flip diff s0 s1) := by
  have hsel0 : s0.sel = _ := h.selectors hlen false
  have hsel1 : s1.sel = _ := h.selectors hlen true
  rw [blockSolution, hsel0, hsel1]
  exact mergeSelectors_map flip _ fun i hi => List.mem_range.mp hi

theorem Solved.fits (h : Solved colours flip diff s0 s1) (hlen : colours.length = 16) :
    (blockSolution flip diff (s0, s1)).params.Fits :=
  ⟨h.table0, h.table1, h.base0, h.base1, by rw [h.merged hlen, List.length_map, List.length_range]⟩

theorem Solved.halves (h : Solved colours flip diff s0 s1) (hlen : colours.length = 16) :
    (blockSolution flip diff (s0, s1)).params.Halves (selectorOf colours flip diff s0 s1) s0 s1 :=
  ⟨rfl, rfl, rfl, rfl, h.merged hlen, h.selectors hlen, fun _ _ => (bestSelector_least _ _ _ _).1⟩

/-- The packed word holds the two solutions (43_etc1.md R273). -/
theorem Solved.holds (h : Solved colours flip diff s0 s1) (hlen : colours.length = 16) :
    packBlock (blockSolution flip diff (s0, s1)).params < 2 ^ 64
      ∧ HoldsSolutions (BitVec.ofNat 64 (packBlock (blockSolution flip diff (s0, s1)).params)) flip diff s0 s1 :=
  packBlock_holds (h.fits hlen) (h.halves hlen)

/-! ## There is a combination (43_etc1.md R269, R274) -/

/-- Every channel is a byte. -/
def IsByteColour (c : Rgb) : Prop := (0 ≤ c.r ∧ c.r ≤ 255) ∧ (0 ≤ c.g ∧ c.g ≤ 255) ∧ (0 ≤ c.b ∧ c.b ≤ 255)

theorem rgb_isByteColour (p : Pixel) : IsByteColour p.rgb := by
  have := p.r.isLt
  have := p.g.isLt
  have := p.b.isLt
  simp only [IsByteColour, Pixel.rgb]
  omega

theorem sum_bounds {vs : List Int} (h : ∀ v ∈ vs, 0 ≤ v ∧ v ≤ 255) : 0 ≤ vs.sum ∧ vs.sum ≤ 255 * vs.length := by
  induction vs with
  | nil => exact ⟨le_rfl, le_rfl⟩
  | cons v vs ih =>
    have hv := h v List.mem_cons_self
    have hvs := ih fun u hu => h u (List.mem_cons_of_mem v hu)
    rw [List.sum_cons, List.length_cons]
    omega

theorem channelAverage_bounds {pixels : List Rgb} (hne : pixels ≠ []) {ch : Rgb → Int}
    (h : ∀ p ∈ pixels, 0 ≤ ch p ∧ ch p ≤ 255) : 0 ≤ channelAverage pixels ch ∧ channelAverage pixels ch ≤ 255 := by
  have hpos : (0 : Int) < pixels.length := Int.natCast_pos.mpr (List.length_pos_iff.mpr hne)
  obtain ⟨hlow, hhigh⟩ := sum_bounds (vs := pixels.map ch) (List.forall_mem_map.mpr h)
  rw [List.length_map] at hhigh
  exact ⟨Int.ediv_nonneg hlow hpos.le, Int.ediv_le_of_le_mul hpos hhigh⟩

theorem quantised_bounds {avg : Int} (h : 0 ≤ avg ∧ avg ≤ 255) (diff : Bool) :
    0 ≤ avg * levels diff / 256 ∧ avg * levels diff / 256 < levels diff := by
  cases diff with
  | false => simp only [levels, Bool.false_eq_true, if_false]; omega
  | true => simp only [levels, if_true]; omega

theorem startBase_legal {pixels : List Rgb} (hne : pixels ≠ []) (h : ∀ p ∈ pixels, IsByteColour p) (diff : Bool) :
    LegalBase diff none (startBase pixels diff) := by
  obtain ⟨hr, hr'⟩ := quantised_bounds (channelAverage_bounds hne fun p hp => (h p hp).1) diff
  obtain ⟨hg, hg'⟩ := quantised_bounds (channelAverage_bounds hne fun p hp => (h p hp).2.1) diff
  obtain ⟨hb, hb'⟩ := quantised_bounds (channelAverage_bounds hne fun p hp => (h p hp).2.2) diff
  exact ⟨⟨hr, hr', hg, hg', hb, hb'⟩, nofun⟩

theorem baseDistance_self (c : Rgb) : baseDistance c c = 0 := by simp [baseDistance]

/-- An unconstrained search of byte colours yields something (43_etc1.md R269). -/
theorem exists_free_search {pixels : List Rgb} (hne : pixels ≠ []) (h : ∀ p ∈ pixels, IsByteColour p) (diff : Bool) :
    ∃ best, search pixels diff none = some best :=
  exists_search (t := 0) ⟨startBase_legal hne h diff, by decide, (baseDistance_self _).trans_le (Nat.zero_le 8)⟩

theorem half_ne_nil (hlen : colours.length = 16) (flip second : Bool) : half colours flip second ≠ [] := by
  rw [half_eq hlen, ← List.length_pos_iff, List.length_map, halfIndices_length]
  decide

theorem mem_of_mem_half {second : Bool} {c : Rgb} (h : c ∈ half colours flip second) : c ∈ colours := by
  obtain ⟨i, -, hi⟩ := List.mem_filterMap.mp h
  exact List.mem_of_getElem? hi

theorem exists_bothHalves (hlen : colours.length = 16) (h : ∀ c ∈ colours, IsByteColour c) :
    ∃ s, bothHalves colours false false = some s := by
  obtain ⟨s0, h0⟩ := exists_free_search (half_ne_nil hlen false false) (fun c hc => h c (mem_of_mem_half hc)) false
  obtain ⟨s1, h1⟩ := exists_free_search (half_ne_nil hlen false true) (fun c hc => h c (mem_of_mem_half hc)) false
  refine ⟨(s0, s1), ?_⟩
  rw [bothHalves, h0, Option.bind_some, if_neg Bool.false_ne_true, h1]
  rfl

/-! ## The best combination (43_etc1.md R265) -/

/-- The four combinations in their order. -/
def combinations : List (Bool × Bool) := [(false, false), (false, true), (true, false), (true, true)]

/-- The solutions of the combinations that have one. -/
def solutions (colours : List Rgb) : List BlockSolution :=
  combinations.filterMap fun fd => (bothHalves colours fd.1 fd.2).map (blockSolution fd.1 fd.2)

theorem mem_solutions {s : BlockSolution} : s ∈ solutions colours ↔
    ∃ flip diff s0 s1, bothHalves colours flip diff = some (s0, s1) ∧ blockSolution flip diff (s0, s1) = s := by
  have hall : ∀ fd : Bool × Bool, fd ∈ combinations := by decide
  simp only [solutions, List.mem_filterMap, Option.map_eq_some_iff]
  exact ⟨fun ⟨fd, _, r, hr, hs⟩ => ⟨fd.1, fd.2, r.1, r.2, hr, hs⟩,
    fun ⟨flip, diff, s0, s1, hr, hs⟩ => ⟨(flip, diff), hall _, (s0, s1), hr, hs⟩⟩

/-- The number of a combination (43_etc1.md R265): flip, then diff. -/
def combinationNumber (s : BlockSolution) : Nat := 2 * s.params.flip.toNat + s.params.diff.toNat

theorem solutions_pairwise : (solutions colours).Pairwise fun s s' => combinationNumber s < combinationNumber s' := by
  have hnumbers : combinations.Pairwise fun fd fd' =>
    2 * fd.1.toNat + fd.2.toNat < 2 * fd'.1.toNat + fd'.2.toNat := by decide
  refine List.pairwise_filterMap.mpr (hnumbers.imp fun hlt s hs s' hs' => ?_)
  obtain ⟨r, -, rfl⟩ := Option.map_eq_some_iff.mp hs
  obtain ⟨r', -, rfl⟩ := Option.map_eq_some_iff.mp hs'
  exact hlt

theorem bestCombination_eq (colours : List Rgb) :
    bestCombination colours = firstLeast BlockSolution.err (solutions colours) := by
  have hfold := foldl_eq_firstLeast (cost := BlockSolution.err) (step := fun best s => improveBlock best (some s))
    (fun _ => rfl) (fun _ _ => rfl) [] (solutions colours)
  rw [List.nil_append] at hfold
  rw [← hfold, solutions, List.foldl_filterMap]
  refine congrArg (fun step => List.foldl step none combinations) (funext fun best => funext fun fd => ?_)
  rw [combination_eq]
  cases (bothHalves colours fd.1 fd.2).map (blockSolution fd.1 fd.2) with
  | none => cases best <;> rfl
  | some s => rfl

/-- The general block is that of the first combination of least error (43_etc1.md R265). -/
theorem generalBlock_spec (hlen : colours.length = 16) (h : ∀ c ∈ colours, IsByteColour c) :
    ∃ flip diff s0 s1, bothHalves colours flip diff = some (s0, s1)
      ∧ generalBlock colours = (packBlock (blockSolution flip diff (s0, s1)).params, s0.err + s1.err)
      ∧ FirstOf BlockSolution.err (fun s s' => combinationNumber s < combinationNumber s') (solutions colours)
          (blockSolution flip diff (s0, s1)) := by
  obtain ⟨s, hs⟩ := exists_bothHalves hlen h
  have hne : firstLeast BlockSolution.err (solutions colours) ≠ none := fun hnone =>
    List.ne_nil_of_mem (mem_solutions.mpr ⟨_, _, _, _, hs, rfl⟩) (firstLeast_eq_none.mp hnone)
  obtain ⟨best, hbest⟩ := Option.ne_none_iff_exists'.mp hne
  have hfirst := firstLeast_firstOf solutions_pairwise hbest
  obtain ⟨flip, diff, s0, s1, hboth, rfl⟩ := mem_solutions.mp hfirst.mem
  refine ⟨flip, diff, s0, s1, hboth, ?_, hfirst⟩
  unfold generalBlock
  rw [bestCombination_eq, hbest]
  rfl

theorem generalBlock_isGeneralBlock (hlen : colours.length = 16) (h : ∀ c ∈ colours, IsByteColour c) :
    (generalBlock colours).1 < 2 ^ 64
      ∧ IsGeneralBlock colours (BitVec.ofNat 64 (generalBlock colours).1) (generalBlock colours).2 := by
  obtain ⟨flip, diff, s0, s1, hboth, hblock, hfirst⟩ := generalBlock_spec hlen h
  obtain ⟨hlt, hholds⟩ := (bothHalves_solved hboth).holds hlen
  rw [hblock]
  refine ⟨hlt, flip, diff, s0, s1, hboth, rfl, hholds, fun flip' diff' r0 r1 hr => ?_⟩
  refine (hfirst.least _ (mem_solutions.mpr ⟨flip', diff', r0, r1, hr, rfl⟩)).imp_right fun ⟨herr, hfirst⟩ => ⟨herr, ?_⟩
  exact hfirst.elim (fun heq => (congrArg combinationNumber heq).ge) Nat.le_of_lt

/-! ## The encoder's block (43_etc1.md R250) -/

theorem encodeColours_replicate (c : Rgb) : encodeColours (List.replicate 16 c) = solidBlock c :=
  if_pos (by simp)

/-- Colours that are not all equal take the general path. -/
theorem encodeColours_general (hlen : colours.length = 16) (h : ∀ c, colours ≠ List.replicate 16 c) :
    encodeColours colours = generalBlock colours := by
  cases colours with
  | nil => rfl
  | cons c cs =>
    refine if_neg fun hall => h c (List.eq_replicate_iff.mpr ⟨hlen, fun d hd => ?_⟩)
    rcases List.mem_cons.mp hd with rfl | hd
    · rfl
    · exact of_decide_eq_true (List.all_eq_true.mp hall d hd)

theorem blockOrder_length {pixels : List Pixel} (h : pixels.length = 16) : (blockOrder pixels).length = 16 := by
  rw [blockOrder_eq h (Pixel.ofNat 0 0 0 0), List.length_map]
  rfl

theorem blockColours_length {pixels : List Pixel} (h : pixels.length = 16) :
    ((blockOrder pixels).map Pixel.rgb).length = 16 := by
  rw [List.length_map, blockOrder_length h]

theorem blockColours_isByteColour (pixels : List Pixel) :
    ∀ c ∈ (blockOrder pixels).map Pixel.rgb, IsByteColour c :=
  List.forall_mem_map.mpr fun p _ => rgb_isByteColour p

/-- Settles O55: the command by its accesses, the block by the two paths of the encoder. -/
theorem blockEncode : Obligations.BlockEncode := by
  refine ⟨fun alpha s hu ha hsrc hdst => etc1Enc_endsWithBytes hu ha hsrc hdst rfl, fun pixels hlen => ⟨?_, ?_⟩⟩
  · intro c hc
    rw [hc, encodeColours_replicate]
  · intro hne
    rw [encodeColours_general (blockColours_length hlen) hne]
    exact generalBlock_isGeneralBlock (blockColours_length hlen) (blockColours_isByteColour pixels)

end Sys2Proof.Machine
end

section
/-! PROOFS. The encoder's error is the error of the decoded block (43_etc1.md R272, R277): a packed block decodes each
pixel to what the search scored, and the alpha plane to the top half of each alpha. -/
namespace Sys2Proof.Machine

open Sys2Proof.Reference

variable {colours : List Rgb} {flip diff : Bool} {s0 s1 : SubSolution} {p : BlockParams} {g : Nat → Nat} {i : Nat}

/-! ## What a packed block decodes to (43_etc1.md R237) -/

theorem scaleBase_levels (diff : Bool) (r g b : Byte) (second : Bool) :
    scaleBase diff { r := baseLevel diff r second, g := baseLevel diff g second, b := baseLevel diff b second }
      = { r := scaledLevel diff (baseLevel diff r second), g := scaledLevel diff (baseLevel diff g second)
          b := scaledLevel diff (baseLevel diff b second) } := by
  simp only [scaleBase, Rgb.map, Int.toNat_natCast, scaleLevel_eq (baseLevel_lt _ _ _)]

/-- A pixel of a word that holds two solutions, by the one of its half. -/
theorem pixelColour_of_holds {w : BitVec 64} (h : HoldsSolutions w flip diff s0 s1) (hi : i < 16) :
    blockPixelColour w.toNat i
      = shade (scaleBase diff (halfSolution s0 s1 (inSecond flip i)).base)
          (modifier (halfSolution s0 s1 (inSecond flip i)).table (blockSelector w.toNat i)) := by
  obtain ⟨hflip, hdiff, htable0, htable1, hbase, -⟩ := h
  have htable : (if inSecond flip i then w.extractLsb' 34 3 else w.extractLsb' 37 3).toNat
      = (halfSolution s0 s1 (inSecond flip i)).table := by
    cases inSecond flip i with
    | false => exact htable0
    | true => exact htable1
  have hbase : (halfSolution s0 s1 (inSecond flip i)).base = _ := hbase (inSecond flip i)
  rw [hbase, scaleBase_levels, ← hdiff, ← blockColour_eq, ← htable, ← blockTable_eq, blockPixelColour, blockFlip,
    decide_bitAt_eq_one, hflip, subBlock_eq_inSecond i hi]

/-- A packed pixel is shaded by its own selector. -/
theorem packBlock_pixelColour (hfits : p.Fits) (h : p.Halves g s0 s1) (hi : i < 16) :
    blockPixelColour (packBlock p) i
      = shade (scaleBase p.diff (halfSolution s0 s1 (inSecond p.flip i)).base)
          (modifier (halfSolution s0 s1 (inSecond p.flip i)).table (g i)) := by
  obtain ⟨hlt, hholds⟩ := packBlock_holds hfits h
  have hword : (BitVec.ofNat 64 (packBlock p)).toNat = packBlock p := by rw [BitVec.toNat_ofNat, Nat.mod_eq_of_lt hlt]
  have hselector : blockSelector (packBlock p) i = g i := by
    obtain ⟨-, -, -, -, -, hsel⟩ := id hholds
    rw [← hword, blockSelector_eq]
    exact Option.some.inj ((hsel i hi).symm.trans (h.half_selector hi))
  have hcolour := pixelColour_of_holds hholds hi
  rwa [hword, hselector] at hcolour

/-! ## The error of a block (43_etc1.md R272) -/

/-- The error of block pixel `i` of a word. -/
def pixelError (w : Nat) (colours : List Rgb) (i : Nat) : Nat :=
  perceptualError (blockPixelColour w i) (colourAt colours i)

theorem sum_halves (flip : Bool) (f : Nat → Nat) : ((List.range 16).map f).sum
    = ((halfIndices flip false).map f).sum + ((halfIndices flip true).map f).sum := by
  have hperm := (List.filter_append_perm (fun i => inSecond flip i == false) (List.range 16)).map f
  rw [← hperm.sum_eq, List.map_append, List.sum_append]
  have hnot : ∀ i, (!(inSecond flip i == false)) = (inSecond flip i == true) := fun i => by
    cases inSecond flip i <;> rfl
  simp only [halfIndices, hnot]

theorem evaluate_half_err {second : Bool} {base : Rgb} {t : Nat} (hlen : colours.length = 16) :
    (evaluate (half colours flip second) base diff t).err
      = ((halfIndices flip second).map fun i => perceptualError
          (shade (scaleBase diff base) (modifier t (bestSelector (scaleBase diff base) t (colourAt colours i))))
          (colourAt colours i)).sum := by
  rw [half_eq hlen]
  exact congrArg List.sum List.map_map

theorem Solved.half_err (h : Solved colours flip diff s0 s1) (hlen : colours.length = 16) (second : Bool) :
    ((halfIndices flip second).map (pixelError (packBlock (blockSolution flip diff (s0, s1)).params) colours)).sum
      = (halfSolution s0 s1 second).err := by
  rw [h.value, evaluate_half_err hlen]
  refine congrArg List.sum (List.map_congr_left fun i hi => ?_)
  obtain ⟨hlt, rfl⟩ := mem_halfIndices.mp hi
  rw [pixelError, packBlock_pixelColour (h.fits hlen) (h.halves hlen) hlt]
  rfl

theorem generalBlock_err (hlen : colours.length = 16) (h : ∀ c ∈ colours, IsByteColour c) :
    ((List.range 16).map (pixelError (generalBlock colours).1 colours)).sum = (generalBlock colours).2 := by
  obtain ⟨flip, diff, s0, s1, hboth, hblock, -⟩ := generalBlock_spec hlen h
  have hsolved := bothHalves_solved hboth
  rw [hblock, sum_halves flip]
  exact congrArg₂ (· + ·) (hsolved.half_err hlen false) (hsolved.half_err hlen true)

theorem solidBlock_pixelError (c : Rgb) (hi : i < 16) :
    pixelError (solidBlock c).1 (List.replicate 16 c) i = (solidChoice c).cost c := by
  have hlegal := solidChoice_legal c
  rw [pixelError, solidBlock_eq, packBlock_pixelColour (solidParams_fits hlegal) (solidParams_halves hlegal) hi,
    halfSolution, ite_self, colourAt, List.getD_replicate _ hi]
  rfl

theorem solidBlock_sum (c : Rgb) :
    ((List.range 16).map (pixelError (solidBlock c).1 (List.replicate 16 c))).sum = (solidBlock c).2 := by
  rw [List.map_congr_left fun i hi => solidBlock_pixelError c (List.mem_range.mp hi), List.map_const',
    List.length_range, List.sum_replicate, solidBlock_err, smul_eq_mul]

/-- The block's error is the sum over its pixels (43_etc1.md R272). -/
theorem encodeColours_err (hlen : colours.length = 16) (h : ∀ c ∈ colours, IsByteColour c) :
    ((List.range 16).map (pixelError (encodeColours colours).1 colours)).sum = (encodeColours colours).2 := by
  by_cases hsolid : ∃ c, colours = List.replicate 16 c
  · obtain ⟨c, rfl⟩ := hsolid
    rw [encodeColours_replicate, solidBlock_sum]
  · rw [encodeColours_general hlen (not_exists.mp hsolid), generalBlock_err hlen h]

/-! ## Caller order (43_etc1.md R232, R277) -/

theorem clamp255_bounds (v : Int) : 0 ≤ clamp255 v ∧ clamp255 v ≤ 255 := by
  rw [clamp255_eq]
  omega

theorem ofNat_toNat_byte {v : Int} (h : 0 ≤ v ∧ v ≤ 255) : ((BitVec.ofNat 8 v.toNat).toNat : Int) = v := by
  rw [BitVec.toNat_ofNat]
  omega

theorem blockPixel_rgb (w : Nat) (aw : Option Nat) (i : Nat) : (blockPixel w aw i).rgb = blockPixelColour w i := by
  simp only [blockPixel, Pixel.ofNat, Pixel.rgb, blockPixelColour, shade, Rgb.map, ofNat_toNat_byte (clamp255_bounds _)]

theorem decodeBlock_getD (w : Nat) (aw : Option Nat) (d : Pixel) {k : Nat} (hk : k < 16) :
    (decodeBlock w aw).getD k d = blockPixel w aw (order3ds k) := by
  rw [List.getD_eq_getElem?_getD, decodeBlock_getElem? w aw hk, Option.getD_some]

theorem blockOrder_getD {pixels : List Pixel} (h : pixels.length = 16) (d : Pixel) {k : Nat} (hk : k < 16) :
    (blockOrder pixels).getD (order3ds k) d = pixels.getD k d := by
  rw [List.getD_eq_getElem?_getD, blockOrder_order3ds h hk, ← List.getD_eq_getElem?_getD]

theorem colourAt_order3ds {pixels : List Pixel} (h : pixels.length = 16) (d : Pixel) {k : Nat} (hk : k < 16) :
    colourAt ((blockOrder pixels).map Pixel.rgb) (order3ds k) = (pixels.getD k d).rgb := by
  have hlt : k < pixels.length := h ▸ hk
  rw [colourAt, List.getD_eq_getElem?_getD, List.getElem?_map, blockOrder_order3ds h hk, List.getD_eq_getElem _ _ hlt,
    List.getElem?_eq_getElem hlt]
  rfl

/-- A sum over the block pixels in caller order. -/
theorem sum_order3ds (f : Nat → Nat) : ∑ k ∈ Finset.range 16, f (order3ds k) = ((List.range 16).map f).sum := by
  have hperm : ((List.range 16).map order3ds).Perm (List.range 16) := by decide
  rw [← (hperm.map f).sum_eq, List.map_map]
  rfl

/-! ## The alpha plane (43_etc1.md R236, R251) -/

/-- Nibble `i` of the alpha plane is the top half of the alpha of block pixel `i`. -/
theorem alphaWord_nibble (pixels : List Pixel) (i : Nat) : bits (alphaWord pixels) (4 * i + 3) (4 * i)
    = (pixels.getD i (Pixel.ofNat 0 0 0 0)).a.toNat / 16 := by
  have hwidth : ∀ i, 4 * i + 3 + 1 - 4 * i = 4 := fun i => by omega
  induction pixels generalizing i with
  | nil => simp [alphaWord, bits, Pixel.ofNat]
  | cons c cs ih =>
    have hcons : alphaWord (c :: cs) = alphaWord cs * 16 + c.a.toNat / 16 := by
      rw [← Nat.shiftRight_eq_div_pow c.a.toNat 4]
      rfl
    have hlt := c.a.isLt
    cases i with
    | zero =>
      rw [List.getD_cons_zero, bits, hcons, Nat.mul_zero, Nat.shiftRight_zero]
      omega
    | succ i =>
      rw [List.getD_cons_succ, ← ih, bits, bits, hwidth, hwidth, Nat.mul_succ, Nat.add_comm (4 * i), Nat.shiftRight_add,
        Nat.shiftRight_eq_div_pow _ 4, hcons]
      congr 2
      omega

theorem blockPixel_alpha (w aw i : Nat) :
    (blockPixel w (some aw) i).a.toNat = 17 * bits aw (4 * i + 3) (4 * i) := by
  have hlt : bits aw (4 * i + 3) (4 * i) < 16 := (Nat.mod_lt _ (Nat.two_pow_pos _)).trans_eq (by
    rw [show 4 * i + 3 + 1 - 4 * i = 4 by omega])
  simp only [blockPixel, Pixel.ofNat, blockPixelAlpha, x4, BitVec.toNat_ofNat]
  omega

/-- Settles O56: the sum in caller order is the sum over the block pixels, which is the encoder's error. -/
theorem encodeErrorIsDecodeError : Obligations.EncodeErrorIsDecodeError := by
  intro pixels hlen block
  refine ⟨?_, fun k hk => ?_⟩
  · rw [← encodeColours_err (blockColours_length hlen) (blockColours_isByteColour pixels), ← sum_order3ds]
    refine Finset.sum_congr rfl fun k hk => ?_
    have hk := Finset.mem_range.mp hk
    rw [decodeBlock_getD _ _ _ hk, blockPixel_rgb, pixelError, colourAt_order3ds hlen _ hk]
  · rw [decodeBlock_getD _ _ _ hk, blockPixel_alpha, alphaWord_nibble, blockOrder_getD hlen _ hk]

end Sys2Proof.Machine
end

section
/-! PROOFS. The address of a texel and the padded dimensions (44_swizzle.md R290 to R298): a mode is its code, the padded
size is the least legal one, and SWZ.ADDR and TEX.DIM yield what the formulas say. -/
namespace Sys2Proof.Machine

open Sys2Proof.Reference

variable {swz : BitVec 4} {mode : SwizzleMode} {s : State}

/-! ## The code of a mode (30_encoding.md R82) -/

/-- The SWZ code that names the mode. -/
def SwizzleMode.code : SwizzleMode → Nat
  | .default => 0
  | .transposeTile => 1
  | .rotate90 => 2
  | .transpose => 3

theorem swizzleModeOf_code : ∀ {swz : BitVec 4} {mode : SwizzleMode}, swizzleModeOf swz = some mode →
    swz.toNat = mode.code := by
  intro swz mode
  revert swz
  cases mode <;> decide

theorem exists_swizzleMode (h : swz.toNat < 4) : ∃ mode, swizzleModeOf swz = some mode :=
  Option.ne_none_iff_exists'.mp fun hnone => absurd h (of_decide_eq_false (namesMode_of_none hnone))

/-- The stride is the padded width in the modes 0 and 1, the padded height in 2 and 3 (44_swizzle.md R291). -/
theorem strideOf_code (pw ph : Nat) (mode : SwizzleMode) : strideOf pw ph mode = if mode.code ≤ 1 then pw else ph := by
  cases mode <;> rfl

theorem strideOf_self (stride : Nat) (mode : SwizzleMode) : strideOf stride stride mode = stride := by
  rw [strideOf_code, ite_self]

/-! ## Addresses -/

/-- Every place of the padded rectangle is the address of a texel (44_swizzle.md R298). -/
theorem exists_addressOf {pw ph x y : Nat} (mode : SwizzleMode) (hw : 8 ∣ pw) (hh : 8 ∣ ph) (hx : x < pw) (hy : y < ph) :
    ∃ n < pw * ph, addressOf n (strideOf pw ph mode) mode = (x, y) := by
  have hmem : (x, y) ∈ (texelPlaces mode pw ph).toFinset := by
    rw [texelPlaces_toFinset mode hw hh]
    exact Finset.mk_mem_product (Finset.mem_range.mpr hx) (Finset.mem_range.mpr hy)
  simpa only [texelPlaces, List.mem_toFinset, List.mem_map, List.mem_range] using hmem

/-- Addressing is one to one from the texel indices onto the padded rectangle (44_swizzle.md R298). -/
theorem addressOf_bijection {pw ph : Nat} (mode : SwizzleMode) (hw : 8 ∣ pw) (hh : 8 ∣ ph) :
    (∀ n < pw * ph, (addressOf n (strideOf pw ph mode) mode).1 < pw ∧ (addressOf n (strideOf pw ph mode) mode).2 < ph)
      ∧ ∀ x < pw, ∀ y < ph, ∃! n, n < pw * ph ∧ addressOf n (strideOf pw ph mode) mode = (x, y) := by
  refine ⟨fun n hn => addressOf_lt mode hw hh hn, fun x hx y hy => ?_⟩
  obtain ⟨n, hn, haddr⟩ := exists_addressOf mode hw hh hx hy
  exact ⟨n, ⟨hn, haddr⟩, fun m ⟨hm, hsame⟩ => addressOf_injective mode hw hh hm hn (hsame.trans haddr.symm)⟩

/-- Settles O41: the rectangle, and the square as the rectangle that is its own stride each way. -/
theorem addressBijection : Obligations.AddressBijection := by
  refine ⟨fun mode pw ph _ _ hw hh => addressOf_bijection mode hw hh, fun mode stride _ hs => ?_⟩
  have hsquare := addressOf_bijection mode hs hs
  rwa [strideOf_self] at hsquare

/-- The address is that of the table of R294 for the mode's code. -/
theorem addressOf_eq_swizzled (n stride : Nat) (mode : SwizzleMode) :
    addressOf n stride mode = swizzled n stride mode.code := by
  cases mode <;> simp [addressOf, swizzled, tileOf_eq, inTile_eq, SwizzleMode.code, Nat.mul_comm 8]

/-- Both coordinates of an address fit a register, for every index and stride that do (44_swizzle.md R296). -/
theorem addressOf_lt_word {n stride : Nat} (mode : SwizzleMode) (hn : n < 2 ^ 32) (hs : stride < 2 ^ 32)
    (hpos : stride ≠ 0) (hdvd : stride % 8 = 0) :
    (addressOf n stride mode).1 < 2 ^ 32 ∧ (addressOf n stride mode).2 < 2 ^ 32 := by
  obtain ⟨hx, hy⟩ := inTile_lt n
  have hcolumn : n / 64 % (stride / 8) < stride / 8 := Nat.mod_lt _ (by omega)
  have hrow : n / 64 / (stride / 8) ≤ n / 64 := Nat.div_le_self _ _
  cases mode <;> simp only [addressOf, tileOf_eq] <;> omega

/-! ## The padded size (44_swizzle.md R291) -/

theorem exists_powerOfTwoAbove (p : Nat) : ∃ k, powerOfTwoAbove p = 2 ^ k := by
  unfold powerOfTwoAbove
  split
  · next h => exact ⟨p.log2, h.symm⟩
  · exact ⟨_, rfl⟩

theorem powerOfTwoAbove_le {p k : Nat} (hp : p ≠ 0) (h : p ≤ 2 ^ k) : powerOfTwoAbove p ≤ 2 ^ k := by
  unfold powerOfTwoAbove
  split
  · exact h
  · next hne =>
    have hlog : 2 ^ p.log2 < 2 ^ k := (lt_of_le_of_ne (Nat.log2_self_le hp) hne).trans_le h
    exact Nat.pow_le_pow_right (by decide) ((Nat.pow_lt_pow_iff_right (by decide)).mp hlog)

/-- `padDim` is the least legal padded size. -/
theorem padDim_padded {d : Nat} (pad : Bool) (hd : 0 < d) : Padded d pad (padDim d pad) := by
  obtain ⟨hle, hdvd⟩ := padDim_spec pad hd
  cases pad with
  | false => exact ⟨⟨hle, hdvd, nofun⟩, fun q hq _ hq8 _ => by simp only [padDim, Bool.false_eq_true, if_false]; omega⟩
  | true =>
    refine ⟨⟨hle, hdvd, fun _ => exists_powerOfTwoAbove _⟩, fun q hq _ hq8 hpow => ?_⟩
    obtain ⟨k, rfl⟩ := hpow rfl
    exact powerOfTwoAbove_le (by omega) (by omega)

theorem padDim_bounds {d : Nat} (pad : Bool) (hd : 0 < d) (hmax : d ≤ 32768) :
    8 ≤ padDim d pad ∧ padDim d pad ≤ 32768 := by
  obtain ⟨⟨hle, hdvd, -⟩, hleast⟩ := padDim_padded pad hd
  exact ⟨Nat.le_of_dvd (hd.trans_le hle) hdvd, hleast 32768 hmax (by decide) (by decide) fun _ => ⟨15, rfl⟩⟩

/-! ## The texture of a command's operands -/

/-- The dimensions of PARAM0 are legal (44_swizzle.md R290). -/
theorem Env.dimensionsLegal_iff {env : Env} : env.dimensionsLegal = true ↔
    (0 < env.width ∧ env.width ≤ 32768) ∧ 0 < env.height ∧ env.height ≤ 32768 := by
  simp only [Env.dimensionsLegal, Bool.not_eq_true', Bool.or_eq_false_iff, decide_eq_false_iff_not]
  rw [show Config.maxDimension = 32768 from rfl]
  omega

theorem takeTexture_bind {α : Type} {env : Env} {pad : Bool} (h : env.dimensionsLegal = true) (g : Texture → Eng α)
    (w : Work) : (takeTexture env mode pad >>= g) w = g (env.texture mode pad) w :=
  run_bind_ok (require_bind_true _ h w)

/-- Illegal dimensions end a command, and so does what comes after legal ones if it raises the same. -/
theorem takeTexture_bind_invalid {α : Type} {env : Env} {pad : Bool} {g : Texture → Eng α} {w : Work}
    (h : env.dimensionsLegal = true → g (env.texture mode pad) w = (.error { err := .invalidParameter, info := 0 }, w)) :
    (takeTexture env mode pad >>= g) w = (.error { err := .invalidParameter, info := 0 }, w) := by
  cases hd : env.dimensionsLegal with
  | true => exact (takeTexture_bind hd g w).trans (h hd)
  | false => exact run_bind_error (require_bind_false _ hd w)

/-! ## SWZ.ADDR and TEX.DIM -/

/-- A body that yields its results and touches nothing ends its command with them, memory as it was. -/
theorem succeeds_of_untouched {i : Instr} {body : Env → Eng (Nat × Nat)} {r0 r1 : Nat}
    (hexec : exec i s = runCommand s body) (h : body s.env (Work.start s.mem) = (.ok (r0, r1), Work.start s.mem)) :
    ∃ t, exec i s = .next t ∧ t.mem = s.mem ∧ s.Succeeded t r0 r1 := by
  refine ⟨_, hexec, ?_⟩
  rw [afterCommand_of_ok h]
  exact ⟨rfl, endWithSuccess_succeeded s s.mem r0 r1⟩

/-- SWZ.ADDR on a positive multiple of 8 (44_swizzle.md R296). -/
theorem swzAddr_succeeds (hmode : swizzleModeOf swz = some mode) (hpos : s.param1.toNat ≠ 0)
    (hdvd : s.param1.toNat % 8 = 0) :
    ∃ t, exec (.swzAddr swz) s = .next t ∧ t.mem = s.mem
      ∧ s.Succeeded t (addressOf s.param0.toNat s.param1.toNat mode).1
          (addressOf s.param0.toNat s.param1.toNat mode).2 :=
  succeeds_of_untouched rfl <| (takeMode_bind hmode _ _).trans <|
    require_bind_true _ (Bool.and_eq_true_iff.mpr ⟨congrArg not (decide_eq_false hpos), decide_eq_true hdvd⟩) _

/-- SWZ.ADDR on any other stride (44_swizzle.md R296). -/
theorem swzAddr_stride (hmode : swizzleModeOf swz = some mode) (h : s.param1.toNat = 0 ∨ s.param1.toNat % 8 ≠ 0) :
    EndsBeforeWork (.swzAddr swz) s .invalidParameter 0 := by
  refine endsBeforeWork_of_raise rfl (by decide) ((takeMode_bind hmode _ _).trans (require_bind_false _ ?_ _))
  rcases h with hzero | hmod
  · exact Bool.and_eq_false_iff.mpr (.inl (congrArg not (decide_eq_true hzero)))
  · exact Bool.and_eq_false_iff.mpr (.inr (decide_eq_false hmod))

/-- Settles O39: the mode's formula by `addressOf_eq_swizzled`, the errors by the checks of the mode and the stride. -/
theorem swizzleAddress : Obligations.SwizzleAddress := by
  intro swz s
  refine ⟨fun hswz hpos hdvd => ?_, fun hswz h => ?_, fun hswz => unsupported_of_mode rfl (decide_eq_false hswz.not_gt)⟩
  · obtain ⟨mode, hmode⟩ := exists_swizzleMode hswz
    obtain ⟨t, hexec, hmem, hend⟩ := swzAddr_succeeds hmode hpos hdvd
    have hfit := addressOf_lt_word mode s.param0.isLt s.param1.isLt hpos hdvd
    rw [addressOf_eq_swizzled, ← swizzleModeOf_code hmode] at hend hfit
    exact ⟨t, hexec, hmem, hend, hfit⟩
  · obtain ⟨mode, hmode⟩ := exists_swizzleMode hswz
    exact swzAddr_stride hmode h

/-- TEX.DIM on dimensions that are not 1 to 32768 (44_swizzle.md R297). -/
theorem texDim_dimensions {pad : Bool} (hmode : swizzleModeOf swz = some mode) (h : ¬ s.env.dimensionsLegal = true) :
    EndsBeforeWork (.texDim swz pad) s .invalidParameter 0 :=
  endsBeforeWork_of_raise rfl (by decide) <| (takeMode_bind hmode _ _).trans <|
    takeTexture_bind_invalid fun hd => absurd hd h

/-- TEX.DIM on legal dimensions (44_swizzle.md R297). -/
theorem texDim_succeeds (pad : Bool) (hmode : swizzleModeOf swz = some mode) (h : s.env.dimensionsLegal = true) :
    ∃ t, exec (.texDim swz pad) s = .next t ∧ t.mem = s.mem
      ∧ s.Succeeded t ((s.env.texture mode pad).ph * 2 ^ 16 + (s.env.texture mode pad).pw)
          (s.env.texture mode pad).stride :=
  succeeds_of_untouched rfl <| (takeMode_bind hmode _ _).trans <| takeTexture_bind h _ _

/-- Dimensions that are illegal one by one. -/
theorem not_dimensionsLegal
    (h : s.env.width = 0 ∨ s.env.height = 0 ∨ 32768 < s.env.width ∨ 32768 < s.env.height) :
    ¬ s.env.dimensionsLegal = true := by
  rw [Env.dimensionsLegal_iff]
  omega

/-- Settles O40: the padded sizes are least by `padDim_padded`, the errors by the checks of the mode and the
dimensions. -/
theorem textureDimensions : Obligations.TextureDimensions := by
  rintro swz pad s w h rfl rfl
  rw [← State.env_width, ← State.env_height]
  refine ⟨fun hswz hw hwmax hh hhmax => ?_, fun hswz hdim => ?_,
    fun hswz => unsupported_of_mode rfl (decide_eq_false hswz.not_gt)⟩
  · obtain ⟨mode, hmode⟩ := exists_swizzleMode hswz
    obtain ⟨t, hexec, hmem, hend⟩ :=
      texDim_succeeds pad hmode (Env.dimensionsLegal_iff.mpr ⟨⟨hw, hwmax⟩, hh, hhmax⟩)
    obtain ⟨hpw, hpwmax⟩ := padDim_bounds pad hw hwmax
    obtain ⟨hph, hphmax⟩ := padDim_bounds pad hh hhmax
    refine ⟨_, _, t, padDim_padded pad hw, padDim_padded pad hh, hpw, hpwmax, hph, hphmax, hexec, hmem, ?_⟩
    rwa [swizzleModeOf_code hmode, ← strideOf_code, Nat.mul_comm 65536]
  · obtain ⟨mode, hmode⟩ := exists_swizzleMode hswz
    exact texDim_dimensions hmode (not_dimensionsLegal hdim)

end Sys2Proof.Machine
end

section
/-! PROOFS. The checks of the texture commands (44_swizzle.md R290, R300, R301): the dimensions, then the sizes of the two
buffers. -/
namespace Sys2Proof.Machine

open Sys2Proof.Reference

variable {fmt swz : BitVec 4} {f : PixelFormat} {mode : SwizzleMode} {pad : Bool} {s : State}

/-! ## The common form -/

/-- A texture command: its checks in their order, then its work (44_swizzle.md R300, R301). -/
def textureCommand (fmt swz : BitVec 4) (pad : Bool) (inputFits outputFits : Env → PixelFormat → Texture → Bool)
    (work : Env → PixelFormat → SwizzleMode → Texture → Eng (Nat × Nat)) (env : Env) : Eng (Nat × Nat) := do
  let f ← takeFormat fmt
  let mode ← takeMode swz
  let t ← takeTexture env mode pad
  require (inputFits env f t)
  require (outputFits env f t)
  checkBuffers env
  work env f mode t

theorem exec_texDec (fmt swz : BitVec 4) (pad : Bool) (s : State) : exec (.texDec fmt swz pad) s
    = runCommand s (textureCommand fmt swz pad (fun env f t => decide (t.texels ≤ pixelCount f env.srcLen))
        (fun env _ t => decide (4 * t.w * t.h ≤ env.dstLen)) fun env f mode t => do
          forFrom (placeTexel env f mode t) t.texels 0
          return (4 * t.w * t.h, t.texels)) := rfl

theorem exec_texEnc (fmt swz : BitVec 4) (pad : Bool) (s : State) : exec (.texEnc fmt swz pad) s
    = runCommand s (textureCommand fmt swz pad (fun env _ t => decide (4 * t.w * t.h ≤ env.srcLen))
        (fun env f t => decide (encodedSize f t.texels ≤ env.dstLen)) fun env f mode t => do
          let c ← collectFrom (gatherPixel env mode t) t.texels 0
          pixEncode env f c
          return (encodedSize f t.texels, t.texels)) := rfl

variable {inputFits outputFits : Env → PixelFormat → Texture → Bool}
  {work : Env → PixelFormat → SwizzleMode → Texture → Eng (Nat × Nat)}

/-- A texture command of which some check fails. -/
theorem textureCommand_invalid {i : Instr}
    (hexec : exec i s = runCommand s (textureCommand fmt swz pad inputFits outputFits work))
    (hf : pixelFormatOf fmt = some f) (hmode : swizzleModeOf swz = some mode)
    (h : s.env.dimensionsLegal = true → inputFits s.env f (s.env.texture mode pad) = true →
      outputFits s.env f (s.env.texture mode pad) = true → False) :
    EndsBeforeWork i s .invalidParameter 0 :=
  endsBeforeWork_of_raise hexec (by decide) <| (takeFormat_bind hf _ _).trans <| (takeMode_bind hmode _ _).trans <|
    takeTexture_bind_invalid fun hdim => require_bind_invalid fun hin => require_bind_invalid fun hout =>
      (h hdim hin hout).elim

/-- A texture command of which every check passes. -/
theorem textureCommand_run (hf : pixelFormatOf fmt = some f) (hmode : swizzleModeOf swz = some mode)
    (hdim : s.env.dimensionsLegal = true) (hin : inputFits s.env f (s.env.texture mode pad) = true)
    (hout : outputFits s.env f (s.env.texture mode pad) = true) (hu : s.BuffersUsable) (w : Work) :
    textureCommand fmt swz pad inputFits outputFits work s.env w = work s.env f mode (s.env.texture mode pad) w :=
  (takeFormat_bind hf _ _).trans <| (takeMode_bind hmode _ _).trans <| (takeTexture_bind hdim _ _).trans <|
    (require_bind_true _ hin _).trans <| (require_bind_true _ hout _).trans <|
    checkBuffers_bind_legal ((buffersLegal_iff s).mpr hu) _ _

/-! ## The checks that fail -/

theorem texDec_sizes (hf : pixelFormatOf fmt = some f) (hmode : swizzleModeOf swz = some mode)
    (h : s.env.dimensionsLegal = true → (s.env.texture mode pad).texels ≤ pixelCount f s.srcLen.toNat →
      4 * s.env.width * s.env.height ≤ s.dstLen.toNat → False) :
    EndsBeforeWork (.texDec fmt swz pad) s .invalidParameter 0 :=
  textureCommand_invalid (exec_texDec fmt swz pad s) hf hmode fun hdim hin hout =>
    h hdim (of_decide_eq_true hin) (of_decide_eq_true hout)

theorem texEnc_sizes (hf : pixelFormatOf fmt = some f) (hmode : swizzleModeOf swz = some mode)
    (h : s.env.dimensionsLegal = true → 4 * s.env.width * s.env.height ≤ s.srcLen.toNat →
      encodedSize f (s.env.texture mode pad).texels ≤ s.dstLen.toNat → False) :
    EndsBeforeWork (.texEnc fmt swz pad) s .invalidParameter 0 :=
  textureCommand_invalid (exec_texEnc fmt swz pad s) hf hmode fun hdim hin hout =>
    h hdim (of_decide_eq_true hin) (of_decide_eq_true hout)

/-- Settles O30: each command run up to the check that fails. -/
theorem textureChecksEnd : Obligations.TextureChecksEnd := by
  rintro fmt swz f mode pad s w h hf hmode rfl rfl
  rw [← State.env_width, ← State.env_height]
  refine ⟨fun hdim => ?_, fun hshort => texDec_sizes hf hmode fun _ hin hout => ?_,
    fun hshort => texEnc_sizes hf hmode fun _ hin hout => ?_⟩
  · have hbad := not_dimensionsLegal hdim
    exact ⟨texDim_dimensions hmode hbad, texDec_sizes hf hmode fun hd _ _ => hbad hd,
      texEnc_sizes hf hmode fun hd _ _ => hbad hd⟩
  · exact hshort.elim hin.not_gt hout.not_gt
  · exact hshort.elim hin.not_gt hout.not_gt

end Sys2Proof.Machine
end

section
/-! PROOFS. TEX.DEC where every check passes and every access is accepted (44_swizzle.md R299, R300): each texel in the
image leaves its record, and no later texel has the same one. -/
namespace Sys2Proof.Machine

open Sys2Proof.Reference

variable {f : PixelFormat} {mode : SwizzleMode} {s : State} {t : Texture} {n k : Nat} {w : Work}

/-! ## Records in memory -/

theorem recordAt_store_same (m : Memory) (a n : Nat) (c : Pixel) : recordAt (m.store (a + 4 * n) c.bytes) a n = c := by
  have hbyte : ∀ i < 4, (m.store (a + 4 * n) c.bytes).read (a + 4 * n + i) = c.bytes.getD i 0 := fun i hi =>
    Memory.read_store_inside hi
  have hzero : (m.store (a + 4 * n) c.bytes).read (a + 4 * n) = c.r := hbyte 0 (by decide)
  rw [recordAt, hzero, hbyte 1 (by decide), hbyte 2 (by decide), hbyte 3 (by decide)]
  rfl

/-- A store that misses a record's four bytes leaves the record. -/
theorem recordAt_store_other (m : Memory) {a n k : Nat} (c : Pixel) (h : k ≠ n) :
    recordAt (m.store (a + 4 * n) c.bytes) a k = recordAt m a k := by
  have hbyte : ∀ i < 4, (m.store (a + 4 * n) c.bytes).read (a + 4 * k + i) = m.read (a + 4 * k + i) := fun i hi =>
    Memory.read_store_outside (by rw [Pixel.bytes_length]; omega)
  have hzero : (m.store (a + 4 * n) c.bytes).read (a + 4 * k) = m.read (a + 4 * k) := hbyte 0 (by decide)
  rw [recordAt, recordAt, hzero, hbyte 1 (by decide), hbyte 2 (by decide), hbyte 3 (by decide)]

/-! ## The record of a texel -/

/-- The number of the record of texel `n` (44_swizzle.md R299). -/
def Texture.recordOf (t : Texture) (mode : SwizzleMode) (n : Nat) : Nat :=
  (addressOf n t.stride mode).2 * t.w + (addressOf n t.stride mode).1

theorem Texture.inImage_iff :
    t.inImage mode n = true ↔ (addressOf n t.stride mode).1 < t.w ∧ (addressOf n t.stride mode).2 < t.h := by
  rw [Texture.inImage, Bool.and_eq_true, decide_eq_true_iff, decide_eq_true_iff]

theorem Texture.recordOf_lt (h : t.inImage mode n = true) : t.recordOf mode n < t.w * t.h := by
  obtain ⟨hx, hy⟩ := Texture.inImage_iff.mp h
  exact record_in_raster hx hy

/-- A record of the raster has one column and one row (44_swizzle.md R299). -/
theorem record_injective {x y x' y' w : Nat} (hx : x < w) (hx' : x' < w) (h : y * w + x = y' * w + x') :
    x = x' ∧ y = y' := by
  have split : ∀ {x y : Nat}, x < w → (y * w + x) / w = y ∧ (y * w + x) % w = x := fun {x y} hx =>
    (Nat.div_mod_unique (by omega)).mpr ⟨by rw [Nat.mul_comm, Nat.add_comm], hx⟩
  obtain ⟨hdiv, hmod⟩ := split (y := y) hx
  obtain ⟨hdiv', hmod'⟩ := split (y := y') hx'
  rw [h] at hdiv hmod
  exact ⟨hmod.symm.trans hmod', hdiv.symm.trans hdiv'⟩

/-- Two texels of the image have two records (44_swizzle.md R298). -/
theorem Texture.IsPadded.recordOf_injective (h : t.IsPadded mode) (hk : k < t.texels) (hn : n < t.texels)
    (hkin : t.inImage mode k = true) (hnin : t.inImage mode n = true) (heq : t.recordOf mode k = t.recordOf mode n) :
    k = n := by
  obtain ⟨hx, hy⟩ := record_injective (Texture.inImage_iff.mp hkin).1 (Texture.inImage_iff.mp hnin).1 heq
  have haddr : addressOf k t.stride mode = addressOf n t.stride mode := Prod.ext hx hy
  rw [h.stride] at haddr
  exact addressOf_injective mode h.w_dvd h.h_dvd hk hn haddr

/-! ## The loop -/

/-- TEX.DEC past its checks, on a platform that accepts its accesses (44_swizzle.md R300; 20_memory.md R65, R69). -/
structure DecodeReady (s : State) (f : PixelFormat) (mode : SwizzleMode) (t : Texture) : Prop where
  usable : s.BuffersUsable
  accepts : s.BusAccepts
  padded : t.IsPadded mode
  enough : t.texels ≤ pixelCount f s.srcLen.toNat
  room : 4 * (t.w * t.h) ≤ s.dstLen.toNat

/-- The working state of TEX.DEC after its first `k` texels: those in the image have left their records, and nothing
outside the raster has changed. -/
structure Placed (s : State) (f : PixelFormat) (mode : SwizzleMode) (t : Texture) (k : Nat) (w : Work) : Prop where
  texels : ∀ n < k, t.inImage mode n = true →
    recordAt w.mem s.dstAddr.toNat (t.recordOf mode n) = pixelAt s.mem f s.srcAddr.toNat n
  outside : ∀ b, b < s.dstAddr.toNat ∨ s.dstAddr.toNat + 4 * (t.w * t.h) ≤ b → w.mem.read b = s.mem.read b

theorem Placed.start (s : State) (f : PixelFormat) (mode : SwizzleMode) (t : Texture) :
    Placed s f mode t 0 (Work.start s.mem) :=
  ⟨nofun, fun _ _ => rfl⟩

/-- The raster lies apart from the input, so that the texels still to come are as before (20_memory.md R65). -/
theorem DecodeReady.pixel (h : DecodeReady s f mode t) (hw : Placed s f mode t k w) (hn : n < t.texels) :
    pixDecode s.env f s.srcAddr.toNat n w = (.ok (pixelAt s.mem f s.srcAddr.toNat n), w) := by
  have hin : ∀ j ∈ texelReads f n, j < s.srcLen.toNat := fun j hj => texelReads_lt (hn.trans_le h.enough) hj
  have hpixel : pixelAt w.mem f s.srcAddr.toNat n = pixelAt s.mem f s.srcAddr.toNat n :=
    pixelAt_congr fun j hj => hw.outside _ (by
      have hlt := hin j hj
      have hroom := h.room
      have hapart := h.usable.disjoint
      omega)
  rw [pixDecode_ok fun j hj => h.accepts.input j (hin j hj), hpixel]

/-- A texel in the image leaves its record. -/
theorem DecodeReady.write (h : DecodeReady s f mode t) (hin : t.inImage mode n = true) (c : Pixel) (w : Work) :
    writePixel s.env s.dstAddr.toNat (t.recordOf mode n) c w
      = (.ok (), w.put (s.dstAddr.toNat + 4 * t.recordOf mode n) c.bytes) := by
  refine writePixel_ok fun j hj => ?_
  rw [Nat.add_assoc]
  have hlt := t.recordOf_lt hin
  have hroom := h.room
  exact h.accepts.output _ (by omega)

/-- The record of one more texel. -/
theorem Placed.put (hw : Placed s f mode t k w) (h : DecodeReady s f mode t) (hk : k < t.texels)
    (hin : t.inImage mode k = true) :
    Placed s f mode t (k + 1)
      (w.put (s.dstAddr.toNat + 4 * t.recordOf mode k) (pixelAt s.mem f s.srcAddr.toNat k).bytes) := by
  refine ⟨fun n hn hnin => ?_, fun b hb => ?_⟩
  · rcases Nat.lt_succ_iff_lt_or_eq.mp hn with hlt | rfl
    · have hother : t.recordOf mode n ≠ t.recordOf mode k := fun heq =>
        hlt.ne (h.padded.recordOf_injective (hlt.trans hk) hk hnin hin heq)
      rw [Work.put_mem, recordAt_store_other _ _ hother, hw.texels n hlt hnin]
    · exact recordAt_store_same _ _ _ _
  · have hlt := t.recordOf_lt hin
    exact (Memory.read_store_outside (by rw [Pixel.bytes_length]; omega)).trans (hw.outside b hb)

/-- One more texel, in the padding. -/
theorem Placed.skip (hw : Placed s f mode t k w) (hout : ¬ t.inImage mode k = true) : Placed s f mode t (k + 1) w := by
  refine ⟨fun n hn hnin => ?_, hw.outside⟩
  rcases Nat.lt_succ_iff_lt_or_eq.mp hn with hlt | rfl
  · exact hw.texels n hlt hnin
  · exact absurd hnin hout

/-- One round of TEX.DEC (44_swizzle.md R300). -/
theorem placeTexel_ok (h : DecodeReady s f mode t) (hw : Placed s f mode t k w) (hk : k < t.texels) :
    ∃ w', placeTexel s.env f mode t k w = (.ok (), w') ∧ Placed s f mode t (k + 1) w' := by
  rw [placeTexel_eq, State.env_src, State.env_dst, run_bind_ok (h.pixel hw hk)]
  by_cases hin : t.inImage mode k = true
  · rw [if_pos (Texture.inImage_iff.mp hin)]
    exact ⟨_, h.write hin _ w, hw.put h hk hin⟩
  · rw [if_neg (mt Texture.inImage_iff.mpr hin)]
    exact ⟨w, rfl, hw.skip hin⟩

theorem placeLoop_ok (h : DecodeReady s f mode t) (hn : k + n = t.texels) (hw : Placed s f mode t k w) :
    ∃ w', forFrom (placeTexel s.env f mode t) n k w = (.ok (), w') ∧ Placed s f mode t t.texels w' := by
  induction n generalizing k w with
  | zero => exact ⟨w, rfl, hn ▸ hw⟩
  | succ n ih =>
    obtain ⟨w', hround, hw'⟩ := placeTexel_ok h hw (by omega)
    rw [run_forFrom_succ, run_bind_ok hround]
    exact ih (by omega) hw'

/-! ## The command -/

/-- TEX.DEC ends with the raster of its texels. -/
theorem texDec_placed {fmt swz : BitVec 4} {pad : Bool} (hf : pixelFormatOf fmt = some f)
    (hmode : swizzleModeOf swz = some mode) (hdim : s.env.dimensionsLegal = true)
    (h : DecodeReady s f mode (s.env.texture mode pad)) :
    ∃ w, exec (.texDec fmt swz pad) s
        = .next (s.endWithSuccess w.mem (4 * s.env.width * s.env.height) (s.env.texture mode pad).texels)
      ∧ Placed s f mode (s.env.texture mode pad) (s.env.texture mode pad).texels w := by
  obtain ⟨w, hloop, hw⟩ := placeLoop_ok h (Nat.zero_add _) (Placed.start s f mode (s.env.texture mode pad))
  refine ⟨w, ?_, hw⟩
  rw [exec_texDec, runCommand, afterCommand_of_ok ((textureCommand_run hf hmode hdim (decide_eq_true h.enough)
    (decide_eq_true ((Nat.mul_assoc _ _ _).trans_le h.room)) h.usable _).trans (run_bind_ok hloop))]
  rfl

/-- Settles O59: the loop places every texel by `placeLoop_ok`, and the texels fill the image by `exists_addressOf`. -/
theorem textureDecode : Obligations.TextureDecode := by
  intro fmt swz f mode pad s w h pw ph hf hmode hwidth hheight
  obtain rfl : s.env.width = w := s.env_width.trans hwidth
  obtain rfl : s.env.height = h := s.env_height.trans hheight
  rintro hw hwmax hh hhmax rfl rfl henough hroom hu ha
  have hdim : s.env.dimensionsLegal = true := Env.dimensionsLegal_iff.mpr ⟨⟨hw, hwmax⟩, hh, hhmax⟩
  have hpadded := Env.texture_isPadded mode pad hdim
  rw [Nat.mul_assoc] at hroom
  obtain ⟨w, hexec, hplaced⟩ := texDec_placed (pad := pad) hf hmode hdim ⟨hu, ha, hpadded, henough, hroom⟩
  refine ⟨_, hexec, endWithSuccess_succeeded s _ _ _, fun n hn x hx y hy haddr => ?_, fun x hx y hy => ?_, fun b hb => ?_⟩
  · have haddr' : addressOf n (s.env.texture mode pad).stride mode = (x, y) := haddr
    have hrecord := hplaced.texels n hn (Texture.inImage_iff.mpr (by rw [haddr']; exact ⟨hx, hy⟩))
    rwa [Texture.recordOf, haddr'] at hrecord
  · exact exists_addressOf mode hpadded.w_dvd hpadded.h_dvd (hx.trans_le hpadded.w_le) (hy.trans_le hpadded.h_le)
  · exact hplaced.outside b (by rwa [Nat.mul_assoc] at hb)

end Sys2Proof.Machine
end

section
/-! PROOFS. TEX.ENC where every check passes and every access is accepted (44_swizzle.md R299, R301): the records at the
texels' addresses are read, the padding repeating the edge, and their texel bytes appended. -/
namespace Sys2Proof.Machine

open Sys2Proof.Reference

variable {f : PixelFormat} {mode : SwizzleMode} {s : State} {t : Texture}

/-- Values that are had without a change of the working state. -/
theorem collectFrom_ok {α : Type} {body : Nat → Eng α} {g : Nat → α} {w : Work} (h : ∀ j, body j w = (.ok (g j), w))
    (n k : Nat) : collectFrom body n k w = (.ok ((List.range' k n).map g), w) := by
  induction n generalizing k with
  | zero => rfl
  | succ n ih =>
    rw [run_collectFrom_succ, run_bind_ok (h k), run_bind_ok (ih (k + 1))]
    rfl

/-- The number of the record that texel `n` of TEX.ENC takes: the nearest of the raster (44_swizzle.md R301). -/
def Texture.edgeRecord (t : Texture) (mode : SwizzleMode) (n : Nat) : Nat :=
  min (addressOf n t.stride mode).2 (t.h - 1) * t.w + min (addressOf n t.stride mode).1 (t.w - 1)

theorem Texture.edgeRecord_lt (hw : 0 < t.w) (hh : 0 < t.h) (n : Nat) : t.edgeRecord mode n < t.w * t.h :=
  record_in_raster (by omega) (by omega)

/-- The record of a texel, read where the platform lets the raster through (44_swizzle.md R301). -/
theorem gatherPixel_ok (ha : s.BusAccepts) (hroom : 4 * (t.w * t.h) ≤ s.srcLen.toNat) (hw : 0 < t.w) (hh : 0 < t.h)
    (n : Nat) (w : Work) :
    gatherPixel s.env mode t n w = (.ok (recordAt w.mem s.srcAddr.toNat (t.edgeRecord mode n)), w) := by
  have hlt := Texture.edgeRecord_lt (mode := mode) hw hh n
  rw [gatherPixel_eq]
  exact readPixel_ok fun j hj => by
    rw [Nat.add_assoc]
    exact ha.input (4 * t.edgeRecord mode n + j) (by omega)

/-- The pixels that TEX.ENC encodes, in the order of the texels (44_swizzle.md R301). -/
def State.gathered (s : State) (mode : SwizzleMode) (t : Texture) : List Pixel :=
  (List.range t.texels).map fun n => recordAt s.mem s.srcAddr.toNat (t.edgeRecord mode n)

theorem State.gathered_length (s : State) (mode : SwizzleMode) (t : Texture) :
    (s.gathered mode t).length = t.texels := by
  rw [State.gathered, List.length_map, List.length_range]

theorem gatherLoop_ok (ha : s.BusAccepts) (hroom : 4 * (t.w * t.h) ≤ s.srcLen.toNat) (hw : 0 < t.w) (hh : 0 < t.h) :
    collectFrom (gatherPixel s.env mode t) t.texels 0 (Work.start s.mem)
      = (.ok (s.gathered mode t), Work.start s.mem) := by
  rw [State.gathered, List.range_eq_range']
  exact collectFrom_ok (fun n => gatherPixel_ok ha hroom hw hh n _) _ _

/-- TEX.ENC ends with the texel bytes of the gathered pixels, the zero-alpha step first. -/
theorem texEnc_endsWithBytes {fmt swz : BitVec 4} {pad : Bool} (hf : pixelFormatOf fmt = some f)
    (hmode : swizzleModeOf swz = some mode) (hdim : s.env.dimensionsLegal = true) (hu : s.BuffersUsable)
    (ha : s.BusAccepts) (hsrc : 4 * s.env.width * s.env.height ≤ s.srcLen.toNat)
    (hdst : encodedSize f (s.env.texture mode pad).texels ≤ s.dstLen.toNat) :
    EndsWithBytes (.texEnc fmt swz pad) s (encodedSize f (s.env.texture mode pad).texels)
      (s.env.texture mode pad).texels (encodedSize f (s.env.texture mode pad).texels)
      ((texelBytes f ((s.gathered mode (s.env.texture mode pad)).map (zeroAlpha s.platform))).getD · 0) := by
  obtain ⟨hw, hh⟩ := Env.dimensionsLegal_pos hdim
  have hgather := gatherLoop_ok (mode := mode) (t := s.env.texture mode pad) ha
    ((Nat.mul_assoc _ _ _).symm.trans_le hsrc) hw hh
  have hlen : (texelBytes f ((s.gathered mode (s.env.texture mode pad)).map (zeroAlpha s.platform))).length
      = encodedSize f (s.env.texture mode pad).texels := by
    rw [texelBytes_length, List.length_map, State.gathered_length]
  have hencode := pixEncode_appends (env := s.env) f (s.gathered mode (s.env.texture mode pad)) (Work.start s.mem)
    fun j hj => ha.output j ((hlen ▸ hj).trans_le hdst)
  exact endsWithBytes_of_put (exec_texEnc fmt swz pad s)
    ((textureCommand_run hf hmode hdim (decide_eq_true hsrc) (decide_eq_true hdst) hu _).trans <|
      (run_bind_ok hgather).trans (run_bind_ok hencode)) hlen fun _ _ => rfl

/-- Settles O60: the gathered pixels, each the record at its texel's address, are encoded by `texEnc_endsWithBytes`. -/
theorem textureEncode : Obligations.TextureEncode := by
  intro fmt swz f mode pad s w h pw ph hf hmode hwidth hheight
  obtain rfl : s.env.width = w := s.env_width.trans hwidth
  obtain rfl : s.env.height = h := s.env_height.trans hheight
  rintro hw hwmax hh hhmax rfl rfl hsrc hdst hu ha
  have hend := texEnc_endsWithBytes (pad := pad) hf hmode (Env.dimensionsLegal_iff.mpr ⟨⟨hw, hwmax⟩, hh, hhmax⟩) hu ha
    hsrc hdst
  rwa [State.gathered, List.map_map] at hend

end Sys2Proof.Machine
end

section
/-! PROOFS. The interrupt output (60_exceptions.md R330), and the two commands that do no work: NOP (R340) and a word
that names no command (R322). -/
namespace Sys2Proof.Machine

open Sys2Proof.Reference

variable {s t : State}

/-! ## IRQ -/

/-- At a command's end IRQ is IRQ_EN, since DONE is set and CTRL stays (10_state.md R41; 60_exceptions.md R330). -/
theorem State.Ended.irq (h : s.Ended t) : t.irq = s.ctrl.irqEn := by
  simp [State.irq, h.same.ctrl, h.done]

/-- IRQ needs DONE or ERROR. -/
theorem State.irq_eq_false (hd : s.status.done = false) (he : s.status.error = false) : s.irq = false := by
  simp [State.irq, hd, he]

theorem State.startCommand_irq (s : State) (w : Word) : (s.startCommand w).irq = false := State.irq_eq_false rfl rfl

theorem State.resetCore_irq (s : State) : s.resetCore.irq = false := State.irq_eq_false rfl rfl

theorem State.acknowledge_irq (s : State) {v : Word} (hd : v.getLsbD 1 = true) (he : v.getLsbD 2 = true) :
    (s.acknowledge v).irq = false :=
  State.irq_eq_false (by simp [State.acknowledge, Status.acknowledge, hd])
    (by simp [State.acknowledge, Status.acknowledge, he])

/-- Whatever is in CMD, the engine step ends it. -/
theorem engineStep_irq (s : State) : ∃ t, engineStep s = .next t ∧ t.irq = s.ctrl.irqEn := by
  obtain ⟨t, he, ht⟩ := engineStep_ended s
  exact ⟨t, he, ht.irq⟩

/-- Settles O15: every end is a `State.Ended`; a start, an acknowledgement of both bits and a reset clear DONE and
ERROR. -/
theorem interruptFollowsCommandEnd : Obligations.InterruptFollowsCommandEnd := by
  refine ⟨State.irq_iff, fun i s t h => ?_, fun s _ => engineStep_irq s, fun s t hb ha h => ?_, fun s t w hb h => ?_,
    fun s t w hd he h => ?_, fun s t w hw h => ?_, fun s t h => ?_, fun s t w hw he h => ?_⟩
  · obtain ⟨u, hu, hended⟩ := exec_ended i s
    cases hu.symm.trans h
    exact hended.irq
  · obtain ⟨u, hu, hirq⟩ := engineStep_irq s
    rw [step_of_agenda_nil ha, if_pos hb, hu] at h
    cases h
    exact hirq
  · cases (hostWrite_cmd_idle w hb).symm.trans h
    exact s.startCommand_irq w
  · cases (hostWrite_regOffset s .status w).symm.trans h
    exact s.acknowledge_irq hd he
  · have hreset := hostWrite_regOffset s .ctrl w
    rw [State.writeReg, s.writeCtrl_reset hw] at hreset
    cases hreset.symm.trans h
    exact s.resetCore_irq
  · cases (step_cons_agenda s .resetInput).symm.trans h
    exact s.resetCore_irq
  · have henable := hostWrite_regOffset s .ctrl w
    rw [State.writeReg, s.writeCtrl_enable hw, he] at henable
    cases henable.symm.trans h
    exact Bool.true_and _

/-! ## Words that name no command -/

/-- Settles O6. -/
theorem illegalWordEnds : Obligations.IllegalWordEnds := by
  intro s e hb hc ha
  exact ⟨s.endIllegal, by rw [step_of_agenda_nil ha, if_pos hb, engineStep_of_error hc], s.endIllegal_failed, rfl, rfl⟩

/-! ## NOP -/

theorem exec_nop (s : State) : exec .nop s = .next (s.endWithSuccess s.mem 0 0) := rfl

/-- NOP is the one command of OP 0, and uses no field (30_encoding.md R83; 60_exceptions.md R340). -/
theorem eq_zero_of_decode_opField_zero {w : Word} {i : Instr} (h : decode w = .ok i) (ho : opField w = 0) : w = 0 := by
  obtain rfl := eq_encode_of_decode h
  cases i with
  | nop => decide
  | _ =>
    rw [encode, opField_commandWord] at ho
    exact absurd ho (by decide)

/-- A NOP has no buffers that could be disturbed or lie on a device. -/
theorem engineStep_nop (h : s.cmd = 0) : engineStep s = .next (s.endWithSuccess s.mem 0 0) := by
  have hc : decode s.cmd = .ok .nop := by rw [h]; exact decode_encode .nop
  rw [engineStep_undisturbed hc rfl rfl, exec_nop]

/-- Settles O38. -/
theorem nopSucceeds : Obligations.NopSucceeds := by
  refine ⟨fun s => ?_, fun w ho hne => ?_, fun s hb hw ha => ?_⟩
  · exact ⟨_, exec_nop s, endWithSuccess_succeeded s s.mem 0 0, rfl,
      ((endWithSuccess_succeeded s s.mem 0 0).ended (fun _ _ => rfl) id).irq⟩
  · cases hc : decode w with
    | error e => exact ⟨e, rfl⟩
    | ok i => exact absurd (eq_zero_of_decode_opField_zero hc ho) hne
  · obtain ⟨v, hv, hread, -⟩ := hostRead_register ((s.startCommand 0).endWithSuccess s.mem 0 0) .status
    refine ⟨_, _, v, hostWrite_cmd_idle 0 hb, ?_, hv, ?_⟩
    · exact (step_of_agenda_nil (s := s.startCommand 0) ha).trans (engineStep_nop rfl)
    · rw [hread, State.readReg, State.endWithSuccess_status, State.startCommand_status, Status.finish, Status.start, hw]
      rfl

end Sys2Proof.Machine
end

section
/-! PROOFS. What an error leaves, whatever the input (60_exceptions.md R324 to R326): the end of a command whose body
raises, from what its body keeps (`Raised`) and from the places of the bytes it has written. -/
namespace Sys2Proof.Machine

open Sys2Proof.Reference

variable {α : Type} {i : Instr} {s t : State}

/-! ## Which errors -/

theorem mem_of_decompresses (h : decompresses i = true) :
    i ∈ [.lz10Dec, .lz11Dec, .rleDec, .contDec, .huff4Dec, .huff8Dec] := by
  revert h
  cases i <;> simp [decompresses]

/-- An error end other than BusFault is that of a raise of the command's body. -/
theorem exec_raised {e : Err} (he : exec i s = .next t) (hc : t.status.errCode = some e) (hb : e ≠ .busFault) :
    ∃ r w, r.err = e ∧ t = s.endWithError w.mem w.stored r ∧ Raised s.env s.mem (decompresses i) r w := by
  obtain ⟨body, hexec, hkeeps⟩ := exec_eq_afterCommand i
  obtain rfl := Host.Outcome.next.inj ((hexec s).symm.trans he)
  rcases afterCommand_cases s body with ⟨r0, r1, w, -, hend⟩ | ⟨r, w, hrun, -, hend⟩ | ⟨r, w, -, hr, hend⟩ <;>
    rw [hend] at hc
  · cases hc
  · exact ⟨r, w, Option.some.inj hc, hend, (hkeeps s.env s.mem).error (Untouched.start _ _) hrun⟩
  · exact absurd ((Option.some.inj hc).symm.trans hr) hb

/-- UnsupportedFormat and InvalidParameter come before the first write (60_exceptions.md R326). -/
theorem exec_early (he : exec i s = .next t)
    (hc : t.status.errCode = some .unsupportedFormat ∨ t.status.errCode = some .invalidParameter) :
    t.mem = s.mem ∧ t.result0 = 0 := by
  have quiet : ∀ e, e = .unsupportedFormat ∨ e = .invalidParameter → t.status.errCode = some e →
      t.mem = s.mem ∧ t.result0 = 0 := by
    intro e hearly hc
    obtain ⟨r, w, rfl, rfl, hraised⟩ := exec_raised he hc (by rintro rfl; simp at hearly)
    have huntouched := hraised.early hearly
    exact ⟨huntouched.mem, congrArg (BitVec.ofNat 32) huntouched.stored⟩
  exact hc.elim (quiet _ (.inl rfl)) (quiet _ (.inr rfl))

/-- Only a decompressor ends with CorruptStream, at a position of its input (60_exceptions.md R324). -/
theorem exec_corruptStream (he : exec i s = .next t) (hc : t.status.errCode = some .corruptStream) :
    i ∈ [.lz10Dec, .lz11Dec, .rleDec, .contDec, .huff4Dec, .huff8Dec] ∧ t.errInfo.toNat ≤ s.srcLen.toNat := by
  obtain ⟨r, w, hr, rfl, hraised⟩ := exec_raised he hc (by decide)
  obtain ⟨hd, hpos⟩ := hraised.corruptStream hr
  refine ⟨mem_of_decompresses hd, ?_⟩
  rw [State.endWithError_errInfo, BitVec.toNat_ofNat]
  exact (Nat.mod_le _ _).trans hpos

/-- No command that decodes ends with IllegalCommand (60_exceptions.md R322). -/
theorem exec_not_illegalCommand (he : exec i s = .next t) : t.status.errCode ≠ some .illegalCommand := by
  intro hc
  obtain ⟨r, w, hr, -, hraised⟩ := exec_raised he hc (by decide)
  exact hraised.command hr

/-! ## Which bytes -/

/-- A run that ends by itself meets no rejected access. -/
theorem Traced.eq_of_not_busFault {env : Env} {x : Env → Eng α} {w w' w1 : Work} {tr : Trace} {r r1 : Except Raise α}
    (ht : Traced env x w tr r w') (hrun : x env w = (r1, w1)) (hr : ∀ e, r1 = .error e → e.err ≠ .busFault) :
    r = r1 ∧ w' = w1 := by
  rcases tr.split_rejected env.platform.busFault with hall | ⟨pre, a, post, hsplit, hpre, ha⟩
  · exact Prod.mk.inj ((ht.accepted _ hall).symm.trans hrun)
  · obtain ⟨v, hfault, -⟩ := ht.rejected _ pre a post hsplit hpre ha
    exact absurd rfl (hr _ (Prod.mk.inj (hrun.symm.trans hfault)).1)

/-- A decompressor that meets no rejected access has changed the bytes that it counts as stored, and no others. -/
theorem BodyTraced.frame {body : Env → Eng (Nat × Nat)} {r : Except Raise (Nat × Nat)} {w : Work}
    (hbody : BodyTraced i s body) (hd : decompresses i = true) (hrun : body s.env (Work.start s.mem) = (r, w))
    (hr : ∀ e, r = .error e → e.err ≠ .busFault) {b : Nat} (hb : b < s.dstAddr.toNat ∨ s.dstAddr.toNat + w.stored ≤ b) :
    w.mem.read b = s.mem.read b := by
  obtain ⟨tr, r', w', ht, h⟩ := hbody
  obtain ⟨rfl, rfl⟩ := ht.eq_of_not_busFault hrun hr
  refine ht.frame b fun hmem => ?_
  rcases h with hcheck | hworks
  · rw [hcheck.trace] at hmem
    exact List.not_mem_nil hmem
  · rw [hworks.places, List.mem_map] at hmem
    obtain ⟨k, hk, rfl⟩ := hmem
    rw [List.mem_range] at hk
    rw [storedPlace_eq fun fmt swz pad h => by subst h; cases hd] at hb
    omega

/-- A decompressor whose body raises CorruptStream, the output `out` appended. -/
theorem endsCorrupt_of_raise {body : Env → Eng (Nat × Nat)} (hd : decompresses i = true)
    (hexec : ∀ s, exec i s = runCommand s body) (hbody : BodyTraced i s body) {pos : Nat} {out : List Byte} {w : Work}
    (hrun : body s.env (Work.start s.mem) = (.error { err := .corruptStream, info := pos }, w))
    (hstored : w.stored = out.length) (hout : w.mem.Holds s.dstAddr.toNat out) : EndsCorrupt i s pos out := by
  have hend : exec i s = .next (s.endWithError w.mem w.stored { err := .corruptStream, info := pos }) := by
    rw [hexec, runCommand, afterCommand_of_error hrun nofun]
  refine ⟨_, hend, ?_, hout, fun b hb => hbody.frame hd hrun (fun e he => ?_) (by rwa [hstored])⟩
  · rw [← hstored]
    exact endWithError_failed s w.mem w.stored _
  · cases he
    exact nofun

end Sys2Proof.Machine
end

section
/-! PROOFS. Running a piece of a decompressor forward up to a point inside it: `Reaches` says which bytes it reads and
what it writes before it goes on as another piece, and `raiseHere` is the piece that finds the stream corrupt
(40_decompressors.md R112, R123; 41_huffman.md R162). -/
namespace Sys2Proof.Machine

open Sys2Proof.Reference

variable {α β : Type} {env : Env} {stop : Raise}

/-! ## Rules -/

/-- After the output `out`, `x` reads `bytes`, leaves the output `out'` and goes on as `y`. -/
def Reaches (env : Env) (stop : Raise) (x y : Eng α) (out bytes out' : List Byte) : Prop :=
  ∀ rest w, Feeds env stop out (bytes ++ rest) w → ∃ w', x w = y w' ∧ Feeds env stop out' rest w'

theorem Reaches.refl (x : Eng α) (out : List Byte) : Reaches env stop x x out [] out := fun _ w h => ⟨w, rfl, h⟩

theorem Reaches.trans {x y z : Eng α} {out out1 out2 b1 b2 : List Byte} (hx : Reaches env stop x y out b1 out1)
    (hy : Reaches env stop y z out1 b2 out2) : Reaches env stop x z out (b1 ++ b2) out2 := by
  intro rest w h
  rw [List.append_assoc] at h
  obtain ⟨w1, hrun1, h1⟩ := hx _ w h
  obtain ⟨w2, hrun2, h2⟩ := hy _ w1 h1
  exact ⟨w2, hrun1.trans hrun2, h2⟩

/-- Past its first piece, a piece goes on as the second. -/
theorem Runs.goesOn {x : Eng α} {f : α → Eng β} {out bytes out' : List Byte} {v : α}
    (hx : Runs env stop x out bytes v out') : Reaches env stop (x >>= f) (f v) out bytes out' := by
  intro rest w h
  obtain ⟨w', hrun, h'⟩ := hx rest w h
  exact ⟨w', run_bind_ok hrun, h'⟩

theorem Runs.reaches {x : Eng α} {f : α → Eng β} {y : Eng β} {out out1 out2 b1 b2 : List Byte} {v : α}
    (hx : Runs env stop x out b1 v out1) (hf : Reaches env stop (f v) y out1 b2 out2) :
    Reaches env stop (x >>= f) y out (b1 ++ b2) out2 := hx.goesOn.trans hf

/-- A piece that reads nothing, then another. -/
theorem Runs.reaches_nil {x : Eng α} {f : α → Eng β} {y : Eng β} {out out1 out2 bytes : List Byte} {v : α}
    (hx : Runs env stop x out [] v out1) (hf : Reaches env stop (f v) y out1 bytes out2) :
    Reaches env stop (x >>= f) y out bytes out2 := Runs.reaches hx hf

/-! ## The corrupt stream -/

/-- CorruptStream at the input cursor. -/
def raiseHere : Eng α := inPos >>= fun pos => raise .corruptStream pos

theorem raiseHere_run (w : Work) :
    (raiseHere : Eng α) w = (.error { err := .corruptStream, info := w.inPos }, w) := inPos_bind _ w

/-- Nothing comes after a raise. -/
theorem Reaches.corrupt_bind {x : Eng α} {f : α → Eng β} {out bytes out' : List Byte}
    (h : Reaches env stop x raiseHere out bytes out') : Reaches env stop (x >>= f) raiseHere out bytes out' := by
  intro rest w hw
  obtain ⟨w', hrun, hw'⟩ := h rest w hw
  refine ⟨w', ?_, hw'⟩
  rw [run_bind_error (hrun.trans (raiseHere_run w')), raiseHere_run]

/-- Where the input's end is CorruptStream, the cursor and the bytes still to read make up the input. -/
theorem Feeds.position {out rest : List Byte} {w : Work} {pos : Nat}
    (h : Feeds env { err := .corruptStream, info := pos } out rest w) : w.inPos + rest.length = env.srcLen := by
  rcases h.stops with ⟨hend, -⟩ | ⟨-, -, hstop⟩
  · exact hend.symm
  · cases hstop

variable {i : Instr} {s : State}

theorem Memory.bytes_split {m : Memory} {a n : Nat} {input : List Byte} (h : m.Holds a input)
    (hlen : input.length ≤ n) :
    m.bytes a n = input ++ m.bytes (a + input.length) (n - input.length) := by
  rw [← Nat.add_sub_cancel' hlen, Memory.bytes_add, Memory.bytes_of_holds h, Nat.add_sub_cancel' hlen]

/-- A decompressor ends with CorruptStream on every input at which its body is stuck: at the input's end where it needs
a byte more, and at the cursor where it finds the stream corrupt. -/
theorem corruptOn_of_reaches {body : Env → Eng (Nat × Nat)} {header : List Byte}
    {stuck : Bool → List Byte → List Byte → Prop} (hd : decompresses i = true)
    (hexec : ∀ s, exec i s = runCommand s body) (hbody : BodyTraced i s body) (ha : s.BusAccepts)
    (hends : ∀ stop input out, stuck true input out → Stops s.env stop (body s.env) [] (header ++ input) out)
    (hfinds : ∀ stop input out, stuck false input out →
      Reaches s.env stop (body s.env) raiseHere [] (header ++ input) out) :
    CorruptOn i s header stuck := by
  intro atEnd input out hstuck hholds hlen
  have hstart := Feeds.start s ha.input
  rw [← List.length_append] at hlen ⊢
  cases atEnd with
  | true =>
    replace hlen : (header ++ input).length = s.srcLen.toNat := hlen
    rw [← hlen, Memory.bytes_of_holds hholds] at hstart
    obtain ⟨w, hrun, hstored, hout⟩ := hends _ input out hstuck _ hstart
    exact endsCorrupt_of_raise hd hexec hbody hrun hstored hout
  | false =>
    replace hlen : (header ++ input).length ≤ s.srcLen.toNat := hlen
    have hsplit := Memory.bytes_split hholds hlen
    obtain ⟨w, hrun, hw⟩ := hfinds _ input out hstuck _ _ (hsplit ▸ hstart)
    have hpos : w.inPos = (header ++ input).length := by
      have := hw.position
      rw [Memory.bytes_length, State.env_srcLen] at this
      omega
    rw [raiseHere_run, hpos] at hrun
    exact endsCorrupt_of_raise hd hexec hbody hrun hw.stored hw.output

end Sys2Proof.Machine
end

section
/-! PROOFS. The LZ10, LZ11 and RLE bodies run forward to a token or a group that is whole and corrupt
(40_decompressors.md R112, R114, R116, R120, R122, R123). -/
namespace Sys2Proof.Machine

open Sys2Proof.Reference

variable {env : Env} {stop : Raise} {n : Nat} {out out' : List Byte}

/-! ## LZ10 and LZ11 -/

section Form
variable {ok : LzToken → Bool} {enc : LzToken → List Byte} {reference : Eng (Nat × Nat)} {tokens : List LzToken}

/-- A back-reference before the output or past the declared length (40_decompressors.md R112). -/
theorem copyback_reaches {disp len : Nat} (h : out.length < disp ∨ n < out.length + len) :
    Reaches env stop (copyback env disp len n) raiseHere out [] out := by
  refine Runs.reaches_nil (outLen_runs out) ?_
  by_cases hd : out.length < disp
  · rw [if_pos hd]
    exact .refl _ out
  · rw [if_neg hd, if_pos (h.resolve_left hd)]
    exact .refl _ out

theorem LzForm.token_reaches (hf : LzForm env stop ok enc reference) {disp len : Nat}
    (hok : ok (.back disp len) = true) (h : out.length < disp ∨ n < out.length + len) :
    Reaches env stop (lzToken env reference n (LzToken.back disp len).flag.toNat) raiseHere out
      (enc (.back disp len)) out := by
  have hreach := ((hf.back disp len hok).runs out).reaches (f := fun r => copyback env r.1 r.2 n)
    (copyback_reaches h)
  rwa [List.append_nil] at hreach

/-- Tokens of a group, then the rest of the group. -/
theorem LzForm.group_reaches (hf : LzForm env stop ok enc reference) (he : env.Serves) (hn : n ≤ env.dstLen)
    {flags k : Nat} (hok : ∀ t ∈ tokens, ok t = true) (ha : expandTokens out tokens = some out') (hlt : out'.length < n)
    (htell : flagsTell flags (k + tokens.length) tokens) :
    Reaches env stop (lzGroup env reference n flags (k + tokens.length)) (lzGroup env reference n flags k) out
      (tokens.flatMap enc) out' := by
  induction tokens generalizing out with
  | nil =>
    obtain rfl := Option.some.inj ha
    exact .refl _ out
  | cons t ts ih =>
    obtain ⟨mid, h1, h2⟩ := expandTokens_cons ha
    have hts : ∀ t ∈ ts, ok t = true := fun t ht => hok t (List.mem_cons_of_mem _ ht)
    have hgrow := hf.apply_grows (hok t List.mem_cons_self) h1
    have hle := hf.expand_le hts h2
    obtain ⟨hbit, htell⟩ := flagsTell_cons htell
    rw [List.flatMap_cons]
    refine Runs.reaches_nil (outLen_runs out) ?_
    rw [if_neg (by omega), hbit]
    exact (hf.token_runs he hn (hok t List.mem_cons_self) h1 (by omega)).reaches (ih hts h2 htell)

/-- Full groups, then the rest of the body. -/
theorem LzForm.body_reaches (hf : LzForm env stop ok enc reference) (he : env.Serves) (hn : n ≤ env.dstLen)
    {groups : List LzGroup} (hok : ∀ g ∈ groups, g.legal ok = true ∧ g.tokens.length = 8)
    (ha : expandTokens out (groups.flatMap LzGroup.tokens) = some out') (hlt : out'.length < n) {bound : Nat}
    (hbound : n ≤ out.length + bound) :
    ∃ bound', n ≤ out'.length + bound' ∧ Reaches env stop (lzBody env reference n bound)
      (lzBody env reference n bound') out (groups.flatMap (LzGroup.bytes enc)) out' := by
  induction groups generalizing out bound with
  | nil =>
    obtain rfl := Option.some.inj ha
    exact ⟨bound, hbound, .refl _ out⟩
  | cons g gs ih =>
    obtain ⟨hlegal, hfull⟩ := hok g List.mem_cons_self
    have hgs := fun g hg => hok g (List.mem_cons_of_mem _ hg)
    obtain ⟨-, -, htokens, htell⟩ := LzGroup.legal_iff hlegal
    rw [List.flatMap_cons] at ha
    obtain ⟨mid, h1, h2⟩ := expandTokens_append ha
    have hmid := hf.expand_le htokens h1
    have hend := hf.expand_le (LzGroup.legal_of_mem_flatMap fun g hg => (hgs g hg).1) h2
    obtain ⟨bound, rfl⟩ : ∃ b, bound = b + 1 := ⟨bound - 1, by omega⟩
    have hgroup := hf.group_runs he hn htokens h1 (by omega) (flags := g.flags.toNat) (by rwa [hfull])
    rw [hfull] at hgroup
    obtain ⟨bound', hbound', hrest⟩ := ih hgs h2 (bound := bound) (by omega)
    refine ⟨bound', hbound', ?_⟩
    rw [List.flatMap_cons, LzGroup.bytes]
    refine Runs.reaches_nil (outLen_runs out) ?_
    rw [if_pos (by omega)]
    exact ((inByte_decodes g.flags).runs out).reaches (hgroup.reaches hrest)

/-- An LZ body that is stuck at a whole token: full groups, then a last group, whose last token is a back-reference
before the output or past the declared length. -/
theorem lzStuck_whole {input : List Byte} (h : LzStuck ok enc n false input out) :
    ∃ (groups : List LzGroup) (last : LzGroup) (ts : List LzToken) (disp len : Nat),
      (∀ g ∈ groups, g.legal ok = true ∧ g.tokens.length = 8)
        ∧ last.legal ok = true ∧ last.tokens = ts ++ [.back disp len]
        ∧ expandTokens [] (groups.flatMap LzGroup.tokens ++ ts) = some out ∧ out.length < n
        ∧ input = groups.flatMap (LzGroup.bytes enc) ++ last.flags :: (ts.flatMap enc ++ enc (.back disp len))
        ∧ (out.length < disp ∨ n < out.length + len) := by
  obtain ⟨groups, last, tokens, token, hlegal, hfull, htokens, hexpand, hlt, rfl, disp, len, rfl, hbad⟩ := h
  obtain ⟨hpos, -⟩ := LzGroup.legal_iff (hlegal last (by simp))
  obtain ⟨ts, token, hlast⟩ : ∃ ts t, last.tokens = ts ++ [t] := by
    rcases List.eq_nil_or_concat last.tokens with h0 | ⟨ts, t, h⟩
    · simp [h0] at hpos
    · exact ⟨ts, t, by simpa using h⟩
  rw [List.flatMap_append, List.flatMap_singleton, hlast, ← List.append_assoc] at htokens
  obtain ⟨rfl, htoken⟩ := List.append_inj' htokens rfl
  obtain rfl := List.singleton_inj.mp htoken
  refine ⟨groups, last, ts, disp, len, fun g hg => ⟨hlegal g (by simp [hg]), groupsFull_append hfull g hg⟩,
    hlegal last (by simp), hlast, hexpand, hlt, ?_, hbad⟩
  simp [LzGroup.bytes, hlast]

/-- The last group of a body that is stuck at a whole token. -/
theorem LzForm.last_reaches (hf : LzForm env stop ok enc reference) (he : env.Serves) (hn : n ≤ env.dstLen)
    {flags disp len : Nat} (hlen : (tokens ++ [LzToken.back disp len]).length ≤ 8)
    (hok : ∀ t ∈ tokens ++ [LzToken.back disp len], ok t = true)
    (htell : flagsTell flags 8 (tokens ++ [.back disp len])) (ha : expandTokens out tokens = some out') (hlt : out'.length < n)
    (hbad : out'.length < disp ∨ n < out'.length + len) :
    Reaches env stop (lzGroup env reference n flags 8) raiseHere out (tokens.flatMap enc ++ enc (.back disp len))
      out' := by
  obtain ⟨k, hk⟩ : ∃ k, 8 = k + 1 + tokens.length := ⟨7 - tokens.length, by simp at hlen; omega⟩
  have htoken : Reaches env stop (lzGroup env reference n flags (k + 1)) raiseHere out'
      (enc (.back disp len)) out' := by
    have hbit := htell tokens.length (by simp)
    rw [show 8 - 1 - tokens.length = k by omega, List.getElem_concat_length rfl] at hbit
    refine Runs.reaches_nil (outLen_runs out') ?_
    rw [if_neg (by omega), hbit]
    exact (hf.token_reaches (hok _ (by simp)) hbad).corrupt_bind
  rw [hk]
  refine (hf.group_reaches he hn (fun t ht => hok t (List.mem_append_left _ ht)) ha hlt fun i hi => ?_).trans htoken
  have hbit := htell i (by simp; omega)
  rwa [List.getElem_append_left hi, show 8 - 1 - i = k + 1 + tokens.length - 1 - i by omega] at hbit

/-- Where an LZ body is stuck at a whole token, the command finds the stream corrupt (40_decompressors.md R112). -/
theorem LzForm.stuck_reaches (hf : LzForm env stop ok enc reference) (he : env.Serves) (hn : n ≤ env.dstLen)
    {input : List Byte} (h : LzStuck ok enc n false input out) :
    Reaches env stop (lzBody env reference n n) raiseHere [] input out := by
  obtain ⟨groups, last, ts, disp, len, hgroups, hlast, htokens, hexpand, hlt, rfl, hbad⟩ := lzStuck_whole h
  obtain ⟨-, height, hoks, htell⟩ := LzGroup.legal_iff hlast
  rw [htokens] at height hoks htell
  obtain ⟨mid, h1, h2⟩ := expandTokens_append hexpand
  have hmid := hf.expand_le (fun t ht => hoks t (List.mem_append_left _ ht)) h2
  obtain ⟨bound, hbound, hbody⟩ := hf.body_reaches he hn hgroups h1 (by omega) (bound := n) (by simp)
  obtain ⟨bound, rfl⟩ : ∃ b, bound = b + 1 := ⟨bound - 1, by omega⟩
  refine hbody.trans (Runs.reaches_nil (outLen_runs mid) ?_)
  rw [if_pos (by omega)]
  exact ((inByte_decodes last.flags).runs mid).reaches
    (hf.last_reaches he hn height hoks htell h2 hlt hbad).corrupt_bind

end Form

/-! ## RLE -/

/-- The bytes of a group that show how long it is: of a run also the byte it repeats (40_decompressors.md R123). -/
def rleShown : RleGroup → List Byte
  | .run count v => (RleGroup.run count v).bytes
  | .literals vs => (RleGroup.literals vs).bytes.take 1

/-- A run or literals past the declared length (40_decompressors.md R123). -/
theorem rleGroup_reaches {g : RleGroup} (h : g.legal = true) (hlong : n < out.length + g.expand.length) :
    Reaches env stop (rleGroup env n) raiseHere out (rleShown g) out := by
  cases g with
  | run count v =>
    obtain ⟨h1, h2⟩ := RleGroup.legal_run h
    obtain ⟨hbit, hcount⟩ := runFlag_bits h1 h2
    rw [RleGroup.expand, List.length_replicate] at hlong
    refine ((inByte_decodes (BitVec.ofNat 8 (128 + (count - 3)))).runs out).reaches (b2 := [v] ++ []) ?_
    rw [if_pos hbit, hcount]
    refine ((inByte_decodes v).runs out).reaches (Runs.reaches_nil (outLen_runs out) ?_)
    rw [if_pos hlong]
    exact .refl _ out
  | literals vs =>
    obtain ⟨h1, h2⟩ := RleGroup.legal_literals h
    obtain ⟨hbit, hcount⟩ := literalFlag_bits h1 h2
    replace hlong : n < out.length + vs.length := hlong
    refine ((inByte_decodes (BitVec.ofNat 8 (vs.length - 1))).runs out).reaches (b2 := []) ?_
    rw [if_neg hbit, hcount]
    refine Runs.reaches_nil (outLen_runs out) ?_
    rw [if_pos hlong]
    exact .refl _ out

/-- Whole groups, then the rest of the body. -/
theorem rleLoop_reaches (he : env.Serves) (hn : n ≤ env.dstLen) {groups : List RleGroup}
    (hlegal : ∀ g ∈ groups, g.legal = true) (hlt : (out ++ groups.flatMap RleGroup.expand).length < n) {bound : Nat}
    (hbound : n ≤ out.length + bound) :
    ∃ bound', n ≤ (out ++ groups.flatMap RleGroup.expand).length + bound' ∧
      Reaches env stop (rleLoop env n bound) (rleLoop env n bound') out (groups.flatMap RleGroup.bytes)
        (out ++ groups.flatMap RleGroup.expand) := by
  induction groups generalizing out bound with
  | nil =>
    rw [List.flatMap_nil, List.append_nil]
    exact ⟨bound, hbound, .refl _ out⟩
  | cons g gs ih =>
    have hpos := RleGroup.expand_pos (hlegal g List.mem_cons_self)
    rw [List.flatMap_cons, ← List.append_assoc] at hlt ⊢
    have hlen := hlt
    simp only [List.length_append] at hlen
    obtain ⟨bound, rfl⟩ : ∃ b, bound = b + 1 := ⟨bound - 1, by omega⟩
    obtain ⟨bound', hbound', hrest⟩ := ih (fun g hg => hlegal g (List.mem_cons_of_mem _ hg)) hlt (bound := bound)
      (by rw [List.length_append]; omega)
    refine ⟨bound', hbound', Runs.reaches_nil (outLen_runs out) ?_⟩
    rw [if_pos (by omega)]
    exact (rleGroup_runs he hn (hlegal g List.mem_cons_self) (by omega)).reaches hrest

/-- Where an RLE body is stuck at a whole group, the command finds the stream corrupt (40_decompressors.md R123). -/
theorem rleStuck_reaches (he : env.Serves) (hn : n ≤ env.dstLen) {input : List Byte} (h : RleStuck n false input out) :
    Reaches env stop (rleBody env n) raiseHere [] input out := by
  obtain ⟨groups, last, tail, hlegal, rfl, hlt, rfl, hlong, htail⟩ := h
  obtain rfl : tail = rleShown last := by rw [htail]; cases last <;> rfl
  obtain ⟨bound, hbound, hloop⟩ := rleLoop_reaches (stop := stop) (out := []) he hn
    (fun g hg => hlegal g (List.mem_append_left _ hg)) hlt (bound := n) (by simp)
  rw [List.nil_append] at hbound hloop
  obtain ⟨bound, rfl⟩ : ∃ b, bound = b + 1 := ⟨bound - 1, by omega⟩
  refine hloop.trans (Runs.reaches_nil (outLen_runs _) ?_)
  rw [if_pos hlt]
  exact (rleGroup_reaches (hlegal last (by simp)) hlong).corrupt_bind

end Sys2Proof.Machine
end

section
/-! PROOFS. The Huffman body run forward to a bit that selects a child outside the tree (41_huffman.md R162, R165,
R166). -/
namespace Sys2Proof.Machine

open Sys2Proof.Reference

variable {env : Env} {stop : Raise} {n : Nat} {wide : Bool} {tree : List Byte}

/-- Where a bit is still to come, the decoder has it after a new word or without one (41_huffman.md R165). -/
theorem huffRefill_next {h : HuffState} {node : Nat} {syms : List Byte} {b : Bool} {bs more : List Bool}
    {words : List Word} (out : List Byte) (hh : HuffAt wide h node syms bs)
    (hbits : bs ++ words.flatMap wordBits = b :: more) :
    ∃ h' bytes bs' words', Runs env stop (huffRefill env h) out bytes h' out ∧ HuffAt wide h' node syms (b :: bs')
      ∧ bs' ++ words'.flatMap wordBits = more ∧ wordBytes words = bytes ++ wordBytes words' := by
  cases bs with
  | cons c bs =>
    obtain ⟨rfl, hmore⟩ := List.cons.inj hbits
    exact ⟨h, [], bs, words, huffRefill_bit hh, hh, hmore, rfl⟩
  | nil =>
    cases words with
    | nil => cases hbits
    | cons w words =>
      obtain ⟨h', hrefill, hat⟩ := huffRefill_word (env := env) (stop := stop) (out := out) hh w
      obtain ⟨c, cs, hword⟩ : ∃ c cs, wordBits w = c :: cs :=
        List.exists_cons_of_length_pos (by rw [wordBits_length]; exact Nat.succ_pos _)
      rw [List.nil_append, List.flatMap_cons, hword] at hbits
      obtain ⟨rfl, hmore⟩ := List.cons.inj hbits
      exact ⟨h', littleBytes 4 w.toNat, cs, words, hrefill, hword ▸ hat, hmore, rfl⟩

/-- A bit that selects a child outside the tree (41_huffman.md R162). -/
theorem huffStep_reaches {h h1 : HuffState} {node : Nat} {syms out bytes : List Byte} {b : Bool} {bs : List Bool}
    (houtside : tree.length ≤ childAddress tree node b) (hrefill : Runs env stop (huffRefill env h) out bytes h1 out)
    (hh : HuffAt wide h1 node syms (b :: bs)) :
    Reaches env stop (huffStep env wide (tree.map BitVec.toNat) h) raiseHere out bytes out := by
  obtain ⟨hbit, -⟩ := hh.next
  have hchild : (tree.map BitVec.toNat).length
      ≤ huffChild h1.node ((tree.map BitVec.toNat).getD h1.node 0) (bitAt h1.word 31) := by
    rwa [List.length_map, hbit, hh.node, tree_getD, huffChild_eq]
  rw [← List.append_nil bytes]
  refine hrefill.reaches ?_
  rw [if_pos hchild]
  exact .refl _ out

/-- The walk uses up the bits `all`, then the bit `b` leads it outside the tree. -/
theorem huffWalk_reaches (he : env.Serves) (hn : n ≤ env.dstLen) (all : List Bool) {b : Bool} {extra : List Bool}
    (hextra : extra.length < 32) {words : List Word} {h : HuffState} {node node' bound : Nat} {syms syms' : List Byte}
    {bs : List Bool} (hh : HuffAt wide h node syms bs) (hall : bs ++ words.flatMap wordBits = all ++ b :: extra)
    (hwalk : bitWalk tree (node, syms) all = some (node', syms')) (hlt : syms'.length < huffSymbols wide n)
    (houtside : tree.length ≤ childAddress tree node' b) (hbound : all.length < bound) :
    Reaches env stop (huffWalk env wide (tree.map BitVec.toNat) (huffSymbols wide n) bound h) raiseHere
      (huffOut wide syms) (wordBytes words) (huffOut wide syms') := by
  obtain ⟨bound, rfl⟩ : ∃ k, bound = k + 1 := ⟨bound - 1, by omega⟩
  induction all generalizing words h node syms bs bound with
  | nil =>
    obtain ⟨rfl, rfl⟩ := Prod.mk.inj (Option.some.inj hwalk)
    obtain ⟨h1, bytes, bs', words', hrefill, hat, hmore, hbytes⟩ :=
      huffRefill_next (env := env) (stop := stop) (huffOut wide syms) hh hall
    obtain rfl : words' = [] := by
      have := congrArg List.length hmore
      rw [List.length_append, flatMap_wordBits_length] at this
      exact List.length_eq_zero_iff.mp (by omega)
    obtain rfl : wordBytes words = bytes := hbytes.trans (List.append_nil _)
    rw [huffWalk, if_pos (by rw [hh.syms]; exact hlt)]
    exact (huffStep_reaches houtside hrefill hat).corrupt_bind
  | cons c all ih =>
    obtain ⟨⟨node1, syms1⟩, hstep, hrest⟩ := bitWalk_cons hwalk
    have hle : syms.length ≤ syms'.length := bitWalk_le hwalk
    have hsyms : syms.length < huffSymbols wide n := hle.trans_lt hlt
    obtain ⟨h1, bytes, bs', words', hrefill, hat, hmore, hbytes⟩ :=
      huffRefill_next (env := env) (stop := stop) (huffOut wide syms) hh hall
    obtain ⟨h', hrun, hat'⟩ := huffStep_runs he hn hstep hsyms hrefill hat
    have hlength : all.length < bound := by simpa using hbound
    obtain ⟨k, rfl⟩ : ∃ k, bound = k + 1 := ⟨bound - 1, by omega⟩
    rw [huffWalk, if_pos (by rw [hh.syms]; exact hsyms), hbytes]
    exact hrun.reaches (ih hat' hmore hrest k hlength)

/-- Where a bit leads outside the tree, the command finds the stream corrupt (41_huffman.md R162, R166). -/
theorem huffStuck_reaches (he : env.Serves) (hn : n ≤ env.dstLen) {input out : List Byte}
    (h : HuffStuck wide n false input out) : Reaches env stop (huffBody env n wide) raiseHere [] input out := by
  obtain ⟨hpos, ⟨h, -⟩ | ⟨tree, words, part, paths, symbols, rest, node, hlen, rfl, hpaths, hnode, hlt, rfl, rfl, b,
    houtside, ⟨extra, hbits⟩, hfew⟩⟩ := h
  · cases h
  have hwalk : bitWalk tree (1, []) (paths.flatten ++ rest) = some (node, symbols) := by
    rw [bitWalk_append, bitWalk_of_paths [] hpaths, Option.bind_some, List.nil_append]
    exact bitWalk_of_nodeAt symbols hnode
  have hlength := congrArg List.length hbits
  rw [List.length_append, flatMap_wordBits_length] at hlength
  rw [huffBody, if_neg (by omega), List.append_nil]
  intro more w hw
  have hroom := hw.room
  rw [← wordBytes, List.length_append, List.length_append, wordBytes_length] at hroom
  have hreach := huffWalk_reaches (stop := stop) (bound := 8 * env.srcLen + 1) he hn (paths.flatten ++ rest) (b := b)
    (extra := extra) (by omega) (huffStart_at wide) (by rw [List.nil_append, ← hbits, List.append_assoc]; rfl) hwalk hlt
    houtside (by simp only [List.length_append, List.length_singleton] at hlength ⊢; omega)
  rw [show huffOut wide [] = [] by cases wide <;> rfl] at hreach
  exact ((huffTree_decodes hlen).runs []).reaches hreach more w hw

end Sys2Proof.Machine
end

section
/-! PROOFS. Every corrupt stream (60_exceptions.md R324 to R326): each decompressor's header run forward to its body,
which needs a byte behind the input's end (`Stops`) or finds the stream corrupt (`Reaches`). -/
namespace Sys2Proof.Machine

open Sys2Proof.Reference

variable {env : Env} {stop : Raise} {s : State} {n : Nat} {part out : List Byte}

/-! ## Headers -/

/-- The length in an LZ11 header, behind its tag (40_decompressors.md R118). -/
theorem bits_tagged (tag : Byte) (hn : n < 2 ^ 24) : bits (tag.toNat + 256 * n) 31 8 = n := by
  have htag := tag.isLt
  rw [bits, Nat.shiftRight_eq_div_pow]
  omega

/-- The method and the length in a container's header (40_decompressors.md R125). -/
theorem bits_container {m : Nat} (hm : m < 5) (hn : n < 2 ^ 29) :
    bits (8 * n + m) 2 0 = m ∧ bits (8 * n + m) 31 3 = n := by
  rw [bits, bits, Nat.shiftRight_zero, Nat.shiftRight_eq_div_pow]
  omega

theorem lz10Command_reaches (hl : env.buffersLegal = true) (hn : n < 2 ^ 24) (hroom : n ≤ env.dstLen)
    (h : Reaches env stop (lz10Body env n) raiseHere [] part out) :
    Reaches env stop (lz10Command env) raiseHere [] (0x10#8 :: littleBytes 3 n ++ part) out := by
  refine Runs.reaches_nil (checkBuffers_runs hl []) ?_
  refine ((inByte_decodes 0x10#8).runs []).reaches (b2 := littleBytes 3 n ++ part) ?_
  rw [if_neg (by simp)]
  refine ((inBytes_decodes 3 n hn).runs []).reaches ?_
  exact Runs.reaches_nil (checkDeclared_runs hroom []) h.corrupt_bind

theorem lz11Command_reaches (hl : env.buffersLegal = true) (tag : Byte) (hn : n < 2 ^ 24) (hroom : n ≤ env.dstLen)
    (h : Reaches env stop (lz11Body env n) raiseHere [] part out) :
    Reaches env stop (lz11Command env) raiseHere [] (tag :: littleBytes 3 n ++ part) out := by
  have htag := tag.isLt
  rw [← littleBytes_tagged]
  refine Runs.reaches_nil (checkBuffers_runs hl []) ?_
  refine ((inBytes_decodes 4 (tag.toNat + 256 * n) (by omega)).runs []).reaches ?_
  rw [bits_tagged tag hn]
  exact Runs.reaches_nil (checkDeclared_runs hroom []) h.corrupt_bind

theorem contCommand_reaches (hl : env.buffersLegal = true) {m : Nat} (hm : m < 5) (hn : n < 2 ^ 29)
    (hroom : n ≤ env.dstLen) (h : Reaches env stop (containerBody env m n) raiseHere [] part out) :
    Reaches env stop (contCommand env) raiseHere [] (littleBytes 4 (8 * n + m) ++ part) out := by
  obtain ⟨hmethod, hlength⟩ := bits_container hm hn
  refine Runs.reaches_nil (checkBuffers_runs hl []) ?_
  refine ((inBytes_decodes 4 (8 * n + m) (by omega)).runs []).reaches ?_
  rw [hmethod, hlength, if_neg (Nat.not_le.mpr hm)]
  exact Runs.reaches_nil (checkDeclared_runs hroom []) h.corrupt_bind

theorem sizedCommand_reaches {body : Env → Nat → Eng Unit} (hl : env.buffersLegal = true) (hn : env.param0 ≤ env.dstLen)
    (h : Reaches env stop (body env env.param0) raiseHere [] part out) :
    Reaches env stop (sizedCommand body env) raiseHere [] part out := by
  refine Runs.reaches_nil (require_runs (decide_eq_true hn) []) ?_
  exact Runs.reaches_nil (checkBuffers_runs hl []) h.corrupt_bind

/-! ## The commands -/

/-- Where a container's body is stuck short of the input's end, the command finds the stream corrupt
(40_decompressors.md R127); a verbatim body never is. -/
theorem containerStuck_reaches (he : env.Serves) (hn : n ≤ env.dstLen) {m : Nat}
    (h : ContainerStuck m n false part out) :
    m < 5 ∧ Reaches env stop (containerBody env m n) raiseHere [] part out := by
  match m, h with
  | 0, h => cases h.1
  | 1, h => exact ⟨by simp, lz10_form.stuck_reaches he hn h⟩
  | 2, h => exact ⟨by simp, huffStuck_reaches he hn h⟩
  | 3, h => exact ⟨by simp, huffStuck_reaches he hn h⟩
  | 4, h => exact ⟨by simp, rleStuck_reaches he hn h⟩

/-- A decompressor whose length stands in PARAM0. -/
theorem sized_corruptOn {i : Instr} {body : Env → Nat → Eng Unit} {stuck : Bool → List Byte → List Byte → Prop}
    (hd : decompresses i = true) (hexec : ∀ s, exec i s = runCommand s (sizedCommand body))
    (hbody : BodyTraced i s (sizedCommand body)) (hu : s.BuffersUsable) (ha : s.BusAccepts)
    (hroom : s.param0.toNat ≤ s.dstLen.toNat)
    (hends : ∀ {stop input out}, stuck true input out → Stops s.env stop (body s.env s.env.param0) [] input out)
    (hfinds : ∀ {stop input out}, stuck false input out →
      Reaches s.env stop (body s.env s.env.param0) raiseHere [] input out) : CorruptOn i s [] stuck := by
  have hl := (buffersLegal_iff s).mpr hu
  exact corruptOn_of_reaches hd hexec hbody ha
    (fun stop input out h => sizedCommand_stops hl hroom (hends h))
    fun stop input out h => sizedCommand_reaches hl hroom (hfinds h)

/-- Settles O33: the errors from what every body keeps, the corrupt streams from each body run forward to where it is
stuck. -/
theorem errorsBeforeWork : Obligations.ErrorsBeforeWork := by
  refine ⟨fun i s t he => ⟨exec_early he, exec_corruptStream he, exec_not_illegalCommand he⟩, fun s hu ha => ?_⟩
  have hserves := ha.serves hu
  have hl := (buffersLegal_iff s).mpr hu
  refine ⟨fun n hn hroom => ⟨?_, fun tag => ?_⟩, fun hroom => ⟨?_, ?_, ?_⟩, fun m n hn hroom => ?_⟩
  · exact corruptOn_of_reaches rfl exec_lz10Dec (lz10Command_traced s) ha
      (fun stop input out h => lz10Command_stops hl hn hroom (lz10_form.stuck_stops hserves hroom h))
      fun stop input out h => lz10Command_reaches hl hn hroom (lz10_form.stuck_reaches hserves hroom h)
  · exact corruptOn_of_reaches rfl exec_lz11Dec (lz11Command_traced s) ha
      (fun stop input out h => lz11Command_stops hl tag hn hroom (lz11_form.stuck_stops hserves hroom h))
      fun stop input out h => lz11Command_reaches hl tag hn hroom (lz11_form.stuck_reaches hserves hroom h)
  · exact sized_corruptOn rfl exec_rleDec (rleCommand_traced s) hu ha hroom (rleStuck_stops hserves hroom)
      (rleStuck_reaches hserves hroom)
  · exact sized_corruptOn rfl exec_huff4Dec (huffCommand_traced false s rfl rfl) hu ha hroom
      (huffStuck_stops hserves hroom) (huffStuck_reaches hserves hroom)
  · exact sized_corruptOn rfl exec_huff8Dec (huffCommand_traced true s rfl rfl) hu ha hroom
      (huffStuck_stops hserves hroom) (huffStuck_reaches hserves hroom)
  · refine corruptOn_of_reaches rfl exec_contDec (contCommand_traced s) ha (fun stop input out h => ?_)
      fun stop input out h => ?_
    · obtain ⟨hm, hstops⟩ := containerStuck_stops (stop := stop) hserves hroom h
      exact contCommand_stops hl hm hn hroom hstops
    · obtain ⟨hm, hreaches⟩ := containerStuck_reaches (stop := stop) hserves hroom h
      exact contCommand_reaches hl hm hn hroom hreaches

end Sys2Proof.Machine
end

section
/-! PROOFS. What either reset leaves (70_reset_and_hazards.md R350 to R352; 93_implementation_defined.md I6), and the host's
accesses while a command runs (R360). -/
namespace Sys2Proof.Machine

open Sys2Proof.Reference

variable {s u : State} {v : Word}

/-! ## What the registers read after a reset -/

theorem eq_regOffset_of_regAt {o : BitVec 8} {r : Reg} (h : regAt o = some r) : o = regOffset r := by
  unfold regAt at h
  split at h <;> cases h <;> exact BitVec.eq_of_toNat_eq ‹_›

theorem resetCtrl_toWord : State.reset.ctrl.toWord = 0 := by decide

theorem resetStatus_toWord : State.reset.status.toWord = 0 := by decide

/-- The registers after a reset: ID is a constant, every other one 0 (10_state.md R20 to R29). -/
theorem State.resetRegisters_readOffset (s : State) (o : BitVec 8) :
    s.resetRegisters.readOffset o = if o = 0 then 0x43450007#32 else 0 := by
  unfold State.readOffset
  split
  · next r h =>
    rw [eq_regOffset_of_regAt h]
    cases r with
    | ctrl => exact resetCtrl_toWord
    | status => exact resetStatus_toWord
    | _ => rfl
  · next h =>
    rw [if_neg (by rintro rfl; cases h)]

theorem State.resetRegisters_hostRead (s : State) {o : BitVec 8} (h : o.toNat % 4 = 0) :
    ∃ t, hostRead s.resetRegisters o = .next t ∧ t.readData = if o = 0 then 0x43450007#32 else 0 :=
  ⟨_, hostRead_aligned _ h, by rw [State.hostReadReg_readData, State.resetRegisters_readOffset]⟩

/-- The power-on state is one whose registers have been reset. -/
theorem State.reset_resetRegisters : State.reset.resetRegisters = State.reset := rfl

/-! ## The two resets -/

theorem step_resetInput (s : State) : step { s with agenda := .resetInput :: s.agenda } = .next s.resetCore :=
  step_cons_agenda s .resetInput

theorem hostWrite_softReset (s : State) (h : v.getLsbD 1 = true) : hostWrite s 0x04 v = .next s.resetCore :=
  (hostWrite_regOffset s .ctrl v).trans (by rw [State.writeReg, s.writeCtrl_reset h])

theorem State.resetCore_mem_idle (h : s.status.busy = false) : s.resetCore.mem = s.mem := by
  simp [State.resetCore, State.abandon, h]

theorem State.resetCore_mem_busy (h : s.status.busy = true) (hu : engineStep s = .next u) :
    s.resetCore.mem = Memory.mix (Config.freeChoice s.draws) u.mem s.dstLen.toNat s.dstAddr.toNat s.mem := by
  simp [State.resetCore, State.abandon, State.abandonedMemory, h, hu]

/-- An abandoned command leaves each byte as it was, or, inside the output buffer, as its engine step would have left it
(93_implementation_defined.md I6). -/
theorem State.resetCore_read (h : s.status.busy = true) (hu : engineStep s = .next u) (b : Nat) :
    s.resetCore.mem.read b = s.mem.read b
      ∨ (s.dstAddr.toNat ≤ b ∧ b < s.dstAddr.toNat + s.dstLen.toNat ∧ s.resetCore.mem.read b = u.mem.read b) := by
  rw [State.resetCore_mem_busy h hu, Memory.read_mix]
  split
  · next hb => exact .inr ⟨hb.1.1, hb.1.2, rfl⟩
  · exact .inl rfl

/-- Settles O12: memory is empty, no command runs and ERROR is 0. -/
theorem resetHasInvariant : Obligations.ResetHasInvariant :=
  State.Inv.of_idle rfl ⟨rfl, nofun⟩ nofun

/-- Settles O25: both resets, and power-on, are `State.resetRegisters` of some state. -/
theorem resetValues : Obligations.ResetValues := by
  refine ⟨fun o ho => State.reset.resetRegisters_hostRead ho, rfl, step_of_agenda_nil rfl, fun s t v ht => ?_⟩
  obtain rfl : s.resetCore = t := by
    rcases ht with h | ⟨hv, h⟩
    · cases (step_resetInput s).symm.trans h
      rfl
    · cases (hostWrite_softReset s hv).symm.trans h
      rfl
  exact ⟨s.resetCore_irq, rfl, State.resetCore_mem_idle, fun o ho => s.abandon.resetRegisters_hostRead ho⟩

/-- Settles O26: memory by `State.resetCore_read`, and the CMD write finds CORE idle. -/
theorem softResetAbandons : Obligations.SoftResetAbandons := by
  intro s v o hb ho
  have hreset : o = .next s.resetCore := by
    rcases ho with ⟨hv, rfl⟩ | rfl
    · exact hostWrite_softReset s hv
    · exact step_resetInput s
  obtain ⟨u, hu, -⟩ := engineStep_ended s
  exact ⟨_, u, hreset, hu, rfl, rfl, rfl, rfl, rfl, State.resetCore_read hb hu,
    fun c => ⟨_, hostWrite_cmd_idle c rfl, rfl, rfl⟩⟩

/-! ## While a command runs -/

/-- A write of a register that a running command protects is lost, and WBUSY says so. -/
theorem hostWrite_busy {r : Reg} {written : State} (hb : s.status.busy = true)
    (hr : s.writeReg r v = s.guarded written) :
    hostWrite s (regOffset r) v = .next { s with status := s.status.lostWrite } := by
  rw [hostWrite_regOffset, hr, State.guarded_busy _ hb]

/-- No body reads STATUS, and every end keeps WBUSY. -/
theorem afterCommand_lostWrite (s : State) (body : Env → Eng (Nat × Nat)) :
    ({ s with status := s.status.lostWrite } : State).afterCommand body
      = { s.afterCommand body with status := (s.afterCommand body).status.lostWrite } := by
  rcases afterCommand_cases s body with ⟨r0, r1, w, hb, he⟩ | ⟨r, w, hb, hr, he⟩ | ⟨r, w, hb, hr, he⟩ <;> rw [he]
  · exact afterCommand_of_ok (s := { s with status := s.status.lostWrite }) hb
  · exact afterCommand_of_error (s := { s with status := s.status.lostWrite }) hb hr
  · exact afterCommand_of_busFault (s := { s with status := s.status.lostWrite }) hb hr

/-- A lost write does not affect the running command (70_reset_and_hazards.md R360). -/
theorem exec_lostWrite {i : Instr} {t : State} (h : exec i s = .next t) :
    exec i { s with status := s.status.lostWrite } = .next { t with status := t.status.lostWrite } := by
  obtain ⟨body, hexec, -⟩ := exec_eq_afterCommand i
  cases (hexec s).symm.trans h
  rw [hexec, afterCommand_lostWrite]

/-- Settles O22: the lost writes by `hostWrite_busy`, the command by `exec_lostWrite`, the results from the invariant. -/
theorem busyWritesAreLost : Obligations.BusyWritesAreLost := by
  intro s v hb
  refine ⟨fun o ho => ?_, fun i t => exec_lostWrite, fun hv => (controlWrite s v hv).1,
    ⟨_, hostWrite_regOffset s .status v, hb, fun hv => ?_⟩,
    fun o ho => ⟨_, hostRead_aligned s ho, s.hostReadReg_same o⟩, fun hi o ho => ?_⟩
  · simp only [List.mem_cons, List.not_mem_nil, or_false] at ho
    rcases ho with rfl | rfl | rfl | rfl | rfl | rfl | rfl
    · exact hostWrite_busy (r := .cmd) hb rfl
    · exact hostWrite_busy (r := .srcAddr) hb rfl
    · exact hostWrite_busy (r := .srcLen) hb rfl
    · exact hostWrite_busy (r := .dstAddr) hb rfl
    · exact hostWrite_busy (r := .dstLen) hb rfl
    · exact hostWrite_busy (r := .param0) hb rfl
    · exact hostWrite_busy (r := .param1) hb rfl
  · simp [State.writeReg, hv]
  · obtain ⟨-, -, -, hr0, hr1, hinfo⟩ := hi.clean hb
    have reads_zero : ∀ r : Reg, s.readReg r = 0 → ∃ t, hostRead s (regOffset r) = .next t ∧ t.readData = 0 := by
      intro r hr
      obtain ⟨t, ht, hd, -⟩ := hostRead_register s r
      exact ⟨t, ht, hd.trans hr⟩
    simp only [List.mem_cons, List.not_mem_nil, or_false] at ho
    rcases ho with rfl | rfl | rfl
    · exact reads_zero .result0 hr0
    · exact reads_zero .result1 hr1
    · exact reads_zero .errInfo hinfo

end Sys2Proof.Machine
end
